-- ==== Sys2Proof/Word.lean ====
section
/-! DEFINITION. The plain data the manual treats as bits (bytes, hardware addresses, card references), and the counts that stop at their top or wrap. -/

namespace Sys2Proof

/-- One byte of a payload or of a frame. -/
abbrev Byte := BitVec 8

/-- A till's hardware address or a guest device address (48 bits, R49, R153). -/
abbrev Addr := BitVec 48

/-- A card reference of 16 bytes, the first byte in the highest place (R62, R196). -/
abbrev CardRef := BitVec 128

/-- A tick counter of a timeout class: 0..4,294,967,295, wrapping to 0 (R128). -/
abbrev Tick := BitVec 32

/-- A count that stops at `top` rather than wrapping (R20, R31, R81, R157, R181). -/
def satAdd (top n k : Nat) : Nat := if n + k ≤ top then n + k else top

/-- The next number of a series `first..top` that goes on at `first` after `top` (R14, R30, R107, R133, R184). -/
def nextIn (first top n : Nat) : Nat := if n < top then n + 1 else first

end Sys2Proof
end

