-- ==== Sys2Proof/Syntax.lean ====
section
/-! DEFINITION. The commands of the block: one constructor of `Instr` for each row of spec/opcode_table.json, with the fields its frame or event carries. -/

namespace Sys2Proof

/-- The two uplink paths (R107). -/
inductive Path | primary | backup
  deriving DecidableEq, Repr

/-- The four timeout classes (R128). -/
inductive TimeoutClass | t1 | t2 | t3 | t4
  deriving DecidableEq, Repr

/-- The four site lines (R172). -/
inductive SiteLine | door | mains | alarmSet | spare
  deriving DecidableEq, Repr

/-- The ports on which a frame can fail its check (R197). -/
inductive Port | host | till | radio | guest | uplink (p : Path)
  deriving DecidableEq, Repr

/-- The head of a host request: its tag, and whether its payload fits its kind (R182). -/
structure HostHead where
  tag : Nat
  fits : Bool
  deriving DecidableEq, Repr

/-- The head of a till frame: till number, the till's hardware address, and whether its payload fits its kind (11.4, R196). -/
structure TillHead where
  till : Nat
  addr : Addr
  fits : Bool
  deriving DecidableEq, Repr

/-- The scope of a destination window (R121). -/
inductive Scope | internal | external | blocked
  deriving DecidableEq, Repr

/-- A destination window (R121). -/
structure Window where
  valid : Bool
  base : Nat
  limit : Nat
  scope : Scope
  office : Bool
  guest : Bool
  deriving DecidableEq, Repr

/-- The value of a SETTING SET or SETTINGS message (11.3): a number or a name's code, a destination window, or bytes
that no setting's layout gives (R196). -/
inductive SettingValue | num (v : Int) | window (w : Window) | malformed
  deriving DecidableEq, Repr

/-- One change of a price file piece (R145). -/
structure PieceChange where
  item : Nat
  price : Nat
  urgent : Bool
  add : Bool
  deriving DecidableEq, Repr

/-- The credit grants of a HELLO ACCEPT, one for each class and one for the shared pool (R115). -/
structure Grants where
  auth : Nat
  price : Nat
  journal : Nat
  office : Nat
  guest : Nat
  shared : Nat
  deriving DecidableEq, Repr

/-- A frame that is no other row's: one that fails its check at a port (R197), or a till frame that passes its check and carries a
kind code that names no till request, which R50 takes and R196 answers RANGE (log entry 49). -/
inductive BadFrame | check (port : Port) | tillKind (h : TillHead) (kind : Nat)
  deriving DecidableEq, Repr

/-- The commands: every row of spec/opcode_table.json. -/
inductive Instr
  -- host requests (kinds 1..35 of 11.3)
  | itemAdd (h : HostHead) (item price : Nat) (openPrice : Bool)
  | itemRemove (h : HostHead) (item : Nat)
  | itemGet (h : HostHead) (item : Nat)
  | priceSet (h : HostHead) (item price : Nat) (urgent : Bool)
  | changeStatus (h : HostHead)
  | labelBind (h : HostHead) (label item : Nat)
  | labelUnbind (h : HostHead) (label : Nat)
  | labelRetry (h : HostHead) (label : Nat)
  | labelGet (h : HostHead) (label : Nat)
  | burstNow (h : HostHead)
  | healthClear (h : HostHead) (target : Option Nat)
  | radioStatus (h : HostHead)
  | tillStatus (h : HostHead)
  | authRelease (h : HostHead) (till : Nat)
  | authStatus (h : HostHead)
  | journalRead (h : HostHead) (fromSeq count : Nat)
  | journalInfo (h : HostHead)
  | uplinkStatus (h : HostHead)
  | nightRerun (h : HostHead)
  | transferStatus (h : HostHead)
  | guestEnd (h : HostHead) (target : Option Addr)
  | guestList (h : HostHead) (start : Nat)
  | timeSet (h : HostHead) (value : Nat)
  | openPrepare (h : HostHead)
  | openStore (h : HostHead)
  | closeStore (h : HostHead)
  | storeStatus (h : HostHead)
  | settingSet (h : HostHead) (id : Nat) (value : SettingValue)
  | settingGet (h : HostHead) (id : Nat)
  | lock (h : HostHead)
  | identify (h : HostHead)
  | branchSet (h : HostHead) (number : Nat)
  | status (h : HostHead)
  | reset (h : HostHead)
  | forward (h : HostHead) (dest : Nat) (replyWanted : Bool) (payload : List Byte)
  -- host link events
  | noticeAck (tag number : Nat)
  | hostByteTimeout
  | badFrame (f : BadFrame)
  | hostTxEnd
  | noticeResendExpiry
  | silenceExpiry
  -- till frames and till events
  | hello (t : TillHead)
  | poll (t : TillHead)
  | bye (t : TillHead)
  | saleOpen (t : TillHead)
  | lineAdd (t : TillHead) (item : Nat) (qty : Int) (keyed : Option Nat)
  | lineVoid (t : TillHead) (line : Nat)
  | saleCancel (t : TillHead)
  | tenderCash (t : TillHead) (given : Nat)
  | tenderCard (t : TillHead) (card : CardRef)
  | tillSilenceExpiry (till : Nat)
  | closingGraceEnd
  -- radio events
  | labelAcknowledgement (label number price battery : Nat) (margin : Int)
  | ackWindowClose
  | beacon
  | floorWriteDone (label : Nat)
  | priceFrameEnd
  | settleEnd
  -- write completions
  | labelBindWriteDone (label : Nat)
  | labelUnbindWriteDone (label : Nat)
  | labelRetryWriteDone (label : Nat)
  | ackWriteDone (label : Nat)
  | unreachableWriteDone (label : Nat)
  | itemAddWriteDone (item : Nat)
  | itemRemoveWriteDone (item : Nat)
  | pendingWriteDone (item : Nat)
  | queueWriteDone
  | effectWriteDone (item : Nat)
  | journalAppendDone
  | journalRemovalDone
  -- authorization events
  | authWaitExpiry (till : Nat)
  | authReplyExpiry (till : Nat)
  | authRetryDelayEnd (till : Nat)
  -- uplink paths
  | carrierPresent (p : Path)
  | carrierAbsent (p : Path)
  | helloAccept (p : Path) (g : Grants)
  | helloRefused (p : Path) (reason : Nat)
  | helloExpiry (p : Path)
  | probeDue (p : Path)
  | probeReply (p : Path) (number : Nat)
  | probeExpiry (p : Path) (number : Nat)
  | credit (p : Path) (target count : Nat)
  | uplinkTxEnd (p : Path)
  | timeoutTick (c : TimeoutClass)
  -- head-office replies
  | authApproved (p : Path) (trace : Nat) (code : List Byte)
  | authDeclined (p : Path) (trace reason : Nat)
  | authBusy (p : Path) (trace : Nat)
  | batchAckAccepted (p : Path) (batch first last : Nat)
  | batchAckBusy (p : Path) (batch : Nat)
  | batchExpiry
  | batchRetryDelayEnd
  | tricklePauseEnd
  | piece (p : Path) (number : Nat) (last : Bool) (changes : List PieceChange)
  | noFile (p : Path) (number : Nat)
  | fileBusy (p : Path) (number : Nat)
  | fileRequestExpiry
  | fileRetryDelayEnd
  | officeReply (p : Path) (forward : Nat) (payload : List Byte)
  | officeReplyExpiry (forward : Nat)
  | guestReply (p : Path) (addr : Addr) (payload : List Byte)
  -- unsolicited head-office messages
  | priceChange (p : Path) (item price : Nat) (urgent : Bool)
  | settings (p : Path) (id : Nat) (value : SettingValue)
  | headOfficeTimeSet (p : Path) (value : Nat)
  | nightControl (p : Path) (command : Nat)
  -- host link write completions
  | settingWriteDone (id : Nat)
  | branchSetWriteDone
  -- guest port
  | join (addr : Addr)
  | leave (addr : Addr)
  | guestData (addr : Addr) (dest : Nat) (payload : List Byte)
  | guestTimeExpiry (entry : Nat)
  -- the trading day
  | openLeadEvent
  | openEvent
  | closeEvent
  | quietDelayExpiry
  | siteLineChange (line : SiteLine) (present : Bool)
  -- HOLD, resets and power
  | holdAssert
  | holdExit
  | resetLineAssert
  | resetLineRelease
  | powerOn
  | hostReset
  | powerLoss
  -- frames of a kind the part does not know
  | unknownRequest (tag kind : Nat)
  | unroutedUplinkFrame (p : Path) (kind : Nat)
  deriving DecidableEq, Repr

end Sys2Proof
end

