-- ==== Sys2Proof/Decode.lean ====
section
/-! DEFINITION. Reading a command from a word by the opcode table's bits: the table gives no row any. -/

namespace Sys2Proof

/-- The command a word spells by spec/opcode_table.json: none, because no row of the table gives bits (log entry 35). -/
def decodeTableWord (_nbits _w : Nat) : Option Instr := none

end Sys2Proof
end

