-- ==== Sys2Proof/Config.lean ====
section
/-! DEFINITION. The capacities and fixed figures of the part, and the values the manual leaves to the part that was made. -/

namespace Sys2Proof.Config

/-- Item entries in the price book (R1). -/
def bookCapacity : Nat := 8192
/-- Entries of the change queue (R10). -/
def queueCapacity : Nat := 8192
/-- Change slots (section 1.5). -/
def slotCount : Nat := 32
/-- LABELLING slots that non-urgent changes may fill (R11). -/
def nonUrgentSlots : Nat := 28
/-- The highest price (R1). -/
def maxPrice : Nat := 9999999
/-- The highest item code (R1). -/
def maxCode : Nat := 4294967295
/-- The highest label id (R24). -/
def maxLabel : Nat := 4095
/-- The highest absolute sale total (R56). -/
def maxTotal : Int := 99999999
/-- Lines of one basket (R49). -/
def maxLines : Nat := 64
/-- Till places (R49). -/
def tillCount : Nat := 16
/-- Journal record places (R88). -/
def journalPlaces : Nat := 32768
/-- Journal places no claim may take (R91). -/
def journalReserve : Nat := 16
/-- The top of every 32-bit series (R81, R90, R128). -/
def max32 : Nat := 4294967295
/-- The top of every 16-bit count (R20, R31, R181). -/
def max16 : Nat := 65535
/-- Requests the host link holds (R182). -/
def requestCapacity : Nat := 8
/-- Notices the notice queue holds (R184). -/
def noticeCapacity : Nat := 32
/-- Milliseconds that may pass between two bytes of a host frame (R181). -/
def byteGap : Nat := 20
/-- Guest sessions (R153). -/
def sessionCount : Nat := 64
/-- Addresses of the spent list (R160). -/
def spentCapacity : Nat := 256
/-- Records of the office wait list (R124). -/
def officeWaits : Nat := 32
/-- Changes that one piece of the price file carries at most (R144, R145). -/
def pieceChanges : Nat := 32

/-- Vendor code of the identity record. DESIGN CHOICE (log entry 3): the spec gives no value. Unsafe. -/
def vendorCode : Nat := 0
/-- Part code of the identity record. DESIGN CHOICE (log entry 3). Unsafe. -/
def partCode : Nat := 0
/-- Revision code of the identity record. DESIGN CHOICE (log entry 3). Unsafe. -/
def revisionCode : Nat := 0
/-- Serial number of the part, 1..4,294,967,295 (R191). DESIGN CHOICE (log entry 3). Unsafe. -/
def serialNumber : Nat := 1
/-- Bytes a GUEST LIST reply gives to everything but the entries. DESIGN CHOICE (log entry 21): chapter 11 gives no layout. Unsafe. -/
def guestListHead : Nat := 12
/-- Bytes of one session entry in a GUEST LIST reply. DESIGN CHOICE (log entry 21). Unsafe. -/
def guestListEntry : Nat := 31

end Sys2Proof.Config
end

