-- ==== Sys2Proof/Machine/State.lean ====
section
/-! DEFINITION. The state of the part: every register, queue, table, counter, flag and timer the manual gives it, as plain data, and the machine right after reset. -/

namespace Sys2Proof.Machine

/-! ## Settings and identity -/

/-- The numeric and named settings, in the order of their ids (11.3). -/
inductive SettingId
  | ackWindow | attemptLimit | dayPeriod | dayLength | nightPeriod | nightLength
  | refreshOpening | refreshOpen | refreshClosing | refreshNight | settleTime
  | batteryLow | marginLow | marginHigh | healthScope | scopeLabel
  | keyedUnknown | tillSilence | closingGrace
  | fallbackMode | floorLimit | exposureLimit | retryLimit
  | promoteMark | shedMark
  | probePeriod | quietProbePeriod | qualityScope | qualityHigh | qualityCount | sharedFloor
  | backupAuth | backupPrice | backupJournal | backupOffice | backupGuest | routeTable
  | periodT1 | periodT2 | periodT3 | periodT4
  | trickleEnable | trickleSize | nightSize | retryDelay | retryWindow
  | guestEnable | authShed | sessionLimit | quota | rate | depth
  | openTime | closeTime | openingLead | closedWeekdays | quietEnable | quietDelay
  | silenceLimit | noticeResend
  deriving DecidableEq, Repr

/-- The settings held in the NV store: the values in the order of `SettingId`, and the 16 destination windows (R121, R188). -/
structure Settings where
  vals : List Int
  windows : List Window
  deriving DecidableEq, Repr

/-- The identity record (R191). -/
structure Identity where
  vendor : Nat
  part : Nat
  revision : Nat
  serial : Nat
  branch : Option Nat
  deriving DecidableEq, Repr

/-! ## The price book -/

/-- Where a change came from (R1). -/
inductive Origin | nightFile | hostRequest | headOffice
  deriving DecidableEq, Repr

/-- The pending part of an item entry (R1). -/
structure Pending where
  price : Nat
  origin : Origin
  number : Nat
  urgent : Bool
  deriving DecidableEq, Repr

/-- An item entry (R1). -/
structure Item where
  code : Nat
  price : Nat
  openPrice : Bool
  pending : Option Pending
  bound : Nat
  deriving DecidableEq, Repr

/-- A change queue entry (R10). -/
structure QueueEntry where
  item : Nat
  price : Nat
  origin : Origin
  add : Bool
  urgent : Bool
  deriving DecidableEq, Repr

/-- How far the slot's own writes have gone; every stage is the manual's LABELLING (log entry 8). `issuing`: the pending-part
write of its issue is under way. `labelling`: it is durable. `effecting`: the effect write is under way. -/
inductive SlotStage | issuing | labelling | effecting
  deriving DecidableEq, Repr

/-- A LABELLING change slot (R12). -/
structure Slot where
  number : Nat
  item : Nat
  price : Nat
  origin : Origin
  urgent : Bool
  outstanding : List Nat
  issueTime : Nat
  confirmed : Nat
  unreachable : Nat
  stage : SlotStage
  deriving DecidableEq, Repr

/-- Who is told the outcome of a change (R7). -/
inductive ChangeSource | host (tag : Nat) | headOffice | nightFile | queue
  deriving DecidableEq, Repr

/-- What a write of the change queue does: a join or an update in place (R9), or a removal. -/
inductive QueueAction | upsert (e : QueueEntry) | remove (item : Nat)
  deriving DecidableEq, Repr

/-- Who is answered when a change queue write is durable. -/
inductive QueueAnswer | nobody | queued (src : ChangeSource) | itemRemoved (tag : Nat)
  deriving DecidableEq, Repr

/-- A change queue write, waiting for the one writer or under way (R6, R10). -/
structure QueueOp where
  action : QueueAction
  answer : QueueAnswer
  deriving DecidableEq, Repr

/-- The price book (chapter 1). `counter` is the change number counter of the NV store; `taken` is the last change number
given, which runs ahead of it while the writes that record numbers are under way (R14; log entry 7). -/
structure Pbk where
  items : List Item
  queue : List QueueEntry
  counter : Nat
  taken : Nat
  slots : List (Option Slot)
  drops : Nat
  ops : List QueueOp
  deriving DecidableEq, Repr

/-! ## The label radio -/

/-- The state of a label entry (R24). -/
inductive LabelState | unbound | active | unreachable
  deriving DecidableEq, Repr

/-- A label table entry (R24). -/
structure Label where
  id : Nat
  state : LabelState
  item : Option Nat
  confirmed : Option Nat
  floor : Option Nat
  failed : Nat
  battery : Option Nat
  margin : Option Int
  health : Bool
  lastAck : Option Nat
  deriving DecidableEq, Repr

/-- The kind of a transmission (section 2.2). -/
inductive TxKind | priority | refresh
  deriving DecidableEq, Repr

/-- How far the transmission in flight has gone (R30): waiting to decide its floor write, floor write under way, frame going
out, window open until the given time. -/
inductive TxPhase | floorWait | floorWrite | frame | window (closes : Nat)
  deriving DecidableEq, Repr

/-- The transmission in flight (section 2.2). -/
structure Transmission where
  label : Nat
  number : Nat
  price : Nat
  kind : TxKind
  unboundMark : Bool
  phase : TxPhase
  windowMs : Nat
  deriving DecidableEq, Repr

/-- A running burst (R35). -/
structure Burst where
  length : Nat
  made : Nat
  attempted : List Nat
  deriving DecidableEq, Repr

/-- The radio state (R34). -/
inductive RadioState | asleep | settling | awake
  deriving DecidableEq, Repr

/-- The label radio scheduler (chapter 2). -/
structure Lrs where
  labels : List Label
  cursor : Nat
  cycles : Nat
  txCount : Nat
  inFlight : Option Transmission
  burst : Option Burst
  waitingBurst : Option Nat
  radio : RadioState
  settleEnd : Option Nat
  nextBeacon : Option Nat
  errors : Nat
  deriving DecidableEq, Repr

/-! ## The tills -/

/-- The state of a till place (R49). -/
inductive PlaceState | free | idle | basket | authorizing | orphaned
  deriving DecidableEq, Repr

/-- Who priced a line (R49). -/
inductive LineOrigin | book | keyed
  deriving DecidableEq, Repr

/-- A basket line (R49). -/
structure BasketLine where
  number : Nat
  item : Nat
  qty : Int
  price : Nat
  origin : LineOrigin
  voided : Bool
  deriving DecidableEq, Repr

/-- Why a card tender was declined: the part's own UNAVAILABLE, or head office's reason code (section 4.3). -/
inductive DeclineReason | unavailable | headOffice (code : Nat)
  deriving DecidableEq, Repr

/-- The outcome of the last tender completed on a place (R49). -/
inductive LastResult | saleClosed (seq : Nat) | declined (r : DeclineReason)
  deriving DecidableEq, Repr

/-- A till place (R49). -/
structure Place where
  state : PlaceState
  addr : Option Addr
  lastFrame : Nat
  busy : Bool
  basket : List BasketLine
  trace : Option Nat
  lastResult : Option LastResult
  deriving DecidableEq, Repr

/-- The till service unit (chapter 3). -/
structure Tsu where
  places : List Place
  grace : Option Nat
  errors : Nat
  deriving DecidableEq, Repr

/-! ## Card authorization -/

/-- The outcome of an authorization entry (R72). -/
inductive AuthOutcome | approvedOnline (code : List Byte) | approvedOffline | declined (r : DeclineReason)
  deriving DecidableEq, Repr

/-- The state of an authorization entry (R72). -/
inductive EntryState | queued | sent | retryWait | decided
  deriving DecidableEq, Repr

/-- An authorization entry (R72), with its wait or reply expiry (R75) and the end of its retry delay (R77). -/
structure AuthEntry where
  till : Nat
  trace : Nat
  amount : Nat
  card : CardRef
  session : Option Nat
  attempts : Nat
  state : EntryState
  outcome : Option AuthOutcome
  expiry : Option Tick
  retryEnd : Option Nat
  deriving DecidableEq, Repr

/-- The authorization unit (chapter 4). -/
structure Auz where
  entries : List AuthEntry
  mark : Bool
  online : Nat
  hoDeclines : Nat
  offline : Nat
  fallbackDeclines : Nat
  late : Nat
  deriving DecidableEq, Repr

/-! ## The sales journal -/

/-- The tender of a SALE record (R89). -/
inductive Tender | cash | cardOnline | cardOffline
  deriving DecidableEq, Repr

/-- The reason of a VOIDED_BASKET record (R89). -/
inductive VoidReason | cancelled | tillLost | close | declinedLost
  deriving DecidableEq, Repr

/-- The kind of a record and its further fields (R89). -/
inductive RecordBody
  | sale (total : Int) (tender : Tender) (trace : Option Nat) (code : Option (List Byte)) (tillLost : Bool) (lines : List BasketLine)
  | voidedBasket (reason : VoidReason) (total : Int) (lines : List BasketLine)
  | authTrace (amount : Nat) (card : CardRef)
  deriving DecidableEq, Repr

/-- A journal record (R88); `sent` is the batch number of a SENT record. -/
structure Record where
  seq : Nat
  till : Nat
  time : Nat
  body : RecordBody
  sent : Option Nat
  deriving DecidableEq, Repr

/-- An append (R94), with the amount given of a cash tender, which its reply needs (R61). -/
structure Append where
  till : Nat
  body : RecordBody
  given : Int
  deriving DecidableEq, Repr

/-- The append being written, with the sequence and time the writer gave it (R95). -/
structure Writing where
  append : Append
  seq : Nat
  time : Nat
  deriving DecidableEq, Repr

/-- The reported level (R101). -/
inductive Level | below50 | l50 | l75 | l90 | l100
  deriving DecidableEq, Repr

/-- A removal asked for by TXE (R105): the range, the batch it acknowledges when that is the batch in flight (R136), and
whether the number removed counts as uploaded (R143). -/
structure Removal where
  first : Nat
  last : Nat
  batch : Option Nat
  counts : Bool
  deriving DecidableEq, Repr

/-- A removal write under way: the sequences it names. -/
structure RemovalWrite where
  req : Removal
  named : List Nat
  deriving DecidableEq, Repr

/-- The sales journal (chapter 5). -/
structure Sjr where
  records : List Record
  counter : Nat
  queue : List Append
  writing : Option Writing
  claims : List Nat
  exposure : Int
  unsent : Nat
  level : Level
  removing : Option RemovalWrite
  removals : List Removal
  deriving DecidableEq, Repr

/-! ## The uplink -/

/-- The five traffic classes. -/
inductive Class | auth | price | journal | office | guest
  deriving DecidableEq, Repr

/-- The outcome of a refused change, as CHANGE REFUSED carries it, and every other result name (Conventions, R50, R182). -/
inductive Result
  | ok | queued | busy | state | closed | locked | range | unknownItem | exists_ | bookFull | pending | bound | full
  | journalFull | notAllowed | radioAsleep | blocked | alreadySet | notRecorded
  | authorizing | saleClosed | declined | notLoggedOn | tillInUse | priceNeeded | lineLimit | totalRange | noLine | short
  | inAuth | basketOpen
  | unknownRequest | tagInUse
  deriving DecidableEq, Repr

/-- A frame the part sends on an uplink path (11.6). -/
inductive UpFrame
  | hello (serial branch : Nat)
  | probe (number : Nat)
  | authRequest (trace amount : Nat) (card : CardRef) (branch : Nat)
  | journalRecord (batch place count : Nat) (record : Record)
  | fileRequest (piece branch : Nat)
  | changeConfirm (item price number confirmed unreachable : Nat)
  | changeRefused (item price : Nat) (result : Result)
  | office (forward dest : Nat) (replyWanted : Bool) (payload : List Byte)
  | guest (addr : Addr) (dest : Nat) (payload : List Byte)
  deriving DecidableEq, Repr

/-- The state of a path (R107). -/
inductive PathState | down | helloWait | up
  deriving DecidableEq, Repr

/-- An outstanding probe: number, sending time, expiry (R110). -/
structure Probe where
  number : Nat
  sentAt : Nat
  expiry : Tick
  deriving DecidableEq, Repr

/-- One line of credit counts (R115). -/
structure CreditCount where
  grant : Nat
  held : Nat
  inUse : Nat
  deriving DecidableEq, Repr

/-- The credits of a path session (R115). -/
structure Credits where
  auth : CreditCount
  price : CreditCount
  journal : CreditCount
  office : CreditCount
  guest : CreditCount
  shared : CreditCount
  deriving DecidableEq, Repr

/-- A path record (R107), with its HELLO expiry (R108), its probe schedule (R110), its session's credits (R115), and its
transmitter with the control frames waiting for it (R118). -/
structure PathRec where
  state : PathState
  carrier : Bool
  session : Option Nat
  degraded : Bool
  outCount : Nat
  missed : Nat
  probes : List Probe
  roundTrip : Option Nat
  refusal : Option Nat
  helloExpiry : Option Tick
  nextProbe : Option Nat
  probeNumber : Nat
  credits : Option Credits
  tx : Option UpFrame
  control : List UpFrame
  deriving DecidableEq, Repr

/-- A record of the office wait list (R124). -/
structure OfficeWait where
  forward : Nat
  session : Nat
  expiry : Tick
  deriving DecidableEq, Repr

/-- A timeout class's tick counter and the time of its last tick (R128). -/
structure TickRec where
  counter : Tick
  lastTick : Nat
  deriving DecidableEq, Repr

/-- The uplink controller (chapter 6). `carrierPrimary` and `carrierBackup` are the modems' carrier as it is now (R107). -/
structure Ulc where
  primary : PathRec
  backup : PathRec
  carrierPrimary : Bool
  carrierBackup : Bool
  sessions : Nat
  active : Option Path
  authQ : List UpFrame
  priceQ : List UpFrame
  journalQ : List UpFrame
  officeQ : List UpFrame
  guestQ : List UpFrame
  waits : List OfficeWait
  lastForward : Nat
  t1 : TickRec
  t2 : TickRec
  t3 : TickRec
  t4 : TickRec
  isolation : Nat
  linkErrors : Nat
  routeErrors : Nat
  deriving DecidableEq, Repr

/-! ## Transfer -/

/-- Which work formed a batch (R133). -/
inductive BatchOwner | trickle | night
  deriving DecidableEq, Repr

/-- The state of the batch in flight (R133). -/
inductive BatchState | sending | waitingAck | retryWait
  deriving DecidableEq, Repr

/-- An expiry bound to a path session (R109, R128). -/
structure SessionExpiry where
  tick : Tick
  session : Nat
  deriving DecidableEq, Repr

/-- The batch in flight (R133): `toOffer` are the members still to be offered in the present sending (R135), `lastSession`
the session in which its last frame went out, `retryEnd` the end of a running retry delay (R137). `accepted`: an ACCEPTED has
been taken and the journal has still to tell the number it removed (R136). -/
structure Batch where
  number : Nat
  members : List Nat
  owner : BatchOwner
  state : BatchState
  framesSent : Nat
  firstSent : Option Nat
  toOffer : List Nat
  lastSession : Nat
  expiry : Option SessionExpiry
  retryEnd : Option Nat
  accepted : Bool
  deriving DecidableEq, Repr

/-- The state of the file request (R144). -/
inductive FileState | waitingRoom | queued | sent | feeding | retryWait
  deriving DecidableEq, Repr

/-- The file request (R144): the changes of a taken piece still to be handed to PBK, its last flag, and whether one change
waits for PBK's answer (R145). -/
structure FileRequest where
  state : FileState
  firstSent : Option Nat
  expiry : Option SessionExpiry
  retryEnd : Option Nat
  feed : List PieceChange
  last : Bool
  awaiting : Bool
  deriving DecidableEq, Repr

/-- The state of the night run (R141). -/
inductive RunState | notStarted | upload | download | ended
  deriving DecidableEq, Repr

/-- Why a night run started (R141). -/
inductive StartCause | nightEntry | hostRerun | headOffice
  deriving DecidableEq, Repr

/-- The result of a phase of the night run (R141). -/
inductive PhaseResult | ok | failed | aborted | skipped
  deriving DecidableEq, Repr

/-- The night run record (R141). -/
structure NightRun where
  state : RunState
  cause : Option StartCause
  startTime : Option Nat
  endTime : Option Nat
  upload : Option PhaseResult
  download : Option PhaseResult
  uploaded : Nat
  received : Nat
  rejected : Nat
  deriving DecidableEq, Repr

/-- Batch aborts, late acknowledgements and late pieces (R138, R139, R145). -/
structure TransferCounts where
  aborts : Nat
  lateAcks : Nat
  latePieces : Nat
  deriving DecidableEq, Repr

/-- The transfer engine (chapter 7). `runBase` holds the counts as they stood when the run started, for NIGHT REPORT (R147);
`abortDue`: the store has entered OPENING, and the run's abort waits for a reply that was taken before it (R148). -/
structure Txe where
  batch : Option Batch
  nextBatch : Nat
  file : Option FileRequest
  pieceNumber : Nat
  pauseEnd : Option Nat
  run : NightRun
  counts : TransferCounts
  runBase : TransferCounts
  abortDue : Bool
  deriving DecidableEq, Repr

/-! ## Guest access -/

/-- The guest service state (R151). -/
inductive Service | closed | opened | shed
  deriving DecidableEq, Repr

/-- A condition of the guest service that fails (R152). -/
inductive GuestCondition | disabled | mains | path | journal | auth
  deriving DecidableEq, Repr

/-- Why a guest session ended (R159). -/
inductive EndReason | time | quota | leave | hostRequest | close | reset
  deriving DecidableEq, Repr

/-- An ADMITTED session entry (R153). Time remaining is held as the time it ends; the rate tokens are held in eighths of a
byte, brought up to date at `tokenTime` (log entry 20). -/
structure Session where
  addr : Addr
  admitted : Nat
  endsAt : Nat
  quota : Int
  tokenBits : Nat
  tokenTime : Nat
  bytesOut : Nat
  bytesIn : Nat
  deriving DecidableEq, Repr

/-- The guest access controller (chapter 8). -/
structure Gac where
  service : Service
  sessions : List (Option Session)
  spent : List Addr
  drops : Nat
  deriving DecidableEq, Repr

/-! ## The trading day -/

/-- The store state (section 9.3). -/
inductive StoreState | night | opening | opened | closing | quiet
  deriving DecidableEq, Repr

/-- The power state (R173, R176). -/
inductive PowerState | run | quiet | hold
  deriving DecidableEq, Repr

/-- The reset cause that START carries (R177). -/
inductive ResetCause | powerOn | resetLine | resetLineQuiet | hostReset | holdExit
  deriving DecidableEq, Repr

/-- The wake cause (R175). -/
inductive WakeCause | hostRequest | tillHello | headOffice | pathChange | openLead | siteLine
  deriving DecidableEq, Repr

/-- The cause of a STATE notice (R171). -/
inductive StateCause | schedule | host | tillsDone | clockSet | quietEntry | wake (c : WakeCause)
  deriving DecidableEq, Repr

/-- The values of the four site lines, true for present (R172). -/
structure LineValues where
  door : Bool
  mains : Bool
  alarmSet : Bool
  spare : Bool
  deriving DecidableEq, Repr

/-- A schedule event (R168). -/
inductive ScheduleEvent | openLead | openTime | close
  deriving DecidableEq, Repr

/-- The day controller (chapter 9). `clockMs` is the milliseconds since the clock's last second; `stopped` is the kind of reset
that will follow while HOLD or the reset line stops the part (R176, R177); `dueEvents`, the model's own field, is the schedule events
whose minutes the clock has begun and which are not yet taken (R168, log entry 1). -/
structure Day where
  clock : Option Nat
  clockMs : Nat
  store : StoreState
  power : PowerState
  lines : LineValues
  reported : LineValues
  cause : ResetCause
  lastWake : Option WakeCause
  quietAt : Option Nat
  dueEvents : List ScheduleEvent
  powered : Bool
  holdLine : Bool
  resetLine : Bool
  stopped : Option ResetCause
  deriving DecidableEq, Repr

/-! ## The host link -/

/-- The requests of the part, in the order of the requests table (R183): kinds 1..35; `other` is a kind that names none. -/
inductive RequestKind
  | itemAdd | itemRemove | itemGet | priceSet | changeStatus
  | labelBind | labelUnbind | labelRetry | labelGet | burstNow | healthClear | radioStatus
  | tillStatus | authRelease | authStatus | journalRead | journalInfo | uplinkStatus
  | nightRerun | transferStatus | guestEnd | guestList
  | timeSet | openPrepare | openStore | closeStore | storeStatus
  | settingSet | settingGet | lock | identify | branchSet | status | reset | forward
  | other (kind : Nat)
  deriving DecidableEq, Repr

/-- What the outcome field of a TILL LOST notice carries (R67). -/
inductive LostOutcome
  | none
  | recorded (seq : Option Nat)
  | awaiting (trace : Nat)
  | approved (seq trace : Nat)
  | declined (seq : Option Nat) (trace : Nat)
  deriving DecidableEq, Repr

/-- Why the active path changed (R113). -/
inductive PathCause | carrierLost | probesMissed | degraded | recovered | pathUp
  deriving DecidableEq, Repr

/-- Who set the clock (R166), or a setting that SETTING CHANGED reports (R190). -/
inductive ClockSource | host | headOffice
  deriving DecidableEq, Repr

/-- Why an office record ended without a reply (R124). -/
inductive TimeoutCause | expired | sessionEnd
  deriving DecidableEq, Repr

/-- The report JOURNAL LEVEL carries (R101). -/
structure LevelReport where
  level : Level
  held : Nat
  claimed : Nat
  free : Nat
  oldest : Option Nat
  newest : Option Nat
  unsent : Nat
  exposure : Int
  deriving DecidableEq, Repr

/-- A notice and what it carries (11.3). -/
inductive NoticeBody
  | start (cause : ResetCause) (clock : Option Nat) (store : StoreState) (runStarted : Bool) (records slots : Nat) (lines : LineValues)
  | state (old new : StoreState) (clock : Nat) (cause : StateCause)
  | site (line : SiteLine) (value : Bool) (clock : Nat) (lines : LineValues)
  | clockSet (old : Option Nat) (new : Nat) (source : ClockSource)
  | changeDone (number item price confirmed unreachable : Nat)
  | labelLost (label item failed : Nat) (confirmed floor : Option Nat)
  | labelHealth (label : Nat) (item : Option Nat) (battery : Nat) (margin : Int) (lowBattery badMargin : Bool)
  | tillLost (till : Nat) (addr : Option Addr) (lostIn : PlaceState) (lines : Nat) (total : Int) (outcome : LostOutcome)
  | lateOutcome (trace : Nat) (reply : AuthOutcome) (path : Path)
  | authLimit (exposure commitment : Int) (amount limit : Int)
  | journalLevel (r : LevelReport)
  | uplink (old new : Option Path) (cause : PathCause) (session : Option Nat) (primary backup : PathState) (primaryDegraded backupDegraded : Bool)
  | forwardTimeout (forward : Nat) (cause : TimeoutCause)
  | inbound (forward : Nat) (late : Bool) (path : Path) (payload : List Byte) (cut : Bool)
  | nightReport (run : NightRun) (unsent queueLength : Nat) (counts : TransferCounts)
  | guestState (old new : Service) (sessions : Nat) (failing : List GuestCondition) (ended : Nat)
  | hostReturn (seconds dropped : Nat) (noticeLost : Bool)
  | settingChanged (id : Nat) (old new : SettingValue) (source : ClockSource)
  deriving DecidableEq, Repr

/-- A notice in the queue, with its number and the overrun flag it took (R184). -/
structure Notice where
  number : Nat
  overrun : Bool
  body : NoticeBody
  deriving DecidableEq, Repr

/-! ### What the replies carry -/

/-- The ITEM GET reply (R4). -/
structure ItemReport where
  entry : Option Item
  charge : Option Nat
  slot : Option Nat
  queued : Option (Nat × Nat)
  deriving DecidableEq, Repr

/-- One LABELLING slot of a CHANGE STATUS reply (R21). -/
structure SlotReport where
  index : Nat
  number : Nat
  item : Nat
  price : Nat
  origin : Origin
  urgent : Bool
  issueTime : Nat
  outstanding : Nat
  confirmed : Nat
  unreachable : Nat
  deriving DecidableEq, Repr

/-- The CHANGE STATUS reply (R21). -/
structure ChangeReport where
  slots : List SlotReport
  freeSlots : Nat
  nonUrgent : Nat
  queueLength : Nat
  urgentEntries : Nat
  addEntries : Nat
  head : Option QueueEntry
  headWaits : Bool
  counter : Nat
  drops : Nat
  deriving DecidableEq, Repr

/-- The LABEL GET reply (R28). -/
structure LabelReport where
  entry : Label
  target : Option Nat
  outstanding : Option (Nat × Nat)
  inFlight : Option (Nat × TxKind)
  deriving DecidableEq, Repr

/-- The RADIO STATUS reply (R48). -/
structure RadioReport where
  radio : RadioState
  night : Bool
  period : Int
  length : Int
  refreshEnabled : Bool
  burstRunning : Bool
  burstWaiting : Bool
  made : Nat
  attempted : Nat
  inFlight : Option Transmission
  cursor : Nat
  cycles : Nat
  active : Nat
  unreachable : Nat
  flagged : Nat
  errors : Nat
  deriving DecidableEq, Repr

/-- One place of a TILL STATUS reply (R71). -/
structure PlaceReport where
  state : PlaceState
  addr : Option Addr
  sinceFrame : Nat
  busy : Bool
  lines : Nat
  total : Int
  trace : Option Nat
  lastResult : Option LastResult
  deriving DecidableEq, Repr

/-- One entry of an AUTH STATUS reply, its card reference masked (R86). -/
structure AuthReport where
  till : Nat
  trace : Nat
  amount : Nat
  card : CardRef
  session : Option Nat
  attempts : Nat
  state : EntryState
  outcome : Option AuthOutcome
  deriving DecidableEq, Repr

/-- The AUTH STATUS reply (R86). -/
structure AuthStatusReport where
  entries : List AuthReport
  exposure : Int
  commitment : Int
  sum : Int
  mode : Int
  floorLimit : Int
  exposureLimit : Int
  retryLimit : Int
  mark : Bool
  online : Nat
  hoDeclines : Nat
  offline : Nat
  fallbackDeclines : Nat
  late : Nat
  deriving DecidableEq, Repr

/-- The JOURNAL INFO reply (R104). -/
structure JournalReport where
  held : Nat
  claimed : Nat
  free : Nat
  tenths : Nat
  oldest : Option Nat
  newest : Option Nat
  counter : Nat
  unsent : Nat
  exposure : Int
  level : Level
  promoteReached : Bool
  shedReached : Bool
  queued : Nat
  writing : Bool
  deriving DecidableEq, Repr

/-- One path of an UPLINK STATUS reply (R132). -/
structure PathReport where
  state : PathState
  carrier : Bool
  session : Option Nat
  degraded : Bool
  outCount : Nat
  missed : Nat
  probes : Nat
  roundTrip : Option Nat
  refusal : Option Nat
  deriving DecidableEq, Repr

/-- The UPLINK STATUS reply (R132). -/
structure UplinkReport where
  primary : PathReport
  backup : PathReport
  active : Option Path
  sessions : Nat
  credits : Option Credits
  queues : List (Nat × Bool)
  waits : Nat
  ticks : List (Int × Tick)
  isolation : Nat
  linkErrors : Nat
  routeErrors : Nat
  deriving DecidableEq, Repr

/-- The batch of a TRANSFER STATUS reply (R150). -/
structure BatchReport where
  number : Nat
  owner : BatchOwner
  state : BatchState
  members : Nat
  first : Option Nat
  last : Option Nat
  framesSent : Nat
  windowLeft : Option Nat
  delayLeft : Option Nat
  deriving DecidableEq, Repr

/-- The file request of a TRANSFER STATUS reply (R150). -/
structure FileReport where
  state : FileState
  piece : Nat
  windowLeft : Option Nat
  delayLeft : Option Nat
  deriving DecidableEq, Repr

/-- The TRANSFER STATUS reply (R150). -/
structure TransferReport where
  batch : Option BatchReport
  trickleMaySend : Bool
  pauseLeft : Option Nat
  file : Option FileReport
  pieceNumber : Nat
  run : NightRun
  counts : TransferCounts
  deriving DecidableEq, Repr

/-- One session of a GUEST LIST reply (R162): time remaining in whole seconds, rate tokens in whole bytes. -/
structure SessionReport where
  entry : Nat
  addr : Addr
  admitted : Nat
  seconds : Nat
  quota : Int
  tokens : Nat
  bytesOut : Nat
  bytesIn : Nat
  deriving DecidableEq, Repr

/-- The GUEST LIST reply (R162). -/
structure GuestReport where
  service : Service
  failing : List GuestCondition
  admitted : Nat
  spent : Nat
  drops : Nat
  sessions : List SessionReport
  next : Option Nat
  deriving DecidableEq, Repr

/-- The STORE STATUS reply (R180). -/
structure StoreReport where
  clock : Option Nat
  weekday : Option Nat
  minute : Option Nat
  trading : Option Bool
  store : StoreState
  power : PowerState
  cause : ResetCause
  nextEvent : Option (ScheduleEvent × Nat)
  graceLeft : Option Nat
  lines : LineValues
  reported : LineValues
  quietConditions : List Bool
  quietLeft : Option Nat
  lastWake : Option WakeCause
  deriving DecidableEq, Repr

/-- The STATUS reply (R193). -/
structure LinkReport where
  cause : ResetCause
  store : StoreState
  power : PowerState
  standalone : Option Nat
  sinceRequest : Nat
  silenceLimit : Int
  lock : Bool
  overrun : Bool
  requests : Nat
  notices : Nat
  headNumber : Option Nat
  frameErrors : Nat
  officeDrops : Nat
  branchSet : Bool
  deriving DecidableEq, Repr

/-- What a reply carries besides its result. -/
inductive ReplyBody
  | empty
  | changeNumber (n : Nat)
  | item (r : ItemReport)
  | changes (r : ChangeReport)
  | label (r : LabelReport)
  | radio (r : RadioReport)
  | tills (places : List PlaceReport) (graceLeft : Option Nat) (errors : Nat)
  | released (outcome : AuthOutcome)
  | auths (r : AuthStatusReport)
  | records (rs : List Record) (next newest : Option Nat)
  | journal (r : JournalReport)
  | uplink (r : UplinkReport)
  | transfer (r : TransferReport)
  | ended (n : Nat)
  | guests (r : GuestReport)
  | store (r : StoreReport)
  | setting (id : Nat) (value : SettingValue) (lockable locked : Bool)
  | identity (vendor part revision serial branch : Nat)
  | link (r : LinkReport)
  | forwardNumber (n : Nat)
  deriving DecidableEq, Repr

/-- A reply (R183); `queued` tells a reply to a queued request from one given at once (R182). -/
structure Reply where
  tag : Nat
  kind : RequestKind
  result : Result
  body : ReplyBody
  queued : Bool
  deriving DecidableEq, Repr

/-- A frame on the host line from the part: a reply or a notice. -/
inductive HostFrame | reply (r : Reply) | notice (n : Notice)
  deriving DecidableEq, Repr

/-- The wait for the head notice's acknowledgement (R185): not sent yet, waiting until the resend time, to be sent again. -/
inductive AckWait | unsent | waiting (resendAt : Nat) | due
  deriving DecidableEq, Repr

/-- Progress of a RESET request (R194): none; asked for, its reply not sent; its reply going out (no further NV write starts);
its reply sent. -/
inductive ResetPhase | none | asked | sending | sent
  deriving DecidableEq, Repr

/-- A request in the request queue (R182). -/
structure QueuedRequest where
  tag : Nat
  kind : RequestKind
  deriving DecidableEq, Repr

/-- The receiver of the host line (R181): the bytes of the frame being received, marker first, and whether the last byte
stood in a run of bytes outside a frame. -/
structure HostRx where
  bytes : List Byte
  stray : Bool
  deriving DecidableEq, Repr

/-- The host link (chapter 10). `rxAt` is when the last byte of the host line came, on the internal timer (R181). -/
structure Hlk where
  rx : HostRx
  rxAt : Nat
  requests : List QueuedRequest
  replies : List Reply
  tx : Option HostFrame
  notices : List Notice
  lastNumber : Nat
  ackWait : AckWait
  overrun : Bool
  held : Option (List NoticeBody)
  lastRequest : Nat
  silenceAt : Option Nat
  standalone : Option Nat
  standaloneOverrun : Bool
  lock : Bool
  frameErrors : Nat
  officeDrops : Nat
  resetPhase : ResetPhase
  deriving DecidableEq, Repr

/-! ## Frames sent -/

/-- A request, or a frame of the part's own, on the till port (11.4); `other` is a kind code that names no till request. -/
inductive TillKind
  | hello | poll | bye | saleOpen | lineAdd | lineVoid | saleCancel | tenderCash | tenderCard
  | saleClosed | declined | basketVoided | closed | other (code : Nat)
  deriving DecidableEq, Repr

/-- What a frame to a till carries besides its result. -/
inductive TillBody
  | empty
  | place (state : PlaceState) (lines : Nat) (total : Int)
  | poll (state : PlaceState) (lines : Nat) (total : Int) (trace : Option Nat) (last : Option LastResult)
  | line (number price : Nat) (origin : LineOrigin) (total : Int)
  | total (t : Int)
  | cancelled (seq : Option Nat)
  | cash (seq : Nat) (total change : Int)
  | trace (seq : Nat)
  | card (seq : Nat) (total : Int) (tender : Tender) (code : Option (List Byte))
  | declined (r : DeclineReason) (trace : Nat)
  | voided (reason : VoidReason) (seq : Option Nat)
  deriving DecidableEq, Repr

/-- The result of a JOIN answer (11.8). -/
inductive JoinResult | ok (seconds : Nat) (quota : Int) | refusedClosed | refusedSpent | refusedFull
  deriving DecidableEq, Repr

/-- A frame the part puts on a port. -/
inductive Output
  | host (f : HostFrame)
  | till (number : Nat) (addr : Addr) (kind : TillKind) (result : Result) (body : TillBody)
  | beacon
  | priceFrame (label number price : Nat)
  | joinAnswer (addr : Addr) (r : JoinResult)
  | sessionEnd (addr : Addr) (reason : EndReason)
  | endAll
  | guestData (addr : Addr) (payload : List Byte)
  | uplink (p : Path) (f : UpFrame)
  deriving DecidableEq, Repr

/-! ## Writes under way and events that wait for them -/

/-- A pending-part write of an issue or revision, with the change number it records (R12, R13, R14). -/
structure PendingWrite where
  item : Nat
  price : Nat
  origin : Origin
  urgent : Bool
  create : Bool
  revise : Bool
  number : Nat
  source : ChangeSource
  deriving DecidableEq, Repr

/-- Who asked for a setting write (R188, R190). -/
inductive SettingSource | host (tag : Nat) | headOffice
  deriving DecidableEq, Repr

/-- An acknowledgement as LRS took it (R31): `answersUnbound` when it answers the transmission in flight that is marked
unbound in flight. -/
structure AckReport where
  label : Nat
  price : Nat
  battery : Nat
  margin : Int
  time : Option Nat
  answersUnbound : Bool
  deriving DecidableEq, Repr

/-- A write to the NV store under way, except the journal's and the change queue's, which their blocks hold. -/
inductive NvWrite
  | itemAdd (tag : Nat) (e : Item)
  | itemRemove (tag item : Nat)
  | pending (w : PendingWrite)
  | effect (item : Nat)
  | bind (tag label item : Nat)
  | unbind (tag label item : Nat)
  | retry (tag label : Nat)
  | ack (a : AckReport) (full : Bool)
  | unreachable (label : Nat)
  | floor (label price : Nat)
  | setting (id : Nat) (value : SettingValue) (src : SettingSource)
  | branch (tag number : Nat)
  deriving DecidableEq, Repr

/-- A change as it arrives (R7). -/
structure Change where
  item : Nat
  price : Nat
  origin : Origin
  urgent : Bool
  add : Bool
  source : ChangeSource
  deriving DecidableEq, Repr

/-- An event that is taken when no write for its item, label or setting is under way (R6, R24, R188). -/
inductive Work
  | itemAdd (tag item price : Nat) (openPrice : Bool)
  | itemRemove (tag item : Nat)
  | itemGet (tag item : Nat)
  | change (c : Change)
  | lineAdd (till item : Nat) (qty : Int) (keyed : Option Nat)
  | bind (tag label item : Nat)
  | unbind (tag label : Nat)
  | retry (tag label : Nat)
  | ack (a : AckReport)
  | failure (label : Nat)
  | floor (label : Nat)
  | setting (id : Nat) (value : SettingValue) (src : SettingSource)
  deriving DecidableEq, Repr

/-- What a write is a write of (R6, R24, R188). -/
inductive Key | item (n : Nat) | label (n : Nat) | setting (n : Nat) | branch
  deriving DecidableEq, Repr

/-! ## The machine -/

/-- The state of the part. -/
structure State where
  pending : List Instr
  out : List Output
  timer : Nat
  settings : Settings
  identity : Identity
  nv : List NvWrite
  waiting : List Work
  pbk : Pbk
  lrs : Lrs
  tsu : Tsu
  auz : Auz
  sjr : Sjr
  ulc : Ulc
  txe : Txe
  gac : Gac
  day : Day
  hlk : Hlk
  deriving DecidableEq, Repr

/-- The reasons a command could stop the machine with a fault. The spec gives none, so no meaning raises one. -/
inductive Fault
  /-- Raised by nobody: the manual names no event that stops the part for good. Safe. -/
  | impossible
  deriving DecidableEq, Repr

/-- The reasons a command is refused. -/
inductive Refusal
  /-- Raised by `exec` for a command whose meaning is not written yet. Safe. -/
  | notModelled (mnemonic : String)
  deriving DecidableEq, Repr

/-! ## After reset -/

/-- The defaults of the settings, in the order of `SettingId` (R188 and each setting's own rule); a name's code follows R196:
the first name listed is 0 (log entry 23). -/
def defaultSettings : List Int :=
  [50, 3, 4, 8, 2, 32, 0, 0, 0, 0, 64, 32, -25, 35, 1, 0] ++
  [1, 120, 10] ++
  [0, 0, 0, 1] ++
  [75, 90] ++
  [10, 120, 0, 2000, 3, 8, 0, 0, 0, 0, 1, 0, 10, 12, 15, 13] ++
  [0, 8, 64, 30, 20] ++
  [1, 2, 60, 200, 2000, 64] ++
  [480, 1260, 60, 0, 1, 5] ++
  [30, 500]

/-- The default destination window (R121). -/
def defaultWindow : Window :=
  { valid := false, base := 0, limit := 0, scope := .blocked, office := false, guest := false }

/-- The identity record of a part whose branch number was never set (R191; log entry 3). -/
def defaultIdentity : Identity :=
  { vendor := Config.vendorCode, part := Config.partCode, revision := Config.revisionCode,
    serial := Config.serialNumber, branch := none }

/-- A FREE till place (R49). -/
def freePlace : Place :=
  { state := .free, addr := none, lastFrame := 0, busy := false, basket := [], trace := none, lastResult := none }

/-- A path record after reset (R107). -/
def resetPath : PathRec :=
  { state := .down, carrier := false, session := none, degraded := false, outCount := 0, missed := 0, probes := [],
    roundTrip := none, refusal := none, helloExpiry := none, nextProbe := none, probeNumber := 0, credits := none,
    tx := none, control := [] }

/-- A timeout class after reset (R128). -/
def resetTick : TickRec := { counter := 0, lastTick := 0 }

/-- The night run record after reset (R149). -/
def resetRun : NightRun :=
  { state := .notStarted, cause := none, startTime := none, endTime := none, upload := none, download := none,
    uploaded := 0, received := 0, rejected := 0 }

/-- Zero counts of the transfer engine (R149). -/
def zeroCounts : TransferCounts := { aborts := 0, lateAcks := 0, latePieces := 0 }

/-- The site lines as the building is taken to be at power-on (log entry 4). -/
def quietBuilding : LineValues := { door := false, mains := true, alarmSet := false, spare := false }

/-- The START notice of a first power-on (R179). -/
def firstStart : Notice :=
  { number := 1, overrun := false, body := .start .powerOn none .night false 0 0 quietBuilding }

/-- The machine right after a POWER_ON reset of a part whose NV store has never been written: start-up has run (R178), the
START notice is the head of the notice queue and is going out (R179, R185), and nothing is pending. -/
def State.reset : State :=
  { pending := []
    out := [.endAll, .host (.notice firstStart)]
    timer := 0
    settings := { vals := defaultSettings, windows := List.replicate 16 defaultWindow }
    identity := defaultIdentity
    nv := []
    waiting := []
    pbk := { items := [], queue := [], counter := 0, taken := 0, slots := List.replicate 32 none, drops := 0, ops := [] }
    lrs :=
      { labels := [], cursor := 0, cycles := 0, txCount := 0, inFlight := none, burst := none, waitingBurst := none,
        radio := .settling, settleEnd := some 64, nextBeacon := none, errors := 0 }
    tsu := { places := List.replicate 16 freePlace, grace := none, errors := 0 }
    auz := { entries := [], mark := false, online := 0, hoDeclines := 0, offline := 0, fallbackDeclines := 0, late := 0 }
    sjr :=
      { records := [], counter := 0, queue := [], writing := none, claims := List.replicate 16 0, exposure := 0,
        unsent := 0, level := .below50, removing := none, removals := [] }
    ulc :=
      { primary := resetPath, backup := resetPath, carrierPrimary := false, carrierBackup := false, sessions := 0,
        active := none, authQ := [], priceQ := [], journalQ := [], officeQ := [], guestQ := [], waits := [],
        lastForward := 0, t1 := resetTick, t2 := resetTick, t3 := resetTick, t4 := resetTick,
        isolation := 0, linkErrors := 0, routeErrors := 0 }
    txe :=
      { batch := none, nextBatch := 0, file := none, pieceNumber := 0, pauseEnd := none, run := resetRun,
        counts := zeroCounts, runBase := zeroCounts, abortDue := false }
    gac := { service := .closed, sessions := List.replicate 64 none, spent := [], drops := 0 }
    day :=
      { clock := none, clockMs := 0, store := .night, power := .run, lines := quietBuilding, reported := quietBuilding,
        cause := .powerOn, lastWake := none, quietAt := some 300000, dueEvents := [], powered := true, holdLine := false,
        resetLine := false, stopped := none }
    hlk :=
      { rx := { bytes := [], stray := false }, rxAt := 0, requests := [], replies := [], tx := some (.notice firstStart), notices := [firstStart], lastNumber := 1,
        ackWait := .waiting 500, overrun := false, held := none, lastRequest := 0, silenceAt := some 30000,
        standalone := none, standaloneOverrun := false, lock := false, frameErrors := 0, officeDrops := 0,
        resetPhase := .none } }

end Sys2Proof.Machine
end

