-- ==== Sys2Proof/Machine/Operands.lean ====
section
/-! DEFINITION. Reading what commands and rules name: settings by id with range, relation and lock (R188), destination windows (R121), paths and permissions (R120), the schedule's figures and events (R165, R167, R168). -/

namespace Sys2Proof.Machine

/-! ## Settings -/

/-- The settings of ids 101..116 (11.3). -/
def lrsSettings : List SettingId :=
  [.ackWindow, .attemptLimit, .dayPeriod, .dayLength, .nightPeriod, .nightLength, .refreshOpening, .refreshOpen,
   .refreshClosing, .refreshNight, .settleTime, .batteryLow, .marginLow, .marginHigh, .healthScope, .scopeLabel]
/-- The settings of ids 201..203. -/
def tsuSettings : List SettingId := [.keyedUnknown, .tillSilence, .closingGrace]
/-- The settings of ids 301..304. -/
def auzSettings : List SettingId := [.fallbackMode, .floorLimit, .exposureLimit, .retryLimit]
/-- The settings of ids 401..402. -/
def sjrSettings : List SettingId := [.promoteMark, .shedMark]
/-- The settings of ids 501..516. -/
def ulcSettings : List SettingId :=
  [.probePeriod, .quietProbePeriod, .qualityScope, .qualityHigh, .qualityCount, .sharedFloor, .backupAuth, .backupPrice,
   .backupJournal, .backupOffice, .backupGuest, .routeTable, .periodT1, .periodT2, .periodT3, .periodT4]
/-- The settings of ids 701..705. -/
def txeSettings : List SettingId := [.trickleEnable, .trickleSize, .nightSize, .retryDelay, .retryWindow]
/-- The settings of ids 801..806. -/
def gacSettings : List SettingId := [.guestEnable, .authShed, .sessionLimit, .quota, .rate, .depth]
/-- The settings of ids 901..906. -/
def daySettings : List SettingId := [.openTime, .closeTime, .openingLead, .closedWeekdays, .quietEnable, .quietDelay]
/-- The settings of ids 1001..1002. -/
def hlkSettings : List SettingId := [.silenceLimit, .noticeResend]

/-- What a setting name id names: a numeric or named setting, or a destination window (11.3). -/
inductive SettingTarget | num (n : SettingId) | window (i : Nat)
  deriving DecidableEq, Repr

/-- The setting a block lists at an id, when the block's ids begin at `first`. -/
def settingInBlock (first id : Nat) (l : List SettingId) : Option SettingTarget :=
  if first ≤ id then (l[id - first]?).map .num else none

/-- The setting of an id; none when the id names no setting (R188, 11.3). -/
def settingTarget (id : Nat) : Option SettingTarget :=
  if id < 200 then settingInBlock 101 id lrsSettings
  else if id < 300 then settingInBlock 201 id tsuSettings
  else if id < 400 then settingInBlock 301 id auzSettings
  else if id < 500 then settingInBlock 401 id sjrSettings
  else if id < 600 then settingInBlock 501 id ulcSettings
  else if id < 616 then some (.window (id - 600))
  else if id < 700 then none
  else if id < 800 then settingInBlock 701 id txeSettings
  else if id < 900 then settingInBlock 801 id gacSettings
  else if id < 1000 then settingInBlock 901 id daySettings
  else settingInBlock 1001 id hlkSettings

/-- The lowest and highest value of a setting, as its chapter gives them. -/
def settingBounds : SettingId → Int × Int
  | .ackWindow => (10, 500)
  | .attemptLimit => (1, 15)
  | .dayPeriod | .nightPeriod => (1, 60)
  | .dayLength | .nightLength => (1, 32)
  | .refreshOpening | .refreshOpen | .refreshClosing | .refreshNight => (0, 1)
  | .settleTime => (8, 512)
  | .batteryLow => (0, 255)
  | .marginLow | .marginHigh => (-40, 40)
  | .healthScope => (0, 2)
  | .scopeLabel => (0, 4095)
  | .keyedUnknown => (0, 1)
  | .tillSilence => (10, 600)
  | .closingGrace => (0, 60)
  | .fallbackMode => (0, 1)
  | .floorLimit => (0, 99999999)
  | .exposureLimit => (0, 999999999)
  | .retryLimit => (0, 3)
  | .promoteMark | .shedMark => (1, 100)
  | .probePeriod => (1, 60)
  | .quietProbePeriod => (10, 600)
  | .qualityScope => (0, 2)
  | .qualityHigh => (10, 10000)
  | .qualityCount => (1, 8)
  | .sharedFloor => (0, 127)
  | .backupAuth | .backupPrice | .backupJournal | .backupOffice | .backupGuest | .routeTable => (0, 1)
  | .periodT1 | .periodT2 | .periodT3 | .periodT4 => (4, 20)
  | .trickleEnable => (0, 1)
  | .trickleSize | .nightSize => (1, 64)
  | .retryDelay => (1, 600)
  | .retryWindow => (1, 240)
  | .guestEnable => (0, 1)
  | .authShed => (0, 16)
  | .sessionLimit => (5, 480)
  | .quota => (1, 4095)
  | .rate => (64, 20000)
  | .depth => (1, 256)
  | .openTime | .closeTime => (0, 1439)
  | .openingLead => (0, 120)
  | .closedWeekdays => (0, 127)
  | .quietEnable => (0, 1)
  | .quietDelay => (0, 60)
  | .silenceLimit => (5, 300)
  | .noticeResend => (100, 5000)

/-- Whether 0 turns the setting off beside its range: the timeout class periods (R128) and the silence limit (R186). -/
def zeroIsOff : SettingId → Bool
  | .periodT1 | .periodT2 | .periodT3 | .periodT4 | .silenceLimit => true
  | _ => false

/-- Whether a value lies in a setting's range. -/
def inSettingRange (n : SettingId) (v : Int) : Bool :=
  (zeroIsOff n && v == 0) || (decide ((settingBounds n).1 ≤ v) && decide (v ≤ (settingBounds n).2))

/-- The lockable settings (R189). -/
def lockableNum : SettingId → Bool
  | .fallbackMode | .floorLimit | .exposureLimit | .routeTable
  | .backupAuth | .backupPrice | .backupJournal | .backupOffice | .backupGuest
  | .guestEnable | .authShed | .sessionLimit | .quota | .rate | .depth => true
  | _ => false

/-- Whether a setting is lockable; the 16 windows are (R189). -/
def lockable : SettingTarget → Bool
  | .num n => lockableNum n
  | .window _ => true

/-- The value of a numeric or named setting. -/
def Settings.num (t : Settings) (n : SettingId) : Int := t.vals.getD n.ctorIdx 0
/-- The same as a natural number, for settings whose range does not go below 0. -/
def Settings.nat (t : Settings) (n : SettingId) : Nat := (t.num n).toNat
/-- Whether a named setting holds the first of its two names: enabled, permitted or on (R196, log entry 23). -/
def Settings.on (t : Settings) (n : SettingId) : Bool := t.num n == 0
/-- A destination window. -/
def Settings.window (t : Settings) (i : Nat) : Window := t.windows.getD i defaultWindow

/-- The value held by a setting. -/
def heldValue (t : Settings) : SettingTarget → SettingValue
  | .num n => .num (t.num n)
  | .window i => .window (t.window i)

/-- The relations that settings keep among themselves: margins (R44) and schedule times (R167). -/
def relationsHold (t : Settings) : Bool :=
  decide (t.num .marginLow ≤ t.num .marginHigh) &&
  decide (t.num .openingLead ≤ t.num .openTime) &&
  decide (t.num .openTime < t.num .closeTime)

/-- The settings after a new value is written. -/
def putValue (t : Settings) : SettingTarget → SettingValue → Settings
  | .num n, .num v => { t with vals := t.vals.set n.ctorIdx v }
  | .window i, .window w => { t with windows := t.windows.set i w }
  | _, _ => t

/-- Whether a destination window's fields lie in their ranges and keep R121's relation. -/
def windowFits (w : Window) : Bool :=
  decide (w.base ≤ w.limit) && decide (w.limit ≤ Config.max32)

/-- Whether a setting takes a value: in range, and breaking no relation judged against the other settings as they stand
(R44, R121, R167, R188). -/
def settingTakes (t : Settings) : SettingTarget → SettingValue → Bool
  | .num n, .num v => inSettingRange n v && relationsHold (putValue t (.num n) (.num v))
  | .window _, .window w => windowFits w
  | _, _ => false

/-- The settings that R188's relations tie together are written one after another, as one (log entry 12). -/
def settingGroup : Nat → Nat
  | 902 => 901
  | 903 => 901
  | 114 => 113
  | id => id

/-! ## Destination windows -/

/-- The first matching window of a destination (R121). -/
def firstWindow (ws : List Window) (guest : Bool) (dest : Nat) : Option Window :=
  ws.find? fun w => w.valid && (if guest then w.guest else w.office) && decide (w.base ≤ dest) && decide (dest ≤ w.limit)

/-- Whether a guest destination's first matching window is EXTERNAL (R122). -/
def externalForGuest (ws : List Window) (dest : Nat) : Bool :=
  match firstWindow ws true dest with
  | some w => w.scope == .external
  | none => false

/-! ## Paths and classes -/

/-- A path's record (R107). -/
def Ulc.path (u : Ulc) : Path → PathRec
  | .primary => u.primary
  | .backup => u.backup

/-- The uplink with a path's record changed. -/
def Ulc.setPath (u : Ulc) (p : Path) (r : PathRec) : Ulc :=
  match p with
  | .primary => { u with primary := r }
  | .backup => { u with backup := r }

/-- Carrier as a path's modem reports it now (R107). -/
def Ulc.wire (u : Ulc) : Path → Bool
  | .primary => u.carrierPrimary
  | .backup => u.carrierBackup

/-- The backup permission setting of a class (R120). -/
def backupSetting : Class → SettingId
  | .auth => .backupAuth
  | .price => .backupPrice
  | .journal => .backupJournal
  | .office => .backupOffice
  | .guest => .backupGuest

/-- Whether a class is permitted on a path (R120). -/
def permittedOn (t : Settings) (c : Class) : Path → Bool
  | .primary => true
  | .backup => t.on (backupSetting c)

/-- Whether there is an active path and the class is permitted on it (R120). -/
def permittedNow (s : State) (c : Class) : Bool :=
  match s.ulc.active with
  | some p => permittedOn s.settings c p
  | none => false

/-- The tick counter of a timeout class (R128). -/
def Ulc.ticks (u : Ulc) : TimeoutClass → TickRec
  | .t1 => u.t1
  | .t2 => u.t2
  | .t3 => u.t3
  | .t4 => u.t4

/-- The period setting of a timeout class (R128). -/
def periodSetting : TimeoutClass → SettingId
  | .t1 => .periodT1
  | .t2 => .periodT2
  | .t3 => .periodT3
  | .t4 => .periodT4

/-- A timeout class's period in milliseconds; none while it is off (R128, R129). -/
def periodMs (t : Settings) (c : TimeoutClass) : Option Nat :=
  if t.num (periodSetting c) = 0 then none else some (2 ^ t.nat (periodSetting c))

/-- Whether an expiry taken at counter `e` has fallen due: the counter has risen by 4, counting across a wrap (R128). -/
def expired (now e : Tick) : Bool := decide (4 ≤ (now - e).toNat)

/-- Whether a journal or trace sequence is in its range (R196). -/
def sequenceFits (n : Nat) : Bool := n != 0 && decide (n ≤ Config.max32)

/-! ## The schedule -/

/-- The day number of a clock value (R165). -/
def dayNumber (c : Nat) : Nat := c / 86400
/-- The weekday of a clock value, 0 for Monday (R165). -/
def weekday (c : Nat) : Nat := dayNumber c % 7
/-- The minute of day of a clock value (R165). -/
def minuteOfDay (c : Nat) : Nat := c / 60 % 1440
/-- Whether a day is a trading day: the flag of its weekday is clear (R167). -/
def tradingDay (t : Settings) (c : Nat) : Bool := !(t.nat .closedWeekdays).testBit (weekday c)
/-- The minute of the open-lead event (R168). -/
def leadMinute (t : Settings) : Nat := t.nat .openTime - t.nat .openingLead
/-- The minute of a schedule event (R168). -/
def eventMinute (t : Settings) : ScheduleEvent → Nat
  | .openLead => leadMinute t
  | .openTime => t.nat .openTime
  | .close => t.nat .closeTime
/-- Whether a schedule event is taken on the day of a clock value (R168). -/
def eventDay (t : Settings) (e : ScheduleEvent) (c : Nat) : Bool :=
  match e with
  | .close => true
  | _ => tradingDay t c

/-- The events of a day in time order (R168). -/
def dayEvents : List ScheduleEvent := [.openLead, .openTime, .close]
/-- The beginning of an event's minute on a day, when the event is taken on that day (R168). -/
def eventAt (t : Settings) (day : Nat) (e : ScheduleEvent) : Option Nat :=
  let c := day * 86400 + 60 * eventMinute t e
  if eventDay t e c then some c else none
/-- The events whose minutes begin at the clock values from `a` up to, but not including, `b`, in time order (R168). -/
def eventsFrom (t : Settings) (a b : Nat) : List ScheduleEvent :=
  (List.range (dayNumber b + 1 - dayNumber a)).flatMap fun k => dayEvents.filter fun e =>
    match eventAt t (dayNumber a + k) e with
    | some c => decide (a ≤ c) && decide (c < b)
    | none => false
/-- The events whose minutes begin as the clock counts on by some seconds, across its wrap (R165, R168). -/
def countedEvents (t : Settings) (c secs : Nat) : List ScheduleEvent :=
  eventsFrom t (c + 1) (min (c + secs) Config.max32 + 1) ++ eventsFrom t 0 (c + secs - Config.max32)
/-- The events that a forward TIME SET passes, looking back at most 1,440 minutes (R166). -/
def passedEvents (t : Settings) (old new : Nat) : List ScheduleEvent := eventsFrom t (max (old + 1) (new - 86400)) (new + 1)
/-- Whether a clock value lies in an event's minute on a day it is taken (R168). -/
def inEventMinute (t : Settings) (e : ScheduleEvent) (c : Nat) : Bool :=
  minuteOfDay c == eventMinute t e && eventDay t e c
/-- The next beginning of an event's minute after a clock value, counted on past the clock's wrap (R165, R168). -/
def nextEventAt (t : Settings) (e : ScheduleEvent) (c : Nat) : Option Nat :=
  let beforeWrap := ((List.range 9).filterMap fun k => eventAt t (dayNumber c + k) e).filter fun x => decide (x ≤ Config.max32)
  let afterWrap := (List.range 9).filterMap fun k => (eventAt t k e).map (· + (Config.max32 + 1))
  (beforeWrap ++ afterWrap).find? fun x => decide (c < x)

/-- Whether a clock value lies in the lead window of a trading day (R175, R178). -/
def inLeadWindow (t : Settings) (c : Nat) : Bool :=
  tradingDay t c && decide (leadMinute t ≤ minuteOfDay c) && decide (minuteOfDay c < t.nat .openTime)

/-- The store state the schedule gives (R178). -/
def scheduleState (t : Settings) : Option Nat → StoreState
  | none => .night
  | some c =>
    if inLeadWindow t c then .opening
    else if tradingDay t c && decide (t.nat .openTime ≤ minuteOfDay c) && decide (minuteOfDay c < t.nat .closeTime) then .opened
    else .night

/-- The refresh setting of a store state; QUIET has none (R39). -/
def refreshSetting : StoreState → Option SettingId
  | .opening => some .refreshOpening
  | .opened => some .refreshOpen
  | .closing => some .refreshClosing
  | .night => some .refreshNight
  | .quiet => none

/-- Whether refresh is enabled in a store state (R39). -/
def refreshEnabled (t : Settings) (st : StoreState) : Bool :=
  match refreshSetting st with
  | some n => t.on n
  | none => false

/-- Whether the night burst settings are in force (R34). -/
def nightBurst (st : StoreState) : Bool := st == .night || st == .quiet
/-- The beacon period in force, in milliseconds (R34). -/
def beaconMs (s : State) : Nat :=
  1000 * (if nightBurst s.day.store then s.settings.nat .nightPeriod else s.settings.nat .dayPeriod)
/-- The burst length in force (R34). -/
def burstLength (s : State) : Nat :=
  if nightBurst s.day.store then s.settings.nat .nightLength else s.settings.nat .dayLength

/-- The probe period in force, in milliseconds (R110). -/
def probeMs (s : State) : Nat :=
  1000 * (if s.day.store == .quiet then s.settings.nat .quietProbePeriod else s.settings.nat .probePeriod)

end Sys2Proof.Machine
end

