-- ==== Sys2Proof/Machine/Flags.lean ====
section
/-! DEFINITION. The flags, marks and levels the part derives from what it holds: journal occupancy (R91, R101, R102), label health (R43), path quality (R112), and the figures of R80. -/

namespace Sys2Proof.Machine

/-- Whether a percentage mark is reached by a number of records held (5.7). -/
def markReached (held mark : Nat) : Bool := decide (mark * Config.journalPlaces ≤ held * 100)

/-- The highest level reached (R101). -/
def levelReached (held : Nat) : Level :=
  if markReached held 100 then .l100
  else if markReached held 90 then .l90
  else if markReached held 75 then .l75
  else if markReached held 50 then .l50
  else .below50

/-- Levels as numbers, to compare them (R101). -/
def Level.rank : Level → Nat
  | .below50 => 0
  | .l50 => 50
  | .l75 => 75
  | .l90 => 90
  | .l100 => 100

/-- The reported level after a comparison with the occupancy; none when it is unchanged (R101). -/
def levelAfter (reported : Level) (held : Nat) : Option Level :=
  let l := levelReached held
  if reported.rank < l.rank then some l
  else if l == .below50 && reported != .below50 then some .below50
  else none

/-- Records held (R88). -/
def Sjr.held (j : Sjr) : Nat := j.records.length
/-- Places claimed (R91). -/
def Sjr.claimed (j : Sjr) : Nat := j.claims.sum
/-- Free places (R91). -/
def Sjr.free (j : Sjr) : Nat := Config.journalPlaces - j.held - j.claimed
/-- The oldest sequence held (R88). -/
def Sjr.oldest (j : Sjr) : Option Nat := j.records.head?.map (·.seq)
/-- The newest sequence held (R88). -/
def Sjr.newest (j : Sjr) : Option Nat := j.records.getLast?.map (·.seq)
/-- The occupancy in tenths of a percent, rounded down (R104). -/
def Sjr.tenths (j : Sjr) : Nat := j.held * 1000 / Config.journalPlaces

/-- Whether an append is claimed: every SALE and AUTH_TRACE (R94). -/
def RecordBody.claimed : RecordBody → Bool
  | .voidedBasket .. => false
  | _ => true

/-- The numbers that are used, being written or promised: the counter, the one an unclaimed record takes that is being written, and one
for every place claimed (R90, R92, R96). -/
def Sjr.numbersTaken (j : Sjr) : Nat :=
  j.counter + (match j.writing with | some w => if w.append.body.claimed then 0 else 1 | none => 0) + j.claimed

/-- Whether SJR grants a claim of `n` places (R92). The number of a voided basket that is being written is counted as used, which R92's
second condition does not say: otherwise a claim granted meanwhile could find no number, which R90 and section 5.3 do not let it: DESIGN
CHOICE (log entry 58). -/
def claimGranted (j : Sjr) (n : Nat) : Bool :=
  decide (j.held + j.claimed + n + Config.journalReserve ≤ Config.journalPlaces) &&
  decide (j.numbersTaken + n ≤ Config.max32)

/-- Whether the writer may take an unclaimed append (R96). -/
def unclaimedFits (j : Sjr) : Bool :=
  decide (1 ≤ j.free) && decide (j.counter + j.claimed < Config.max32)

/-- Whether the promote mark is reached (R102). -/
def promoteReached (s : State) : Bool := markReached s.sjr.held (s.settings.nat .promoteMark)
/-- Whether the shed mark is reached (R102). -/
def shedReached (s : State) : Bool := markReached s.sjr.held (s.settings.nat .shedMark)

/-- Whether a label is within the health watch's scope (R43). -/
def healthScoped (t : Settings) (label : Nat) : Bool :=
  t.num .healthScope == 1 || (t.num .healthScope == 2 && t.nat .scopeLabel == label)
/-- Whether a reported battery level is out of window (R43). -/
def badBattery (t : Settings) (battery : Nat) : Bool := decide ((battery : Int) < t.num .batteryLow)
/-- Whether a reported margin is out of window (R43). -/
def badMargin (t : Settings) (m : Int) : Bool := decide (m < t.num .marginLow) || decide (t.num .marginHigh < m)
/-- A reported margin taken into −40..+40 (R31). -/
def clampMargin (m : Int) : Int := if m < -40 then -40 else if 40 < m then 40 else m

/-- Whether the quality watch judges a path (R112). -/
def qualityScoped (t : Settings) : Path → Bool
  | .primary => t.num .qualityScope != 2
  | .backup => t.num .qualityScope == 1

/-- A path's out-of-window count and degraded flag after a round trip within the watch's scope (R112). -/
def qualityAfter (t : Settings) (roundTrip : Nat) (count : Nat) (degraded : Bool) : Nat × Bool :=
  if t.nat .qualityHigh < roundTrip then
    (satAdd 8 count 1, degraded || decide (t.nat .qualityCount ≤ satAdd 8 count 1))
  else (0, false)

/-- The active path R113's table chooses. -/
def chosenPath (u : Ulc) : Option Path :=
  if u.primary.state = .up ∧ u.primary.degraded = false then some .primary
  else if u.backup.state = .up then some .backup
  else if u.primary.state = .up then some .primary
  else none

/-- Whether an entry counts in the offline commitment (R80). -/
def AuthEntry.committed (e : AuthEntry) : Bool := e.outcome == some .approvedOffline
/-- The offline commitment (4.4). -/
def Auz.commitment (a : Auz) : Int := ((a.entries.filter (·.committed)).map fun e => (e.amount : Int)).sum

/-- How R80 decides an entry that goes to fallback, and whether the exposure check declined it. -/
def fallbackDecision (s : State) (amount : Nat) : AuthOutcome × Bool :=
  if s.settings.num .fallbackMode = 0 then (.declined .unavailable, false)
  else if s.settings.num .floorLimit < amount then (.declined .unavailable, false)
  else if s.sjr.exposure + s.auz.commitment + amount ≤ s.settings.num .exposureLimit then (.approvedOffline, false)
  else (.declined .unavailable, true)

/-- The queuing test of R74. -/
def queuingTest (s : State) : Bool := permittedNow s .auth && s.identity.branch.isSome

/-- The conditions of R151 that fail. -/
def failingConditions (s : State) : List GuestCondition :=
  (if s.settings.on .guestEnable then [] else [.disabled]) ++
  (if s.day.lines.mains then [] else [.mains]) ++
  (if permittedNow s .guest then [] else [.path]) ++
  (if shedReached s then [.journal] else []) ++
  (if s.ulc.authQ.length ≤ s.settings.nat .authShed then [] else [.auth])

/-- The guest service state R151 decides. -/
def serviceDecided (s : State) : Service :=
  if s.day.store = .opened then (if (failingConditions s).isEmpty then .opened else .shed) else .closed

end Sys2Proof.Machine
end

