-- ==== Sys2Proof/Machine/Ops.lean ====
section
/-! DEFINITION. The operations every block shares: frames out, notices (R184), replies (R183), the silence timer (R186), error counts, the internal timer and the branch clock, and the taking of NV writes. -/

namespace Sys2Proof.Machine

/-- The outcome of a command. -/
abbrev Out := Host.Outcome State Fault Refusal

/-- Whether the part runs: powered, and stopped by neither HOLD nor the reset line (R176, R177). -/
def State.running (s : State) : Bool := s.day.powered && s.day.stopped.isNone

/-- The receiver of the host line with nothing received (R181). -/
def idleRx : HostRx := { bytes := [], stray := false }

/-- Whether more than 20 ms have passed since the last byte of a frame that is being received (R181). -/
def byteGapPassed (s : State) : Bool := s.hlk.rx.bytes != [] && decide (s.hlk.rxAt + Config.byteGap < s.timer)

/-- Apply `f` when `c` holds. -/
def State.when (c : Bool) (f : State → State) (s : State) : State := if c then f s else s

/-- A frame put on a port. -/
def emit (o : Output) (s : State) : State := { s with out := s.out ++ [o] }

/-- The branch clock, or 0 while unset (R165). -/
def State.clock0 (s : State) : Nat := s.day.clock.getD 0

/-! ## Notices -/

/-- Whether the notice queue has room (R184). -/
def noticeRoom (s : State) : Bool := decide (s.hlk.notices.length < Config.noticeCapacity)

/-- A notice offered to the queue (R184); a lost one also sets the standalone overrun mark while standalone (R186). -/
def joinNotice (b : NoticeBody) (s : State) : State :=
  if noticeRoom s then
    let n := nextIn 1 Config.max16 s.hlk.lastNumber
    { s with hlk := { s.hlk with
        notices := s.hlk.notices ++ [{ number := n, overrun := s.hlk.overrun, body := b }]
        lastNumber := n
        overrun := false } }
  else
    { s with hlk := { s.hlk with
        overrun := true
        standaloneOverrun := s.hlk.standaloneOverrun || s.hlk.standalone.isSome } }

/-- A notice as a block offers it: held during start-up until START has joined (R179), else offered to the queue. -/
def notify (b : NoticeBody) (s : State) : State :=
  match s.hlk.held with
  | some l => { s with hlk := { s.hlk with held := some (l ++ [b]) } }
  | none => joinNotice b s

/-! ## Replies -/

/-- The reply to a request of the request queue, waiting for the transmitter (R183). -/
def reply (tag : Nat) (k : RequestKind) (r : Result) (b : ReplyBody) (s : State) : State :=
  { s with hlk := { s.hlk with
      replies := s.hlk.replies ++ [{ tag := tag, kind := k, result := r, body := b, queued := true }] } }

/-- A reply given at once to a request that does not join the queue (R182). -/
def replyNow (tag : Nat) (k : RequestKind) (r : Result) (s : State) : State :=
  { s with hlk := { s.hlk with
      replies := s.hlk.replies ++ [{ tag := tag, kind := k, result := r, body := .empty, queued := false }] } }

/-- Whether a RESET's reply is going out or sent, from when no NV write starts (R194). -/
def writesStopped (s : State) : Bool := s.hlk.resetPhase == .sending || s.hlk.resetPhase == .sent

/-- The host transmitter takes a reply: the request leaves the queue as the frame begins (R182): DESIGN CHOICE (log entry 62). A RESET's
OK stops further writes (R194). -/
def sendReply (r : Reply) (rest : List Reply) (s : State) : State :=
  emit (.host (.reply r)) { s with hlk := { s.hlk with
    tx := some (.reply r)
    replies := rest
    requests := if r.queued then s.hlk.requests.filter (fun q => q.tag != r.tag) else s.hlk.requests
    resetPhase := if r.kind = .reset ∧ r.result = .ok ∧ s.hlk.resetPhase = .asked then .sending else s.hlk.resetPhase } }

/-- The host transmitter takes the head notice (R185). The wait for its acknowledgement starts as the frame begins: DESIGN CHOICE (log
entry 62). -/
def sendNotice (n : Notice) (s : State) : State :=
  emit (.host (.notice n)) { s with hlk := { s.hlk with
    tx := some (.notice n)
    ackWait := .waiting (s.timer + s.settings.nat .noticeResend) } }

/-- The head notice, when it is to be sent (R185). -/
def noticeToSend (h : Hlk) : Option Notice :=
  match h.ackWait with
  | .waiting _ => none
  | _ => h.notices.head?

/-- The host link transmitter, when idle: the oldest reply first, else the head notice when it is due (R183, R185); no reply
follows a RESET's (R194). -/
def hostPump (s : State) : State :=
  if s.running = false ∨ s.hlk.tx.isSome then s
  else
    match (if writesStopped s then [] else s.hlk.replies) with
    | r :: rest => sendReply r rest s
    | [] =>
      match noticeToSend s.hlk with
      | some n => sendNotice n s
      | none => s

/-! ## Counts -/

/-- One more frame error (R181). -/
def frameError (s : State) : State :=
  { s with hlk := { s.hlk with frameErrors := satAdd Config.max16 s.hlk.frameErrors 1 } }
/-- One more till error (R50). -/
def tillError (s : State) : State :=
  { s with tsu := { s.tsu with errors := satAdd Config.max16 s.tsu.errors 1 } }
/-- One more radio error (R31). -/
def radioError (s : State) : State :=
  { s with lrs := { s.lrs with errors := satAdd Config.max16 s.lrs.errors 1 } }
/-- One more link error (R125). -/
def linkError (s : State) : State :=
  { s with ulc := { s.ulc with linkErrors := satAdd Config.max16 s.ulc.linkErrors 1 } }
/-- One more route error (R127). -/
def routeError (s : State) : State :=
  { s with ulc := { s.ulc with routeErrors := satAdd Config.max16 s.ulc.routeErrors 1 } }

/-! ## Time -/

/-- The clock and its fraction of a second after some milliseconds (R165). -/
def clockAfter (c : Option Nat) (ms add : Nat) : Option Nat × Nat :=
  match c with
  | none => (none, 0)
  | some v => (some ((v + (ms + add) / 1000) % (Config.max32 + 1)), (ms + add) % 1000)

/-- The branch clock counts on (R165). -/
def advanceClock (ms : Nat) (s : State) : State :=
  { s with day := { s.day with
      clock := (clockAfter s.day.clock s.day.clockMs ms).1
      clockMs := (clockAfter s.day.clock s.day.clockMs ms).2 } }

/-- The schedule events whose minutes the clock begins within some milliseconds (R168); none while it is unset. -/
def eventsBegun (ms : Nat) (s : State) : List ScheduleEvent :=
  match s.day.clock with
  | none => []
  | some c => countedEvents s.settings c ((s.day.clockMs + ms) / 1000)

/-- Those events fall due. -/
def eventsFallDue (ms : Nat) (s : State) : State :=
  { s with day := { s.day with dueEvents := s.day.dueEvents ++ eventsBegun ms s } }

/-- The internal timer and the branch clock go on to a moment, when it has not come yet, and the schedule events on the way fall due
(R168): DESIGN CHOICE (log entry 1). -/
def advanceTo (t : Nat) (s : State) : State :=
  if t ≤ s.timer then s else { advanceClock (t - s.timer) (eventsFallDue (t - s.timer) s) with timer := t }

/-! ## Silence watch -/

/-- The silence timer is restarted (R186). -/
def startSilence (s : State) : State :=
  { s with hlk := { s.hlk with
      silenceAt :=
        if s.settings.nat .silenceLimit = 0 then none
        else some (s.timer + 1000 * s.settings.nat .silenceLimit) } }

/-- A valid request restarts the silence timer (R182, R186). -/
def restartSilence (s : State) : State :=
  let t := startSilence s
  { t with hlk := { t.hlk with lastRequest := s.timer } }

/-- Standalone ends at a valid request (R187). The seconds it lasted are counted whole, a begun one left out: DESIGN CHOICE (log entry
68). -/
def endStandalone (s : State) : State :=
  match s.hlk.standalone with
  | none => s
  | some t0 =>
    let body := NoticeBody.hostReturn ((s.timer - t0) / 1000) s.hlk.officeDrops s.hlk.standaloneOverrun
    let s1 := { s with hlk := { s.hlk with standalone := none } }
    let s2 := notify body s1
    { s2 with hlk := { s2.hlk with officeDrops := 0, standaloneOverrun := false } }

/-! ## The keys of writes, and the events that wait for them -/

/-- The key of a setting (log entry 12). -/
def settingKey (id : Nat) : Key := .setting (settingGroup id)

/-- What a write under way is a write of (R6, R24, R188). -/
def NvWrite.keys : NvWrite → List Key
  | .itemAdd _ e => [.item e.code]
  | .itemRemove _ i => [.item i]
  | .pending w => [.item w.item]
  | .effect i => [.item i]
  | .bind _ l i => [.label l, .item i]
  | .unbind _ l i => [.label l, .item i]
  | .retry _ l => [.label l]
  | .ack a _ => [.label a.label]
  | .unreachable l => [.label l]
  | .floor l _ => [.label l]
  | .setting id _ _ => [settingKey id]
  | .branch _ _ => [.branch]

/-- The item a change queue write is for. -/
def QueueOp.item (o : QueueOp) : Nat :=
  match o.action with
  | .upsert e => e.item
  | .remove i => i

/-- A label's entry; one that was never written or has every field at its first value is not listed (R24). -/
def blankLabel (id : Nat) : Label :=
  { id := id, state := .unbound, item := none, confirmed := none, floor := none, failed := 0, battery := none,
    margin := none, health := false, lastAck := none }
/-- A label table entry (R24). -/
def State.label (s : State) (id : Nat) : Label := (s.lrs.labels.find? fun l => l.id == id).getD (blankLabel id)

/-- Insert a label's entry in id order, in place of the one it had. -/
def insertLabel (l : Label) : List Label → List Label
  | [] => [l]
  | h :: t => if l.id < h.id then l :: h :: t else if l.id = h.id then l :: t else h :: insertLabel l t

/-- The label table with an entry written (R24). -/
def putLabel (l : Label) (s : State) : State :=
  { s with lrs := { s.lrs with
      labels :=
        if l = blankLabel l.id then s.lrs.labels.filter (fun x => x.id != l.id) else insertLabel l s.lrs.labels } }

/-- What an event must wait for: the writes of its item, label or setting, as the entries stand (R6, R24, R188). -/
def Work.keys (s : State) : Work → List Key
  | .itemAdd _ i _ _ => [.item i]
  | .itemRemove _ i => [.item i]
  | .itemGet _ i => [.item i]
  | .change c => [.item c.item]
  | .lineAdd _ i _ _ => [.item i]
  | .bind _ l i => [.label l, .item i]
  | .unbind _ l =>
    match (s.label l).item with
    | some i => [.label l, .item i]
    | none => [.label l]
  | .retry _ l => [.label l]
  | .ack a => [.label a.label]
  | .failure l => [.label l]
  | .floor l => [.label l]
  | .setting id _ _ => [settingKey id]

/-- The keys held by the writes under way: the NV writes and the change queue's (R6). -/
def writeKeys (s : State) : List Key := (s.nv.flatMap NvWrite.keys) ++ s.pbk.ops.map fun o => .item o.item

/-- Whether two lists of keys share one. -/
def keysMeet (a b : List Key) : Bool := a.any fun k => b.contains k

/-- The first waiting event whose keys are free of the writes under way and of the events before it, with the rest. -/
def firstReady (s : State) (busy : List Key) : List Work → Option (Work × List Work)
  | [] => none
  | w :: ws =>
    let ks := w.keys s
    if keysMeet ks busy then (firstReady s (busy ++ ks) ws).map fun r => (r.1, w :: r.2)
    else some (w, ws)

/-- An event joins those that wait; it is taken at once by the draining that follows when nothing holds its keys. -/
def queueWork (w : Work) (s : State) : State := { s with waiting := s.waiting ++ [w] }

/-- A write to the NV store starts, unless a RESET's reply has stopped further writes (R194). -/
def startWrite (w : NvWrite) (s : State) : State :=
  if writesStopped s then s else { s with nv := s.nv ++ [w] }

/-- A change queue write goes to the one writer (R6, R10). -/
def queueWrite (o : QueueOp) (s : State) : State :=
  if writesStopped s then s else { s with pbk := { s.pbk with ops := s.pbk.ops ++ [o] } }

/-- The first write under way that a completion names, with the others. -/
def takeWrite (p : NvWrite → Bool) : List NvWrite → Option (NvWrite × List NvWrite)
  | [] => none
  | w :: ws => if p w then some (w, ws) else (takeWrite p ws).map fun r => (r.1, w :: r.2)

/-- A completion: the named write is no longer under way, and `f` says what it made durable; nothing happens when no such
write is under way (log entry 2). -/
def completeWrite (p : NvWrite → Bool) (f : NvWrite → State → State) (s : State) : State :=
  match takeWrite p s.nv with
  | some (w, rest) => f w { s with nv := rest }
  | none => s

end Sys2Proof.Machine
end

