-- ==== Sys2Proof/Machine/GuestOps.lean ====
section
/-! DEFINITION. Guest access: sessions, rate tokens, the spent list, and the guest service state (chapter 8). -/

namespace Sys2Proof.Machine

/-- A session entry (R153). -/
def sessionAt (s : State) (i : Nat) : Option Session := (s.gac.sessions[i]?).getD none

/-- A session entry written or freed. -/
def putSession (i : Nat) (e : Option Session) (s : State) : State :=
  { s with gac := { s.gac with sessions := s.gac.sessions.set i e } }

/-- The entry whose session holds an address (R153). -/
def sessionOf (s : State) (a : Addr) : Option Nat :=
  s.gac.sessions.findIdx? fun e => match e with | some x => x.addr == a | none => false

/-- The lowest-numbered FREE entry (R154). -/
def freeSession (s : State) : Option Nat := s.gac.sessions.findIdx? (·.isNone)

/-- The number of ADMITTED sessions. -/
def admittedCount (s : State) : Nat := s.gac.sessions.countP (·.isSome)

/-- Guest frames dropped are counted (R157). -/
def countDrops (n : Nat) (s : State) : State :=
  { s with gac := { s.gac with drops := satAdd Config.max32 s.gac.drops n } }

/-- The spent list with an address added: at the tail, once, the oldest leaving when there is no room (R160). -/
def spentAfter (a : Addr) (l : List Addr) : List Addr :=
  if l.contains a then l.filter (· != a) ++ [a]
  else if l.length < Config.spentCapacity then l ++ [a]
  else l.tail ++ [a]

/-- Whether a session's end puts its address on the spent list (R159). -/
def EndReason.spends : EndReason → Bool
  | .time | .quota => true
  | _ => false

/-- A session ends (R159); nothing happens to a FREE entry. -/
def endSession (i : Nat) (r : EndReason) (s : State) : State :=
  match sessionAt s i with
  | none => s
  | some e =>
    let s1 := if r.spends then { s with gac := { s.gac with spent := spentAfter e.addr s.gac.spent } } else s
    emit (.sessionEnd e.addr r) (putSession i none s1)

/-- The numbers of the ADMITTED entries, in entry order. -/
def admittedEntries (s : State) : List Nat :=
  (List.range Config.sessionCount).filter fun i => (sessionAt s i).isSome

/-- Every session ends, in entry order: R161 gives it for GUEST END; R152 gives none for the entry to CLOSED, where it is the model's:
DESIGN CHOICE (log entry 43). -/
def endAllSessions (r : EndReason) (s : State) : State :=
  (admittedEntries s).foldl (fun t i => endSession i r t) s

/-- A session's rate tokens brought up to a moment, in eighths of a byte: r kbit/s adds r in each millisecond, up to the
depth (R156, log entry 20). -/
def tokensAt (t : Settings) (now : Nat) (e : Session) : Nat :=
  min (t.nat .depth * 8192) (e.tokenBits + (now - e.tokenTime) * t.nat .rate)

/-- A session with its tokens brought up to date (R156). -/
def freshTokens (t : Settings) (now : Nat) (e : Session) : Session :=
  { e with tokenBits := tokensAt t now e, tokenTime := now }

/-- Every session's tokens brought up to date, as before a change of rate or depth (R156). -/
def refreshAllTokens (s : State) : State :=
  { s with gac := { s.gac with sessions := s.gac.sessions.map fun e => e.map (freshTokens s.settings s.timer) } }

/-- A session as JOIN admits it (R154). -/
def newSession (s : State) (a : Addr) : Session :=
  { addr := a
    admitted := s.clock0
    endsAt := s.timer + 60000 * s.settings.nat .sessionLimit
    quota := (s.settings.nat .quota * 1048576 : Nat)
    tokenBits := s.settings.nat .depth * 8192
    tokenTime := s.timer
    bytesOut := 0
    bytesIn := 0 }

/-- A session's time remaining in whole seconds (R153). -/
def secondsLeft (now : Nat) (e : Session) : Nat := (e.endsAt - now) / 1000

/-- ULC empties the GUEST queue and GAC counts the frames (R114, R152). -/
def emptyGuestQueue (s : State) : State :=
  countDrops s.ulc.guestQ.length { s with ulc := { s.ulc with guestQ := [] } }

/-- Frames of the GUEST queue whose first matching window is no longer EXTERNAL are removed and counted (R121). -/
def rematchGuestQueue (s : State) : State :=
  let keep := s.ulc.guestQ.filter fun f =>
    match f with
    | .guest _ dest _ => externalForGuest s.settings.windows dest
    | _ => true
  countDrops (s.ulc.guestQ.length - keep.length) { s with ulc := { s.ulc with guestQ := keep } }

/-- What GAC does at a change of the service state before it tells the host (R152). -/
def enterService (old new : Service) (s : State) : State :=
  let s1 := s.when (old == .opened) emptyGuestQueue
  let s2 := s1.when (new == .closed) (endAllSessions .close)
  { s2 with gac := { s2.gac with service := new } }

/-- GAC decides the service state again (R151, R152). -/
def guestDecide (s : State) : State :=
  let new := serviceDecided s
  let old := s.gac.service
  if new = old then s
  else
    let t := enterService old new s
    notify (.guestState old new (admittedCount t) (if new = .shed then failingConditions s else [])
      (if new = .closed then admittedCount s else 0)) t

/-- Take an outbound frame's length from a session's tokens and quota (R157). -/
def chargeOut (n : Nat) (e : Session) : Session :=
  { e with tokenBits := e.tokenBits - 8 * n, quota := e.quota - n, bytesOut := e.bytesOut + n }
/-- Take an inbound frame's length from a session's quota (R158). -/
def chargeIn (n : Nat) (e : Session) : Session :=
  { e with quota := e.quota - n, bytesIn := e.bytesIn + n }

/-- ULC's decision on an outbound guest frame (R122). -/
inductive GuestVerdict | guest | isolated | noWindow
  deriving DecidableEq, Repr

/-- ULC matches a guest destination against the windows (R122). -/
def guestVerdict (ws : List Window) (dest : Nat) : GuestVerdict :=
  match firstWindow ws true dest with
  | some w => if w.scope = .external then .guest else .isolated
  | none => .noWindow

/-- One more isolated frame (R122). -/
def countIsolation (s : State) : State :=
  { s with ulc := { s.ulc with isolation := satAdd Config.max16 s.ulc.isolation 1 } }

/-- A session whose quota has run out ends (R157, R158). -/
def endIfSpent (i : Nat) (s : State) : State :=
  match sessionAt s i with
  | some e => if e.quota ≤ 0 then endSession i .quota s else s
  | none => s

/-- An outbound guest data frame, after the first two steps of R157 have found its session. -/
def judgeGuestFrame (i : Nat) (e : Session) (a : Addr) (dest : Nat) (payload : List Byte) (s : State) : State :=
  let n := payload.length
  let e1 := freshTokens s.settings s.timer e
  let s1 := putSession i (some e1) s
  if n < 1 ∨ 1536 < n then countDrops 1 s
  else if e1.tokenBits < 8 * n then countDrops 1 s1
  else if e1.quota < n then countDrops 1 s1
  else
    match guestVerdict s.settings.windows dest with
    | .isolated => countDrops 1 (countIsolation s1)
    | .noWindow => countDrops 1 s1
    | .guest =>
      if s.ulc.guestQ.length < 64 then
        let s2 := { s1 with ulc := { s1.ulc with guestQ := s1.ulc.guestQ ++ [.guest a dest payload] } }
        endIfSpent i (putSession i (some (chargeOut n e1)) s2)
      else countDrops 1 s1

/-- An outbound guest data frame (R157). -/
def guestFrameOut (a : Addr) (dest : Nat) (payload : List Byte) (s : State) : State :=
  match sessionOf s a with
  | none => countDrops 1 s
  | some i =>
    match sessionAt s i with
    | none => countDrops 1 s
    | some e =>
      if s.gac.service = .opened then judgeGuestFrame i e a dest payload s else countDrops 1 s

/-- A guest reply from head office (R158). -/
def guestFrameIn (a : Addr) (payload : List Byte) (s : State) : State :=
  match sessionOf s a with
  | none => countDrops 1 s
  | some i =>
    match sessionAt s i with
    | none => countDrops 1 s
    | some e =>
      endIfSpent i (emit (.guestData a payload) (putSession i (some (chargeIn payload.length e)) s))

/-- The answer to a JOIN (R154). -/
def joinAnswer (a : Addr) (s : State) : State :=
  if s.gac.service ≠ .opened then emit (.joinAnswer a .refusedClosed) s
  else if s.gac.spent.contains a then emit (.joinAnswer a .refusedSpent) s
  else
    match sessionOf s a with
    | some i =>
      match sessionAt s i with
      | some e => emit (.joinAnswer a (.ok (secondsLeft s.timer e) e.quota)) s
      | none => s
    | none =>
      match freeSession s with
      | none => emit (.joinAnswer a .refusedFull) s
      | some i =>
        let e := newSession s a
        emit (.joinAnswer a (.ok (secondsLeft s.timer e) e.quota)) (putSession i (some e) s)

/-- One session of a GUEST LIST reply (R162). -/
def sessionReport (s : State) (i : Nat) (e : Session) : SessionReport :=
  { entry := i
    addr := e.addr
    admitted := e.admitted
    seconds := secondsLeft s.timer e
    quota := e.quota
    tokens := tokensAt s.settings s.timer e / 8
    bytesOut := e.bytesOut
    bytesIn := e.bytesIn }

/-- How many entries fit whole in one GUEST LIST reply (R162, log entry 21). -/
def guestListRoom : Nat := (1024 - Config.guestListHead) / Config.guestListEntry

/-- The GUEST LIST reply (R162). -/
def guestReport (s : State) (start : Nat) : GuestReport :=
  let here := (admittedEntries s).filter fun i => decide (start ≤ i)
  { service := s.gac.service
    failing := failingConditions s
    admitted := admittedCount s
    spent := s.gac.spent.length
    drops := s.gac.drops
    sessions := (here.take guestListRoom).filterMap fun i => (sessionAt s i).map (sessionReport s i)
    next := (here.drop guestListRoom).head? }

end Sys2Proof.Machine
end

