-- ==== Sys2Proof/Machine/JournalOps.lean ====
section
/-! DEFINITION. The sales journal: claims, appends, levels, send states and what JOURNAL READ and JOURNAL INFO report (chapter 5). -/

namespace Sys2Proof.Machine

/-- A claim added to a till's count (R92). -/
def addClaim (till n : Nat) (s : State) : State :=
  { s with sjr := { s.sjr with claims := s.sjr.claims.modify till (· + n) } }

/-- One claimed place of a till consumed or released (R93). -/
def dropClaim (till : Nat) (s : State) : State :=
  { s with sjr := { s.sjr with claims := s.sjr.claims.modify till (· - 1) } }

/-- An append offered to the queue (R94). -/
def offerAppend (a : Append) (s : State) : State :=
  { s with sjr := { s.sjr with queue := s.sjr.queue ++ [a] } }

/-- The amount a record adds to the offline exposure (R99). -/
def RecordBody.exposed : RecordBody → Int
  | .sale total .cardOffline _ _ _ _ => total
  | _ => 0

/-- The exposure of a list of records (R99). -/
def exposureOf (rs : List Record) : Int := (rs.map fun r => r.body.exposed).sum

/-- The UNSENT records of a list (R98). -/
def unsentOf (rs : List Record) : Nat := rs.countP (·.sent.isNone)

/-- The report a JOURNAL LEVEL notice carries (R101). -/
def levelReport (j : Sjr) : LevelReport :=
  { level := j.level
    held := j.held
    claimed := j.claimed
    free := j.free
    oldest := j.oldest
    newest := j.newest
    unsent := j.unsent
    exposure := j.exposure }

/-- The reported level compared with the occupancy, after an append or a removal (R101). -/
def compareLevel (s : State) : State :=
  match levelAfter s.sjr.level s.sjr.held with
  | none => s
  | some l =>
    let j := { s.sjr with level := l }
    notify (.journalLevel (levelReport j)) { s with sjr := j }

/-- The level and the marks after an append or a removal (R101, R102, R151). -/
def recomputeOccupancy (s : State) : State := guestDecide (compareLevel s)

/-- The writer takes an append: sequence, time, and one NV write (R90, R95). -/
def beginAppend (a : Append) (rest : List Append) (s : State) : State :=
  { s with sjr := { s.sjr with
      queue := rest
      writing := some { append := a, seq := s.sjr.counter + 1, time := s.clock0 } } }

/-- The record of an append whose write is done. -/
def Writing.record (w : Writing) : Record :=
  { seq := w.seq, till := w.append.till, time := w.time, body := w.append.body, sent := none }

/-- A durable append joins the list, the counter with it, and a claimed one consumes its place; exposure rises (R90, R95). -/
def recordAppend (w : Writing) (s : State) : State :=
  let s1 := s.when w.append.body.claimed (dropClaim w.append.till)
  { s1 with sjr := { s1.sjr with
      records := s1.sjr.records ++ [w.record]
      counter := w.seq
      writing := none
      unsent := s1.sjr.unsent + 1
      exposure := s1.sjr.exposure + w.append.body.exposed } }

/-- Whether a record with a sequence is held. -/
def Sjr.holds (j : Sjr) (seq : Nat) : Bool := j.records.any fun r => r.seq == seq

/-- A record sent in a batch becomes SENT, if it is still held (R98, R135). -/
def markSent (seq batch : Nat) (s : State) : State :=
  { s with sjr := { s.sjr with
      records := s.sjr.records.map fun r => if r.seq = seq then { r with sent := some batch } else r
      unsent := s.sjr.unsent - s.sjr.records.countP fun r => r.seq == seq && r.sent.isNone } }

/-- The records still SENT with a batch number return to UNSENT (R98). -/
def unsendBatch (batch : Nat) (s : State) : State :=
  { s with sjr := { s.sjr with
      records := s.sjr.records.map fun r => if r.sent = some batch then { r with sent := none } else r
      unsent := s.sjr.unsent + s.sjr.records.countP fun r => r.sent == some batch } }

/-- The oldest UNSENT records, up to a number (R98). -/
def oldestUnsent (s : State) (n : Nat) : List Nat :=
  ((s.sjr.records.filter fun r => r.sent.isNone).take n).map (·.seq)

/-- The sequences held in a range (R105). -/
def rangeHeld (j : Sjr) (first last : Nat) : List Nat :=
  (j.records.filter fun r => decide (first ≤ r.seq) && decide (r.seq ≤ last)).map (·.seq)

/-- The named records leave the list, and the figures with them (R105, steps 1 to 3). -/
def dropRecords (named : List Nat) (s : State) : State :=
  let gone := s.sjr.records.filter fun r => named.contains r.seq
  { s with sjr := { s.sjr with
      records := s.sjr.records.filter fun r => !named.contains r.seq
      exposure := s.sjr.exposure - exposureOf gone
      unsent := s.sjr.unsent - unsentOf gone
      removing := none } }

/-! ## Reading -/

/-- The bytes of a record (11.7). -/
def RecordBody.size : RecordBody → Nat
  | .sale _ _ _ _ _ lines => 30 + 12 * lines.length
  | .voidedBasket _ _ lines => 16 + 12 * lines.length
  | .authTrace _ _ => 30

/-- A card reference with its first 12 bytes zero (R86, R103). -/
def maskCard (c : CardRef) : CardRef := c &&& 0xFFFFFFFF#128

/-- A record as the host reads it (R103). -/
def maskRecord (r : Record) : Record :=
  match r.body with
  | .authTrace amount card => { r with body := .authTrace amount (maskCard card) }
  | _ => r

/-- As many records, up to a count, as fit whole in the bytes left of a reply (R103, 11.7). -/
def fitting : Nat → Nat → List Record → List Record
  | 0, _, _ => []
  | _, _, [] => []
  | n + 1, room, r :: rs =>
    if r.body.size + 2 ≤ room then r :: fitting n (room - (r.body.size + 2)) rs else []

/-- The records of a JOURNAL READ reply, in list order (R103); the reply's own fields before them take 9 bytes (11.7). -/
def readRecords (j : Sjr) (fromSeq count : Nat) : List Record :=
  fitting count 1015 (j.records.filter fun r => decide (fromSeq ≤ r.seq))

/-- The sequence of the next held record after those returned (R103). -/
def readNext (j : Sjr) (fromSeq count : Nat) : Option Nat :=
  (((j.records.filter fun r => decide (fromSeq ≤ r.seq)).drop (readRecords j fromSeq count).length).head?).map (·.seq)

/-- The JOURNAL INFO reply (R104). -/
def journalReport (s : State) : JournalReport :=
  { held := s.sjr.held
    claimed := s.sjr.claimed
    free := s.sjr.free
    tenths := s.sjr.tenths
    oldest := s.sjr.oldest
    newest := s.sjr.newest
    counter := s.sjr.counter
    unsent := s.sjr.unsent
    exposure := s.sjr.exposure
    level := s.sjr.level
    promoteReached := promoteReached s
    shedReached := shedReached s
    queued := s.sjr.queue.length
    writing := s.sjr.writing.isSome }

end Sys2Proof.Machine
end

