-- ==== Sys2Proof/Machine/TransferOps.lean ====
section
/-! DEFINITION. The transfer engine: batches, the night run, the price file request, and the removals that acknowledgements cause (chapter 7, R105). -/

namespace Sys2Proof.Machine

/-- The batch in flight written. -/
def putBatch (b : Option Batch) (s : State) : State := { s with txe := { s.txe with batch := b } }
/-- The file request written. -/
def putFile (f : Option FileRequest) (s : State) : State := { s with txe := { s.txe with file := f } }

/-- Whether a frame of the JOURNAL queue belongs to a batch. -/
def UpFrame.inBatch (n : Nat) : UpFrame → Bool
  | .journalRecord b _ _ _ => b == n
  | _ => false
/-- Whether a frame of the PRICE queue is a FILE REQUEST. -/
def UpFrame.isFileRequest : UpFrame → Bool
  | .fileRequest _ _ => true
  | _ => false

/-- A batch's frames still waiting in the JOURNAL queue are withdrawn (R136, R138). -/
def withdrawBatch (n : Nat) (s : State) : State :=
  { s with ulc := { s.ulc with journalQ := s.ulc.journalQ.filter fun f => !f.inBatch n } }
/-- A FILE REQUEST still waiting in the PRICE queue is withdrawn (R145, R147). -/
def withdrawFileRequest (s : State) : State :=
  { s with ulc := { s.ulc with priceQ := s.ulc.priceQ.filter fun f => !f.isFileRequest } }

/-- The retry delay in milliseconds (R133). A delay or a pause that runs keeps the end it started with when the setting changes: DESIGN
CHOICE (log entry 57). -/
def retryDelayMs (s : State) : Nat := 1000 * s.settings.nat .retryDelay
/-- The retry window in milliseconds (R133). -/
def retryWindowMs (s : State) : Nat := 60000 * s.settings.nat .retryWindow
/-- Whether a retry window is still open (R137). -/
def windowOpen (s : State) (first : Option Nat) : Bool :=
  match first with
  | some t => decide (s.timer - t < retryWindowMs s)
  | none => true

/-- Whether a night run is in progress. -/
def RunState.going : RunState → Bool
  | .upload | .download => true
  | _ => false

/-- Whether trickle may send (R140). -/
def trickleMaySend (s : State) : Bool :=
  (s.day.store == .opened || s.day.store == .closing) && s.settings.on .trickleEnable &&
  permittedNow s .journal && s.txe.pauseEnd.isNone

/-- Whether a batch's owner may send (R134, R137, R140, R143). -/
def ownerMaySend (s : State) : BatchOwner → Bool
  | .trickle => trickleMaySend s
  | .night => s.ulc.active.isSome

/-- The batch in flight is aborted; a TRICKLE batch leaves a pause (R138, R140). -/
def abortBatch (s : State) : State :=
  match s.txe.batch with
  | none => s
  | some b =>
    let s1 := unsendBatch b.number (withdrawBatch b.number s)
    { s1 with txe := { s1.txe with
        batch := none
        counts := { s1.txe.counts with aborts := s1.txe.counts.aborts + 1 }
        pauseEnd := if b.owner = .trickle then some (s.timer + retryDelayMs s) else s1.txe.pauseEnd } }

/-- The batch in flight ends as accepted (R136, steps 2 to 5). -/
def acceptBatch (s : State) : State :=
  match s.txe.batch with
  | none => s
  | some b => putBatch none (unsendBatch b.number (withdrawBatch b.number s))

/-- The counts of a run: those of now less those at its start (R147). -/
def countsSince (now base : TransferCounts) : TransferCounts :=
  { aborts := now.aborts - base.aborts
    lateAcks := now.lateAcks - base.lateAcks
    latePieces := now.latePieces - base.latePieces }

/-- The change queue's length as the checks count it: its entries, and the joins on their way through the writer (R7, R144;
log entry 11). -/
def queueCount (s : State) : Nat :=
  s.pbk.queue.length + s.pbk.ops.countP fun o =>
    match o.action with
    | .upsert e => !s.pbk.queue.any fun q => q.item == e.item
    | .remove _ => false

/-- The run ends with the results given for what is absent (R147). Its report does not wait for the removal of an ACCEPTED taken in
DOWNLOAD that is still being written: DESIGN CHOICE (log entry 48). -/
def endRun (upload download : PhaseResult) (s : State) : State :=
  let s1 := { s with txe := { s.txe with run := { s.txe.run with
    download := some download
    upload := some (s.txe.run.upload.getD upload) } } }
  let s2 := putFile none (withdrawFileRequest (abortBatch s1))
  let s3 := { s2 with txe := { s2.txe with run := { s2.txe.run with
    endTime := some s2.clock0
    state := .ended } } }
  notify (.nightReport s3.txe.run s3.sjr.unsent s3.pbk.queue.length (countsSince s3.txe.counts s3.txe.runBase)) s3

/-- A run starts; a TRICKLE batch in flight becomes its batch (R141). -/
def startRun (cause : StartCause) (s : State) : State :=
  { s with txe := { s.txe with
      run :=
        { state := .upload, cause := some cause, startTime := some s.clock0, endTime := none, upload := none,
          download := none, uploaded := 0, received := 0, rejected := 0 }
      runBase := s.txe.counts
      abortDue := false
      batch := s.txe.batch.map fun b => { b with owner := .night } } }

/-- A run in UPLOAD or DOWNLOAD is aborted (R148). -/
def abortNow (s : State) : State :=
  match s.txe.run.state with
  | .upload => endRun .aborted .skipped s
  | .download => endRun .failed .aborted s
  | _ => s

/-- Whether a reply taken while the run goes on is still being handled: an ACCEPTED whose removal the journal has not told, or a piece
whose changes PBK has not all answered (R148). One that is taken while the abort waits counts too and prolongs the wait: DESIGN CHOICE
(log entry 48). -/
def replyPending (s : State) : Bool :=
  s.txe.run.state.going &&
  ((match s.sjr.removing with | some w => w.req.counts | none => false) || s.sjr.removals.any (·.counts) ||
    match s.txe.file with | some f => f.state == .feeding | none => false)

/-- The abort that OPENING entry asked for is made once no reply taken before it is still being handled (R148; log entry 48). -/
def settleAbort (s : State) : State :=
  if s.txe.abortDue ∧ replyPending s = false then abortNow { s with txe := { s.txe with abortDue := false } } else s

/-- OPENING entry aborts a run in UPLOAD or DOWNLOAD: at once, or when the reply that was taken first has been handled (R148). -/
def abortRun (s : State) : State := settleAbort { s with txe := { s.txe with abortDue := s.txe.run.state.going } }

/-- UPLOAD ends and DOWNLOAD begins (R143, R144). -/
def beginDownload (upload : PhaseResult) (s : State) : State :=
  { s with txe := { s.txe with
      run := { s.txe.run with state := .download, upload := some upload }
      pieceNumber := 0
      file := some
        { state := .waitingRoom, firstSent := none, expiry := none, retryEnd := none, feed := [], last := false,
          awaiting := false } } }

/-- A NIGHT batch aborted by R137 fails the upload (R138, R143). -/
def failUpload (owner : BatchOwner) (s : State) : State :=
  if owner = .night ∧ s.txe.run.state = .upload then beginDownload .failed s else s

/-- The batch waiting for its acknowledgement is told BUSY, expires, or loses its session (R137); not one whose ACCEPTED has been
taken (R136). -/
def batchBusy (s : State) : State :=
  match s.txe.batch with
  | none => s
  | some b =>
    if b.state ≠ .waitingAck ∨ b.accepted = true then s
    else if windowOpen s b.firstSent then
      putBatch (some { b with state := .retryWait, expiry := none, retryEnd := some (s.timer + retryDelayMs s) }) s
    else failUpload b.owner (abortBatch s)

/-- The file request that was sent is told FILE BUSY, expires, or loses its session (R146). -/
def fileRequestBusy (s : State) : State :=
  match s.txe.file with
  | none => s
  | some f =>
    if f.state ≠ .sent then s
    else if windowOpen s f.firstSent then
      putFile (some { f with state := .retryWait, expiry := none, retryEnd := some (s.timer + retryDelayMs s) }) s
    else endRun .failed .failed s

/-- A path session has ended: an expiry bound to it counts as BUSY (R109). -/
def transferSessionEnd (n : Nat) (s : State) : State :=
  let s1 :=
    match s.txe.batch with
    | some b => match b.expiry with
      | some e => if e.session = n then batchBusy s else s
      | none => s
    | none => s
  match s1.txe.file with
  | some f => match f.expiry with
    | some e => if e.session = n then fileRequestBusy s1 else s1
    | none => s1
  | none => s1

/-! ## Frames sent -/

/-- A journal frame has been sent in a session (R135). -/
def journalFrameSent (batch seq session : Nat) (s : State) : State :=
  let s1 := markSent seq batch s
  match s1.txe.batch with
  | some b =>
    if b.number = batch then
      putBatch (some { b with
        framesSent := b.framesSent + 1
        firstSent := some (b.firstSent.getD s.timer)
        lastSession := session }) s1
    else s1
  | none => s1

/-- The FILE REQUEST has been sent in a session (R144). -/
def fileRequestSent (session : Nat) (s : State) : State :=
  match s.txe.file with
  | some f =>
    if f.state = .queued then
      putFile (some { f with
        state := .sent
        firstSent := some (f.firstSent.getD s.timer)
        expiry := some { tick := s.ulc.t3.counter, session := session } }) s
    else s
  | none => s

/-! ## Forming and offering -/

/-- A batch is formed of the oldest UNSENT records (R134). -/
def formBatch (owner : BatchOwner) (s : State) : State :=
  let size := match owner with
    | .trickle => s.settings.nat .trickleSize
    | .night => s.settings.nat .nightSize
  match oldestUnsent s size with
  | [] => s
  | ms =>
    { s with txe := { s.txe with
        batch := some
          { number := s.txe.nextBatch, members := ms, owner := owner, state := .sending, framesSent := 0,
            firstSent := none, toOffer := ms, lastSession := 0, expiry := none, retryEnd := none, accepted := false }
        nextBatch := (s.txe.nextBatch + 1) % 256 } }

/-- A batch that waited out its delay is sent again when its owner may send (R137); members no longer held are dropped. One that holds no
member any more ends here as if accepted, like one of R134: DESIGN CHOICE (log entry 69). The place and the member count in the frames
sent again are those over the members that are left: DESIGN CHOICE (log entry 22). -/
def resumeBatch (s : State) : State :=
  match s.txe.batch with
  | some b =>
    if b.state = .retryWait ∧ b.accepted = false ∧ b.retryEnd = none ∧ ownerMaySend s b.owner = true then
      let held := b.members.filter s.sjr.holds
      putBatch (some { b with state := .sending, framesSent := 0, members := held, toOffer := held }) s
    else s
  | none => s

/-- The place of a member among the members of its batch, counted from 1: DESIGN CHOICE (R135, log entry 22). -/
def placeOf (m : Nat) (ms : List Nat) : Nat := ms.idxOf m + 1

/-- One member's frame is offered to the JOURNAL queue, or the member is dropped when its record is no longer held
(R134, R135). After members were dropped, the frames that follow carry place and count over those that are left: DESIGN CHOICE (log entry
22). -/
def offerMember (s : State) : State :=
  match s.txe.batch with
  | some b =>
    match b.state, b.accepted, b.toOffer with
    | .sending, false, m :: rest =>
      match s.sjr.records.find? fun r => r.seq == m with
      | none => putBatch (some { b with toOffer := rest, members := b.members.filter (· != m) }) s
      | some r =>
        if s.ulc.journalQ.length < 32 then
          let f := UpFrame.journalRecord b.number (placeOf m b.members) b.members.length { r with sent := none }
          putBatch (some { b with toOffer := rest }) { s with ulc := { s.ulc with journalQ := s.ulc.journalQ ++ [f] } }
        else s
    | _, _, _ => s
  | none => s

/-- As many members as the queue has room for are offered (R135). -/
def offerMembers : Nat → State → State
  | 0, s => s
  | n + 1, s => offerMembers n (offerMember s)

/-- A batch all of whose members were dropped ends; one all of whose frames have been sent waits for its acknowledgement (R134, R135).
One whose last frames were dropped after the others had gone waits from the drop on, by the T3 count of that moment and the session of its
last frame: DESIGN CHOICE (log entry 69). -/
def settleBatch (s : State) : State :=
  match s.txe.batch with
  | some b =>
    if b.accepted then s
    else if b.members = [] then acceptBatch s
    else if b.state = .sending ∧ b.toOffer = [] ∧ (s.ulc.journalQ.any fun f => f.inBatch b.number) = false then
      putBatch (some { b with
        state := .waitingAck
        expiry := some { tick := s.ulc.t3.counter, session := b.lastSession } }) s
    else s
  | none => s

/-- The upload phase with no batch in flight ends OK or forms a batch (R143); trickle forms one when it may (R140). A run whose abort
waits for a reply works on: DESIGN CHOICE (log entry 48). -/
def formNext (s : State) : State :=
  if s.txe.batch.isSome then s
  else if s.txe.run.state = .upload then
    if s.sjr.unsent = 0 then beginDownload .ok s
    else if s.ulc.active.isSome then formBatch .night s
    else s
  else if trickleMaySend s then formBatch .trickle s
  else s

/-- A FILE REQUEST is offered to the PRICE queue when there is a path and room (R144). Its branch number is that of the moment it joins
the queue, and 0 while the number is unset: DESIGN CHOICE (log entry 66). -/
def offerFileRequest (s : State) : State :=
  match s.txe.file with
  | some f =>
    if f.state = .waitingRoom ∧ s.ulc.active.isSome = true ∧ queueCount s + 32 ≤ Config.queueCapacity ∧
        s.ulc.priceQ.length < 32 then
      let frame := UpFrame.fileRequest s.txe.pieceNumber (s.identity.branch.getD 0)
      putFile (some { f with state := .queued }) { s with ulc := { s.ulc with priceQ := s.ulc.priceQ ++ [frame] } }
    else s
  | none => s

/-! ## The price file -/

/-- A piece or NO_FILE is an answer to the request when the number is its own and it is SENT, QUEUED or RETRY_WAIT
(R145, R146). -/
def answersRequest (s : State) (number : Nat) : Option FileRequest :=
  match s.txe.file with
  | some f =>
    if number = s.txe.pieceNumber ∧ (f.state = .sent ∨ f.state = .queued ∨ f.state = .retryWait) then some f else none
  | none => none

/-- One more late piece (R145). -/
def countLatePiece (s : State) : State :=
  { s with txe := { s.txe with counts := { s.txe.counts with latePieces := s.txe.counts.latePieces + 1 } } }
/-- One more late acknowledgement (R139). -/
def countLateAck (s : State) : State :=
  { s with txe := { s.txe with counts := { s.txe.counts with lateAcks := s.txe.counts.lateAcks + 1 } } }

/-- A piece is taken and its changes wait to be handed to PBK (R145). -/
def takePiece (f : FileRequest) (last : Bool) (changes : List PieceChange) (s : State) : State :=
  let s1 := putFile (some { f with
    state := .feeding, expiry := none, retryEnd := none, feed := changes, last := last, awaiting := false })
    (withdrawFileRequest s)
  { s1 with txe := { s1.txe with run := { s1.txe.run with received := s1.txe.run.received + changes.length } } }

/-- PBK has answered the change TXE waits for (R145). -/
def nightAnswer (accepted : Bool) (s : State) : State :=
  match s.txe.file with
  | some f =>
    if f.state = .feeding ∧ f.awaiting = true then
      let s1 := putFile (some { f with awaiting := false }) s
      { s1 with txe := { s1.txe with run := { s1.txe.run with
          rejected := s1.txe.run.rejected + (if accepted then 0 else 1) } } }
    else s
  | none => s

/-- Every change of the piece has been answered (R145). -/
def finishPiece (f : FileRequest) (s : State) : State :=
  if f.last then endRun .failed .ok s
  else if s.txe.pieceNumber < Config.max16 then
    let s1 := putFile (some { f with state := .waitingRoom, firstSent := none }) s
    { s1 with txe := { s1.txe with pieceNumber := s1.txe.pieceNumber + 1 } }
  else endRun .failed .failed s

/-! ## Removal of acknowledged records -/

/-- TXE is told how many records a removal took (R105 step 5, R136, R143). A number told after the run has ended is added to the record
as it then stands: DESIGN CHOICE (log entry 48). -/
def removalTold (r : Removal) (n : Nat) (s : State) : State :=
  let s1 := s.when r.counts fun t =>
    { t with txe := { t.txe with run := { t.txe.run with uploaded := t.txe.run.uploaded + n } } }
  match r.batch, s1.txe.batch with
  | some b, some cur => if cur.number = b then acceptBatch s1 else s1
  | _, _ => s1

/-- A removal is taken: one NV write, or none when the range names no held record (R105). -/
def takeRemoval (r : Removal) (s : State) : State :=
  match rangeHeld s.sjr r.first r.last with
  | [] => removalTold r 0 s
  | named => if writesStopped s then s else { s with sjr := { s.sjr with removing := some { req := r, named := named } } }

/-- A removal asked for is taken at once; while another removal's write is under way it waits, first in first out, and its range is
judged against the list when its turn comes: DESIGN CHOICE (log entry 47). -/
def askRemoval (r : Removal) (s : State) : State :=
  if s.sjr.removing.isSome then { s with sjr := { s.sjr with removals := s.sjr.removals ++ [r] } } else takeRemoval r s

/-- The removals that waited are taken, up to the first that needs a write. -/
def nextRemovals : Nat → State → State
  | 0, s => s
  | n + 1, s =>
    match s.sjr.removing, s.sjr.removals with
    | none, r :: rest => nextRemovals n (takeRemoval r { s with sjr := { s.sjr with removals := rest } })
    | _, _ => s

/-- Members whose records a removal has taken are dropped from the batch, those whose frames have not joined the queue (R134, R139); what
follows when they were the last to be offered is the choice of log entry 69. -/
def dropMembers (named : List Nat) (s : State) : State :=
  putBatch (s.txe.batch.map fun b =>
    { b with
      members := b.members.filter fun m => !(named.contains m && b.toOffer.contains m)
      toOffer := b.toOffer.filter fun m => !named.contains m }) s

/-- A removal's completion event (R105). -/
def removalDone (w : RemovalWrite) (s : State) : State :=
  let n := (s.sjr.records.filter fun r => w.named.contains r.seq).length
  let s1 := removalTold w.req n (dropMembers w.named (recomputeOccupancy (dropRecords w.named s)))
  nextRemovals s1.sjr.removals.length s1

/-! ## Observation -/

/-- The time left in a retry window, 0 once it has run out (R150), in milliseconds: DESIGN CHOICE (log entry 45). It is given from the
first sending on, in every state: DESIGN CHOICE (log entry 54). -/
def windowLeft (s : State) (first : Option Nat) : Option Nat := first.map fun t => t + retryWindowMs s - s.timer
/-- The time left in a delay (R150), in milliseconds: DESIGN CHOICE (log entry 45). -/
def delayLeft (s : State) (e : Option Nat) : Option Nat := e.map fun t => t - s.timer

/-- The TRANSFER STATUS reply (R150). A batch and a file request carry the time left in the window and that in the delay as two optional
fields, both present in RETRY_WAIT: DESIGN CHOICE (log entry 54). -/
def transferReport (s : State) : TransferReport :=
  { batch := s.txe.batch.map fun b =>
      { number := b.number, owner := b.owner, state := b.state, members := b.members.length, first := b.members.head?,
        last := b.members.getLast?, framesSent := b.framesSent, windowLeft := windowLeft s b.firstSent,
        delayLeft := delayLeft s b.retryEnd }
    trickleMaySend := trickleMaySend s
    pauseLeft := delayLeft s s.txe.pauseEnd
    file := s.txe.file.map fun f =>
      { state := f.state, piece := s.txe.pieceNumber, windowLeft := windowLeft s f.firstSent,
        delayLeft := delayLeft s f.retryEnd }
    pieceNumber := s.txe.pieceNumber
    run := s.txe.run
    counts := s.txe.counts }

end Sys2Proof.Machine
end

