-- ==== Sys2Proof/Machine/TillOps.lean ====
section
/-! DEFINITION. Till places and baskets: the operations on a place, the frames to a till, voided baskets and the claims of tenders (chapter 3). -/

namespace Sys2Proof.Machine

/-- A till place (R49). -/
def placeAt (s : State) (t : Nat) : Place := s.tsu.places.getD t freePlace
/-- A till place written. -/
def putPlace (t : Nat) (p : Place) (s : State) : State :=
  { s with tsu := { s.tsu with places := s.tsu.places.set t p } }

/-- A line's amount: quantity times unit price, or 0 when voided (R49). -/
def BasketLine.amount (l : BasketLine) : Int := if l.voided then 0 else l.qty * l.price
/-- The basket total (R49). -/
def basketTotal (b : List BasketLine) : Int := (b.map BasketLine.amount).sum
/-- Whether a basket has a line that is not voided (R61). -/
def hasLine (b : List BasketLine) : Bool := b.any fun l => !l.voided
/-- Whether a total lies in its range (R56). -/
def totalFits (t : Int) : Bool := decide (-Config.maxTotal ≤ t) && decide (t ≤ Config.maxTotal)

/-- A frame from the part to a till. -/
def sendTill (t : Nat) (a : Addr) (k : TillKind) (r : Result) (b : TillBody) (s : State) : State :=
  emit (.till t a k r b) s

/-- A place as FREE, keeping only its last-frame time (R49). -/
def freedPlace (p : Place) : Place := { freePlace with lastFrame := p.lastFrame }
/-- A place made FREE (R52, R54, R65, R69). -/
def freeTill (t : Nat) (s : State) : State := putPlace t (freedPlace (placeAt s t)) s

/-- A place whose request-in-progress flag clears (R51). -/
def clearedPlace (now : Nat) (p : Place) : Place := { p with busy := false, lastFrame := now }

/-- The place's sale ends and it is IDLE again with an empty basket. -/
def idlePlace (p : Place) : Place := { p with state := .idle, basket := [], trace := none }

/-- An authorization entry is removed when its place has left AUTHORIZING and ORPHANED (R81). -/
def removeEntry (t : Nat) (s : State) : State :=
  { s with auz := { s.auz with entries := s.auz.entries.filter fun e => e.till != t } }

/-- TSU starts an append of its own or for a request: the flag is set and the append joins the queue (R51, R94). -/
def startAppend (t : Nat) (body : RecordBody) (given : Int) (s : State) : State :=
  offerAppend { till := t, body := body, given := given } (putPlace t { placeAt s t with busy := true } s)

/-- The VOIDED_BASKET record of a place's basket (R59, R65, R66, R68). -/
def voidBody (p : Place) (r : VoidReason) : RecordBody := .voidedBasket r (basketTotal p.basket) p.basket

/-- TSU asks for the VOIDED_BASKET record of a place (R59, R65, R66, R68). -/
def startVoid (t : Nat) (r : VoidReason) (s : State) : State := startAppend t (voidBody (placeAt s t) r) 0 s

/-- Whether the closing grace is over: the store is CLOSING and the grace does not run (R68). -/
def graceOver (s : State) : Bool := s.day.store == .closing && s.tsu.grace.isNone

/-- A BASKET place whose flag is clear is closed once the grace is over (R64, R68). -/
def closeIfDue (t : Nat) (s : State) : State :=
  let p := placeAt s t
  if graceOver s ∧ p.state = .basket ∧ p.busy = false then startVoid t .close s else s

/-- The flag of a place clears; a basket left open after the grace is closed (R51, R68). -/
def clearBusy (t : Nat) (s : State) : State :=
  closeIfDue t (putPlace t (clearedPlace s.timer (placeAt s t)) s)

/-- The till numbers. -/
def tillNumbers : List Nat := List.range Config.tillCount

/-- Every BASKET place whose flag is clear is closed (R68), one after another in the order of till numbers, so that their records
take their sequences in it: DESIGN CHOICE (log entry 43). -/
def closeBaskets (s : State) : State := tillNumbers.foldl (fun u t => closeIfDue t u) s

/-- At NIGHT entry an IDLE place becomes FREE and its till is sent a CLOSED frame (R69). The result it carries is CLOSED: DESIGN
CHOICE (log entry 44). -/
def closeIdle (t : Nat) (s : State) : State :=
  let p := placeAt s t
  if p.state = .idle then sendTill t (p.addr.getD 0) .closed .closed .empty (freeTill t s) else s

/-- Every IDLE place becomes FREE (R69), one after another in the order of till numbers, so that the CLOSED frames go out in it: DESIGN
CHOICE (log entry 43). -/
def closeIdlePlaces (s : State) : State := tillNumbers.foldl (fun u t => closeIdle t u) s

/-- Whether a place holds a sale in hand (R68, R170). -/
def Place.inHand (p : Place) : Bool :=
  p.state == .basket || p.state == .authorizing || p.state == .orphaned

/-- Whether no place is BASKET, AUTHORIZING or ORPHANED (R170). -/
def tillsDone (s : State) : Bool := s.tsu.places.all fun p => !p.inHand

/-- The TILL LOST notice of a place (R67). -/
def tillLostNotice (t : Nat) (p : Place) (lostIn : PlaceState) (o : LostOutcome) : NoticeBody :=
  .tillLost t p.addr lostIn p.basket.length (basketTotal p.basket) o

/-- The SALE record of an approved place (R63, R66). -/
def approvedBody (p : Place) (tender : Tender) (code : Option (List Byte)) : RecordBody :=
  .sale (basketTotal p.basket) tender p.trace code (p.state == .orphaned) p.basket

/-- What a place's row of a TILL STATUS reply carries (R71). The time since the last frame is in milliseconds: DESIGN CHOICE (log
entry 45). -/
def placeReport (s : State) (p : Place) : PlaceReport :=
  { state := p.state
    addr := p.addr
    sinceFrame := s.timer - p.lastFrame
    busy := p.busy
    lines := p.basket.length
    total := basketTotal p.basket
    trace := p.trace
    lastResult := p.lastResult }

/-- The closing grace remaining, when it is running (R71), in milliseconds: DESIGN CHOICE (log entry 45). -/
def graceLeft (s : State) : Option Nat := s.tsu.grace.map fun e => e - s.timer

/-- The answer to a till request: the frame, and the flag set and cleared in the same step (R51). -/
def answerTill (t : Nat) (k : TillKind) (r : Result) (b : TillBody) (s : State) : State :=
  clearBusy t (sendTill t ((placeAt s t).addr.getD 0) k r b s)

/-! ## The checks of a till frame -/

/-- Whether a frame from an address counts as a place's last frame: the place is IDLE, BASKET or AUTHORIZING, and the address is the
one bound to it (R50). -/
def heardFrom (a : Addr) (p : Place) : Bool :=
  (p.state == .idle || p.state == .basket || p.state == .authorizing) && p.addr == some a

/-- The place whose last frame a frame is: the one it names when that is bound to its address, else the one that is, whatever till the
frame names (R50). HELLO binds no address to two places (R52). -/
def soundingPlace (h : TillHead) (s : State) : Option Nat :=
  if heardFrom h.addr (placeAt s h.till) then some h.till
  else tillNumbers.find? fun t => heardFrom h.addr (placeAt s t)

/-- A frame from the bound address of an IDLE, BASKET or AUTHORIZING place sets that place's last-frame time, whatever its request and
its answer (R50). -/
def touchPlace (h : TillHead) (s : State) : State :=
  match soundingPlace h s with
  | some t => putPlace t { placeAt s t with lastFrame := s.timer } s
  | none => s

/-- The refusal of R50, steps 2 to 5, of a request other than HELLO. -/
def tillRefusal (h : TillHead) (s : State) : Option Result :=
  let p := placeAt s h.till
  if 15 < h.till then some .range
  else if p.state = .free ∨ p.addr ≠ some h.addr then some .notLoggedOn
  else if p.state = .orphaned then some .busy
  else if p.busy then some .busy
  else none

/-- A till request other than HELLO (R50): refused, or taken by its own rule. -/
def tillFrame (h : TillHead) (k : TillKind) (own : State → State) (s : State) : State :=
  match tillRefusal h s with
  | some r => sendTill h.till h.addr k r .empty (touchPlace h s)
  | none => own (touchPlace h s)

/-- A till frame of a kind that names no till request: R50's checks, and then RANGE (R50, R196). The answer carries the kind as it
was received: DESIGN CHOICE (log entry 49). -/
def unknownTillKind (h : TillHead) (kind : Nat) (s : State) : State :=
  tillFrame h (.other kind) (answerTill h.till (.other kind) .range .empty) s

end Sys2Proof.Machine
end

