-- ==== Sys2Proof/Machine/DayOps.lean ====
section
/-! DEFINITION. The trading day: entering a store state and what each block does at it, QUIET and the wake, site lines, and the schedule events (chapter 9). -/

namespace Sys2Proof.Machine

/-! ## The radio at QUIET and at the wake -/

/-- A transmission that has not begun its frame no longer waits to decide its floor write. -/
def dropFloorWork (s : State) : State :=
  { s with waiting := s.waiting.filter fun w => match w with | .floor _ => false | _ => true }

/-- The transmission in flight is abandoned: neither success nor failure (R40, R45). -/
def abandonTransmission (s : State) : State :=
  dropFloorWork { s with lrs := { s.lrs with inFlight := none } }

/-- The radio goes ASLEEP (R45). -/
def sleepRadio (s : State) : State :=
  let s1 := abandonTransmission s
  { s1 with lrs := { s1.lrs with
      radio := .asleep, burst := none, waitingBurst := none, nextBeacon := none, settleEnd := none } }

/-- The radio goes SETTLING (R46). A settle time that is set meanwhile holds from the next SETTLING: DESIGN CHOICE (log entry 57). -/
def settleRadio (s : State) : State :=
  { s with lrs := { s.lrs with radio := .settling, settleEnd := some (s.timer + s.settings.nat .settleTime) } }

/-- The refresh cursor returns to 0 when refresh becomes enabled from disabled; QUIET has no refresh setting (R39). -/
def refreshEdge (old new : StoreState) (s : State) : State :=
  if (refreshSetting old).isSome ∧ refreshEnabled s.settings old = false ∧ refreshEnabled s.settings new = true then
    { s with lrs := { s.lrs with cursor := 0 } }
  else s

/-! ## Store states -/

/-- The store enters a state; the STATE notice gives the cause, and start-up gives none (R171, R179). -/
def setStore (new : StoreState) (cause : Option StateCause) (s : State) : State :=
  let old := s.day.store
  let s1 := refreshEdge old new { s with day := { s.day with store := new } }
  match cause with
  | some c => notify (.state old new s1.clock0 c) s1
  | none => s1

/-- The quiet delay starts (R173). A quiet delay that is set while it runs holds from the next start: DESIGN CHOICE (log entry 57). -/
def startQuietDelay (s : State) : State :=
  { s with day := { s.day with quietAt := some (s.timer + 60000 * s.settings.nat .quietDelay) } }

/-- OPENING is entered (R170). -/
def enterOpening (cause : Option StateCause) (s : State) : State :=
  let s1 := setStore .opening cause s
  guestDecide (abortRun { s1 with day := { s1.day with quietAt := none } })

/-- OPEN is entered (R170). -/
def enterOpen (cause : Option StateCause) (s : State) : State := guestDecide (setStore .opened cause s)

/-- What follows an entry to NIGHT from CLOSING or at start-up (R69, R160, R170). -/
def nightEffects (run : Bool) (s : State) : State :=
  let s1 := closeIdlePlaces { s with tsu := { s.tsu with grace := none } }
  let s2 := guestDecide { s1 with gac := { s1.gac with spent := [] } }
  startQuietDelay (s2.when run (startRun .nightEntry))

/-- NIGHT is entered from CLOSING (R141, R170). It starts a run with the clock unset too: DESIGN CHOICE (log entry 67). -/
def enterNight (s : State) : State := nightEffects true (setStore .night (some .tillsDone) s)

/-- CLOSING gives way to NIGHT when no place is BASKET, AUTHORIZING or ORPHANED (R170). -/
def testTillsDone (s : State) : State :=
  if s.day.store = .closing ∧ tillsDone s = true then enterNight s else s

/-- The closing grace starts; one of 0 closes the open baskets at once (R68). A grace that is set while it runs holds from the next
CLOSING: DESIGN CHOICE (log entry 57). -/
def startGrace (s : State) : State :=
  if s.settings.nat .closingGrace = 0 then closeBaskets { s with tsu := { s.tsu with grace := none } }
  else { s with tsu := { s.tsu with grace := some (s.timer + 60000 * s.settings.nat .closingGrace) } }

/-- CLOSING is entered (R170). -/
def enterClosing (cause : Option StateCause) (s : State) : State :=
  testTillsDone (guestDecide (startGrace (setStore .closing cause s)))

/-! ## Site lines -/

/-- The value of a site line. -/
def LineValues.get (v : LineValues) : SiteLine → Bool
  | .door => v.door
  | .mains => v.mains
  | .alarmSet => v.alarmSet
  | .spare => v.spare
/-- The values with one line changed. -/
def LineValues.put (v : LineValues) (l : SiteLine) (b : Bool) : LineValues :=
  match l with
  | .door => { v with door := b }
  | .mains => { v with mains := b }
  | .alarmSet => { v with alarmSet := b }
  | .spare => { v with spare := b }

/-- A SITE notice for a line; the last-reported value follows only when the notice enters the queue (R172). -/
def reportLine (l : SiteLine) (s : State) : State :=
  let v := s.day.lines.get l
  let room := noticeRoom s
  let s1 := notify (.site l v s.clock0 s.day.lines) s
  if room then { s1 with day := { s1.day with reported := s1.day.reported.put l v } } else s1

/-- Each line whose present value differs from its last-reported value is reported (R175), in R172's order of the four lines: DESIGN
CHOICE (log entry 43). -/
def reportLines (s : State) : State :=
  [SiteLine.door, .mains, .alarmSet, .spare].foldl
    (fun u l => if u.day.lines.get l = u.day.reported.get l then u else reportLine l u) s

/-! ## QUIET and the wake -/

/-- The store state a wake chooses (R175). -/
def wakeState (s : State) (c : WakeCause) : StoreState :=
  if c = .openLead then .opening
  else match s.day.clock with
    | some v => if inLeadWindow s.settings v then .opening else .night
    | none => .night

/-- The part leaves QUIET (R175); nothing happens in another power state. -/
def wake (c : WakeCause) (s : State) : State :=
  if s.day.power ≠ .quiet then s
  else
    let new := wakeState s c
    let s1 := { s with day := { s.day with power := .run, lastWake := some c } }
    let s2 := setStore new (some (.wake c)) s1
    let s3 := startSilence (settleRadio s2)
    let s4 := if new = .opening then guestDecide (abortRun { s3 with day := { s3.day with quietAt := none } })
              else guestDecide (startQuietDelay s3)
    reportLines s4

/-- The conditions for QUIET, in R173's order. The change queue is empty when its durable content is: a join that is still in the
writer does not count, and completes in QUIET: DESIGN CHOICE (log entry 51). -/
def quietConditions (s : State) : List Bool :=
  [ s.settings.on .quietEnable
  , match s.day.quietAt with | some t => decide (t ≤ s.timer) | none => false
  , s.txe.run.state == .ended
  , s.pbk.slots.all (·.isNone)
  , s.pbk.queue.isEmpty
  , s.day.lines.mains ]

/-- Whether the part may enter QUIET now (R173). -/
def quietDue (s : State) : Bool := s.day.store == .night && s.day.power == .run && (quietConditions s).all id

/-- QUIET is entered (R174). -/
def enterQuiet (s : State) : State :=
  let s1 := setStore .quiet (some .quietEntry) { s with day := { s.day with power := .quiet, quietAt := none } }
  let s2 := sleepRadio { s1 with hlk := { s1.hlk with silenceAt := none } }
  if s2.day.lines = s2.day.reported then s2 else wake .siteLine s2

/-- DAY tests the QUIET conditions (R173). An entry that a lost SITE notice ends at once starts the delay again, and a delay of 0 runs
out as it starts, so the test is made once more; should that entry end in the same way, the next test is a millisecond later (`dueDay`):
DESIGN CHOICE (log entry 30). -/
def testQuiet (s : State) : State :=
  if quietDue s then
    let t := enterQuiet s
    if quietDue t then enterQuiet t else t
  else s

/-! ## Schedule events -/

/-- A schedule event acts on the store state it names (R168). -/
def scheduleEvent (e : ScheduleEvent) (s : State) : State :=
  match e, s.day.store with
  | .openLead, .night => enterOpening (some .schedule) s
  | .openLead, .quiet => wake .openLead s
  | .openTime, .opening => enterOpen (some .schedule) s
  | .close, .opened => enterClosing (some .schedule) s
  | _, _ => s

/-- What DAY does after the clock was set (R166). -/
def afterTimeSet (old : Option Nat) (new : Nat) (s : State) : State :=
  match old with
  | none =>
    if s.day.store = .night then
      match scheduleState s.settings (some new) with
      | .opening => enterOpening (some .clockSet) s
      | .opened => enterOpen (some .clockSet) (enterOpening (some .clockSet) s)
      | _ => s
    else s
  | some v =>
    if v < new then (passedEvents s.settings v new).foldl (fun u e => scheduleEvent e u) s else s

/-- TIME SET from the host or from head office (R166). The value set begins a whole second, so the clock counts on 1,000 ms later:
DESIGN CHOICE (log entry 60). -/
def timeSet (v : Nat) (src : ClockSource) (s : State) : State :=
  let old := s.day.clock
  let s1 := notify (.clockSet old v src) { s with day := { s.day with clock := some v, clockMs := 0 } }
  afterTimeSet old v s1

/-- An event that is taken is no longer due. -/
def claimEvent (e : ScheduleEvent) (s : State) : State :=
  { s with day := { s.day with dueEvents := s.day.dueEvents.erase e } }

/-- A schedule event taken as a command: now, when it has fallen due or the clock is in its minute; else at its next minute, to which
the clock goes on (R168): DESIGN CHOICE (log entry 29). None is taken while the clock is unset. -/
def takeScheduleEvent (e : ScheduleEvent) (s : State) : State :=
  match s.day.clock with
  | none => s
  | some c =>
    if s.day.dueEvents.contains e || inEventMinute s.settings e c then scheduleEvent e (claimEvent e s)
    else match nextEventAt s.settings e c with
      | none => s
      | some x => scheduleEvent e (claimEvent e (advanceTo (s.timer + (1000 * (x - c) - s.day.clockMs)) s))

/-! ## Observation -/

/-- The schedule event that would act on a store state (R168, R180). -/
def actingEvent : StoreState → Option ScheduleEvent
  | .night => some .openLead
  | .quiet => some .openLead
  | .opening => some .openTime
  | .opened => some .close
  | .closing => none

/-- The next schedule event that would act, with its minute; absent while the clock is unset (R180). -/
def nextActing (s : State) : Option (ScheduleEvent × Nat) :=
  match s.day.clock, actingEvent s.day.store with
  | some c, some e => if (nextEventAt s.settings e c).isSome then some (e, eventMinute s.settings e) else none
  | _, _ => none

/-- The closing grace remaining in a STORE STATUS reply: in CLOSING always, 0 once the grace has ended, and absent in any other
store state (R180). It is in milliseconds: DESIGN CHOICE (log entry 45). -/
def closingLeft (s : State) : Option Nat := if s.day.store = .closing then some ((graceLeft s).getD 0) else none

/-- The STORE STATUS reply (R180). The quiet delay remaining is absent while none has been started since the last OPENING or QUIET:
DESIGN CHOICE (log entry 61). -/
def storeReport (s : State) : StoreReport :=
  { clock := s.day.clock
    weekday := s.day.clock.map weekday
    minute := s.day.clock.map minuteOfDay
    trading := s.day.clock.map (tradingDay s.settings)
    store := s.day.store
    power := s.day.power
    cause := s.day.cause
    nextEvent := nextActing s
    graceLeft := closingLeft s
    lines := s.day.lines
    reported := s.day.reported
    quietConditions := quietConditions s
    quietLeft := s.day.quietAt.map fun t => t - s.timer
    lastWake := s.day.lastWake }

end Sys2Proof.Machine
end

