-- ==== Sys2Proof/Machine/AuthOps.lean ====
section
/-! DEFINITION. Card authorization and the completion of appends: entries, fallback, the reports to TSU, and what TSU does when a record is durable or refused (chapters 3 and 4). -/

namespace Sys2Proof.Machine

/-! ## What TSU does with an outcome -/

/-- An approval: TSU asks for the SALE record (R63, R66). -/
def approvePlace (t : Nat) (tender : Tender) (code : Option (List Byte)) (s : State) : State :=
  startAppend t (approvedBody (placeAt s t) tender code) 0 s

/-- A decline of an AUTHORIZING place: back to BASKET, and DECLINED to the till under the result of that name (R50, R64); a basket
past the grace is closed. -/
def declineAuthorizing (t : Nat) (r : DeclineReason) (s : State) : State :=
  let p := placeAt s t
  let s1 := putPlace t { p with state := .basket, trace := none, lastResult := some (.declined r) } s
  let s2 := sendTill t (p.addr.getD 0) .declined .declined (.declined r (p.trace.getD 0)) s1
  closeIfDue t (removeEntry t s2)

/-- A decline: the second claimed place is released (R64, R66, R93). -/
def declinePlace (t : Nat) (r : DeclineReason) (s : State) : State :=
  let s1 := dropClaim t s
  match (placeAt s t).state with
  | .authorizing => declineAuthorizing t r s1
  | .orphaned => startVoid t .declinedLost s1
  | _ => s1

/-- AUZ reports an outcome to TSU (R81). -/
def reportOutcome (t : Nat) (o : AuthOutcome) (s : State) : State :=
  match o with
  | .approvedOnline code => approvePlace t .cardOnline (some code) s
  | .approvedOffline => approvePlace t .cardOffline none s
  | .declined r => declinePlace t r s

/-! ## Entries -/

/-- The entry of a till (R72). -/
def entryOf (s : State) (t : Nat) : Option AuthEntry := s.auz.entries.find? fun e => e.till == t
/-- The entry with a trace sequence (R76). -/
def entryByTrace (s : State) (trace : Nat) : Option AuthEntry := s.auz.entries.find? fun e => e.trace == trace
/-- An entry written over the one its till has. -/
def putEntry (e : AuthEntry) (s : State) : State :=
  { s with auz := { s.auz with entries := s.auz.entries.map fun x => if x.till = e.till then e else x } }

/-- Whether an AUTH frame carries a trace sequence. -/
def UpFrame.hasTrace (trace : Nat) : UpFrame → Bool
  | .authRequest t _ _ _ => t == trace
  | _ => false

/-- A frame still in the AUTH queue is withdrawn, and the guest service is judged again when one left (R74, R114, R151). -/
def withdrawAuth (trace : Nat) (s : State) : State :=
  if s.ulc.authQ.any fun f => f.hasTrace trace then
    guestDecide { s with ulc := { s.ulc with authQ := s.ulc.authQ.filter fun f => !f.hasTrace trace } }
  else s

/-- An outcome is counted (R81). -/
def countOutcome (o : AuthOutcome) (a : Auz) : Auz :=
  match o with
  | .approvedOnline _ => { a with online := satAdd Config.max32 a.online 1 }
  | .approvedOffline => { a with offline := satAdd Config.max32 a.offline 1 }
  | .declined .unavailable => { a with fallbackDeclines := satAdd Config.max32 a.fallbackDeclines 1 }
  | .declined (.headOffice _) => { a with hoDeclines := satAdd Config.max32 a.hoDeclines 1 }

/-- An entry as DECIDED with its outcome (R72, R76, R80). -/
def AuthEntry.decide (e : AuthEntry) (o : AuthOutcome) : AuthEntry :=
  { e with state := .decided, outcome := some o, expiry := none, retryEnd := none }

/-- An entry becomes DECIDED: expiry and delay dropped, its frame withdrawn, the outcome counted (R76, R80, R81). -/
def decideEntry (e : AuthEntry) (o : AuthOutcome) (s : State) : State :=
  let s1 := withdrawAuth e.trace (putEntry (e.decide o) s)
  { s1 with auz := countOutcome o s1.auz }

/-- The AUTH LIMIT notice of a declined tender (R83). -/
def authLimitNotice (s : State) (amount : Nat) : NoticeBody :=
  .authLimit s.sjr.exposure s.auz.commitment amount (s.settings.num .exposureLimit)

/-- The exposure limit mark after a fallback decision (R83). -/
def markExposure (amount : Nat) (o : AuthOutcome) (byExposure : Bool) (s : State) : State :=
  if o = .approvedOffline then { s with auz := { s.auz with mark := false } }
  else if byExposure then
    if s.auz.mark then s else notify (authLimitNotice s amount) { s with auz := { s.auz with mark := true } }
  else s

/-- An entry goes to fallback and is decided, without the report (R80). When a decline of the exposure check sets the mark and the
frame it withdraws reopens the guest service, AUTH LIMIT is offered before GUEST STATE: DESIGN CHOICE (log entry 43). -/
def fallbackEntry (e : AuthEntry) (s : State) : State :=
  let d := fallbackDecision s e.amount
  decideEntry e d.1 (markExposure e.amount d.1 d.2 s)

/-- An entry goes to fallback, and its outcome is reported at once (R80, R81). -/
def fallback (e : AuthEntry) (s : State) : State :=
  reportOutcome e.till (fallbackDecision s e.amount).1 (fallbackEntry e s)

/-- Several entries go to fallback, in the order they were created (log entry 18). -/
def fallbackAll (traces : List Nat) (s : State) : State :=
  traces.foldl (fun u t => match entryByTrace u t with | some e => fallback e u | none => u) s

/-- The frame of an entry's request (R73). -/
def authFrame (s : State) (e : AuthEntry) : UpFrame :=
  .authRequest e.trace e.amount e.card (s.identity.branch.getD 0)

/-- A request frame joins the AUTH queue, and the entry is QUEUED with a wait expiry (R73, R75, R77). -/
def queueEntry (e : AuthEntry) (s : State) : State :=
  let s1 := putEntry { e with state := .queued, expiry := some s.ulc.t1.counter, retryEnd := none } s
  guestDecide { s1 with ulc := { s1.ulc with authQ := s1.ulc.authQ ++ [authFrame s1 e] } }

/-- A new entry, before the queuing test (R73). -/
def newEntry (t trace amount : Nat) (card : CardRef) : AuthEntry :=
  { till := t, trace := trace, amount := amount, card := card, session := none, attempts := 0, state := .queued,
    outcome := none, expiry := none, retryEnd := none }

/-- AUZ creates an entry and applies the queuing test; an outcome decided here is reported later (R73, R81). -/
def createEntry (t trace amount : Nat) (card : CardRef) (s : State) : State :=
  let e := newEntry t trace amount card
  let s1 := { s with auz := { s.auz with entries := s.auz.entries ++ [e] } }
  if queuingTest s1 then queueEntry e s1 else fallbackEntry e s1

/-- The traces of the entries that a property picks, in the order they were created. -/
def tracesWhere (s : State) (p : AuthEntry → Bool) : List Nat := (s.auz.entries.filter p).map (·.trace)

/-- The queuing test is applied to every QUEUED entry (R74). -/
def testQueued (s : State) : State :=
  if queuingTest s then s else fallbackAll (tracesWhere s fun e => e.state == .queued) s

/-- A path session has ended: every SENT entry of it goes to fallback (R79). -/
def authSessionEnd (n : Nat) (s : State) : State :=
  fallbackAll (tracesWhere s fun e => e.state == .sent && e.session == some n) s

/-- An authorization frame has been sent in a session (R75). -/
def authFrameSent (trace session : Nat) (s : State) : State :=
  match entryByTrace s trace with
  | some e =>
    putEntry { e with
      state := .sent, attempts := e.attempts + 1, session := some session, expiry := some s.ulc.t1.counter } s
  | none => s

/-- A late outcome (R82). -/
def lateOutcome (trace : Nat) (o : AuthOutcome) (p : Path) (s : State) : State :=
  notify (.lateOutcome trace o p) { s with auz := { s.auz with late := satAdd Config.max32 s.auz.late 1 } }

/-- A decisive reply from head office (R76, R82). -/
def decisiveReply (trace : Nat) (o : AuthOutcome) (p : Path) (s : State) : State :=
  match entryByTrace s trace with
  | some e => if e.state = .decided then lateOutcome trace o p s else reportOutcome e.till o (decideEntry e o s)
  | none => lateOutcome trace o p s

/-- A BUSY reply (R77). -/
def busyReply (trace : Nat) (s : State) : State :=
  match entryByTrace s trace with
  | some e =>
    if e.state ≠ .sent then s
    else if (e.attempts : Int) ≤ s.settings.num .retryLimit then
      putEntry { e with state := .retryWait, expiry := none, retryEnd := some (s.timer + 1000) } s
    else fallback e s
  | none => s

/-! ## When an append is durable or refused -/

/-- TSU's answer to a cash sale's record (R61). -/
def cashRecorded (t : Nat) (a : Append) (total : Int) (seq : Nat) (s : State) : State :=
  let p := placeAt s t
  let s1 := putPlace t { idlePlace p with lastResult := some (.saleClosed seq) } s
  answerTill t .tenderCash .saleClosed (.cash seq total (a.given - total)) s1

/-- TSU's answer to a card sale's record (R63, R66). -/
def cardRecorded (t : Nat) (total : Int) (tender : Tender) (code : Option (List Byte)) (seq : Nat) (s : State) : State :=
  let p := placeAt s t
  if p.state = .orphaned then
    let s1 := notify (tillLostNotice t p .authorizing (.approved seq (p.trace.getD 0))) s
    clearBusy t (removeEntry t (freeTill t s1))
  else
    let s1 := putPlace t { idlePlace p with lastResult := some (.saleClosed seq) } s
    clearBusy t (removeEntry t (sendTill t (p.addr.getD 0) .saleClosed .saleClosed (.card seq total tender code) s1))

/-- TSU's answer to a trace record: AUTHORIZING, the hand-over to AUZ, the reply, and then an outcome decided at the entry's
creation (R62, R73, R81). -/
def traceRecorded (t amount : Nat) (card : CardRef) (seq : Nat) (s : State) : State :=
  let s1 := putPlace t { placeAt s t with state := .authorizing, trace := some seq } s
  let s2 := answerTill t .tenderCard .authorizing (.trace seq) (createEntry t seq amount card s1)
  match entryOf s2 t with
  | some e => match e.outcome with
    | some o => reportOutcome t o s2
    | none => s2
  | none => s2

/-- TSU's answer to a VOIDED_BASKET record, or to NOT_RECORDED when there is no sequence (R59, R65, R66, R68). The BASKET VOIDED
frame carries the result OK: DESIGN CHOICE (log entry 44). -/
def voidAnswered (t : Nat) (r : VoidReason) (seq : Option Nat) (s : State) : State :=
  let p := placeAt s t
  match r with
  | .cancelled => answerTill t .saleCancel .ok (.cancelled seq) (putPlace t (idlePlace p) s)
  | .tillLost => clearBusy t (freeTill t (notify (tillLostNotice t p .basket (.recorded seq)) s))
  | .close => answerTill t .basketVoided .ok (.voided .close seq) (putPlace t (idlePlace p) s)
  | .declinedLost =>
    let s1 := notify (tillLostNotice t p .authorizing (.declined seq (p.trace.getD 0))) s
    clearBusy t (removeEntry t (freeTill t s1))

/-- SJR answers TSU with a record's sequence (R95, step 4). -/
def appendAnswered (a : Append) (seq : Nat) (s : State) : State :=
  match a.body with
  | .sale total .cash _ _ _ _ => cashRecorded a.till a total seq s
  | .sale total tender _ code _ _ => cardRecorded a.till total tender code seq s
  | .authTrace amount card => traceRecorded a.till amount card seq s
  | .voidedBasket r _ _ => voidAnswered a.till r (some seq) s

/-- SJR answers TSU with NOT_RECORDED (R96). -/
def notRecorded (a : Append) (s : State) : State :=
  match a.body with
  | .voidedBasket r _ _ => voidAnswered a.till r none s
  | _ => s

/-- The append's completion event (R95). -/
def appendDone (w : Writing) (s : State) : State :=
  testTillsDone (appendAnswered w.append w.seq (recomputeOccupancy (recordAppend w s)))

/-- The writer takes one append from the head of the queue, or answers NOT_RECORDED (R95, R96). With the counter at its end it takes none,
for no further record can be given a number (R90); the claim check lets no claimed append come to that (log entry 58). -/
def takeAppend (s : State) : State :=
  match s.sjr.writing, s.sjr.queue with
  | none, a :: rest =>
    if a.body.claimed || unclaimedFits s.sjr then
      if writesStopped s || decide (Config.max32 ≤ s.sjr.counter) then s else beginAppend a rest s
    else testTillsDone (notRecorded a { s with sjr := { s.sjr with queue := rest } })
  | _, _ => s

/-- The writer takes appends until it is writing or the queue is empty (R94). -/
def writerPump : Nat → State → State
  | 0, s => s
  | n + 1, s => writerPump n (takeAppend s)

/-! ## Observation -/

/-- One entry of an AUTH STATUS reply (R86). -/
def authReport (e : AuthEntry) : AuthReport :=
  { till := e.till, trace := e.trace, amount := e.amount, card := maskCard e.card, session := e.session,
    attempts := e.attempts, state := e.state, outcome := e.outcome }

/-- The AUTH STATUS reply (R86). The entries stand in the order they were created: DESIGN CHOICE (log entry 46). -/
def authStatusReport (s : State) : AuthStatusReport :=
  { entries := s.auz.entries.map authReport
    exposure := s.sjr.exposure
    commitment := s.auz.commitment
    sum := s.sjr.exposure + s.auz.commitment
    mode := s.settings.num .fallbackMode
    floorLimit := s.settings.num .floorLimit
    exposureLimit := s.settings.num .exposureLimit
    retryLimit := s.settings.num .retryLimit
    mark := s.auz.mark
    online := s.auz.online
    hoDeclines := s.auz.hoDeclines
    offline := s.auz.offline
    fallbackDeclines := s.auz.fallbackDeclines
    late := s.auz.late }

end Sys2Proof.Machine
end

