-- ==== Sys2Proof/Machine/UplinkOps.lean ====
section
/-! DEFINITION. The uplink: credits, the arbiter, sessions, probes, the choice of the active path, inbound frames and the office wait list (chapter 6). -/

namespace Sys2Proof.Machine

/-- A path's record written. -/
def putPath (p : Path) (r : PathRec) (s : State) : State := { s with ulc := s.ulc.setPath p r }

/-! ## Credits -/

/-- The credit count of a class (R115). -/
def Credits.get (c : Credits) : Class → CreditCount
  | .auth => c.auth
  | .price => c.price
  | .journal => c.journal
  | .office => c.office
  | .guest => c.guest
/-- The credits with a class's count changed. -/
def Credits.put (c : Credits) (k : Class) (n : CreditCount) : Credits :=
  match k with
  | .auth => { c with auth := n }
  | .price => { c with price := n }
  | .journal => { c with journal := n }
  | .office => { c with office := n }
  | .guest => { c with guest := n }

/-- A count at session open, its grant taken at the top of the range when above it (R115). -/
def openCount (top grant : Nat) : CreditCount := { grant := min grant top, held := min grant top, inUse := 0 }
/-- The credits of a new session (R115). -/
def openCredits (g : Grants) : Credits :=
  { auth := openCount 7 g.auth, price := openCount 7 g.price, journal := openCount 7 g.journal,
    office := openCount 7 g.office, guest := openCount 7 g.guest, shared := openCount 127 g.shared }
/-- Whether a grant lies above its range (R115). -/
def grantsTooHigh (g : Grants) : Bool :=
  decide (7 < g.auth) || decide (7 < g.price) || decide (7 < g.journal) || decide (7 < g.office) ||
  decide (7 < g.guest) || decide (127 < g.shared)

/-- One credit moves from held to in use (R115). -/
def CreditCount.spend (c : CreditCount) : CreditCount := { c with held := c.held - 1, inUse := c.inUse + 1 }
/-- Credits come back, at most those in use (R116). -/
def CreditCount.giveBack (c : CreditCount) (n : Nat) : CreditCount :=
  { c with held := c.held + min n c.inUse, inUse := c.inUse - min n c.inUse }

/-- Whether a class has a usable credit (R117). -/
def usableCredit (t : Settings) (c : Credits) (k : Class) : Bool :=
  decide (0 < (c.get k).held) ||
  match k with
  | .auth | .price | .journal => decide (0 < c.shared.held)
  | .office | .guest => decide (t.nat .sharedFloor < c.shared.held)

/-- A credit is spent: a dedicated one if one is held, else a shared one (R117). -/
def spendCredit (c : Credits) (k : Class) : Credits :=
  if 0 < (c.get k).held then c.put k (c.get k).spend else { c with shared := c.shared.spend }

/-! ## The class queues and the arbiter -/

/-- A class queue (R114). -/
def Ulc.queue (u : Ulc) : Class → List UpFrame
  | .auth => u.authQ
  | .price => u.priceQ
  | .journal => u.journalQ
  | .office => u.officeQ
  | .guest => u.guestQ
/-- The uplink with a class queue changed. -/
def Ulc.putQueue (u : Ulc) (k : Class) (q : List UpFrame) : Ulc :=
  match k with
  | .auth => { u with authQ := q }
  | .price => { u with priceQ := q }
  | .journal => { u with journalQ := q }
  | .office => { u with officeQ := q }
  | .guest => { u with guestQ := q }

/-- The arbiter's order of classes (R118). -/
def arbiterOrder (s : State) : List Class :=
  match s.day.store with
  | .opened | .closing =>
    if promoteReached s then [.auth, .journal, .price, .office, .guest] else [.auth, .price, .journal, .office, .guest]
  | _ => [.auth, .journal, .price, .office]

/-- Whether an office frame wants a reply. -/
def UpFrame.wantsReply : UpFrame → Bool
  | .office _ _ w _ => w
  | _ => false

/-- Whether the arbiter may take a class's head frame on the active path (R118). -/
def classQualifies (s : State) (p : Path) (c : Credits) (k : Class) : Bool :=
  match s.ulc.queue k with
  | [] => false
  | f :: _ =>
    permittedOn s.settings k p && usableCredit s.settings c k &&
    match k with
    | .office => !f.wantsReply || decide (s.ulc.waits.length < Config.officeWaits)
    | .guest => s.gac.service == .opened
    | _ => true

/-- A frame goes out on a path (R119). -/
def transmit (p : Path) (f : UpFrame) (s : State) : State :=
  emit (.uplink p f) (putPath p { s.ulc.path p with tx := some f } s)

/-- The owner of a frame is told that it is sent (R119). -/
def frameSent (f : UpFrame) (session : Nat) (s : State) : State :=
  match f with
  | .authRequest trace _ _ _ => guestDecide (authFrameSent trace session s)
  | .journalRecord batch _ _ r => journalFrameSent batch r.seq session s
  | .fileRequest _ _ => fileRequestSent session s
  | .office n _ true _ =>
    { s with ulc := { s.ulc with
        waits := s.ulc.waits ++ [{ forward := n, session := session, expiry := s.ulc.t4.counter }] } }
  | _ => s

/-- The arbiter takes a class's head frame: the credit is spent and the frame is sent (R117, R119). -/
def takeFrame (p : Path) (c : Credits) (k : Class) (s : State) : State :=
  match s.ulc.queue k with
  | [] => s
  | f :: rest =>
    let s1 := { s with ulc := s.ulc.putQueue k rest }
    let s2 := putPath p { s1.ulc.path p with credits := some (spendCredit c k) } s1
    frameSent f ((s.ulc.path p).session.getD 0) (transmit p f s2)

/-- The arbiter's choice on the active path (R118). -/
def arbitrate (p : Path) (s : State) : State :=
  match (s.ulc.path p).credits with
  | none => s
  | some c =>
    match (arbiterOrder s).find? (classQualifies s p c) with
    | some k => takeFrame p c k s
    | none => s

/-- A HELLO as it goes out, with the identity record's numbers (R108). -/
def helloFrame (s : State) : UpFrame := .hello s.identity.serial (s.identity.branch.getD 0)

/-- A control frame as it goes out: a HELLO carries the branch number of that moment (R191). -/
def controlFrame (s : State) : UpFrame → UpFrame
  | .hello _ _ => helloFrame s
  | f => f

/-- A path's transmitter, when idle: its own control frames first, then on the active path the arbiter's choice (R118). -/
def pump (p : Path) (s : State) : State :=
  let r := s.ulc.path p
  if r.tx.isSome then s
  else match r.control with
    | f :: rest => transmit p (controlFrame s f) (putPath p { r with control := rest } s)
    | [] => if s.ulc.active = some p then arbitrate p s else s

/-- Both transmitters (R118, R119); when the arbiter chooses, and that PRIMARY is looked at first: DESIGN CHOICE (log entry 70). -/
def pumpPaths (s : State) : State := pump .backup (pump .primary s)

/-! ## Sessions -/

/-- A HELLO is sent on a path in HELLO_WAIT, with an expiry in T2 (R108); frames of an earlier session no longer wait. While the
transmitter is busy the frame waits in the control list, and the expiry runs from now all the same: DESIGN CHOICE (log entry
17). -/
def greet (p : Path) (s : State) : State :=
  putPath p { s.ulc.path p with
    state := .helloWait, control := [helloFrame s], helloExpiry := some s.ulc.t2.counter } s

/-- A path record that goes DOWN; its last refusal and its probe numbers are kept (R108, R110). -/
def downPath (r : PathRec) : PathRec := { resetPath with refusal := r.refusal, probeNumber := r.probeNumber }

/-- The office records that a property picks end without a reply, for a cause (R124), in the order of their list: DESIGN CHOICE (log
entries 1 and 43). -/
def endWaits (c : TimeoutCause) (p : OfficeWait → Bool) (s : State) : State :=
  let s1 := { s with ulc := { s.ulc with waits := s.ulc.waits.filter fun w => !p w } }
  (s.ulc.waits.filter p).foldl (fun u w => notify (.forwardTimeout w.forward c) u) s1

/-- The office records of an ended session are ended (R124). -/
def officeSessionEnd (n : Nat) (s : State) : State := endWaits .sessionEnd (fun w => w.session == n) s

/-- A path session ends (R109): credits cleared, its expiries ended and their owners told, probes dropped, the number absent, and the path
greets again or is DOWN. The owners are told in the order AUZ, TXE, the office wait list: DESIGN CHOICE (log entry 43). -/
def endPathSession (p : Path) (s : State) : State :=
  match (s.ulc.path p).session with
  | none => s
  | some n =>
    let s1 := putPath p { s.ulc.path p with credits := none } s
    let s2 := officeSessionEnd n (transferSessionEnd n (authSessionEnd n s1))
    let r := s2.ulc.path p
    if r.carrier then
      greet p (putPath p { r with probes := [], nextProbe := none, session := none } s2)
    else putPath p (downPath r) s2

/-- One more miss; the count stands when the session ends, and a new session returns it to 0 (R109, R111). -/
def missProbe (r : PathRec) : PathRec := { r with missed := r.missed + 1 }

/-- ULC tells the blocks that the active path has changed (R113, step 4). -/
def pathChanged (s : State) : State := guestDecide (testQueued s)

/-- The UPLINK notice (R113). -/
def uplinkNotice (s : State) (old new : Option Path) (cause : PathCause) : NoticeBody :=
  .uplink old new cause (match new with | some p => (s.ulc.path p).session | none => none)
    s.ulc.primary.state s.ulc.backup.state s.ulc.primary.degraded s.ulc.backup.degraded

/-- The previous active path's session ends when it is still UP (R113, step 1). -/
def leavePath (p : Option Path) (s : State) : State :=
  match p with
  | some q => if (s.ulc.path q).state = .up then endPathSession q s else s
  | none => s

/-- ULC chooses the active path again (R113); a change wakes the part from QUIET (R130, R175). -/
def rechoose (cause : PathCause) (s : State) : State :=
  let old := s.ulc.active
  let new := chosenPath s.ulc
  if new = old then s
  else
    let s1 := leavePath old s
    let s2 := wake .pathChange { s1 with ulc := { s1.ulc with active := new } }
    pathChanged (notify (uplinkNotice s2 old new cause) s2)

/-- A probe is sent: its number and time join the list with an expiry in T2, and the next is scheduled (R110). While the transmitter is
busy the frame waits in the control list, and its sending time, its expiry and the next probe's time run from now, not from its
going out: DESIGN CHOICE (log entry 17). -/
def sendProbe (p : Path) (s : State) : State :=
  let r := s.ulc.path p
  putPath p { r with
    probes := r.probes ++ [{ number := r.probeNumber, sentAt := s.timer, expiry := s.ulc.t2.counter }]
    probeNumber := (r.probeNumber + 1) % 256
    nextProbe := some (s.timer + probeMs s)
    control := r.control ++ [.probe r.probeNumber] } s

/-- A probe that expired or was dropped is a miss; the third in a row ends the session (R111). -/
def probeMissed (p : Path) (number : Nat) (s : State) : State :=
  let r := s.ulc.path p
  let r1 := missProbe { r with probes := r.probes.filter fun x => x.number != number }
  let s1 := putPath p r1 s
  if r1.missed < 3 then s1 else rechoose .probesMissed (endPathSession p s1)

/-- A probe falls due: while four are outstanding the oldest is dropped as a miss, and the new one is sent if the session
goes on (R110). -/
def probeDue (p : Path) (s : State) : State :=
  let r := s.ulc.path p
  let s1 := match r.probes with
    | x :: _ => if r.probes.length < 4 then s else probeMissed p x.number s
    | [] => s
  if (s1.ulc.path p).state = .up ∧ (s1.ulc.path p).session = r.session then sendProbe p s1 else s1

/-- A session opens on a path in HELLO_WAIT (R109, R115). -/
def openSession (p : Path) (g : Grants) (s : State) : State :=
  let n := nextIn 1 Config.max32 s.ulc.sessions
  let s1 := { s with ulc := { s.ulc with sessions := n } }
  let s2 := putPath p { s1.ulc.path p with
    state := .up, session := some n, helloExpiry := none, outCount := 0, missed := 0, probes := [],
    credits := some (openCredits g), control := [] } s1
  rechoose .pathUp (sendProbe p (s2.when (grantsTooHigh g) linkError))

/-- A probe reply within the session: the round trip goes to the quality watch (R110, R112). -/
def probeAnswered (p : Path) (x : Probe) (s : State) : State :=
  let r := s.ulc.path p
  let rt := s.timer - x.sentAt
  let q := if qualityScoped s.settings p then qualityAfter s.settings rt r.outCount r.degraded else (r.outCount, r.degraded)
  let s1 := putPath p { r with
    probes := r.probes.filter fun y => y.number != x.number
    roundTrip := some rt
    missed := 0
    outCount := q.1
    degraded := q.2 } s
  if q.2 = r.degraded then s1 else rechoose (if q.2 then .degraded else .recovered) s1

/-! ## Carrier -/

/-- A modem reports carrier to a running part (R107, R108). -/
def carrierUp (p : Path) (s : State) : State :=
  let s1 := putPath p { s.ulc.path p with carrier := true } s
  if (s.ulc.path p).state = .down then greet p s1 else s1

/-- A modem loses carrier: the path goes DOWN and its session ends (R108, R109); a frame going out is cut (R119). -/
def carrierDown (p : Path) (s : State) : State :=
  let s1 := putPath p { s.ulc.path p with carrier := false, tx := none, control := [] } s
  match (s.ulc.path p).state with
  | .up => rechoose .carrierLost (endPathSession p s1)
  | _ => putPath p (downPath (s1.ulc.path p)) s1

/-! ## Inbound frames -/

/-- R125's checks of an inbound frame other than a HELLO answer: nothing is received on a DOWN path, a path in HELLO_WAIT
counts a link error, and an UP path routes the frame. -/
def inbound (p : Path) (f : State → State) (s : State) : State :=
  match (s.ulc.path p).state with
  | .down => s
  | .helloWait => linkError s
  | .up => f s

/-- A frame handed to another block wakes the part (R130, R175). -/
def handOver (f : State → State) (s : State) : State := f (wake .headOffice s)

/-- A reply of R126: discarded with a route error when a field is out of range (R127, R196, log entry 25), else handed to
its owner. -/
def routeReply (p : Path) (fits : Bool) (f : State → State) (s : State) : State :=
  inbound p (fun t => if fits then handOver f t else routeError t) s

/-- An unsolicited message of R127: discarded uncounted while the route table is off, a route error when out of range, else
taken by its owner. -/
def routeMessage (p : Path) (fits : Bool) (f : State → State) (s : State) : State :=
  inbound p (fun t =>
    if t.settings.on .routeTable then (if fits then handOver f t else routeError t) else t) s

/-- A CREDIT frame for a session's counts (R116). -/
def takeCredit (p : Path) (target count : Nat) (s : State) : State :=
  match (s.ulc.path p).credits with
  | none => s
  | some c =>
    let k : Option Class := match target with
      | 0 => some .auth
      | 1 => some .price
      | 2 => some .journal
      | 3 => some .office
      | 4 => some .guest
      | _ => none
    let n := match k with | some k => c.get k | none => c.shared
    let c1 := match k with | some k => c.put k (n.giveBack count) | none => { c with shared := n.giveBack count }
    let s1 := putPath p { s.ulc.path p with credits := some c1 } s
    s1.when (decide (n.inUse < count)) routeError

/-! ## Office traffic -/

/-- ULC's decision on a FORWARD (R123). -/
def forwardResult (s : State) (dest : Nat) : Result :=
  match firstWindow s.settings.windows false dest with
  | some w => if w.scope = .blocked then .blocked else if s.ulc.officeQ.length < 32 then .ok else .busy
  | none => if s.ulc.officeQ.length < 32 then .ok else .busy

/-- An accepted FORWARD takes the next forward number and joins the OFFICE queue (R123). -/
def joinOffice (n dest : Nat) (w : Bool) (payload : List Byte) (s : State) : State :=
  { s with ulc := { s.ulc with
      lastForward := n
      officeQ := s.ulc.officeQ ++ [.office n dest w payload] } }

/-- An office reply handed to HLK: an INBOUND notice, or dropped while standalone (R192). -/
def officeInbound (n : Nat) (late : Bool) (p : Path) (payload : List Byte) (s : State) : State :=
  if s.hlk.standalone.isSome then
    { s with hlk := { s.hlk with officeDrops := satAdd Config.max16 s.hlk.officeDrops 1 } }
  else notify (.inbound n late p (payload.take 1000) (decide (1000 < payload.length))) s

/-- An OFFICE REPLY: its record leaves the wait list, and HLK is handed the payload, late when there was no record
(R124). -/
def officeReply (p : Path) (n : Nat) (payload : List Byte) (s : State) : State :=
  let known := s.ulc.waits.any fun w => w.forward == n
  let s1 := { s with ulc := { s.ulc with waits := s.ulc.waits.eraseP fun w => w.forward == n } }
  officeInbound n (!known) p payload s1

/-! ## Observation -/

/-- One path of an UPLINK STATUS reply (R132). -/
def pathReport (r : PathRec) : PathReport :=
  { state := r.state, carrier := r.carrier, session := r.session, degraded := r.degraded, outCount := r.outCount,
    missed := r.missed, probes := r.probes.length, roundTrip := r.roundTrip, refusal := r.refusal }

/-- The classes in code order (11.6). -/
def classes : List Class := [.auth, .price, .journal, .office, .guest]

/-- The UPLINK STATUS reply (R132). -/
def uplinkReport (s : State) : UplinkReport :=
  { primary := pathReport s.ulc.primary
    backup := pathReport s.ulc.backup
    active := s.ulc.active
    sessions := s.ulc.sessions
    credits := match s.ulc.active with | some p => (s.ulc.path p).credits | none => none
    queues := classes.map fun k => ((s.ulc.queue k).length, permittedNow s k)
    waits := s.ulc.waits.length
    ticks := [TimeoutClass.t1, .t2, .t3, .t4].map fun c => (s.settings.num (periodSetting c), (s.ulc.ticks c).counter)
    isolation := s.ulc.isolation
    linkErrors := s.ulc.linkErrors
    routeErrors := s.ulc.routeErrors }

end Sys2Proof.Machine
end

