-- ==== Sys2Proof/Machine/ExpiryOps.lean ====
section
/-! DEFINITION. The ticks of the timeout classes and the expiries that fall due at them (R128, R129). -/

namespace Sys2Proof.Machine

/-- Whether an expiry of a timeout class has fallen due (R128). -/
def dueTick (s : State) (c : TimeoutClass) (e : Option Tick) : Bool :=
  match e with
  | some x => expired (s.ulc.ticks c).counter x
  | none => false

/-- A timeout class's counter rises at a tick (R128). -/
def countTick (c : TimeoutClass) (s : State) : State :=
  let r : TickRec := { counter := (s.ulc.ticks c).counter + 1, lastTick := s.timer }
  match c with
  | .t1 => { s with ulc := { s.ulc with t1 := r } }
  | .t2 => { s with ulc := { s.ulc with t2 := r } }
  | .t3 => { s with ulc := { s.ulc with t3 := r } }
  | .t4 => { s with ulc := { s.ulc with t4 := r } }

/-- The authorization entries whose wait or reply expiry has fallen due go to fallback, in the order they were created (R75, R78;
log entry 18). -/
def expireEntries (s : State) : State :=
  fallbackAll (tracesWhere s fun e => (e.state == .queued || e.state == .sent) && dueTick s .t1 e.expiry) s

/-- A greeting that has gone unanswered is sent again (R108). -/
def expireHello (p : Path) (s : State) : State :=
  let r := s.ulc.path p
  if r.state = .helloWait ∧ dueTick s .t2 r.helloExpiry = true then greet p s else s

/-- An outstanding probe is missed (R111). -/
def missNumber (p : Path) (number : Nat) (s : State) : State :=
  if (s.ulc.path p).probes.any fun x => x.number == number then probeMissed p number s else s

/-- A path's probes whose expiry has fallen due are missed, oldest first (R111). -/
def expireProbes (p : Path) (s : State) : State :=
  (((s.ulc.path p).probes.filter fun x => dueTick s .t2 (some x.expiry)).map (·.number)).foldl
    (fun u n => missNumber p n u) s

/-- The batch's expiry, when it has fallen due, counts as BUSY (R137). -/
def expireBatch (s : State) : State :=
  if dueTick s .t3 (s.txe.batch.bind fun b => b.expiry.map (·.tick)) then batchBusy s else s

/-- The file request's expiry, when it has fallen due, counts as FILE BUSY (R146). -/
def expireFile (s : State) : State :=
  if dueTick s .t3 (s.txe.file.bind fun f => f.expiry.map (·.tick)) then fileRequestBusy s else s

/-- The owners of a class's expiries that have fallen due are told, and each does what its rule says (R128). Which of several in
one class comes first is the model's (log entry 1). -/
def expireDue (c : TimeoutClass) (s : State) : State :=
  match c with
  | .t1 => expireEntries s
  | .t2 => expireProbes .backup (expireProbes .primary (expireHello .backup (expireHello .primary s)))
  | .t3 => expireFile (expireBatch s)
  | .t4 => endWaits .expired (fun w => dueTick s .t4 (some w.expiry)) s

/-- A tick of a timeout class: the counter rises, and what falls due with it happens (R128); a class that is off does not tick
(R129). A tick taken early comes with its moment (log entry 1). -/
def tickClass (c : TimeoutClass) (s : State) : State :=
  match periodMs s.settings c with
  | some ms => expireDue c (countTick c (advanceTo ((s.ulc.ticks c).lastTick + ms) s))
  | none => s

/-- Whether the next tick of a timeout class has come (R128, R129). -/
def tickDue (s : State) (c : TimeoutClass) : Bool :=
  match periodMs s.settings c with
  | some ms => decide ((s.ulc.ticks c).lastTick + ms ≤ s.timer)
  | none => false

/-- A class's period has changed: when one new period after the last tick has already passed, the tick comes at once (R129). -/
def tickIfDue (c : TimeoutClass) (s : State) : State := s.when (tickDue s c) (tickClass c)

/-- Ticks of a timeout class, one after another. -/
def tickTimes (c : TimeoutClass) : Nat → State → State
  | 0, s => s
  | n + 1, s => tickTimes c n (tickClass c s)

/-- How many ticks an expiry still wants (R128). -/
def ticksLeft (now e : Tick) : Nat := 4 - (now - e).toNat

/-- A held expiry taken as an event: what has fallen due of its class happens, and the ticks that the expiry still wants are brought
on (R128, log entry 1); none while the class is off (R129). -/
def bringOn (c : TimeoutClass) (e : Option Tick) (s : State) : State :=
  match e, periodMs s.settings c with
  | some x, some _ => tickTimes c (ticksLeft (s.ulc.ticks c).counter x) (expireDue c s)
  | _, _ => s

end Sys2Proof.Machine
end

