-- ==== Sys2Proof/Machine/PriceOps.lean ====
section
/-! DEFINITION. The price book: entries, the charge price, the change queue, slots, issue, revision, admission and effect (chapter 1). -/

namespace Sys2Proof.Machine

/-! ## Entries -/

/-- An item's entry (R1). -/
def findItem (s : State) (c : Nat) : Option Item := s.pbk.items.find? fun i => i.code == c

/-- Insert an entry in item-code order, in place of the one the item had. -/
def insertItem (i : Item) : List Item → List Item
  | [] => [i]
  | h :: t => if i.code < h.code then i :: h :: t else if i.code = h.code then i :: t else h :: insertItem i t

/-- The book with an entry written (R1). -/
def putItem (i : Item) (s : State) : State :=
  { s with pbk := { s.pbk with items := insertItem i s.pbk.items } }

/-- The book with an item's entry removed (R3). -/
def dropItem (c : Nat) (s : State) : State :=
  { s with pbk := { s.pbk with items := s.pbk.items.filter fun i => i.code != c } }

/-- An item's bound label count changed (R25, R26). -/
def adjustBound (c : Nat) (f : Nat → Nat) (s : State) : State :=
  match findItem s c with
  | some i => putItem { i with bound := f i.bound } s
  | none => s

/-- The labels bound to an item, in id order (R24). -/
def labelsOf (s : State) (c : Nat) : List Label := s.lrs.labels.filter fun l => l.item == some c
/-- The ids of the ACTIVE labels bound to an item (R12). -/
def activeLabels (s : State) (c : Nat) : List Nat :=
  ((labelsOf s c).filter fun l => l.state == .active).map (·.id)

/-- The prices R5 takes the lowest of, after the current price. -/
def holdingPrices (s : State) (i : Item) : List Nat :=
  (i.pending.map (·.price)).toList ++ (labelsOf s i.code).flatMap fun l => l.confirmed.toList ++ l.floor.toList

/-- The charge price; an open-price item has none (R5). -/
def chargePrice (s : State) (i : Item) : Option Nat :=
  if i.openPrice then none else some ((holdingPrices s i).foldl min i.price)

/-- The target price of a label (R29). -/
def targetPrice (s : State) (l : Label) : Option Nat :=
  match l.item with
  | none => none
  | some c => (findItem s c).map fun i => match i.pending with | some p => p.price | none => i.price

/-! ## The change queue and the slots -/

/-- An item's change queue entry (R10). -/
def queueEntryOf (s : State) (c : Nat) : Option QueueEntry := s.pbk.queue.find? fun q => q.item == c
/-- Whether an add for the item waits in the queue (R2, R7). -/
def addWaits (s : State) (c : Nat) : Bool := s.pbk.queue.any fun q => q.item == c && q.add

/-- The slot an item holds (R11). -/
def slotOf (s : State) (c : Nat) : Option Nat :=
  s.pbk.slots.findIdx? fun x => match x with | some y => y.item == c | none => false
/-- A change slot. -/
def slotAt (s : State) (i : Nat) : Option Slot := (s.pbk.slots[i]?).getD none
/-- A change slot written or freed. -/
def putSlot (i : Nat) (x : Option Slot) (s : State) : State :=
  { s with pbk := { s.pbk with slots := s.pbk.slots.set i x } }
/-- The lowest-numbered FREE slot (R8, R11). -/
def freeSlot (s : State) : Option Nat := s.pbk.slots.findIdx? (·.isNone)
/-- The LABELLING slots that are non-urgent (R11). -/
def nonUrgentCount (s : State) : Nat :=
  s.pbk.slots.countP fun x => match x with | some y => !y.urgent | none => false

/-- Entries held plus adds waiting in the change queue, and the creations on their way (R2, R7; log entry 11). -/
def bookLoad (s : State) : Nat :=
  s.pbk.items.length + s.pbk.queue.countP (·.add) +
  (s.nv.countP fun w => match w with
    | .itemAdd _ _ => true
    | .pending p => p.create && p.source != .queue
    | _ => false) +
  (s.pbk.ops.countP fun o => match o.action with
    | .upsert e => e.add && !addWaits s e.item
    | .remove _ => false)

/-- Where an arriving entry that joins stands: an urgent one behind the urgent entries, another at the tail (R8, R9). -/
def joinQueue (e : QueueEntry) (q : List QueueEntry) : List QueueEntry :=
  if e.urgent then q.filter (·.urgent) ++ [e] ++ q.filter (!·.urgent) else q ++ [e]

/-- Where an updated entry stands: it keeps its place, moves to the end of the urgent part when it becomes urgent, or to the
front of the non-urgent part when it ceases to be (R9). -/
def updateQueue (old e : QueueEntry) (q : List QueueEntry) : List QueueEntry :=
  if old.urgent = e.urgent then q.map fun x => if x.item = e.item then e else x
  else
    let rest := q.filter fun x => x.item != e.item
    rest.filter (·.urgent) ++ [e] ++ rest.filter (!·.urgent)

/-- The change queue after a join or an update in place (R9): the add flag stays set if it was (log entry 34). -/
def upsertQueue (e : QueueEntry) (q : List QueueEntry) : List QueueEntry :=
  match q.find? fun x => x.item == e.item with
  | some old => updateQueue old { e with add := old.add || e.add } q
  | none => joinQueue e q

/-- The change queue after a write of its writer (R9, R10). -/
def applyQueue (a : QueueAction) (q : List QueueEntry) : List QueueEntry :=
  match a with
  | .upsert e => upsertQueue e q
  | .remove i => q.filter fun x => x.item != i

/-! ## Frames to head office -/

/-- A PRICE frame offered, or dropped and counted when the queue holds 32 (R20). -/
def offerPrice (f : UpFrame) (s : State) : State :=
  if s.ulc.priceQ.length < 32 then { s with ulc := { s.ulc with priceQ := s.ulc.priceQ ++ [f] } }
  else { s with pbk := { s.pbk with drops := satAdd Config.max16 s.pbk.drops 1 } }

/-- Whether a change's effect is confirmed to head office (R19, R20). -/
def Origin.confirms : Origin → Bool
  | .hostRequest => false
  | _ => true

/-! ## Effect -/

/-- Whether a pending-part write of an item is under way. -/
def pendingUnderWay (s : State) (c : Nat) : Bool :=
  s.nv.any fun w => match w with | .pending p => p.item == c | _ => false

/-- A change whose outstanding set is empty begins its effect write (R19; log entry 9). -/
def checkEffect (c : Nat) (s : State) : State :=
  match slotOf s c with
  | none => s
  | some i =>
    match slotAt s i with
    | none => s
    | some x =>
      if x.stage = .labelling ∧ x.outstanding = [] ∧ pendingUnderWay s c = false then
        startWrite (.effect c) (putSlot i (some { x with stage := .effecting }) s)
      else s

/-- The effect write is durable (R19, steps 2 to 4). -/
def effectDone (c : Nat) (s : State) : State :=
  match slotOf s c with
  | none => s
  | some i =>
    match slotAt s i with
    | none => s
    | some x =>
      let s1 := match findItem s c with
        | some e => putItem { e with price := x.price, pending := none } s
        | none => s
      let s2 := notify (.changeDone x.number c x.price x.confirmed x.unreachable) (putSlot i none s1)
      s2.when x.origin.confirms (offerPrice (.changeConfirm c x.price x.number x.confirmed x.unreachable))

/-! ## The outstanding set -/

/-- Insert a label id in id order, once. -/
def insertId (n : Nat) : List Nat → List Nat
  | [] => [n]
  | h :: t => if n < h then n :: h :: t else if n = h then h :: t else h :: insertId n t

/-- An item's slot changed, when it holds one. -/
def updateSlot (c : Nat) (f : Slot → Slot) (s : State) : State :=
  match slotOf s c with
  | none => s
  | some i => putSlot i ((slotAt s i).map f) s

/-- A label joins the outstanding set of its item's slot, which the item holds until its effect write is durable (R16,
R19). -/
def joinOutstanding (c label : Nat) (s : State) : State :=
  updateSlot c (fun x => { x with outstanding := insertId label x.outstanding }) s

/-- A label leaves the outstanding set (R15, R17), with the tally that counts it. -/
def leaveOutstanding (c label : Nat) (confirmed unreachable : Nat) (s : State) : State :=
  checkEffect c (updateSlot c (fun x =>
    if x.outstanding.contains label then
      { x with
        outstanding := x.outstanding.filter (· != label)
        confirmed := x.confirmed + confirmed
        unreachable := x.unreachable + unreachable }
    else x) s)

/-- An acknowledgement is reported to PBK (R15). -/
def reportAck (item : Option Nat) (label price : Nat) (s : State) : State :=
  match item with
  | none => s
  | some c =>
    match (slotOf s c).bind (slotAt s) with
    | none => s
    | some x => if x.price = price then leaveOutstanding c label 1 0 s else s

/-! ## Arrival of a change -/

/-- The outcome of a change is reported to its source: issued with a number, or queued, or refused (R7). -/
inductive ChangeOutcome | issued (number : Nat) | queued | refused (r : Result)
  deriving DecidableEq, Repr

/-- A refused change of head office is reported by CHANGE REFUSED (R20). -/
def answerChange (src : ChangeSource) (item price : Nat) (o : ChangeOutcome) (s : State) : State :=
  match src, o with
  | .host tag, .issued n => reply tag .priceSet .ok (.changeNumber n) s
  | .host tag, .queued => reply tag .priceSet .queued .empty s
  | .host tag, .refused r => reply tag .priceSet r .empty s
  | .headOffice, .refused r => offerPrice (.changeRefused item price r) s
  | .nightFile, .refused _ => nightAnswer false s
  | .nightFile, _ => nightAnswer true s
  | _, _ => s

/-- Where R8 and R9 send a change: into its item's slot, into a FREE slot, or to the queue. -/
inductive Route | revise | issue (slot : Nat) | queue
  deriving DecidableEq, Repr

/-- The routing of R8 and R9. -/
def routeChange (s : State) (c : Change) : Route :=
  if !c.urgent then .queue
  else if (slotOf s c.item).isSome then .revise
  else if addWaits s c.item then .queue
  else match freeSlot s with
    | some i => .issue i
    | none => .queue

/-- The refusal of R7 that applies first, if any. -/
def changeRefusal (s : State) (c : Change) : Option Result :=
  if c.item = 0 ∨ Config.maxPrice < c.price then some .range
  else if c.add ∧ ((findItem s c.item).isSome ∨ addWaits s c.item = true) then some .exists_
  else if c.add ∧ Config.bookCapacity ≤ bookLoad s then some .bookFull
  else if c.add = false ∧ (findItem s c.item).isNone ∧ addWaits s c.item = false then some .unknownItem
  else if routeChange s c = .queue ∧ (queueEntryOf s c.item).isNone ∧ Config.queueCapacity ≤ queueCount s then some .full
  else none

/-- The change number that the next issue or revision takes (R14). -/
def nextChange (s : State) : Nat := nextIn 1 Config.max16 s.pbk.taken

/-- That number is given (R14). -/
def takeNumber (s : State) : State := { s with pbk := { s.pbk with taken := nextChange s } }

/-- The pending-part write of an issue or a revision. -/
def pendingWrite (c : Change) (revise : Bool) (n : Nat) : PendingWrite :=
  { item := c.item, price := c.price, origin := c.origin, urgent := c.urgent, create := c.add && !revise,
    revise := revise, number := n, source := c.source }

/-- Issue (R12): the slot takes its content with a new change number, and the pending-part write starts. -/
def issueChange (c : Change) (i : Nat) (s : State) : State :=
  let x : Slot :=
    { number := nextChange s, item := c.item, price := c.price, origin := c.origin, urgent := c.urgent,
      outstanding := activeLabels s c.item, issueTime := s.clock0, confirmed := 0, unreachable := 0, stage := .issuing }
  startWrite (.pending (pendingWrite c false (nextChange s))) (putSlot i (some x) (takeNumber s))

/-- Revision (R13): a new change number is assigned and the pending-part write starts; the slot takes the new content when it
is durable. -/
def reviseChange (c : Change) (s : State) : State :=
  startWrite (.pending (pendingWrite c true (nextChange s))) (takeNumber s)

/-- A change that goes to the queue: one write of the queue's writer (R8, R9, R10). -/
def enqueueChange (c : Change) (s : State) : State :=
  queueWrite
    { action := .upsert { item := c.item, price := c.price, origin := c.origin, add := c.add, urgent := c.urgent }
      answer := .queued c.source } s

/-- A change that passes is routed (R8, R9). -/
def routeTo (r : Route) (c : Change) (s : State) : State :=
  match r with
  | .revise => reviseChange c s
  | .issue i => issueChange c i s
  | .queue => enqueueChange c s

/-- An arriving change is checked and routed (R7, R8, R9). -/
def takeChange (c : Change) (s : State) : State :=
  match changeRefusal s c with
  | some r => answerChange c.source c.item c.price (.refused r) s
  | none => routeTo (routeChange s c) c s

/-- The entry as the pending-part write leaves it: created by an add, with the new price as current price (R12, R13). -/
def pendedItem (s : State) (w : PendingWrite) (p : Pending) : Item :=
  match findItem s w.item with
  | some i => { i with pending := some p }
  | none => { code := w.item, price := w.price, openPrice := false, pending := some p, bound := 0 }

/-- The slot as a durable issue or revision leaves it (R12, R13, R14). -/
def pendedSlot (s : State) (w : PendingWrite) (x : Slot) : Slot :=
  if w.revise then
    { x with
      number := w.number, price := w.price, origin := w.origin, urgent := x.urgent || w.urgent,
      outstanding := activeLabels s w.item, confirmed := 0, unreachable := 0, stage := .labelling }
  else { x with stage := .labelling }

/-- The urgent flag of the slot the write is for, after the write. -/
def pendedUrgent (s : State) (w : PendingWrite) : Bool :=
  w.urgent || (w.revise && match (slotOf s w.item).bind (slotAt s) with | some x => x.urgent | none => false)

/-- Whether an issue or revision takes its item's queue entry out of the queue: the entry that was admitted (R11), or an
older non-add entry that an urgent change supersedes (R8). -/
def supersedes (s : State) (w : PendingWrite) : Bool :=
  match queueEntryOf s w.item with
  | none => false
  | some q => w.source == .queue || (w.urgent && !q.add)

/-- The counter of the NV store after the write that records a number: that number, unless a later one, by the order in which
they were given, is recorded already (R14; log entry 7). -/
def counterAfter (counter n : Nat) : Nat :=
  if (n + Config.max16 - counter) % Config.max16 < 32768 then n else counter

/-- The pending-part write is durable: the counter, the entry and the slot take it (R12, R13, R14). -/
def pendingApplied (w : PendingWrite) (s : State) : State :=
  let s1 := { s with pbk := { s.pbk with counter := counterAfter s.pbk.counter w.number } }
  let s2 := putItem (pendedItem s1 w
    { price := w.price, origin := w.origin, number := w.number, urgent := pendedUrgent s1 w }) s1
  updateSlot w.item (pendedSlot s2 w) s2

/-- The pending-part write's completion (R7, R8, R11 to R14). -/
def pendingDone (w : PendingWrite) (s : State) : State :=
  let s1 := pendingApplied w s
  let s2 := s1.when (supersedes s1 w) (queueWrite { action := .remove w.item, answer := .nobody })
  checkEffect w.item (answerChange w.source w.item w.price (.issued w.number) s2)

/-- Who is told that a change queue write is durable (R3, R7). -/
def answerQueue (a : QueueAnswer) (s : State) : State :=
  match a with
  | .nobody => s
  | .queued src => answerChange src 0 0 .queued s
  | .itemRemoved tag => reply tag .itemRemove .ok .empty s

/-- The change queue writer's completion: the head write is applied, and the next starts (R6, R10). -/
def queueDone (s : State) : State :=
  match s.pbk.ops with
  | [] => s
  | o :: rest =>
    answerQueue o.answer { s with pbk := { s.pbk with
      queue := applyQueue o.action s.pbk.queue
      ops := if writesStopped s then [] else rest } }

/-! ## Admission -/

/-- A queue entry as a change of its own source. -/
def entryChange (q : QueueEntry) (add : Bool) : Change :=
  { item := q.item, price := q.price, origin := q.origin, urgent := q.urgent, add := add, source := .queue }

/-- Issue from the queue, into a FREE slot that the non-urgent share allows (R11, steps 2 to 4). -/
def issueFromQueue (q : QueueEntry) (add : Bool) (s : State) : State :=
  match freeSlot s with
  | none => s
  | some i =>
    if q.urgent ∨ nonUrgentCount s < Config.nonUrgentSlots then issueChange (entryChange q add) i s else s

/-- What admission does with the head entry (R11). -/
def admitHead (q : QueueEntry) (s : State) : State :=
  if (slotOf s q.item).isSome then reviseChange (entryChange q false) s
  else if (findItem s q.item).isSome then issueFromQueue q false s
  else if q.add then issueFromQueue q true s
  else queueWrite { action := .remove q.item, answer := .nobody } s

/-- Admission is tried (R11); a head whose item has a write under way waits for it (R6). -/
def tryAdmission (s : State) : State :=
  match s.pbk.queue with
  | [] => s
  | q :: _ => if keysMeet [.item q.item] (writeKeys s) then s else admitHead q s

/-! ## Items -/

/-- Whether an item code lies outside 1..4,294,967,295 (R196). -/
def badCode (item : Nat) : Bool := item == 0 || decide (Config.maxCode < item)

/-- ITEM ADD (R2). -/
def takeItemAdd (tag item price : Nat) (openPrice : Bool) (s : State) : State :=
  if badCode item ∨ Config.maxPrice < price then reply tag .itemAdd .range .empty s
  else if (findItem s item).isSome ∨ addWaits s item = true then reply tag .itemAdd .exists_ .empty s
  else if Config.bookCapacity ≤ bookLoad s then reply tag .itemAdd .bookFull .empty s
  else startWrite (.itemAdd tag { code := item, price := price, openPrice := openPrice, pending := none, bound := 0 }) s

/-- ITEM REMOVE (R3); RANGE for a code out of range (R196; log entry 24). -/
def takeItemRemove (tag item : Nat) (s : State) : State :=
  if badCode item then reply tag .itemRemove .range .empty s
  else match findItem s item with
  | none => reply tag .itemRemove .unknownItem .empty s
  | some i =>
    if i.pending.isSome then reply tag .itemRemove .pending .empty s
    else if 0 < i.bound then reply tag .itemRemove .bound .empty s
    else startWrite (.itemRemove tag item) s

/-- The entry's removal is durable; a queue entry of the item is removed after it, and the reply follows both (R3). -/
def itemRemoved (tag item : Nat) (s : State) : State :=
  let s1 := dropItem item s
  if (queueEntryOf s1 item).isSome then queueWrite { action := .remove item, answer := .itemRemoved tag } s1
  else reply tag .itemRemove .ok .empty s1

/-- The ITEM GET reply (R4). The position in the change queue counts from 0 at the head: DESIGN CHOICE (log entry 37). -/
def itemReport (s : State) (c : Nat) : ItemReport :=
  { entry := findItem s c
    charge := (findItem s c).bind (chargePrice s)
    slot := slotOf s c
    queued := (queueEntryOf s c).map fun q => (s.pbk.queue.idxOf q, q.price) }

/-- ITEM GET (R4); RANGE for a code out of range (R196; log entry 24). -/
def takeItemGet (tag item : Nat) (s : State) : State :=
  if badCode item then reply tag .itemGet .range .empty s
  else if (findItem s item).isSome ∨ addWaits s item = true then reply tag .itemGet .ok (.item (itemReport s item)) s
  else reply tag .itemGet .unknownItem .empty s

/-! ## Observation -/

/-- One LABELLING slot of a CHANGE STATUS reply (R21). -/
def slotReport (i : Nat) (x : Slot) : SlotReport :=
  { index := i, number := x.number, item := x.item, price := x.price, origin := x.origin, urgent := x.urgent,
    issueTime := x.issueTime, outstanding := x.outstanding.length, confirmed := x.confirmed,
    unreachable := x.unreachable }

/-- Whether an item's queue entry is on its way out of the queue: its removal is at the writer (R6, R10). -/
def leavingQueue (s : State) (item : Nat) : Bool := s.pbk.ops.any fun o => o.action == .remove item

/-- Whether the head entry waits for a slot (R11, R21); one without an entry that is no add is discarded and waits for
none, nor does one that has been admitted or superseded and whose removal is still being written. -/
def headWaits (s : State) : Bool :=
  match s.pbk.queue with
  | [] => false
  | q :: _ =>
    !leavingQueue s q.item && (slotOf s q.item).isNone && (q.add || (findItem s q.item).isSome) &&
    ((freeSlot s).isNone || (!q.urgent && decide (Config.nonUrgentSlots ≤ nonUrgentCount s)))

/-- The CHANGE STATUS reply (R21). -/
def changeReport (s : State) : ChangeReport :=
  { slots := (List.range Config.slotCount).filterMap fun i => (slotAt s i).map (slotReport i)
    freeSlots := s.pbk.slots.countP (·.isNone)
    nonUrgent := nonUrgentCount s
    queueLength := s.pbk.queue.length
    urgentEntries := s.pbk.queue.countP (·.urgent)
    addEntries := s.pbk.queue.countP (·.add)
    head := s.pbk.queue.head?
    headWaits := headWaits s
    counter := s.pbk.counter
    drops := s.pbk.drops }

end Sys2Proof.Machine
end

