-- ==== Sys2Proof/Machine/LabelOps.lean ====
section
/-! DEFINITION. The label radio: bindings, transmissions, bursts, refresh, acknowledgements and the health watch (chapter 2). -/

namespace Sys2Proof.Machine

/-! ## Bindings -/

/-- LABEL BIND (R25). -/
def takeBind (tag label item : Nat) (s : State) : State :=
  if Config.maxLabel < label ∨ item = 0 then reply tag .labelBind .range .empty s
  else if (s.label label).state ≠ .unbound then reply tag .labelBind .bound .empty s
  else if (findItem s item).isNone then reply tag .labelBind .unknownItem .empty s
  else startWrite (.bind tag label item) s

/-- A label's entry as a bind leaves it (R25). -/
def boundLabel (l : Label) (item : Nat) : Label :=
  { l with state := .active, item := some item, confirmed := none, floor := none, failed := 0 }
/-- A label's entry as an unbind leaves it (R26). -/
def unboundLabel (l : Label) : Label :=
  { l with state := .unbound, item := none, confirmed := none, floor := none, failed := 0 }

/-- The bind is durable (R16, R25). -/
def bindDone (tag label item : Nat) (s : State) : State :=
  let s1 := adjustBound item (· + 1) (putLabel (boundLabel (s.label label) item) s)
  reply tag .labelBind .ok .empty (joinOutstanding item label s1)

/-- The transmission in flight to a label is marked unbound in flight (R26). -/
def markUnbound (label : Nat) (s : State) : State :=
  { s with lrs := { s.lrs with
      inFlight := s.lrs.inFlight.map fun t => if t.label = label then { t with unboundMark := true } else t } }

/-- LABEL UNBIND (R26). -/
def takeUnbind (tag label : Nat) (s : State) : State :=
  if Config.maxLabel < label then reply tag .labelUnbind .range .empty s
  else match (s.label label).item with
    | none => reply tag .labelUnbind .state .empty s
    | some item => startWrite (.unbind tag label item) (markUnbound label s)

/-- The unbind is durable (R17, R26). A transmission to the label that was chosen while the write was under way is marked as one that
was in flight when the unbind was taken: DESIGN CHOICE (log entry 33). -/
def unbindDone (tag label item : Nat) (s : State) : State :=
  let s1 := adjustBound item (· - 1) (putLabel (unboundLabel (s.label label)) (markUnbound label s))
  reply tag .labelUnbind .ok .empty (leaveOutstanding item label 0 0 s1)

/-- LABEL RETRY (R27). -/
def takeRetry (tag label : Nat) (s : State) : State :=
  if Config.maxLabel < label then reply tag .labelRetry .range .empty s
  else if (s.label label).state ≠ .unreachable then reply tag .labelRetry .state .empty s
  else startWrite (.retry tag label) s

/-- The retry is durable (R16, R27). -/
def retryDone (tag label : Nat) (s : State) : State :=
  let l := s.label label
  let s1 := putLabel { l with state := .active, failed := 0 } s
  let s2 := match l.item with
    | some c => joinOutstanding c label s1
    | none => s1
  reply tag .labelRetry .ok .empty s2

/-- The slot whose outstanding set a label stands in, with its change number (R28). -/
def outstandingAt (s : State) (label : Nat) : Option (Nat × Nat) :=
  ((List.range Config.slotCount).filterMap fun i =>
    match slotAt s i with
    | some x => if x.outstanding.contains label then some (i, x.number) else none
    | none => none).head?

/-- The LABEL GET reply (R28). A transmission that has no number yet is shown with 0 (log entry 38). -/
def labelReport (s : State) (id : Nat) : LabelReport :=
  { entry := s.label id
    target := targetPrice s (s.label id)
    outstanding := outstandingAt s id
    inFlight := s.lrs.inFlight.bind fun t => if t.label = id then some (t.number, t.kind) else none }

/-! ## Choosing a transmission -/

/-- Whether one slot's priority work comes before another's: urgent first, then issue time (R37). -/
def slotBefore (a b : Slot) : Bool :=
  if a.urgent = b.urgent then decide (a.issueTime < b.issueTime) else a.urgent

/-- Insert a slot behind those that are not after it, so that equal ones keep their slot-number order (R12, R37). -/
def insertSlot (x : Slot) : List Slot → List Slot
  | [] => [x]
  | h :: t => if slotBefore x h then x :: h :: t else h :: insertSlot x t

/-- The slots whose labels are priority work, in R37's order: those whose issue is durable (R12, R36; log entry 8). -/
def prioritySlots (s : State) : List Slot :=
  ((s.pbk.slots.filterMap id).filter fun x => x.stage != .issuing).foldl (fun acc x => insertSlot x acc) []

/-- The first priority label not on an attempted list, with its slot's price (R37). -/
def priorityChoice (s : State) (attempted : List Nat) : Option (Nat × Nat) :=
  ((prioritySlots s).flatMap fun x => (x.outstanding.filter fun n => !attempted.contains n).map fun n => (n, x.price)).head?

/-- Whether a label is a refresh candidate: bound and not attempted in the burst (R38). -/
def refreshable (attempted : List Nat) (l : Label) : Bool := l.state != .unbound && !attempted.contains l.id

/-- One more full pass of the cursor (R38). -/
def nextCycle (n : Nat) : Nat := if n < Config.max32 then n + 1 else 0

/-- The refresh search: the label found, the cursor and the cycle count (R38, log entry 32). -/
def refreshSearch (s : State) (attempted : List Nat) : Option Label × Nat × Nat :=
  match s.lrs.labels.find? fun l => decide (s.lrs.cursor ≤ l.id) && refreshable attempted l with
  | some l => (some l, l.id, s.lrs.cycles)
  | none =>
    match s.lrs.labels.find? fun l => decide (l.id < s.lrs.cursor) && refreshable attempted l with
    | some l => (some l, l.id, nextCycle s.lrs.cycles)
    | none => (none, s.lrs.cursor, nextCycle s.lrs.cycles)

/-- The cursor moves past a label (R32, R33, R38). A cursor that returned to 0 while the label's REFRESH transmission was in
flight (R39) moves on past the label all the same: DESIGN CHOICE (log entry 40). -/
def passLabel (id : Nat) (s : State) : State :=
  if id < Config.maxLabel then { s with lrs := { s.lrs with cursor := id + 1 } }
  else { s with lrs := { s.lrs with cursor := 0, cycles := nextCycle s.lrs.cycles } }

/-! ## A transmission -/

/-- The price frame goes out under the next transmission number (R30). -/
def sendPrice (t : Transmission) (s : State) : State :=
  let n := (s.lrs.txCount + 1) % 256
  emit (.priceFrame t.label n t.price) { s with lrs := { s.lrs with
    txCount := n
    inFlight := some { t with number := n, phase := .frame, windowMs := s.settings.nat .ackWindow } } }

/-- Whether sending a price needs a floor write (R30). -/
def floorNeeded (l : Label) (price : Nat) : Bool :=
  match l.floor with
  | none => true
  | some f => decide (price < f)

/-- The transmission decides its floor write, once no write of its label is under way (R30). One that waited here while its label was
unbound, and even bound again, is not recalled (R26): it goes on with the price it was chosen with and writes it as the floor of the entry
as it then stands: DESIGN CHOICE (log entry 33). -/
def takeFloor (label : Nat) (s : State) : State :=
  match s.lrs.inFlight with
  | none => s
  | some t =>
    if t.label ≠ label ∨ t.phase ≠ .floorWait then s
    else if floorNeeded (s.label label) t.price then
      startWrite (.floor label t.price) { s with lrs := { s.lrs with inFlight := some { t with phase := .floorWrite } } }
    else sendPrice t s

/-- A transmission begins: its price is fixed, and it waits for its label's writes (R30). It holds number 0, which LABEL GET and
RADIO STATUS show, until its frame is sent under its own: DESIGN CHOICE (log entry 38). -/
def beginTransmission (label price : Nat) (k : TxKind) (s : State) : State :=
  let t : Transmission :=
    { label := label, number := 0, price := price, kind := k, unboundMark := false, phase := .floorWait, windowMs := 0 }
  queueWork (.floor label) { s with lrs := { s.lrs with inFlight := some t } }

/-- The floor write is durable; the frame goes out when the transmission still waits for it (R30). -/
def floorDone (label price : Nat) (s : State) : State :=
  let l := s.label label
  let s1 := putLabel { l with floor := some price } s
  match s1.lrs.inFlight with
  | some t => if t.label = label ∧ t.phase = .floorWrite then sendPrice t s1 else s1
  | none => s1

/-- The transmission in flight has ended in success or failure: the burst counts it, and a refresh moves the cursor on
(R32, R33, R35). -/
def endTransmission (t : Transmission) (s : State) : State :=
  let s1 := { s with lrs := { s.lrs with
    inFlight := none
    burst := s.lrs.burst.map fun b => { b with made := b.made + 1, attempted := b.attempted ++ [t.label] } } }
  if t.kind = .refresh then passLabel t.label s1 else s1

/-- A label's failure is counted, and the attempt limit compared (R33). One taken on an UNBOUND entry, whose unbind came between the
closing of the window and its turn, counts nothing: DESIGN CHOICE (log entry 53). -/
def takeFailure (label : Nat) (s : State) : State :=
  let l := s.label label
  if l.state = .unbound then s
  else
    let l1 := { l with failed := satAdd 15 l.failed 1 }
    let s1 := putLabel l1 s
    if l.state = .active ∧ s.settings.nat .attemptLimit ≤ l1.failed then startWrite (.unreachable label) s1 else s1

/-- The write that makes a label UNREACHABLE is durable (R17, R33). -/
def unreachableDone (label : Nat) (s : State) : State :=
  let l := s.label label
  let s1 := putLabel { l with state := .unreachable } s
  match l.item with
  | none => s1
  | some c => notify (.labelLost label c l.failed l.confirmed l.floor) (leaveOutstanding c label 0 1 s1)

/-! ## Bursts -/

/-- A beacon goes out, the next is scheduled, and a burst begins or waits for the transmission in flight (R34, R35, R41). A burst that
waits already gives way to the new beacon's, which goes on waiting: DESIGN CHOICE (log entry 56). -/
def sendBeacon (s : State) : State :=
  let s1 := emit .beacon s
  let n := burstLength s
  if s.lrs.inFlight.isNone then
    { s1 with lrs := { s1.lrs with
        nextBeacon := some (s.timer + beaconMs s)
        burst := some { length := n, made := 0, attempted := [] }
        waitingBurst := none } }
  else
    { s1 with lrs := { s1.lrs with nextBeacon := some (s.timer + beaconMs s), burst := none, waitingBurst := some n } }

/-- The settle time ends: the radio is AWAKE and sends the first beacon (R46). -/
def radioAwake (s : State) : State := sendBeacon { s with lrs := { s.lrs with radio := .awake, settleEnd := none } }

/-- The attempted list that tells whether priority work has arrived: of the running burst, or of the one that waits
(R40). -/
def attemptedNow (s : State) : List Nat :=
  match s.lrs.burst with
  | some b => b.attempted
  | none => []

/-- A refresh transmission is abandoned when priority work has arrived (R40). When its price frame is still going out, the next
frame goes out at once, and the PRICE_FRAME_END that follows is taken for the new transmission: DESIGN CHOICE (log entry 39). -/
def abandonForPriority (s : State) : State :=
  match s.lrs.inFlight with
  | some t => if t.kind = .refresh ∧ (priorityChoice s (attemptedNow s)).isSome then abandonTransmission s else s
  | none => s

/-- The burst that waited begins when no transmission is in flight (R41). -/
def startWaitingBurst (s : State) : State :=
  match s.lrs.inFlight, s.lrs.waitingBurst with
  | none, some n =>
    { s with lrs := { s.lrs with burst := some { length := n, made := 0, attempted := [] }, waitingBurst := none } }
  | _, _ => s

/-- The burst ends (R35). -/
def endBurst (s : State) : State := { s with lrs := { s.lrs with burst := none } }

/-- The burst looks for refresh work (R38, R39). -/
def chooseRefresh (b : Burst) (s : State) : State :=
  if refreshEnabled s.settings s.day.store then
    let r := refreshSearch s b.attempted
    let s1 := { s with lrs := { s.lrs with cursor := r.2.1, cycles := r.2.2 } }
    match r.1 with
    | some l =>
      match targetPrice s l with
      | some p => beginTransmission l.id p .refresh s1
      | none => endBurst s1
    | none => endBurst s1
  else endBurst s

/-- The burst chooses its next transmission (R35, R37, R38). -/
def chooseNext (s : State) : State :=
  match s.lrs.inFlight, s.lrs.burst with
  | none, some b =>
    if s.lrs.radio ≠ .awake then s
    else if b.length ≤ b.made then endBurst s
    else match priorityChoice s b.attempted with
      | some (label, price) => beginTransmission label price .priority s
      | none => chooseRefresh b s
  | _, _ => s

/-- What the radio does after anything has happened: abandon, start, choose (R40, R41, R35). -/
def radioStep (s : State) : State := chooseNext (startWaitingBurst (abandonForPriority s))

/-! ## Acknowledgements -/

/-- Whether an acknowledgement ends the transmission in flight in success (R32). -/
def matchesWindow (t : Transmission) (label number : Nat) : Bool :=
  t.label == label && t.number == number && match t.phase with | .window _ => true | _ => false

/-- Whether an acknowledgement answers the transmission in flight that is marked unbound in flight (R31). -/
def answersMarked (t : Transmission) (label number : Nat) : Bool :=
  t.label == label && t.number == number && t.unboundMark &&
  match t.phase with | .frame => true | .window _ => true | _ => false

/-- LRS takes an acknowledgement (R31, R32). -/
def takeAckFrame (label number price battery : Nat) (margin : Int) (s : State) : State :=
  let a : AckReport :=
    { label := label, price := price, battery := battery, margin := clampMargin margin, time := s.day.clock
      answersUnbound := match s.lrs.inFlight with
        | some t => answersMarked t label number
        | none => false }
  let s1 := match s.lrs.inFlight with
    | some t => if matchesWindow t label number then endTransmission t s else s
    | none => s
  queueWork (.ack a) s1

/-- The acknowledgement's write starts: the whole of it for a bound label it is taken for, the label's own fields otherwise
(R31). -/
def takeAck (a : AckReport) (s : State) : State :=
  startWrite (.ack a ((s.label a.label).state != .unbound && !a.answersUnbound)) s

/-- A label's entry as an acknowledgement leaves it (R31). -/
def ackedLabel (a : AckReport) (full : Bool) (l : Label) : Label :=
  let l1 := { l with battery := some a.battery, margin := some a.margin, lastAck := a.time }
  if full then { l1 with state := .active, confirmed := some a.price, floor := none, failed := 0 } else l1

/-- The health watch examines a report (R43), by the settings as they stand when the acknowledgement's write is durable: DESIGN
CHOICE for settings that changed since it was received (R44; log entry 41). -/
def healthWatch (a : AckReport) (item : Option Nat) (s : State) : State :=
  let low := badBattery s.settings a.battery
  let bad := badMargin s.settings a.margin
  let l := s.label a.label
  if healthScoped s.settings a.label && (low || bad) && !l.health then
    notify (.labelHealth a.label item a.battery a.margin low bad) (putLabel { l with health := true } s)
  else s

/-- The acknowledgement's write is durable: PBK is told, then the health watch (R15, R31, R43). -/
def ackDone (a : AckReport) (full : Bool) (s : State) : State :=
  let item := if full then (s.label a.label).item else none
  let s1 := putLabel (ackedLabel a full (s.label a.label)) s
  healthWatch a (s.label a.label).item (reportAck item a.label a.price s1)

/-- HEALTH CLEAR of one label or of all (R44). -/
def clearHealth (target : Option Nat) (s : State) : State :=
  match target with
  | some id => putLabel { s.label id with health := false } s
  | none => (s.lrs.labels.map (·.id)).foldl (fun u id => putLabel { u.label id with health := false } u) s

/-! ## Observation -/

/-- The RADIO STATUS reply (R48). -/
def radioReport (s : State) : RadioReport :=
  { radio := s.lrs.radio
    night := nightBurst s.day.store
    period := if nightBurst s.day.store then s.settings.num .nightPeriod else s.settings.num .dayPeriod
    length := if nightBurst s.day.store then s.settings.num .nightLength else s.settings.num .dayLength
    refreshEnabled := refreshEnabled s.settings s.day.store
    burstRunning := s.lrs.burst.isSome
    burstWaiting := s.lrs.waitingBurst.isSome
    made := match s.lrs.burst with | some b => b.made | none => 0
    attempted := match s.lrs.burst with | some b => b.attempted.length | none => 0
    inFlight := s.lrs.inFlight
    cursor := s.lrs.cursor
    cycles := s.lrs.cycles
    active := s.lrs.labels.countP fun l => l.state == .active
    unreachable := s.lrs.labels.countP fun l => l.state == .unreachable
    flagged := s.lrs.labels.countP (·.health)
    errors := s.lrs.errors }

end Sys2Proof.Machine
end

