-- ==== Sys2Proof/Machine/WorkOps.lean ====
section
/-! DEFINITION. Pricing a line, settings, and the taking of the events that wait for a write of the same item, label or setting (R6, R24, R56, R57, R188). -/

namespace Sys2Proof.Machine

/-! ## LINE ADD -/

/-- The unit price and origin of a line, or the refusal (R56, R57). -/
def linePrice (s : State) (item : Nat) (keyed : Option Nat) : Except Result (Nat × LineOrigin) :=
  match findItem s item with
  | some i =>
    match chargePrice s i, keyed with
    | some c, _ => .ok (c, .book)
    | none, some k => .ok (k, .keyed)
    | none, none => .error .priceNeeded
  | none =>
    if s.settings.on .keyedUnknown then
      match keyed with
      | some k => .ok (k, .keyed)
      | none => .error .priceNeeded
    else .error .unknownItem

/-- Whether the fields of a LINE ADD are in range (R56). -/
def lineInRange (item : Nat) (qty : Int) (keyed : Option Nat) : Bool :=
  item != 0 && qty != 0 && decide (-999 ≤ qty) && decide (qty ≤ 999) &&
  match keyed with
  | some k => decide (k ≤ Config.maxPrice)
  | none => true

/-- A line joins the basket and the reply carries it (R56). -/
def addLine (t : Nat) (l : BasketLine) (s : State) : State :=
  let p := placeAt s t
  let b := p.basket ++ [l]
  answerTill t .lineAdd .ok (.line l.number l.price l.origin (basketTotal b)) (putPlace t { p with basket := b } s)

/-- LINE ADD in BASKET, taken by PBK in its order for the item (R56, R57). -/
def takeLineAdd (t item : Nat) (qty : Int) (keyed : Option Nat) (s : State) : State :=
  let p := placeAt s t
  if lineInRange item qty keyed = false then answerTill t .lineAdd .range .empty s
  else if Config.maxLines ≤ p.basket.length then answerTill t .lineAdd .lineLimit .empty s
  else
    match linePrice s item keyed with
    | .error r => answerTill t .lineAdd r .empty s
    | .ok (price, origin) =>
      if totalFits (basketTotal p.basket + qty * price) = false then answerTill t .lineAdd .totalRange .empty s
      else
        addLine t
          { number := p.basket.length + 1, item := item, qty := qty, price := price, origin := origin, voided := false } s

/-! ## Settings -/

/-- The reply to a host SETTING SET, or nothing to head office (R188, R190). -/
def settingRefused (src : SettingSource) (r : Result) (s : State) : State :=
  match src with
  | .host tag => reply tag .settingSet r .empty s
  | .headOffice => routeError s

/-- A setting message that changes nothing: OK to the host, and SETTING CHANGED for head office's (R188, R190). -/
def settingSame (id : Nat) (v : SettingValue) (src : SettingSource) (s : State) : State :=
  match src with
  | .host tag => reply tag .settingSet .ok .empty s
  | .headOffice => notify (.settingChanged id v v .headOffice) s

/-- A setting message is judged (R188, R190). One that waited for an earlier write of its setting is judged by the lock as it stands
when its turn comes: DESIGN CHOICE (log entry 63). -/
def takeSetting (id : Nat) (v : SettingValue) (src : SettingSource) (s : State) : State :=
  match settingTarget id with
  | none => settingRefused src .range s
  | some t =>
    if lockable t ∧ s.hlk.lock = true ∧ src ≠ .headOffice then settingRefused src .locked s
    else if settingTakes s.settings t v = false then settingRefused src .range s
    else if heldValue s.settings t = v then settingSame id v src s
    else startWrite (.setting id v src) s

/-- Refresh becomes enabled for the present store state by a setting: the cursor returns to 0 (R39). -/
def refreshBySetting (old : Settings) (s : State) : State :=
  if refreshEnabled old s.day.store = false ∧ refreshEnabled s.settings s.day.store = true then
    { s with lrs := { s.lrs with cursor := 0 } }
  else s

/-- What each block does when a setting has its new value: the exposure mark (R83), AUZ's test (R74), the guest service
(R151), the GUEST queue (R121), the rate tokens (R156), the refresh cursor (R39) and a timeout class's next tick (R129). -/
def settingEffect (t : SettingTarget) (old : Settings) (s : State) : State :=
  match t with
  | .window _ => rematchGuestQueue s
  | .num n =>
    match n with
    | .exposureLimit => { s with auz := { s.auz with mark := false } }
    | .backupAuth => testQueued s
    | .backupGuest | .guestEnable | .authShed | .shedMark => guestDecide s
    | .rate | .depth => refreshAllTokens s
    | .refreshOpening | .refreshOpen | .refreshClosing | .refreshNight => refreshBySetting old s
    | .periodT1 => tickIfDue .t1 s
    | .periodT2 => tickIfDue .t2 s
    | .periodT3 => tickIfDue .t3 s
    | .periodT4 => tickIfDue .t4 s
    | _ => s

/-- A setting takes its value; before a change of rate or depth the tokens are brought up to date at the old one (R156,
R188). -/
def writeSetting (t : SettingTarget) (v : SettingValue) (s : State) : State :=
  let s1 := s.when (t == .num .rate || t == .num .depth) refreshAllTokens
  settingEffect t s.settings { s1 with settings := putValue s1.settings t v }

/-- Who is told that a setting has its new value (R188, R190). -/
def settingAnswered (id : Nat) (old v : SettingValue) (src : SettingSource) (s : State) : State :=
  match src with
  | .host tag => reply tag .settingSet .ok .empty s
  | .headOffice => notify (.settingChanged id old v .headOffice) s

/-- The setting's write is durable (R188, R190). What the new value brings about, GUEST STATE among it, goes before SETTING CHANGED:
DESIGN CHOICE (log entry 43). -/
def settingDone (id : Nat) (v : SettingValue) (src : SettingSource) (s : State) : State :=
  match settingTarget id with
  | none => s
  | some t => settingAnswered id (heldValue s.settings t) v src (writeSetting t v s)

/-! ## The events that wait -/

/-- An event is taken. -/
def takeWork (w : Work) (s : State) : State :=
  match w with
  | .itemAdd tag i p o => takeItemAdd tag i p o s
  | .itemRemove tag i => takeItemRemove tag i s
  | .itemGet tag i => takeItemGet tag i s
  | .change c => takeChange c s
  | .lineAdd t i q k => takeLineAdd t i q k s
  | .bind tag l i => takeBind tag l i s
  | .unbind tag l => takeUnbind tag l s
  | .retry tag l => takeRetry tag l s
  | .ack a => takeAck a s
  | .failure l => takeFailure l s
  | .floor l => takeFloor l s
  | .setting id v src => takeSetting id v src s

/-- One ready event is taken (R6, R24, R188). -/
def takeReady (s : State) : State :=
  match firstReady s (writeKeys s) s.waiting with
  | some (w, rest) => takeWork w { s with waiting := rest }
  | none => s

/-- Ready events are taken one after another. -/
def drain : Nat → State → State
  | 0, s => s
  | n + 1, s => drain n (takeReady s)

/-- All events that wait and are ready are taken. -/
def drainAll (s : State) : State := drain s.waiting.length s

end Sys2Proof.Machine
end

