-- ==== Sys2Proof/Machine/ReactOps.lean ====
section
/-! DEFINITION. What the part does at the end of every command that changes its state: the waiting events, the writer, admission, the radio, transfer, the transmitters and the QUIET test, until nothing more follows. -/

namespace Sys2Proof.Machine

/-- A night-file change as PBK takes it (R7, R145). -/
def nightChange (c : PieceChange) : Change :=
  { item := c.item, price := c.price, origin := .nightFile, urgent := c.urgent, add := c.add, source := .nightFile }

/-- TXE hands PBK the next change of a piece, or finishes the piece (R145). -/
def feedOne (s : State) : State :=
  match s.txe.file with
  | some f =>
    if f.state = .feeding ∧ f.awaiting = false then
      match f.feed with
      | [] => finishPiece f s
      | c :: rest =>
        drainAll (queueWork (.change (nightChange c)) (putFile (some { f with feed := rest, awaiting := true }) s))
    else s
  | none => s

/-- Changes are handed over as long as PBK answers them at once (R145). -/
def feed : Nat → State → State
  | 0, s => s
  | n + 1, s => feed n (feedOne s)

/-- The changes of the present piece, all that can be handed over now. -/
def feedAll (s : State) : State :=
  match s.txe.file with
  | some f => feed (f.feed.length + 1) s
  | none => s

/-- TXE's batch work: resume, form, offer, settle (R134, R135, R137, R140, R143). -/
def batchStep (s : State) : State := settleBatch (offerMembers 64 (formNext (resumeBatch s)))

/-- TXE's work (chapter 7). A run whose abort waits for a reply that was taken first goes on forming, sending and asking until it is
aborted: DESIGN CHOICE (log entry 48). -/
def transferStep (s : State) : State :=
  offerFileRequest (settleAbort (feedAll (batchStep (batchStep (settleAbort s)))))

/-- The journal's writer takes what it can (R94). -/
def journalStep (s : State) : State := writerPump (s.sjr.queue.length + Config.tillCount) s

/-- Everything that follows from what a command has changed. A change or request that waited for a write of its item (R6) is taken
before the admission that the completion tries (R19, step 5, R11), so that a waiting urgent change can take the slot that became
FREE ahead of the queue head: DESIGN CHOICE (log entry 50). The arbiter chooses after every command that finds the transmitter idle, also
where no event that R118 lists has happened, as when room in the office wait list or a new shared floor is all that lets a frame go:
DESIGN CHOICE (log entry 70). -/
def reactRunning (s : State) : State :=
  let s1 := drainAll (radioStep (tryAdmission (journalStep (drainAll s))))
  let s2 := pumpPaths (transferStep s1)
  testQuiet (settleBatch (pumpPaths (transferStep s2)))

/-- The same, for a part that runs (R176). -/
def react (s : State) : State := if s.running then reactRunning s else s

/-- The end of a command that changes the part's state. -/
def finish (s : State) : State := hostPump (react s)

/-- A timed or outside event at a running part: what it does, and what follows. -/
def event (f : State → State) (s : State) : Out := .next (if s.running then finish (f s) else s)

end Sys2Proof.Machine
end

