-- ==== Sys2Proof/Machine/StartOps.lean ====
section
/-! DEFINITION. HOLD, the reset line, power, and start-up after every reset kind (R22, R47, R70, R87, R100, R106, R131, R149, R164, R176 to R179, R195). -/

namespace Sys2Proof.Machine

/-! ## What a reset keeps and clears -/

/-- The price book after a reset, before its slots are rebuilt (R22); the numbers of cut writes are given again (R14). -/
def freshPbk (b : Pbk) : Pbk := { b with taken := b.counter, slots := List.replicate Config.slotCount none, drops := 0, ops := [] }

/-- A label's entry after a reset (R24, R47). -/
def freshLabel (l : Label) : Label := { l with failed := 0, health := false }

/-- The label radio after a reset; it is SETTLING from the end of start-up (R46, R47). -/
def freshLrs (l : Lrs) : Lrs :=
  { labels := (l.labels.map freshLabel).filter fun x => x != blankLabel x.id
    cursor := 0, cycles := 0, txCount := 0, inFlight := none, burst := none, waitingBurst := none, radio := .settling,
    settleEnd := none, nextBeacon := none, errors := 0 }

/-- The tills after a reset (R49, R70). -/
def freshTsu : Tsu := { places := List.replicate Config.tillCount freePlace, grace := none, errors := 0 }

/-- Card authorization after a reset (R87). -/
def freshAuz : Auz :=
  { entries := [], mark := false, online := 0, hoDeclines := 0, offline := 0, fallbackDeclines := 0, late := 0 }

/-- The journal after a reset: the list and the counter are kept, the figures derived from them (R100, R106). -/
def freshSjr (j : Sjr) : Sjr :=
  let rs := j.records.map fun r => { r with sent := none }
  { records := rs, counter := j.counter, queue := [], writing := none, claims := List.replicate Config.tillCount 0,
    exposure := exposureOf rs, unsent := rs.length, level := levelReached rs.length, removing := none, removals := [] }

/-- A path after a reset, with the carrier its modem reports (R107, R131). -/
def freshPath (carrier : Bool) : PathRec := { resetPath with carrier := carrier }

/-- The uplink after a reset (R131). -/
def freshUlc (u : Ulc) : Ulc :=
  { primary := freshPath u.carrierPrimary, backup := freshPath u.carrierBackup, carrierPrimary := u.carrierPrimary,
    carrierBackup := u.carrierBackup, sessions := 0, active := none, authQ := [], priceQ := [], journalQ := [],
    officeQ := [], guestQ := [], waits := [], lastForward := 0, t1 := resetTick, t2 := resetTick, t3 := resetTick,
    t4 := resetTick, isolation := 0, linkErrors := 0, routeErrors := 0 }

/-- The transfer engine after a reset (R149). -/
def freshTxe : Txe :=
  { batch := none, nextBatch := 0, file := none, pieceNumber := 0, pauseEnd := none, run := resetRun,
    counts := zeroCounts, runBase := zeroCounts, abortDue := false }

/-- Guest access after a reset (R164). -/
def freshGac : Gac :=
  { service := .closed, sessions := List.replicate Config.sessionCount none, spent := [], drops := 0 }

/-- The host link after a reset; notices are held until START has joined the queue (R179, R195), and a frame that was being
received is discarded uncounted (R181). -/
def freshHlk : Hlk :=
  { rx := { bytes := [], stray := false }, rxAt := 0, requests := [], replies := [], tx := none, notices := [], lastNumber := 0, ackWait := .unsent, overrun := false,
    held := some [], lastRequest := 0, silenceAt := none, standalone := none, standaloneOverrun := false, lock := false,
    frameErrors := 0, officeDrops := 0, resetPhase := .none }

/-- Whether a reset kind unsets the clock (R165, R177). -/
def unsetsClock : ResetCause → Bool
  | .powerOn | .holdExit => true
  | _ => false

/-- The trading day after a reset, before the store state is chosen: the cause, the clock and the lines (R177, R178). -/
def freshDay (cause : ResetCause) (d : Day) : Day :=
  { clock := if unsetsClock cause then none else d.clock
    clockMs := if unsetsClock cause then 0 else d.clockMs
    store := .night, power := .run, lines := d.lines, reported := d.lines, cause := cause, lastWake := none,
    quietAt := none, dueEvents := [], powered := true, holdLine := d.holdLine, resetLine := d.resetLine, stopped := none }

/-- All volatile state is cleared and the NV store's content kept (R177); the internal timer starts from 0 (log entry 5). -/
def freshState (cause : ResetCause) (s : State) : State :=
  { s with
    timer := 0, nv := [], waiting := [], pbk := freshPbk s.pbk, lrs := freshLrs s.lrs, tsu := freshTsu, auz := freshAuz,
    sjr := freshSjr s.sjr, ulc := freshUlc s.ulc, txe := freshTxe, gac := freshGac, day := freshDay cause s.day,
    hlk := freshHlk }

/-! ## Start-up -/

/-- The slot of an entry with a pending part, rebuilt (R22). -/
def rebuiltSlot (s : State) (i : Item) (p : Pending) : Slot :=
  let bound := (labelsOf s i.code).filter fun l => l.state == .active
  { number := p.number, item := i.code, price := p.price, origin := p.origin, urgent := p.urgent,
    outstanding := (bound.filter fun l => l.confirmed != some p.price).map (·.id)
    issueTime := s.clock0
    confirmed := bound.countP fun l => l.confirmed == some p.price
    unreachable := 0, stage := .labelling }

/-- The slots of all entries with a pending part, in item-code order (R22). -/
def rebuiltSlots (s : State) : List Slot := s.pbk.items.filterMap fun i => i.pending.map (rebuiltSlot s i)

/-- The slots are rebuilt; one whose set is empty takes effect at once (R19, R22). -/
def rebuildSlots (s : State) : State :=
  let xs := rebuiltSlots s
  let s1 := { s with pbk := { s.pbk with
    slots := ((xs.map some) ++ List.replicate Config.slotCount none).take Config.slotCount } }
  xs.foldl (fun u x => checkEffect x.item u) s1

/-- DAY enters the store state chosen, without a STATE notice (R178, step 4). -/
def enterChosen (st : StoreState) (s : State) : State :=
  match st with
  | .opening => enterOpening none s
  | .opened => enterOpen none (enterOpening none s)
  | _ => nightEffects s.day.clock.isSome s

/-- The START notice (R179). -/
def startNotice (cause : ResetCause) (slots : Nat) (s : State) : NoticeBody :=
  .start cause s.day.clock s.day.store (s.txe.run.state == .upload) s.sjr.held slots s.day.lines

/-- START joins the notice queue, and the notices held behind it join it in their order (R179). -/
def releaseNotices (b : NoticeBody) (s : State) : State :=
  let held := s.hlk.held.getD []
  held.foldl (fun u n => joinNotice n u) (joinNotice b { s with hlk := { s.hlk with held := none } })

/-- Each path with carrier greets the concentrator (R107, R178). -/
def greetPaths (s : State) : State :=
  let s1 := if s.ulc.primary.carrier then greet .primary s else s
  if s1.ulc.backup.carrier then greet .backup s1 else s1

/-- Start-up (R178). -/
def startUp (cause : ResetCause) (s : State) : State :=
  let s0 := freshState cause s
  let s1 := rebuildSlots s0
  let s2 := enterChosen (scheduleState s1.settings s1.day.clock) s1
  let s3 := releaseNotices (startNotice cause (rebuiltSlots s0).length s2) (emit .endAll s2)
  finish (startSilence (greetPaths (settleRadio (guestDecide s3))))

/-! ## Stops -/

/-- The writes under way are cut, and leave their old content whole (R1, R24, R97, R106, R176). -/
def cutWrites (s : State) : State :=
  { s with
    nv := [], waiting := []
    pbk := { s.pbk with ops := [] }
    sjr := { s.sjr with writing := none, queue := [], removing := none, removals := [] } }

/-- HOLD is asserted (R176, R177). -/
def holdAsserted (s : State) : State :=
  let s1 := { s with day := { s.day with holdLine := true } }
  if s.day.powered = false then s1
  else
    cutWrites { s1 with day := { s1.day with
      power := .hold
      stopped := some (if s.day.stopped = some .powerOn then .powerOn else .holdExit) } }

/-- The start-up that was waiting begins when neither line stops the part any longer (R177). -/
def restartIfFree (s : State) : State :=
  if s.day.holdLine || s.day.resetLine || !s.day.powered then s
  else match s.day.stopped with
    | some k => startUp k s
    | none => s

/-- The HOLD line is released (R176, R177). -/
def holdReleased (s : State) : State :=
  if s.day.holdLine then restartIfFree { s with day := { s.day with holdLine := false } } else s

/-- The reset line is asserted (R177). -/
def resetAsserted (s : State) : State :=
  let s1 := { s with day := { s.day with resetLine := true } }
  if s.running then
    cutWrites { s1 with day := { s1.day with
      stopped := some (if s.day.power = .quiet then .resetLineQuiet else .resetLine) } }
  else s1

/-- The reset line is released (R177). -/
def resetReleased (s : State) : State :=
  if s.day.resetLine then restartIfFree { s with day := { s.day with resetLine := false } } else s

/-- Power is applied: a POWER_ON reset, which waits while a line stops the part (R177, log entry 15). -/
def powerApplied (s : State) : State :=
  let s1 := cutWrites { s with day := { s.day with
    powered := true
    clock := none
    clockMs := 0
    power := if s.day.holdLine then .hold else .run
    stopped := some .powerOn } }
  restartIfFree s1

/-- Power is lost (R176, R177). -/
def powerLost (s : State) : State :=
  cutWrites { s with day := { s.day with powered := false, clock := none, clockMs := 0, stopped := none } }

/-- Whether every NV write has completed (R194). -/
def writesDone (s : State) : Bool :=
  s.nv.isEmpty && s.pbk.ops.isEmpty && s.sjr.writing.isNone && s.sjr.removing.isNone

/-- The part makes the HOST_RESET that a RESET asked for, once its reply is sent and every write has completed (R194). -/
def hostResetDue (s : State) : Bool := s.running && s.hlk.resetPhase == .sent && writesDone s

end Sys2Proof.Machine
end

