-- ==== Sys2Proof/Machine/Tick.lean ====
section
/-! DEFINITION. One millisecond of the internal timer on an empty queue, and the timed events that have come due with it (log entry 1). -/

namespace Sys2Proof.Machine

/-- Whether an armed time has come. -/
def dueNow (s : State) (t : Option Nat) : Bool :=
  match t with
  | some x => decide (x ≤ s.timer)
  | none => false

/-- A command that has come due, when a condition holds. -/
def dueIf (c : Bool) (i : Instr) : List Instr := if c then [i] else []

/-- Whether a place's till has been silent for the limit (R65). -/
def silentTill (s : State) (p : Place) : Bool :=
  (p.state == .idle || p.state == .basket || p.state == .authorizing) && !p.busy &&
  decide (p.lastFrame + 1000 * s.settings.nat .tillSilence ≤ s.timer)

/-- The radio's and the host link's timed events that have come due (R34, R46, R181, R185, R186), and the HOST_RESET that a RESET asked
for, once its conditions hold (R194): that it comes at an empty queue, behind the host link's other events: DESIGN CHOICE (log entry
1). -/
def dueRadioHost (s : State) : List Instr :=
  dueIf (s.lrs.radio == .settling && dueNow s s.lrs.settleEnd) .settleEnd ++
  dueIf (match s.lrs.inFlight with
    | some t => (match t.phase with | .window x => decide (x ≤ s.timer) | _ => false)
    | none => false) .ackWindowClose ++
  dueIf (s.lrs.radio == .awake && dueNow s s.lrs.nextBeacon) .beacon ++
  dueIf (match s.hlk.ackWait with | .waiting x => decide (x ≤ s.timer) | _ => false) .noticeResendExpiry ++
  dueIf (dueNow s s.hlk.silenceAt) .silenceExpiry ++ dueIf (byteGapPassed s) .hostByteTimeout ++
  dueIf (hostResetDue s) .hostReset

/-- The tills' timed events that have come due (R65, R68). -/
def dueTills (s : State) : List Instr :=
  (tillNumbers.filter fun t => silentTill s (placeAt s t)).map Instr.tillSilenceExpiry ++
  dueIf (dueNow s s.tsu.grace) .closingGraceEnd

/-- The ends of the authorization retry delays that have come due (R77). Several of one millisecond are taken in the order their entries
were created: DESIGN CHOICE (log entry 18). -/
def dueRetries (s : State) : List Instr :=
  (s.auz.entries.filter fun e => e.state == .retryWait && dueNow s e.retryEnd).map fun e => Instr.authRetryDelayEnd e.till

/-- A path's probe that has come due (R110). -/
def dueProbe (s : State) (p : Path) : List Instr := dueIf (dueNow s (s.ulc.path p).nextProbe) (.probeDue p)

/-- The transfer engine's delays that have come due (R137, R140, R146). -/
def dueTransfer (s : State) : List Instr :=
  dueIf (dueNow s (s.txe.batch.bind (·.retryEnd))) .batchRetryDelayEnd ++ dueIf (dueNow s s.txe.pauseEnd) .tricklePauseEnd ++
  dueIf (dueNow s (s.txe.file.bind (·.retryEnd))) .fileRetryDelayEnd

/-- The guest sessions whose time has run out (R155). Those of one millisecond end in the order of their entries, which is the order in
which they join the spent list: DESIGN CHOICE (log entry 43). -/
def dueGuests (s : State) : List Instr :=
  ((List.range Config.sessionCount).filter fun i =>
    match sessionAt s i with
    | some e => decide (e.endsAt ≤ s.timer)
    | none => false).map Instr.guestTimeExpiry

/-- The timeout classes whose tick has come (R128). -/
def dueTicks (s : State) : List Instr :=
  ([TimeoutClass.t1, .t2, .t3, .t4].filter (tickDue s)).map Instr.timeoutTick

/-- The command of a schedule event (R168). -/
def scheduleCommand : ScheduleEvent → Instr
  | .openLead => .openLeadEvent
  | .openTime => .openEvent
  | .close => .closeEvent

/-- The day's timed events that have come due (R168, R173): the quiet delay's end, also one that has passed while every condition holds
(a delay of 0 that the last test's own wake started; log entry 30), and then the schedule events in time order. That a
quiet delay which ends in the millisecond of a schedule event ends first, so that QUIET may be entered and left: DESIGN CHOICE (log
entry 1). -/
def dueDay (s : State) : List Instr :=
  dueIf (s.day.quietAt == some s.timer || quietDue s) .quietDelayExpiry ++ s.day.dueEvents.map scheduleCommand

/-- Every timed event that has come due. The expiries counted in ticks happen at their tick (R128). -/
def dueCommands (s : State) : List Instr :=
  dueTicks s ++ dueRadioHost s ++ dueTills s ++ dueRetries s ++ dueProbe s .primary ++ dueProbe s .backup ++
  dueTransfer s ++ dueGuests s ++ dueDay s

/-- Whether the clock counts in a part that does not run: only the reset line stops it (R177). -/
def clockCounts (s : State) : Bool := s.day.powered && !s.day.holdLine && s.day.resetLine

/-- One millisecond with no command waiting: a running part's timer and clock go on and what has come due joins the queue;
a part stopped by the reset line alone keeps its clock; any other stands still. -/
def tick (s : State) : State :=
  if s.running then
    let t := advanceTo (s.timer + 1) s
    { t with pending := t.pending ++ dueCommands t }
  else if clockCounts s then advanceClock 1 s
  else s

end Sys2Proof.Machine
end

