-- ==== Sys2Proof/Machine/HostOps.lean ====
section
/-! DEFINITION. How the host link takes a request (R181, R182, R183), and the STATUS reply (R193). -/

namespace Sys2Proof.Machine

/-- Whether a frame's tag is no request's: 0, or beyond one byte (R181). -/
def badTag (tag : Nat) : Bool := tag == 0 || decide (255 < tag)

/-- What every valid request does before it is decided: silence timer, standalone, QUIET (R182). -/
def beginRequest (s : State) : State := wake .hostRequest (endStandalone (restartSilence s))

/-- Whether a request with a tag is in the request queue (R182). -/
def tagInUse (s : State) (tag : Nat) : Bool := s.hlk.requests.any fun q => q.tag == tag

/-- A request joins the request queue (R182). -/
def joinRequest (tag : Nat) (k : RequestKind) (s : State) : State :=
  { s with hlk := { s.hlk with requests := s.hlk.requests ++ [{ tag := tag, kind := k }] } }

/-- A request that has joined is handed to its owner: not after a RESET (R194), and RANGE when its payload does not fit
(R182). -/
def handRequest (h : HostHead) (k : RequestKind) (own : State → State) (s : State) : State :=
  if s.hlk.resetPhase ≠ .none then s
  else if h.fits then own s
  else reply h.tag k .range .empty s

/-- The decision of R182's table for a request of a kind the part knows. -/
def decideRequest (h : HostHead) (k : RequestKind) (own : State → State) (s : State) : State :=
  if tagInUse s h.tag then replyNow h.tag k .tagInUse s
  else if Config.requestCapacity ≤ s.hlk.requests.length then replyNow h.tag k .busy s
  else handRequest h k own (joinRequest h.tag k s)

/-- A request frame is taken (R181, R182). -/
def takeRequest (h : HostHead) (k : RequestKind) (own : State → State) (s : State) : State :=
  if badTag h.tag then frameError s else decideRequest h k own (beginRequest s)

/-- A request that may change state. -/
def request (h : HostHead) (k : RequestKind) (own : State → State) (s : State) : Out :=
  event (takeRequest h k own) s

/-- A request answered from state alone: nothing follows it but the transmitter, unless it woke the part. -/
def statusRequest (h : HostHead) (k : RequestKind) (body : State → ReplyBody) (s : State) : Out :=
  if s.running then
    let t := takeRequest h k (fun u => reply h.tag k .ok (body u) u) s
    .next (if s.day.power = .quiet then finish t else hostPump t)
  else .next s

/-- The STATUS reply (R193), its times in milliseconds: DESIGN CHOICE (log entry 45). -/
def linkReport (s : State) : LinkReport :=
  { cause := s.day.cause
    store := s.day.store
    power := s.day.power
    standalone := s.hlk.standalone.map fun t => s.timer - t
    sinceRequest := s.timer - s.hlk.lastRequest
    silenceLimit := s.settings.num .silenceLimit
    lock := s.hlk.lock
    overrun := s.hlk.overrun
    requests := s.hlk.requests.length
    notices := s.hlk.notices.length
    headNumber := s.hlk.notices.head?.map (·.number)
    frameErrors := s.hlk.frameErrors
    officeDrops := s.hlk.officeDrops
    branchSet := s.identity.branch.isSome }

end Sys2Proof.Machine
end

