-- ==== Sys2Proof/Machine/Cards.lean ====
section
/-! DEFINITION. The meanings of card authorization's commands (chapter 4). -/

namespace Sys2Proof.Machine

/-- AUTH RELEASE's answer: the entry goes to fallback, and the reply carries the outcome (R85). -/
def answerAuthRelease (tag till : Nat) (s : State) : State :=
  if 15 < till then reply tag .authRelease .range .empty s
  else match entryOf s till with
    | none => reply tag .authRelease .state .empty s
    | some e =>
      if e.state = .decided then reply tag .authRelease .state .empty s
      else reply tag .authRelease .ok (.released (fallbackDecision s e.amount).1) (fallback e s)

/-- AUTH_RELEASE (R85). -/
def execAuthRelease (h : HostHead) (till : Nat) (s : State) : Out :=
  request h .authRelease (answerAuthRelease h.tag till) s

/-- AUTH_STATUS (R86). -/
def execAuthStatus (h : HostHead) (s : State) : Out :=
  statusRequest h .authStatus (fun u => .auths (authStatusReport u)) s

/-- The expiry that a till's entry holds in a state (R75). -/
def entryExpiry (s : State) (till : Nat) (st : EntryState) : Option Tick :=
  (entryOf s till).bind fun e => if e.state = st then e.expiry else none

/-- AUTH_WAIT_EXPIRY (R75). -/
def execAuthWaitExpiry (till : Nat) (s : State) : Out := event (fun t => bringOn .t1 (entryExpiry t till .queued) t) s

/-- AUTH_REPLY_EXPIRY (R78). -/
def execAuthReplyExpiry (till : Nat) (s : State) : Out := event (fun t => bringOn .t1 (entryExpiry t till .sent) t) s

/-- A retry delay ends: the queuing test decides (R77). -/
def retryDelayEnd (till : Nat) (s : State) : State :=
  match entryOf s till with
  | some e =>
    match e.state, e.retryEnd with
    | .retryWait, some x =>
      let u := advanceTo x s
      if queuingTest u then queueEntry e u else fallback e u
    | _, _ => s
  | none => s

/-- AUTH_RETRY_DELAY_END (R77). -/
def execAuthRetryDelayEnd (till : Nat) (s : State) : Out := event (retryDelayEnd till) s

/-- Whether an authorization code is 1..8 bytes (4.3). -/
def codeFits (code : List Byte) : Bool := decide (1 ≤ code.length) && decide (code.length ≤ 8)

/-- AUTH_APPROVED (R76, R82). -/
def execAuthApproved (p : Path) (trace : Nat) (code : List Byte) (s : State) : Out :=
  event (routeReply p (sequenceFits trace && codeFits code) (decisiveReply trace (.approvedOnline code) p)) s

/-- AUTH_DECLINED (R76, R82); a reason is 1..255 (4.3). -/
def execAuthDeclined (p : Path) (trace reason : Nat) (s : State) : Out :=
  event (routeReply p (sequenceFits trace && reason != 0 && decide (reason ≤ 255))
    (decisiveReply trace (.declined (.headOffice reason)) p)) s

/-- AUTH_BUSY (R77). -/
def execAuthBusy (p : Path) (trace : Nat) (s : State) : Out :=
  event (routeReply p (sequenceFits trace) (busyReply trace)) s

end Sys2Proof.Machine
end

