-- ==== Sys2Proof/Machine/Days.lean ====
section
/-! DEFINITION. The meanings of the trading day's commands (chapter 9). -/

namespace Sys2Proof.Machine

/-- TIME SET's answer (R166). -/
def answerTimeSet (tag value : Nat) (s : State) : State :=
  if Config.max32 < value then reply tag .timeSet .range .empty s
  else timeSet value .host (reply tag .timeSet .ok .empty s)

/-- TIME_SET (R166). -/
def execTimeSet (h : HostHead) (value : Nat) (s : State) : Out := request h .timeSet (answerTimeSet h.tag value) s

/-- HEAD_OFFICE_TIME_SET (R127, R166). -/
def execHeadOfficeTimeSet (p : Path) (value : Nat) (s : State) : Out :=
  event (routeMessage p (decide (value ≤ Config.max32)) (timeSet value .headOffice)) s

/-- A request that moves the day from one store state (R169). -/
def answerMove (tag : Nat) (k : RequestKind) (from_ : StoreState) (f : State → State) (s : State) : State :=
  if s.day.store = from_ then reply tag k .ok .empty (f s) else reply tag k .state .empty s

/-- OPEN_PREPARE (R169). -/
def execOpenPrepare (h : HostHead) (s : State) : Out :=
  request h .openPrepare (answerMove h.tag .openPrepare .night (enterOpening (some .host))) s

/-- OPEN_STORE (R169). -/
def execOpenStore (h : HostHead) (s : State) : Out :=
  request h .openStore (answerMove h.tag .openStore .opening (enterOpen (some .host))) s

/-- CLOSE_STORE (R169). -/
def execCloseStore (h : HostHead) (s : State) : Out :=
  request h .closeStore (answerMove h.tag .closeStore .opened (enterClosing (some .host))) s

/-- STORE_STATUS (R180). -/
def execStoreStatus (h : HostHead) (s : State) : Out :=
  statusRequest h .storeStatus (fun u => .store (storeReport u)) s

/-- OPEN_LEAD_EVENT (R168). -/
def execOpenLeadEvent (s : State) : Out := event (takeScheduleEvent .openLead) s

/-- OPEN_EVENT (R168). -/
def execOpenEvent (s : State) : Out := event (takeScheduleEvent .openTime) s

/-- CLOSE_EVENT (R168). -/
def execCloseEvent (s : State) : Out := event (takeScheduleEvent .close) s

/-- QUIET_DELAY_EXPIRY (R173): the test of the conditions follows it, as it follows every change. -/
def execQuietDelayExpiry (s : State) : Out :=
  event (fun t => match t.day.quietAt with
    | some x => advanceTo x t
    | none => t) s

/-- A site line as the part sees it (R172). -/
def setLine (l : SiteLine) (v : Bool) (s : State) : State :=
  { s with day := { s.day with lines := s.day.lines.put l v } }

/-- A site line has changed at a running part: reported, or a wake in QUIET (R172, R175); MAINS is read by the guest service (R151). At
a change of MAINS the SITE notice goes before GUEST STATE: DESIGN CHOICE (log entry 43). -/
def lineChanged (l : SiteLine) (s : State) : State :=
  if s.day.power = .quiet then
    if s.day.lines.get l = s.day.reported.get l then s else wake .siteLine s
  else
    let t := reportLine l s
    if l = .mains then guestDecide t else t

/-- SITE_LINE_CHANGE (R172). -/
def execSiteLineChange (l : SiteLine) (v : Bool) (s : State) : Out :=
  if s.day.lines.get l = v then .next s else event (lineChanged l) (setLine l v s)

end Sys2Proof.Machine
end

