-- ==== Sys2Proof/Machine/Guests.lean ====
section
/-! DEFINITION. The meanings of guest access's commands (chapter 8). -/

namespace Sys2Proof.Machine

/-- The guest port is off in QUIET (R164). -/
def guestPort (f : State → State) (s : State) : State := if s.day.power = .quiet then s else f s

/-- GUEST END's answer (R161). -/
def answerGuestEnd (tag : Nat) (target : Option Addr) (s : State) : State :=
  match target with
  | some a =>
    match sessionOf s a with
    | some i => reply tag .guestEnd .ok .empty (endSession i .hostRequest s)
    | none => reply tag .guestEnd .state .empty s
  | none => reply tag .guestEnd .ok (.ended (admittedCount s)) (endAllSessions .hostRequest s)

/-- GUEST_END (R161). -/
def execGuestEnd (h : HostHead) (target : Option Addr) (s : State) : Out :=
  request h .guestEnd (answerGuestEnd h.tag target) s

/-- GUEST LIST's answer (R162). -/
def answerGuestList (tag start : Nat) (s : State) : State :=
  if 63 < start then reply tag .guestList .range .empty s
  else reply tag .guestList .ok (.guests (guestReport s start)) s

/-- GUEST_LIST (R162). -/
def execGuestList (h : HostHead) (start : Nat) (s : State) : Out := request h .guestList (answerGuestList h.tag start) s

/-- JOIN (R154). -/
def execJoin (a : Addr) (s : State) : Out := event (guestPort (joinAnswer a)) s

/-- LEAVE (R159). -/
def execLeave (a : Addr) (s : State) : Out :=
  event (guestPort fun t => match sessionOf t a with
    | some i => endSession i .leave t
    | none => t) s

/-- GUEST_DATA (R157). -/
def execGuestData (a : Addr) (dest : Nat) (payload : List Byte) (s : State) : Out :=
  event (guestPort (guestFrameOut a dest payload)) s

/-- GUEST_TIME_EXPIRY (R155). -/
def execGuestTimeExpiry (entry : Nat) (s : State) : Out :=
  event (fun t => match sessionAt t entry with
    | some e => endSession entry .time (advanceTo e.endsAt t)
    | none => t) s

/-- GUEST_REPLY (R126, R158); a payload is 1..1,536 bytes. -/
def execGuestReply (p : Path) (a : Addr) (payload : List Byte) (s : State) : Out :=
  event (routeReply p (decide (1 ≤ payload.length) && decide (payload.length ≤ 1536)) (guestFrameIn a payload)) s

end Sys2Proof.Machine
end

