-- ==== Sys2Proof/Machine/HostLink.lean ====
section
/-! DEFINITION. The meanings of the host link's commands (chapter 10). -/

namespace Sys2Proof.Machine

/-- SETTING_SET (R188). -/
def execSettingSet (h : HostHead) (id : Nat) (value : SettingValue) (s : State) : Out :=
  request h .settingSet (queueWork (.setting id value (.host h.tag))) s

/-- SETTING GET's answer (R188). -/
def answerSettingGet (tag id : Nat) (s : State) : State :=
  match settingTarget id with
  | some t => reply tag .settingGet .ok (.setting id (heldValue s.settings t) (lockable t) s.hlk.lock) s
  | none => reply tag .settingGet .range .empty s

/-- SETTING_GET (R188). -/
def execSettingGet (h : HostHead) (id : Nat) (s : State) : Out := request h .settingGet (answerSettingGet h.tag id) s

/-- LOCK's answer (R189). -/
def answerLock (tag : Nat) (s : State) : State :=
  reply tag .lock .ok .empty { s with hlk := { s.hlk with lock := true } }

/-- LOCK (R189). -/
def execLock (h : HostHead) (s : State) : Out := request h .lock (answerLock h.tag) s

/-- The IDENTIFY reply (R191). -/
def identityBody (i : Identity) : ReplyBody := .identity i.vendor i.part i.revision i.serial (i.branch.getD 0)

/-- IDENTIFY (R191). -/
def execIdentify (h : HostHead) (s : State) : Out := statusRequest h .identify (fun u => identityBody u.identity) s

/-- Whether the branch number is set or its write is under way (R191). -/
def branchTaken (s : State) : Bool := s.identity.branch.isSome || (writeKeys s).contains .branch

/-- BRANCH SET's answer (R191). -/
def answerBranchSet (tag number : Nat) (s : State) : State :=
  if number = 0 ∨ Config.max16 < number then reply tag .branchSet .range .empty s
  else if branchTaken s then reply tag .branchSet .alreadySet .empty s
  else startWrite (.branch tag number) s

/-- BRANCH_SET (R191). -/
def execBranchSet (h : HostHead) (number : Nat) (s : State) : Out := request h .branchSet (answerBranchSet h.tag number) s

/-- STATUS (R193). -/
def execStatus (h : HostHead) (s : State) : Out := statusRequest h .status (fun u => .link (linkReport u)) s

/-- RESET's answer (R194). -/
def answerReset (tag : Nat) (s : State) : State :=
  reply tag .reset .ok .empty { s with hlk := { s.hlk with resetPhase := .asked } }

/-- RESET (R194). -/
def execReset (h : HostHead) (s : State) : Out := request h .reset (answerReset h.tag) s

/-- FORWARD's answer (R123, R192). -/
def answerForward (tag dest : Nat) (w : Bool) (payload : List Byte) (s : State) : State :=
  if 1000 < payload.length ∨ Config.max32 < dest then reply tag .forward .range .empty s
  else
    match forwardResult s dest with
    | .ok =>
      let n := nextIn 1 Config.max16 s.ulc.lastForward
      reply tag .forward .ok (.forwardNumber n) (joinOffice n dest w payload s)
    | r => reply tag .forward r .empty s

/-- FORWARD (R192). -/
def execForward (h : HostHead) (dest : Nat) (w : Bool) (payload : List Byte) (s : State) : Out :=
  request h .forward (answerForward h.tag dest w payload) s

/-- A request of a kind that names none (R182). -/
def takeUnknown (tag kind : Nat) (s : State) : State :=
  if badTag tag || kind == 255 then frameError s else replyNow tag (.other kind) .unknownRequest (beginRequest s)

/-- UNKNOWN_REQUEST (R182). -/
def execUnknownRequest (tag kind : Nat) (s : State) : Out := event (takeUnknown tag kind) s

/-- Whether the head notice has a number (R185). -/
def headNotice (h : Hlk) (number : Nat) : Bool :=
  match h.notices.head? with
  | some n => n.number == number
  | none => false

/-- A NOTICE ACK (R181, R185). One that names the head notice's number takes it out of the queue, sent or not: DESIGN CHOICE (log
entry 62). -/
def takeNoticeAck (tag number : Nat) (s : State) : State :=
  if tag ≠ 0 then frameError s
  else if headNotice s.hlk number then
    { s with hlk := { s.hlk with notices := s.hlk.notices.tail, ackWait := .unsent } }
  else s

/-- NOTICE_ACK (R185). -/
def execNoticeAck (tag number : Nat) (s : State) : Out := event (takeNoticeAck tag number) s

/-- The frame being received is discarded and counted (R181). -/
def dropFrame (s : State) : State := frameError { s with hlk := { s.hlk with rx := idleRx } }

/-- More than 20 ms have passed since the last byte of the frame being received (R181): time goes on to that moment (log entry 1). A
receiver with no frame begun counts nothing (log entry 2). -/
def byteTimeout (s : State) : State :=
  if s.hlk.rx.bytes = [] then s else dropFrame (advanceTo (s.hlk.rxAt + Config.byteGap + 1) s)

/-- HOST_BYTE_TIMEOUT (R181). -/
def execHostByteTimeout (s : State) : Out := event byteTimeout s

/-- A frame that fails its check at a port (R31, R50, R125, R181, R197); one at the guest port is not counted, and nothing is
received by a radio that is not AWAKE or on a DOWN path. -/
def failedCheck (port : Port) (s : State) : State :=
  match port with
  | .host => frameError s
  | .till => tillError s
  | .radio => if s.lrs.radio = .awake then radioError s else s
  | .guest => s
  | .uplink p => if (s.ulc.path p).state = .down then s else linkError s

/-- A frame that is no other row's (R50, R196, R197). -/
def takeBadFrame (f : BadFrame) (s : State) : State :=
  match f with
  | .check port => failedCheck port s
  | .tillKind h kind => unknownTillKind h kind s

/-- BAD_FRAME (R197). -/
def execBadFrame (f : BadFrame) (s : State) : Out := event (takeBadFrame f) s

/-- Whether a frame is the OK reply to RESET (R194). -/
def isResetReply (f : HostFrame) : Bool :=
  match f with
  | .reply r => r.kind == .reset && r.result == .ok
  | .notice _ => false

/-- The host transmitter falls idle; a RESET's reply has been sent (R183, R194). -/
def hostTxEnded (s : State) : State :=
  match s.hlk.tx with
  | some f =>
    { s with hlk := { s.hlk with
        tx := none
        resetPhase := if isResetReply f ∧ s.hlk.resetPhase = .sending then .sent else s.hlk.resetPhase } }
  | none => s

/-- HOST_TX_END (R183). -/
def execHostTxEnd (s : State) : Out := event hostTxEnded s

/-- The resend time of the head notice runs out (R185). -/
def resendDue (s : State) : State :=
  match s.hlk.ackWait with
  | .waiting x =>
    let t := advanceTo x s
    { t with hlk := { t.hlk with ackWait := .due } }
  | _ => s

/-- NOTICE_RESEND_EXPIRY (R185). -/
def execNoticeResendExpiry (s : State) : Out := event resendDue s

/-- The part enters standalone (R186). -/
def setStandalone (s : State) : State :=
  { s with hlk := { s.hlk with standalone := some s.timer, standaloneOverrun := false } }

/-- The silence timer expires: the part enters standalone (R186). A part that is standalone already, whose timer a wake has started
again, stays in the standalone it is in, with its moment of entry and its mark: DESIGN CHOICE (log entry 55). -/
def enterStandalone (s : State) : State :=
  match s.hlk.silenceAt with
  | some x =>
    let t := advanceTo x s
    State.when t.hlk.standalone.isNone setStandalone { t with hlk := { t.hlk with silenceAt := none } }
  | none => s

/-- SILENCE_EXPIRY (R186). -/
def execSilenceExpiry (s : State) : Out := event enterStandalone s

/-- Whether a SETTINGS message may pass as it arrives: its id names a setting that takes the value, or an earlier write of
the setting is under way and the message is judged after it (R188, R190). One that fails is a route error, and wakes
nothing (R127, R130). -/
def settingsMayPass (s : State) (id : Nat) (v : SettingValue) : Bool :=
  match settingTarget id with
  | none => false
  | some t => keysMeet [settingKey id] (writeKeys s) || settingTakes s.settings t v

/-- SETTINGS (R127, R190). -/
def execSettings (p : Path) (id : Nat) (value : SettingValue) (s : State) : Out :=
  event (fun t => routeMessage p (settingsMayPass t id value) (queueWork (.setting id value .headOffice)) t) s

/-- SETTING_WRITE_DONE (R188, R190). -/
def execSettingWriteDone (id : Nat) (s : State) : Out :=
  event (completeWrite (fun w => match w with | .setting i _ _ => i == id | _ => false)
    (fun w t => match w with
      | .setting i v src => settingDone i v src t
      | _ => t)) s

/-- The branch number is durable; AUZ applies its test to the QUEUED entries (R74, R191). -/
def branchDone (tag number : Nat) (s : State) : State :=
  testQueued (reply tag .branchSet .ok .empty { s with identity := { s.identity with branch := some number } })

/-- BRANCH_SET_WRITE_DONE (R191). -/
def execBranchSetWriteDone (s : State) : Out :=
  event (completeWrite (fun w => match w with | .branch _ _ => true | _ => false)
    (fun w t => match w with
      | .branch tag n => branchDone tag n t
      | _ => t)) s

end Sys2Proof.Machine
end

