-- ==== Sys2Proof/Machine/Journal.lean ====
section
/-! DEFINITION. The meanings of the sales journal's commands (chapter 5). -/

namespace Sys2Proof.Machine

/-- JOURNAL READ's answer (R103). -/
def answerJournalRead (tag fromSeq count : Nat) (s : State) : State :=
  if fromSeq = 0 ∨ count < 1 ∨ 8 < count then reply tag .journalRead .range .empty s
  else reply tag .journalRead .ok
    (.records ((readRecords s.sjr fromSeq count).map maskRecord) (readNext s.sjr fromSeq count) s.sjr.newest) s

/-- JOURNAL_READ (R103). -/
def execJournalRead (h : HostHead) (fromSeq count : Nat) (s : State) : Out :=
  request h .journalRead (answerJournalRead h.tag fromSeq count) s

/-- JOURNAL_INFO (R104). -/
def execJournalInfo (h : HostHead) (s : State) : Out :=
  statusRequest h .journalInfo (fun u => .journal (journalReport u)) s

/-- JOURNAL_APPEND_DONE (R95). -/
def execJournalAppendDone (s : State) : Out :=
  event (fun t => match t.sjr.writing with
    | some w => appendDone w t
    | none => t) s

/-- JOURNAL_REMOVAL_DONE (R105). -/
def execJournalRemovalDone (s : State) : Out :=
  event (fun t => match t.sjr.removing with
    | some w => removalDone w t
    | none => t) s

end Sys2Proof.Machine
end

