-- ==== Sys2Proof/Machine/Labels.lean ====
section
/-! DEFINITION. The meanings of the label radio's commands (chapter 2). -/

namespace Sys2Proof.Machine

/-- LABEL_BIND (R25). -/
def execLabelBind (h : HostHead) (label item : Nat) (s : State) : Out :=
  request h .labelBind (queueWork (.bind h.tag label item)) s

/-- LABEL_UNBIND (R26). -/
def execLabelUnbind (h : HostHead) (label : Nat) (s : State) : Out :=
  request h .labelUnbind (queueWork (.unbind h.tag label)) s

/-- LABEL_RETRY (R27). -/
def execLabelRetry (h : HostHead) (label : Nat) (s : State) : Out :=
  request h .labelRetry (queueWork (.retry h.tag label)) s

/-- LABEL GET's answer (R28). -/
def answerLabelGet (tag label : Nat) (s : State) : State :=
  if Config.maxLabel < label then reply tag .labelGet .range .empty s
  else reply tag .labelGet .ok (.label (labelReport s label)) s

/-- LABEL_GET (R28). -/
def execLabelGet (h : HostHead) (label : Nat) (s : State) : Out :=
  request h .labelGet (answerLabelGet h.tag label) s

/-- BURST NOW's answer (R42). -/
def answerBurstNow (tag : Nat) (s : State) : State :=
  if s.lrs.radio ≠ .awake then reply tag .burstNow .radioAsleep .empty s
  else if s.lrs.burst.isSome ∨ s.lrs.waitingBurst.isSome then reply tag .burstNow .busy .empty s
  else reply tag .burstNow .ok .empty (sendBeacon s)

/-- BURST_NOW (R42). -/
def execBurstNow (h : HostHead) (s : State) : Out := request h .burstNow (answerBurstNow h.tag) s

/-- HEALTH CLEAR's answer (R44). The flag is no NV field, so the request waits for no write of the label's entry: it clears the flag at
once, ahead of the health watch of an acknowledgement whose write is under way: DESIGN CHOICE (log entry 52). -/
def answerHealthClear (tag : Nat) (target : Option Nat) (s : State) : State :=
  match target with
  | some label =>
    if Config.maxLabel < label then reply tag .healthClear .range .empty s
    else reply tag .healthClear .ok .empty (clearHealth (some label) s)
  | none => reply tag .healthClear .ok .empty (clearHealth none s)

/-- HEALTH_CLEAR (R44). -/
def execHealthClear (h : HostHead) (target : Option Nat) (s : State) : Out :=
  request h .healthClear (answerHealthClear h.tag target) s

/-- RADIO_STATUS (R48). -/
def execRadioStatus (h : HostHead) (s : State) : Out :=
  statusRequest h .radioStatus (fun u => .radio (radioReport u)) s

/-- Whether an acknowledgement's fields lie in their ranges; the margin is clamped instead (R31, R196). -/
def ackInRange (label price battery : Nat) : Bool :=
  decide (label ≤ Config.maxLabel) && decide (price ≤ Config.maxPrice) && decide (battery ≤ 255)

/-- LABEL_ACKNOWLEDGEMENT (R31, R32); received while the radio is AWAKE (R34). -/
def execLabelAcknowledgement (label number price battery : Nat) (margin : Int) (s : State) : Out :=
  event (fun t =>
    if t.lrs.radio ≠ .awake then t
    else if ackInRange label price battery then takeAckFrame label number price battery margin t
    else radioError t) s

/-- The window of the transmission in flight closes with nothing heard (R33). -/
def closeWindow (s : State) : State :=
  match s.lrs.inFlight with
  | some t =>
    match t.phase with
    | .window x =>
      let s1 := endTransmission t (advanceTo x s)
      if t.unboundMark then s1 else queueWork (.failure t.label) s1
    | _ => s
  | none => s

/-- ACK_WINDOW_CLOSE (R33). -/
def execAckWindowClose (s : State) : Out := event closeWindow s

/-- BEACON (R34, R41). -/
def execBeacon (s : State) : Out :=
  event (fun t => match t.lrs.radio, t.lrs.nextBeacon with
    | .awake, some x => sendBeacon (advanceTo x t)
    | _, _ => t) s

/-- FLOOR_WRITE_DONE (R30). -/
def execFloorWriteDone (label : Nat) (s : State) : Out :=
  event (completeWrite (fun w => match w with | .floor l _ => l == label | _ => false)
    (fun w t => match w with
      | .floor l p => floorDone l p t
      | _ => t)) s

/-- The price frame ends and the window opens (R30). -/
def openWindow (s : State) : State :=
  match s.lrs.inFlight with
  | some t =>
    if t.phase = .frame then
      { s with lrs := { s.lrs with inFlight := some { t with phase := .window (s.timer + t.windowMs) } } }
    else s
  | none => s

/-- PRICE_FRAME_END (R30). -/
def execPriceFrameEnd (s : State) : Out := event openWindow s

/-- SETTLE_END (R46). -/
def execSettleEnd (s : State) : Out :=
  event (fun t => match t.lrs.radio, t.lrs.settleEnd with
    | .settling, some x => radioAwake (advanceTo x t)
    | _, _ => t) s

/-- LABEL_BIND_WRITE_DONE (R25). -/
def execLabelBindWriteDone (label : Nat) (s : State) : Out :=
  event (completeWrite (fun w => match w with | .bind _ l _ => l == label | _ => false)
    (fun w t => match w with
      | .bind tag l i => bindDone tag l i t
      | _ => t)) s

/-- LABEL_UNBIND_WRITE_DONE (R26). -/
def execLabelUnbindWriteDone (label : Nat) (s : State) : Out :=
  event (completeWrite (fun w => match w with | .unbind _ l _ => l == label | _ => false)
    (fun w t => match w with
      | .unbind tag l i => unbindDone tag l i t
      | _ => t)) s

/-- LABEL_RETRY_WRITE_DONE (R27). -/
def execLabelRetryWriteDone (label : Nat) (s : State) : Out :=
  event (completeWrite (fun w => match w with | .retry _ l => l == label | _ => false)
    (fun w t => match w with
      | .retry tag l => retryDone tag l t
      | _ => t)) s

/-- ACK_WRITE_DONE (R31). -/
def execAckWriteDone (label : Nat) (s : State) : Out :=
  event (completeWrite (fun w => match w with | .ack a _ => a.label == label | _ => false)
    (fun w t => match w with
      | .ack a full => ackDone a full t
      | _ => t)) s

/-- UNREACHABLE_WRITE_DONE (R33). -/
def execUnreachableWriteDone (label : Nat) (s : State) : Out :=
  event (completeWrite (fun w => match w with | .unreachable l => l == label | _ => false)
    (fun _ t => unreachableDone label t)) s

end Sys2Proof.Machine
end

