-- ==== Sys2Proof/Machine/Power.lean ====
section
/-! DEFINITION. The meanings of HOLD, the reset line, power and the host reset (R176, R177, R194). -/

namespace Sys2Proof.Machine

/-- HOLD_ASSERT (R176). -/
def execHoldAssert (s : State) : Out := .next (holdAsserted s)

/-- HOLD_EXIT (R176, R177). -/
def execHoldExit (s : State) : Out := .next (holdReleased s)

/-- RESET_LINE_ASSERT (R177). -/
def execResetLineAssert (s : State) : Out := .next (resetAsserted s)

/-- RESET_LINE_RELEASE (R177). -/
def execResetLineRelease (s : State) : Out := .next (resetReleased s)

/-- POWER_ON (R177). -/
def execPowerOn (s : State) : Out := .next (powerApplied s)

/-- HOST_RESET (R177, R194). -/
def execHostReset (s : State) : Out := .next (if hostResetDue s then startUp .hostReset s else s)

/-- POWER_LOSS (R177). -/
def execPowerLoss (s : State) : Out := .next (powerLost s)

end Sys2Proof.Machine
end

