-- ==== Sys2Proof/Machine/Prices.lean ====
section
/-! DEFINITION. The meanings of the price book's commands (chapter 1). -/

namespace Sys2Proof.Machine

/-- ITEM_ADD (R2). -/
def execItemAdd (h : HostHead) (item price : Nat) (openPrice : Bool) (s : State) : Out :=
  request h .itemAdd (queueWork (.itemAdd h.tag item price openPrice)) s

/-- ITEM_REMOVE (R3). -/
def execItemRemove (h : HostHead) (item : Nat) (s : State) : Out :=
  request h .itemRemove (queueWork (.itemRemove h.tag item)) s

/-- ITEM_GET (R4); it waits for a write of its item (R6). -/
def execItemGet (h : HostHead) (item : Nat) (s : State) : Out :=
  request h .itemGet (queueWork (.itemGet h.tag item)) s

/-- PRICE_SET (R7). -/
def execPriceSet (h : HostHead) (item price : Nat) (urgent : Bool) (s : State) : Out :=
  request h .priceSet (queueWork (.change
    { item := item, price := price, origin := .hostRequest, urgent := urgent, add := false, source := .host h.tag })) s

/-- CHANGE_STATUS (R21). -/
def execChangeStatus (h : HostHead) (s : State) : Out :=
  statusRequest h .changeStatus (fun u => .changes (changeReport u)) s

/-- ITEM_ADD_WRITE_DONE (R2). -/
def execItemAddWriteDone (item : Nat) (s : State) : Out :=
  event (completeWrite (fun w => match w with | .itemAdd _ e => e.code == item | _ => false)
    (fun w t => match w with
      | .itemAdd tag e => reply tag .itemAdd .ok .empty (putItem e t)
      | _ => t)) s

/-- The queue entry's removal of an ITEM REMOVE is the head of the queue writer (R3, log entry 10). -/
def removalAtHead (s : State) (item : Nat) : Bool :=
  match s.pbk.ops.head? with
  | some o => o.item == item && (match o.answer with | .itemRemoved _ => true | _ => false)
  | none => false

/-- ITEM_REMOVE_WRITE_DONE (R3): the entry's removal, or the queue entry's that follows it. -/
def execItemRemoveWriteDone (item : Nat) (s : State) : Out :=
  event (fun t =>
    if t.nv.any (fun w => match w with | .itemRemove _ i => i == item | _ => false) then
      completeWrite (fun w => match w with | .itemRemove _ i => i == item | _ => false)
        (fun w u => match w with
          | .itemRemove tag i => itemRemoved tag i u
          | _ => u) t
    else if removalAtHead t item then queueDone t
    else t) s

/-- PENDING_WRITE_DONE (R12, R13, R14). -/
def execPendingWriteDone (item : Nat) (s : State) : Out :=
  event (completeWrite (fun w => match w with | .pending p => p.item == item | _ => false)
    (fun w t => match w with
      | .pending p => pendingDone p t
      | _ => t)) s

/-- QUEUE_WRITE_DONE (R10). -/
def execQueueWriteDone (s : State) : Out := event queueDone s

/-- EFFECT_WRITE_DONE (R19). -/
def execEffectWriteDone (item : Nat) (s : State) : Out :=
  event (completeWrite (fun w => match w with | .effect i => i == item | _ => false)
    (fun _ t => effectDone item t)) s

/-- PRICE_CHANGE (R7, R127). -/
def execPriceChange (p : Path) (item price : Nat) (urgent : Bool) (s : State) : Out :=
  event (routeMessage p true (queueWork (.change
    { item := item, price := price, origin := .headOffice, urgent := urgent, add := false, source := .headOffice }))) s

end Sys2Proof.Machine
end

