-- ==== Sys2Proof/Machine/Tills.lean ====
section
/-! DEFINITION. The meanings of the tills' commands (chapter 3). -/

namespace Sys2Proof.Machine

/-- A till request other than HELLO, and what follows it. -/
def tillRequest (h : TillHead) (k : TillKind) (own : State → State) (s : State) : Out :=
  event (tillFrame h k own) s

/-- Whether a frame's address is bound to another place (R52). -/
def boundElsewhere (s : State) (t : Nat) (a : Addr) : Bool :=
  tillNumbers.any fun k => k != t && (placeAt s k).addr == some a && (placeAt s k).state != .free

/-- What a HELLO's OK reply carries (R52). -/
def placeBody (p : Place) : TillBody := .place p.state p.basket.length (basketTotal p.basket)

/-- A place as HELLO binds it (R52). -/
def helloPlace (a : Addr) (now : Nat) : Place := { freePlace with state := .idle, addr := some a, lastFrame := now }

/-- HELLO answered by the store state it was taken in and the place (R52). One that is answered TILL_IN_USE, CLOSED or BUSY leaves
the flag of the place it names alone, and with it that place's last-frame time but for R50's, where R51 has the flag set and cleared in
one step: DESIGN CHOICE (log entry 42). -/
def answerHello (store : StoreState) (h : TillHead) (s : State) : State :=
  let p := placeAt s h.till
  if store = .night ∨ store = .quiet then sendTill h.till h.addr .hello .closed .empty s
  else if boundElsewhere s h.till h.addr then sendTill h.till h.addr .hello .tillInUse .empty s
  else if p.state = .free then
    let q := helloPlace h.addr s.timer
    sendTill h.till h.addr .hello .ok (placeBody q) (putPlace h.till q s)
  else if p.addr ≠ some h.addr then sendTill h.till h.addr .hello .tillInUse .empty s
  else if p.state = .idle ∨ p.state = .basket then answerTill h.till .hello .ok (placeBody p) s
  else sendTill h.till h.addr .hello .busy .empty s

/-- HELLO after the checks of R50, steps 1, 2 and 5; taken in QUIET it wakes the part (R52, R69, R175). One whose payload does not fit
is answered RANGE ahead of the wake and leaves a part in QUIET there: DESIGN CHOICE (log entry 64). -/
def helloFrameTaken (h : TillHead) (s : State) : State :=
  if 15 < h.till then sendTill h.till h.addr .hello .range .empty (touchPlace h s)
  else if (placeAt s h.till).busy then sendTill h.till h.addr .hello .busy .empty (touchPlace h s)
  else if h.fits = false then sendTill h.till h.addr .hello .range .empty (touchPlace h s)
  else answerHello s.day.store h (wake .tillHello (touchPlace h s))

/-- HELLO (R52). -/
def execHello (h : TillHead) (s : State) : Out := event (helloFrameTaken h) s

/-- A request without fields: RANGE when its payload does not fit (R196). -/
def ifFits (h : TillHead) (k : TillKind) (own : State → State) (s : State) : State :=
  if h.fits then own s else answerTill h.till k .range .empty s

/-- POLL's answer (R53). -/
def answerPoll (h : TillHead) (s : State) : State :=
  let p := placeAt s h.till
  answerTill h.till .poll .ok
    (.poll p.state p.basket.length (basketTotal p.basket) (if p.state = .authorizing then p.trace else none) p.lastResult) s

/-- POLL (R53). -/
def execPoll (h : TillHead) (s : State) : Out := tillRequest h .poll (ifFits h .poll (answerPoll h)) s

/-- BYE's answer (R54). -/
def answerBye (h : TillHead) (s : State) : State :=
  if (placeAt s h.till).state = .idle then sendTill h.till h.addr .bye .ok .empty (freeTill h.till s)
  else answerTill h.till .bye .basketOpen .empty s

/-- BYE (R54). -/
def execBye (h : TillHead) (s : State) : Out := tillRequest h .bye (ifFits h .bye (answerBye h)) s

/-- SALE OPEN's answer (R55). -/
def answerSaleOpen (h : TillHead) (s : State) : State :=
  let p := placeAt s h.till
  if p.state = .idle ∧ s.day.store = .opened then
    answerTill h.till .saleOpen .ok .empty (putPlace h.till { p with state := .basket, basket := [] } s)
  else answerTill h.till .saleOpen .state .empty s

/-- SALE_OPEN (R55). -/
def execSaleOpen (h : TillHead) (s : State) : Out := tillRequest h .saleOpen (ifFits h .saleOpen (answerSaleOpen h)) s

/-- A request that only a BASKET place accepts: STATE elsewhere, RANGE when its payload does not fit (R56, R58, R61, R62). -/
def inBasket (h : TillHead) (k : TillKind) (own : State → State) (s : State) : State :=
  if (placeAt s h.till).state ≠ .basket then answerTill h.till k .state .empty s
  else if h.fits then own s
  else answerTill h.till k .range .empty s

/-- The request-in-progress flag of a place is set (R51). -/
def setBusy (t : Nat) (s : State) : State := putPlace t { placeAt s t with busy := true } s

/-- LINE_ADD (R56, R57): PBK prices it in its order for the item (R6). -/
def execLineAdd (h : TillHead) (item : Nat) (qty : Int) (keyed : Option Nat) (s : State) : Out :=
  tillRequest h .lineAdd
    (inBasket h .lineAdd fun t => queueWork (.lineAdd h.till item qty keyed) (setBusy h.till t)) s

/-- The basket with a line voided (R58). -/
def voidLine (n : Nat) (b : List BasketLine) : List BasketLine :=
  b.map fun l => if l.number = n then { l with voided := true } else l

/-- LINE VOID's answer in BASKET (R58). -/
def answerLineVoid (h : TillHead) (n : Nat) (s : State) : State :=
  let p := placeAt s h.till
  let b := voidLine n p.basket
  if (p.basket.any fun l => l.number == n && !l.voided) = false then answerTill h.till .lineVoid .noLine .empty s
  else if totalFits (basketTotal b) = false then answerTill h.till .lineVoid .totalRange .empty s
  else answerTill h.till .lineVoid .ok (.total (basketTotal b)) (putPlace h.till { p with basket := b } s)

/-- LINE_VOID (R58). -/
def execLineVoid (h : TillHead) (line : Nat) (s : State) : Out :=
  tillRequest h .lineVoid (inBasket h .lineVoid (answerLineVoid h line)) s

/-- SALE CANCEL's answer (R59). -/
def answerSaleCancel (h : TillHead) (s : State) : State :=
  let p := placeAt s h.till
  match p.state with
  | .basket =>
    if p.basket = [] then testTillsDone (answerTill h.till .saleCancel .ok .empty (putPlace h.till (idlePlace p) s))
    else startVoid h.till .cancelled s
  | .authorizing => answerTill h.till .saleCancel .inAuth .empty s
  | _ => answerTill h.till .saleCancel .state .empty s

/-- SALE_CANCEL (R59). -/
def execSaleCancel (h : TillHead) (s : State) : Out :=
  tillRequest h .saleCancel (ifFits h .saleCancel (answerSaleCancel h)) s

/-- TENDER CASH's answer in BASKET, or its SALE append (R60, R61). -/
def answerTenderCash (h : TillHead) (given : Nat) (s : State) : State :=
  let p := placeAt s h.till
  let total := basketTotal p.basket
  if 99999999 < given then answerTill h.till .tenderCash .range .empty s
  else if hasLine p.basket = false then answerTill h.till .tenderCash .noLine .empty s
  else if (given : Int) < total then answerTill h.till .tenderCash .short .empty s
  else if claimGranted s.sjr 1 = false then answerTill h.till .tenderCash .journalFull .empty s
  else startAppend h.till (.sale total .cash none none false p.basket) given (addClaim h.till 1 s)

/-- TENDER_CASH (R61). -/
def execTenderCash (h : TillHead) (given : Nat) (s : State) : Out :=
  tillRequest h .tenderCash (inBasket h .tenderCash (answerTenderCash h given)) s

/-- TENDER CARD's answer in BASKET, or its AUTH_TRACE append (R60, R62). -/
def answerTenderCard (h : TillHead) (card : CardRef) (s : State) : State :=
  let p := placeAt s h.till
  let total := basketTotal p.basket
  if hasLine p.basket = false then answerTill h.till .tenderCard .noLine .empty s
  else if total ≤ 0 then answerTill h.till .tenderCard .notAllowed .empty s
  else if claimGranted s.sjr 2 = false then answerTill h.till .tenderCard .journalFull .empty s
  else startAppend h.till (.authTrace total.toNat card) 0 (addClaim h.till 2 s)

/-- TENDER_CARD (R62). -/
def execTenderCard (h : TillHead) (card : CardRef) (s : State) : Out :=
  tillRequest h .tenderCard (inBasket h .tenderCard (answerTenderCard h card)) s

/-- A place's till is judged lost (R65). -/
def tillLost (t : Nat) (s : State) : State :=
  let p := placeAt s t
  match p.state with
  | .idle => freeTill t (notify (tillLostNotice t p .idle .none) s)
  | .basket => startVoid t .tillLost s
  | .authorizing =>
    notify (tillLostNotice t p .authorizing (.awaiting (p.trace.getD 0))) (putPlace t { p with state := .orphaned } s)
  | _ => s

/-- Whether a place is judged for silence (R65). -/
def silenceJudged (p : Place) : Bool :=
  (p.state == .idle || p.state == .basket || p.state == .authorizing) && !p.busy

/-- A place's silence expires (R65): a frame or a cleared flag of this same moment came first and restarted the count, so that the
place is not lost; else time goes on to the end of the limit (log entry 1). -/
def tillSilent (till : Nat) (s : State) : State :=
  let p := placeAt s till
  if silenceJudged p ∧ p.lastFrame < s.timer then
    tillLost till (advanceTo (p.lastFrame + 1000 * s.settings.nat .tillSilence) s)
  else s

/-- TILL_SILENCE_EXPIRY (R65). -/
def execTillSilenceExpiry (till : Nat) (s : State) : Out := event (tillSilent till) s

/-- CLOSING_GRACE_END (R68). -/
def execClosingGraceEnd (s : State) : Out :=
  event (fun t => match t.tsu.grace with
    | some x =>
      let u := advanceTo x t
      closeBaskets { u with tsu := { u.tsu with grace := none } }
    | none => t) s

/-- TILL_STATUS (R71). -/
def execTillStatus (h : HostHead) (s : State) : Out :=
  statusRequest h .tillStatus
    (fun u => .tills (u.tsu.places.map (placeReport u)) (graceLeft u) u.tsu.errors) s

end Sys2Proof.Machine
end

