-- ==== Sys2Proof/Machine/Transfer.lean ====
section
/-! DEFINITION. The meanings of the transfer engine's commands (chapter 7). -/

namespace Sys2Proof.Machine

/-- NIGHT RERUN's answer (R142). -/
def answerNightRerun (tag : Nat) (s : State) : State :=
  if s.day.store = .night ∧ s.txe.run.state.going = false then
    reply tag .nightRerun .ok .empty (startRun .hostRerun s)
  else reply tag .nightRerun .state .empty s

/-- NIGHT_RERUN (R142). -/
def execNightRerun (h : HostHead) (s : State) : Out := request h .nightRerun (answerNightRerun h.tag) s

/-- TRANSFER_STATUS (R150). -/
def execTransferStatus (h : HostHead) (s : State) : Out :=
  statusRequest h .transferStatus (fun u => .transfer (transferReport u)) s

/-- The batch in flight has been accepted: it ends when the removal is told, and no expiry, retry delay, BUSY or session end acts on
it any more (R136; log entry 48). -/
def markAccepted (s : State) : State :=
  putBatch (s.txe.batch.map fun b => { b with accepted := true, expiry := none, retryEnd := none }) s

/-- An ACCEPTED: of the batch in flight, or late (R136, R139). -/
def takeAccepted (batch first last : Nat) (s : State) : State :=
  let counts := s.txe.run.state.going
  match s.txe.batch with
  | some b =>
    if b.number = batch then
      askRemoval { first := first, last := last, batch := some batch, counts := counts } (markAccepted s)
    else askRemoval { first := first, last := last, batch := none, counts := counts } (countLateAck s)
  | none => askRemoval { first := first, last := last, batch := none, counts := counts } (countLateAck s)

/-- BATCH_ACK_ACCEPTED (R136, R139). -/
def execBatchAckAccepted (p : Path) (batch first last : Nat) (s : State) : Out :=
  event (routeReply p (sequenceFits first && sequenceFits last) (takeAccepted batch first last)) s

/-- A BUSY for a batch number (R137). -/
def takeBatchBusy (batch : Nat) (s : State) : State :=
  match s.txe.batch with
  | some b => if b.number = batch then batchBusy s else s
  | none => s

/-- BATCH_ACK_BUSY (R137). -/
def execBatchAckBusy (p : Path) (batch : Nat) (s : State) : Out := event (routeReply p true (takeBatchBusy batch)) s

/-- BATCH_EXPIRY (R137). -/
def execBatchExpiry (s : State) : Out :=
  event (fun t => bringOn .t3 (t.txe.batch.bind fun b => b.expiry.map (·.tick)) t) s

/-- BATCH_RETRY_DELAY_END (R137). -/
def execBatchRetryDelayEnd (s : State) : Out :=
  event (fun t => match t.txe.batch with
    | some b => match b.retryEnd with
      | some x => putBatch (some { b with retryEnd := none }) (advanceTo x t)
      | none => t
    | none => t) s

/-- TRICKLE_PAUSE_END (R140). -/
def execTricklePauseEnd (s : State) : Out :=
  event (fun t => match t.txe.pauseEnd with
    | some x =>
      let u := advanceTo x t
      { u with txe := { u.txe with pauseEnd := none } }
    | none => t) s

/-- A piece reply (R145). -/
def takePieceReply (number : Nat) (last : Bool) (changes : List PieceChange) (s : State) : State :=
  match answersRequest s number with
  | some f => takePiece f last changes s
  | none => countLatePiece s

/-- PIECE (R145); one that carries more than 32 changes is a link error. -/
def execPiece (p : Path) (number : Nat) (last : Bool) (changes : List PieceChange) (s : State) : Out :=
  event (inbound p fun t =>
    if Config.pieceChanges < changes.length then linkError t
    else handOver (takePieceReply number last changes) t) s

/-- A NO_FILE reply (R146). -/
def takeNoFile (number : Nat) (s : State) : State :=
  match answersRequest s number with
  | some _ => endRun .failed .ok s
  | none => countLatePiece s

/-- NO_FILE (R146). -/
def execNoFile (p : Path) (number : Nat) (s : State) : Out := event (routeReply p true (takeNoFile number)) s

/-- A FILE BUSY reply (R146). -/
def takeFileBusy (number : Nat) (s : State) : State :=
  if number = s.txe.pieceNumber then fileRequestBusy s else s

/-- FILE_BUSY (R146). -/
def execFileBusy (p : Path) (number : Nat) (s : State) : Out := event (routeReply p true (takeFileBusy number)) s

/-- FILE_REQUEST_EXPIRY (R146). -/
def execFileRequestExpiry (s : State) : Out :=
  event (fun t => bringOn .t3 (t.txe.file.bind fun f => f.expiry.map (·.tick)) t) s

/-- FILE_RETRY_DELAY_END (R146). -/
def execFileRetryDelayEnd (s : State) : Out :=
  event (fun t => match t.txe.file with
    | some f => match f.state, f.retryEnd with
      | .retryWait, some x => putFile (some { f with state := .waitingRoom, retryEnd := none }) (advanceTo x t)
      | _, _ => t
    | none => t) s

/-- NIGHT CONTROL START judged as NIGHT RERUN is (R142). -/
def takeNightControl (s : State) : State :=
  if s.day.store = .night ∧ s.txe.run.state.going = false then startRun .headOffice s else s

/-- NIGHT_CONTROL (R127, R142); START is command 0. -/
def execNightControl (p : Path) (command : Nat) (s : State) : Out :=
  event (routeMessage p (command == 0) takeNightControl) s

end Sys2Proof.Machine
end

