-- ==== Sys2Proof/Machine/Uplink.lean ====
section
/-! DEFINITION. The meanings of the uplink's commands (chapter 6). -/

namespace Sys2Proof.Machine

/-- UPLINK_STATUS (R132). -/
def execUplinkStatus (h : HostHead) (s : State) : Out :=
  statusRequest h .uplinkStatus (fun u => .uplink (uplinkReport u)) s

/-- Carrier as a modem reports it from now on (R107). -/
def setWire (p : Path) (b : Bool) (s : State) : State :=
  match p with
  | .primary => { s with ulc := { s.ulc with carrierPrimary := b } }
  | .backup => { s with ulc := { s.ulc with carrierBackup := b } }

/-- CARRIER_PRESENT (R108). -/
def execCarrierPresent (p : Path) (s : State) : Out := event (carrierUp p) (setWire p true s)

/-- CARRIER_ABSENT (R108). -/
def execCarrierAbsent (p : Path) (s : State) : Out := event (carrierDown p) (setWire p false s)

/-- A HELLO answer: nothing is received on a DOWN path, and an UP path counts a link error (R108, R125). -/
def helloAnswer (p : Path) (f : State → State) (s : State) : State :=
  match (s.ulc.path p).state with
  | .down => s
  | .helloWait => f s
  | .up => linkError s

/-- HELLO_ACCEPT (R108, R109, R115). -/
def execHelloAccept (p : Path) (g : Grants) (s : State) : Out := event (helloAnswer p (openSession p g)) s

/-- A refusal's reason is recorded; one out of range is a link error (R108, R196). -/
def noteRefusal (p : Path) (reason : Nat) (s : State) : State :=
  if reason = 0 ∨ 255 < reason then linkError s
  else putPath p { s.ulc.path p with refusal := some reason } s

/-- HELLO_REFUSED (R108). -/
def execHelloRefused (p : Path) (reason : Nat) (s : State) : Out := event (helloAnswer p (noteRefusal p reason)) s

/-- HELLO_EXPIRY (R108). -/
def execHelloExpiry (p : Path) (s : State) : Out :=
  event (fun t => bringOn .t2 (if (t.ulc.path p).state = .helloWait then (t.ulc.path p).helloExpiry else none) t) s

/-- PROBE_DUE (R110). -/
def execProbeDue (p : Path) (s : State) : Out :=
  event (fun t => match (t.ulc.path p).state, (t.ulc.path p).nextProbe with
    | .up, some x => probeDue p (advanceTo x t)
    | _, _ => t) s

/-- A probe reply; one whose number is not outstanding is discarded uncounted (R110). -/
def takeProbeReply (p : Path) (number : Nat) (s : State) : State :=
  match (s.ulc.path p).probes.find? fun x => x.number == number with
  | some x => probeAnswered p x s
  | none => s

/-- PROBE_REPLY (R110, R112). -/
def execProbeReply (p : Path) (number : Nat) (s : State) : Out := event (inbound p (takeProbeReply p number)) s

/-- PROBE_EXPIRY (R111). -/
def execProbeExpiry (p : Path) (number : Nat) (s : State) : Out :=
  event (fun t => bringOn .t2 (((t.ulc.path p).probes.find? fun x => x.number == number).map (·.expiry)) t) s

/-- CREDIT (R116). -/
def execCredit (p : Path) (target count : Nat) (s : State) : Out :=
  event (inbound p fun t =>
    if 5 < target ∨ count = 0 ∨ 127 < count then routeError t else takeCredit p target count t) s

/-- UPLINK_TX_END (R119). -/
def execUplinkTxEnd (p : Path) (s : State) : Out :=
  event (fun t => putPath p { t.ulc.path p with tx := none } t) s

/-- TIMEOUT_TICK (R128); a class that is off does not tick (R129). -/
def execTimeoutTick (c : TimeoutClass) (s : State) : Out := event (tickClass c) s

/-- OFFICE_REPLY (R124, R192). -/
def execOfficeReply (p : Path) (forward : Nat) (payload : List Byte) (s : State) : Out :=
  event (routeReply p (forward != 0 && decide (forward ≤ Config.max16)) (officeReply p forward payload)) s

/-- OFFICE_REPLY_EXPIRY (R124). -/
def execOfficeReplyExpiry (forward : Nat) (s : State) : Out :=
  event (fun t => bringOn .t4 ((t.ulc.waits.find? fun w => w.forward == forward).map (·.expiry)) t) s

/-- UNROUTED_UPLINK_FRAME (R125, R127). -/
def execUnroutedUplinkFrame (p : Path) (_kind : Nat) (s : State) : Out :=
  event (inbound p fun t => if t.settings.on .routeTable then routeError t else t) s

end Sys2Proof.Machine
end

