-- ==== Sys2Proof/Machine/Dispatch.lean ====
section
/-! DEFINITION. One arm per command: the call of its meaning. -/

namespace Sys2Proof.Machine

/-- The effect of a command on everything but the queue of commands. -/
def exec (i : Instr) (s : State) : Host.Outcome State Fault Refusal :=
  match i with
  | .itemAdd h item price openPrice => Sys2Proof.Machine.execItemAdd h item price openPrice s
  | .itemRemove h item => Sys2Proof.Machine.execItemRemove h item s
  | .itemGet h item => Sys2Proof.Machine.execItemGet h item s
  | .priceSet h item price urgent => Sys2Proof.Machine.execPriceSet h item price urgent s
  | .changeStatus h => Sys2Proof.Machine.execChangeStatus h s
  | .labelBind h label item => Sys2Proof.Machine.execLabelBind h label item s
  | .labelUnbind h label => Sys2Proof.Machine.execLabelUnbind h label s
  | .labelRetry h label => Sys2Proof.Machine.execLabelRetry h label s
  | .labelGet h label => Sys2Proof.Machine.execLabelGet h label s
  | .burstNow h => Sys2Proof.Machine.execBurstNow h s
  | .healthClear h target => Sys2Proof.Machine.execHealthClear h target s
  | .radioStatus h => Sys2Proof.Machine.execRadioStatus h s
  | .tillStatus h => Sys2Proof.Machine.execTillStatus h s
  | .authRelease h till => Sys2Proof.Machine.execAuthRelease h till s
  | .authStatus h => Sys2Proof.Machine.execAuthStatus h s
  | .journalRead h fromSeq count => Sys2Proof.Machine.execJournalRead h fromSeq count s
  | .journalInfo h => Sys2Proof.Machine.execJournalInfo h s
  | .uplinkStatus h => Sys2Proof.Machine.execUplinkStatus h s
  | .nightRerun h => Sys2Proof.Machine.execNightRerun h s
  | .transferStatus h => Sys2Proof.Machine.execTransferStatus h s
  | .guestEnd h target => Sys2Proof.Machine.execGuestEnd h target s
  | .guestList h start => Sys2Proof.Machine.execGuestList h start s
  | .timeSet h value => Sys2Proof.Machine.execTimeSet h value s
  | .openPrepare h => Sys2Proof.Machine.execOpenPrepare h s
  | .openStore h => Sys2Proof.Machine.execOpenStore h s
  | .closeStore h => Sys2Proof.Machine.execCloseStore h s
  | .storeStatus h => Sys2Proof.Machine.execStoreStatus h s
  | .settingSet h id value => Sys2Proof.Machine.execSettingSet h id value s
  | .settingGet h id => Sys2Proof.Machine.execSettingGet h id s
  | .lock h => Sys2Proof.Machine.execLock h s
  | .identify h => Sys2Proof.Machine.execIdentify h s
  | .branchSet h number => Sys2Proof.Machine.execBranchSet h number s
  | .status h => Sys2Proof.Machine.execStatus h s
  | .reset h => Sys2Proof.Machine.execReset h s
  | .forward h dest replyWanted payload => Sys2Proof.Machine.execForward h dest replyWanted payload s
  | .noticeAck tag number => Sys2Proof.Machine.execNoticeAck tag number s
  | .hostByteTimeout => Sys2Proof.Machine.execHostByteTimeout s
  | .badFrame f => Sys2Proof.Machine.execBadFrame f s
  | .hostTxEnd => Sys2Proof.Machine.execHostTxEnd s
  | .noticeResendExpiry => Sys2Proof.Machine.execNoticeResendExpiry s
  | .silenceExpiry => Sys2Proof.Machine.execSilenceExpiry s
  | .hello t => Sys2Proof.Machine.execHello t s
  | .poll t => Sys2Proof.Machine.execPoll t s
  | .bye t => Sys2Proof.Machine.execBye t s
  | .saleOpen t => Sys2Proof.Machine.execSaleOpen t s
  | .lineAdd t item qty keyed => Sys2Proof.Machine.execLineAdd t item qty keyed s
  | .lineVoid t line => Sys2Proof.Machine.execLineVoid t line s
  | .saleCancel t => Sys2Proof.Machine.execSaleCancel t s
  | .tenderCash t given => Sys2Proof.Machine.execTenderCash t given s
  | .tenderCard t card => Sys2Proof.Machine.execTenderCard t card s
  | .tillSilenceExpiry till => Sys2Proof.Machine.execTillSilenceExpiry till s
  | .closingGraceEnd => Sys2Proof.Machine.execClosingGraceEnd s
  | .labelAcknowledgement label number price battery margin => Sys2Proof.Machine.execLabelAcknowledgement label number price battery margin s
  | .ackWindowClose => Sys2Proof.Machine.execAckWindowClose s
  | .beacon => Sys2Proof.Machine.execBeacon s
  | .floorWriteDone label => Sys2Proof.Machine.execFloorWriteDone label s
  | .priceFrameEnd => Sys2Proof.Machine.execPriceFrameEnd s
  | .settleEnd => Sys2Proof.Machine.execSettleEnd s
  | .labelBindWriteDone label => Sys2Proof.Machine.execLabelBindWriteDone label s
  | .labelUnbindWriteDone label => Sys2Proof.Machine.execLabelUnbindWriteDone label s
  | .labelRetryWriteDone label => Sys2Proof.Machine.execLabelRetryWriteDone label s
  | .ackWriteDone label => Sys2Proof.Machine.execAckWriteDone label s
  | .unreachableWriteDone label => Sys2Proof.Machine.execUnreachableWriteDone label s
  | .itemAddWriteDone item => Sys2Proof.Machine.execItemAddWriteDone item s
  | .itemRemoveWriteDone item => Sys2Proof.Machine.execItemRemoveWriteDone item s
  | .pendingWriteDone item => Sys2Proof.Machine.execPendingWriteDone item s
  | .queueWriteDone => Sys2Proof.Machine.execQueueWriteDone s
  | .effectWriteDone item => Sys2Proof.Machine.execEffectWriteDone item s
  | .journalAppendDone => Sys2Proof.Machine.execJournalAppendDone s
  | .journalRemovalDone => Sys2Proof.Machine.execJournalRemovalDone s
  | .authWaitExpiry till => Sys2Proof.Machine.execAuthWaitExpiry till s
  | .authReplyExpiry till => Sys2Proof.Machine.execAuthReplyExpiry till s
  | .authRetryDelayEnd till => Sys2Proof.Machine.execAuthRetryDelayEnd till s
  | .carrierPresent p => Sys2Proof.Machine.execCarrierPresent p s
  | .carrierAbsent p => Sys2Proof.Machine.execCarrierAbsent p s
  | .helloAccept p g => Sys2Proof.Machine.execHelloAccept p g s
  | .helloRefused p reason => Sys2Proof.Machine.execHelloRefused p reason s
  | .helloExpiry p => Sys2Proof.Machine.execHelloExpiry p s
  | .probeDue p => Sys2Proof.Machine.execProbeDue p s
  | .probeReply p number => Sys2Proof.Machine.execProbeReply p number s
  | .probeExpiry p number => Sys2Proof.Machine.execProbeExpiry p number s
  | .credit p target count => Sys2Proof.Machine.execCredit p target count s
  | .uplinkTxEnd p => Sys2Proof.Machine.execUplinkTxEnd p s
  | .timeoutTick c => Sys2Proof.Machine.execTimeoutTick c s
  | .authApproved p trace code => Sys2Proof.Machine.execAuthApproved p trace code s
  | .authDeclined p trace reason => Sys2Proof.Machine.execAuthDeclined p trace reason s
  | .authBusy p trace => Sys2Proof.Machine.execAuthBusy p trace s
  | .batchAckAccepted p batch first last => Sys2Proof.Machine.execBatchAckAccepted p batch first last s
  | .batchAckBusy p batch => Sys2Proof.Machine.execBatchAckBusy p batch s
  | .batchExpiry => Sys2Proof.Machine.execBatchExpiry s
  | .batchRetryDelayEnd => Sys2Proof.Machine.execBatchRetryDelayEnd s
  | .tricklePauseEnd => Sys2Proof.Machine.execTricklePauseEnd s
  | .piece p number last changes => Sys2Proof.Machine.execPiece p number last changes s
  | .noFile p number => Sys2Proof.Machine.execNoFile p number s
  | .fileBusy p number => Sys2Proof.Machine.execFileBusy p number s
  | .fileRequestExpiry => Sys2Proof.Machine.execFileRequestExpiry s
  | .fileRetryDelayEnd => Sys2Proof.Machine.execFileRetryDelayEnd s
  | .officeReply p forward payload => Sys2Proof.Machine.execOfficeReply p forward payload s
  | .officeReplyExpiry forward => Sys2Proof.Machine.execOfficeReplyExpiry forward s
  | .guestReply p addr payload => Sys2Proof.Machine.execGuestReply p addr payload s
  | .priceChange p item price urgent => Sys2Proof.Machine.execPriceChange p item price urgent s
  | .settings p id value => Sys2Proof.Machine.execSettings p id value s
  | .headOfficeTimeSet p value => Sys2Proof.Machine.execHeadOfficeTimeSet p value s
  | .nightControl p command => Sys2Proof.Machine.execNightControl p command s
  | .settingWriteDone id => Sys2Proof.Machine.execSettingWriteDone id s
  | .branchSetWriteDone => Sys2Proof.Machine.execBranchSetWriteDone s
  | .join addr => Sys2Proof.Machine.execJoin addr s
  | .leave addr => Sys2Proof.Machine.execLeave addr s
  | .guestData addr dest payload => Sys2Proof.Machine.execGuestData addr dest payload s
  | .guestTimeExpiry entry => Sys2Proof.Machine.execGuestTimeExpiry entry s
  | .openLeadEvent => Sys2Proof.Machine.execOpenLeadEvent s
  | .openEvent => Sys2Proof.Machine.execOpenEvent s
  | .closeEvent => Sys2Proof.Machine.execCloseEvent s
  | .quietDelayExpiry => Sys2Proof.Machine.execQuietDelayExpiry s
  | .siteLineChange line present => Sys2Proof.Machine.execSiteLineChange line present s
  | .holdAssert => Sys2Proof.Machine.execHoldAssert s
  | .holdExit => Sys2Proof.Machine.execHoldExit s
  | .resetLineAssert => Sys2Proof.Machine.execResetLineAssert s
  | .resetLineRelease => Sys2Proof.Machine.execResetLineRelease s
  | .powerOn => Sys2Proof.Machine.execPowerOn s
  | .hostReset => Sys2Proof.Machine.execHostReset s
  | .powerLoss => Sys2Proof.Machine.execPowerLoss s
  | .unknownRequest tag kind => Sys2Proof.Machine.execUnknownRequest tag kind s
  | .unroutedUplinkFrame p kind => Sys2Proof.Machine.execUnroutedUplinkFrame p kind s

end Sys2Proof.Machine
end

