-- ==== Sys2Proof/Machine/Formats.lean ====
section
/-! DEFINITION. How the fields of frames are written and read, how frames are checked, and the layouts that chapter 11 gives in bytes: headers, the CRC, label frames, uplink keys, the journal record and guest port frames. -/

namespace Sys2Proof.Machine

/-! ## Numbers (R196) -/

/-- A number in `k` bytes, most significant byte first (R196). -/
def numberBytes : Nat → Nat → List Byte
  | 0, _ => []
  | k + 1, n => BitVec.ofNat 8 (n / 256 ^ k) :: numberBytes k n

/-- The number that bytes carry, most significant first (R196). -/
def readNumber (l : List Byte) : Nat := l.foldl (fun n b => 256 * n + b.toNat) 0

/-- A signed number in `k` bytes, two's complement (R196). -/
def signedBytes (k : Nat) (v : Int) : List Byte := numberBytes k (v % 256 ^ k).toNat

/-- The signed number that bytes carry, two's complement, most significant first (R196). -/
def readSigned (l : List Byte) : Int :=
  if 2 * readNumber l < 256 ^ l.length then readNumber l else (readNumber l : Int) - 256 ^ l.length

/-- An optional field of `k` bytes that has no absent value of its own: a presence byte, and the bytes as zero when absent
(R196). -/
def optionalBytes {α : Type} (k : Nat) (f : α → List Byte) : Option α → List Byte
  | some x => 1 :: f x
  | none => 0 :: numberBytes k 0

/-- A field that is written as 0 when absent (R196). -/
def orZero (k : Nat) (n : Option Nat) : List Byte := numberBytes k (n.getD 0)

/-- A flag in a byte of its own, or in a bit's place of a flags byte. -/
def flagBit (b : Bool) (place : Nat) : Nat := if b then 2 ^ place else 0

/-- A hardware or device address as received (R196). -/
def addressBytes (a : Addr) : List Byte := numberBytes 6 a.toNat

/-! ## Codes (R196, 11.3, 11.4, 11.6) -/

/-- A result's code (R196). -/
def Result.code : Result → Nat
  | .ok => 0 | .queued => 1 | .busy => 2 | .state => 3 | .closed => 4 | .locked => 5 | .range => 6 | .unknownItem => 7
  | .exists_ => 8 | .bookFull => 9 | .pending => 10 | .bound => 11 | .full => 12 | .journalFull => 13
  | .notAllowed => 14 | .radioAsleep => 15 | .blocked => 16 | .alreadySet => 17 | .notRecorded => 18
  | .authorizing => 32 | .saleClosed => 33 | .declined => 34 | .notLoggedOn => 35 | .tillInUse => 36
  | .priceNeeded => 37 | .lineLimit => 38 | .totalRange => 39 | .noLine => 40 | .short => 41 | .inAuth => 42
  | .basketOpen => 43 | .unknownRequest => 64 | .tagInUse => 65

/-- A request kind's code: 1 upward in the order of the requests table (11.3). -/
def RequestKind.code : RequestKind → Nat
  | .other k => k
  | k => k.ctorIdx + 1

/-- A notice kind's code: 128 upward in the order of 11.3. -/
def NoticeBody.code (b : NoticeBody) : Nat := 128 + b.ctorIdx

/-- The code of a till frame's kind (11.4). -/
def TillKind.code : TillKind → Nat
  | .hello => 1 | .poll => 2 | .bye => 3 | .saleOpen => 4 | .lineAdd => 5 | .lineVoid => 6 | .saleCancel => 7
  | .tenderCash => 8 | .tenderCard => 9 | .saleClosed => 16 | .declined => 17 | .basketVoided => 18 | .closed => 19
  | .other k => k

/-- A tender's code (R196). -/
def Tender.code : Tender → Nat
  | .cash => 0 | .cardOnline => 1 | .cardOffline => 2

/-- A void reason's code, in the order chapter 5 lists the reasons (R196). -/
def VoidReason.code : VoidReason → Nat
  | .cancelled => 0 | .tillLost => 1 | .close => 2 | .declinedLost => 3

/-- A decline reason's code; UNAVAILABLE is 0 (R196). -/
def DeclineReason.code : DeclineReason → Nat
  | .unavailable => 0
  | .headOffice n => n

/-- A traffic class's code (11.6). -/
def Class.code : Class → Nat
  | .auth => 0 | .price => 1 | .journal => 2 | .office => 3 | .guest => 4

/-- The reason of a guest END frame (11.8). -/
def EndReason.code : EndReason → Nat
  | .time => 0 | .quota => 1 | .leave => 2 | .hostRequest => 3 | .close => 4 | .reset => 5

/-- The result of a JOIN answer (11.8). -/
def JoinResult.code : JoinResult → Nat
  | .ok _ _ => 0 | .refusedClosed => 1 | .refusedSpent => 2 | .refusedFull => 3

/-! ## Framing and the check (R197) -/

/-- One bit into the CRC register: x^16 + x^12 + x^5 + 1 (R197). -/
def crcBit (r : BitVec 16) (b : Bool) : BitVec 16 := if r.msb == b then r <<< 1 else (r <<< 1) ^^^ 0x1021#16

/-- One byte into the CRC register, most significant bit first (R197). -/
def crcByte (r : BitVec 16) (b : Byte) : BitVec 16 :=
  [7, 6, 5, 4, 3, 2, 1, 0].foldl (fun x i => crcBit x (b.getLsbD i)) r

/-- The CRC-16 of some bytes: from 0xFFFF, no final inversion (R197). -/
def crc16 (l : List Byte) : BitVec 16 := l.foldl crcByte 0xFFFF#16

/-- Bytes followed by their CRC, most significant byte first (R197). -/
def withCrc (l : List Byte) : List Byte := l ++ numberBytes 2 (crc16 l).toNat

/-- Whether bytes end with the CRC of what stands before it (R197). -/
def crcHolds (l : List Byte) : Bool := decide (2 ≤ l.length) && withCrc (l.take (l.length - 2)) == l

/-- The outer form of a frame: marker, payload length, header, payload and CRC, which covers everything from the payload
length on (R197). -/
def outerFrame (header payload : List Byte) : List Byte :=
  0x7E#8 :: withCrc (numberBytes 2 payload.length ++ header ++ payload)

/-! ## Host link frames (11.3) -/

/-- A reply's frame: kind, tag, result and payload. -/
def replyFrame (r : Reply) (payload : List Byte) : List Byte :=
  outerFrame (numberBytes 1 r.kind.code ++ numberBytes 1 r.tag ++ numberBytes 1 r.result.code) payload

/-- A notice's frame: kind, tag 0, and a payload that begins with the notice number and a flags byte. -/
def noticeFrame (n : Notice) (fields : List Byte) : List Byte :=
  outerFrame (numberBytes 1 n.body.code ++ numberBytes 1 0)
    (numberBytes 2 n.number ++ numberBytes 1 (flagBit n.overrun 0) ++ fields)

/-- A scope's code: the names from 0 upward (R196). -/
def scopeCode : Scope → Nat
  | .internal => 0 | .external => 1 | .blocked => 2

/-- A destination window as a setting's value (11.3). -/
def windowBytes (w : Window) : List Byte :=
  numberBytes 1 (flagBit w.valid 0) ++ numberBytes 4 w.base ++ numberBytes 4 w.limit ++ numberBytes 1 (scopeCode w.scope) ++
  numberBytes 1 (flagBit w.office 0 + flagBit w.guest 1)

/-! ## Till frames (11.4) -/

/-- A frame from the part to a till: number, bound address, kind, result and payload. -/
def tillFrameBytes (till : Nat) (a : Addr) (k : TillKind) (r : Result) (payload : List Byte) : List Byte :=
  outerFrame (numberBytes 1 till ++ addressBytes a ++ numberBytes 1 k.code ++ numberBytes 1 r.code) payload

/-! ## Label frames (11.5) -/

/-- A price frame (R30). -/
def priceFrameBytes (label number price : Nat) : List Byte :=
  withCrc (numberBytes 2 label ++ numberBytes 1 number ++ numberBytes 4 price)

/-- A label's acknowledgement (R31). -/
def acknowledgementBytes (label number price battery : Nat) (margin : Int) : List Byte :=
  withCrc (numberBytes 2 label ++ numberBytes 1 number ++ numberBytes 4 price ++ numberBytes 1 battery ++
    signedBytes 1 margin)

/-! ## The journal record (11.7) -/

/-- One line of a record: number, flags, quantity, item code, unit price. -/
def lineBytes (l : BasketLine) : List Byte :=
  numberBytes 1 l.number ++ numberBytes 1 (flagBit l.voided 0 + flagBit (l.origin == .keyed) 1) ++
  signedBytes 2 l.qty ++ numberBytes 4 l.item ++ numberBytes 4 l.price

/-- A line count and its lines. -/
def linesBytes (ls : List BasketLine) : List Byte := numberBytes 1 ls.length ++ ls.flatMap lineBytes

/-- An authorization code: its length, and eight bytes filled with zeros. -/
def codeBytes (c : Option (List Byte)) : List Byte :=
  let b := c.getD []
  numberBytes 1 b.length ++ (b ++ List.replicate 8 0).take 8

/-- The fields of a record's kind. -/
def bodyBytes : RecordBody → List Byte
  | .sale total tender trace code lost lines =>
    signedBytes 4 total ++ numberBytes 1 tender.code ++ numberBytes 1 (flagBit lost 0) ++ orZero 4 trace ++
    codeBytes code ++ linesBytes lines
  | .voidedBasket reason total lines => numberBytes 1 reason.code ++ signedBytes 4 total ++ linesBytes lines
  | .authTrace amount card => numberBytes 4 amount ++ numberBytes 16 card.toNat

/-- The code of a record's kind. -/
def RecordBody.code : RecordBody → Nat
  | .sale .. => 0
  | .voidedBasket .. => 1
  | .authTrace .. => 2

/-- A journal record. -/
def recordBytes (r : Record) : List Byte :=
  numberBytes 4 r.seq ++ numberBytes 1 r.body.code ++ numberBytes 1 r.till ++ numberBytes 4 r.time ++ bodyBytes r.body

/-- A record of a JOURNAL READ reply, followed by its send state and its batch number. -/
def readBytes (r : Record) : List Byte :=
  recordBytes r ++ numberBytes 1 (flagBit r.sent.isSome 0) ++ orZero 1 r.sent

/-- The payload of a JOURNAL READ reply. -/
def journalReadBytes (rs : List Record) (next newest : Option Nat) : List Byte :=
  numberBytes 1 rs.length ++ orZero 4 next ++ orZero 4 newest ++ rs.flatMap readBytes

/-! ## Uplink frames (11.6) -/

/-- The code of a kind of frame the part sends. -/
def UpFrame.code : UpFrame → Nat
  | .hello _ _ => 1
  | .probe _ => 4
  | .authRequest _ _ _ _ => 10
  | .journalRecord _ _ _ _ => 20
  | .fileRequest _ _ => 30
  | .changeConfirm _ _ _ _ _ => 34
  | .changeRefused _ _ _ => 35
  | .office _ _ _ _ => 40
  | .guest _ _ _ => 50

/-- The bytes of a frame's key that its kind uses. -/
def keyUsed : UpFrame → List Byte
  | .hello serial branch => numberBytes 4 serial ++ numberBytes 2 branch
  | .probe number => numberBytes 1 number
  | .authRequest trace _ _ _ => numberBytes 4 trace
  | .journalRecord batch place count _ => numberBytes 1 batch ++ numberBytes 1 place ++ numberBytes 1 count
  | .fileRequest piece _ => numberBytes 2 piece
  | .changeConfirm item _ _ _ _ => numberBytes 4 item
  | .changeRefused item _ _ => numberBytes 4 item
  | .office n dest _ _ => numberBytes 2 n ++ numberBytes 4 dest
  | .guest a _ _ => addressBytes a

/-- The eight bytes of the key; unused bytes are zero. -/
def uplinkKey (f : UpFrame) : List Byte := (keyUsed f ++ List.replicate 8 0).take 8

/-- The payload of an uplink frame: as chapter 11 gives it, or the fields of the owning rule that the key does not carry, in their
order (R20, R123, R196; log entry 36). A GUEST frame's key carries the device address, and its payload the destination and then
the data (R122, R157); its length is that of the data, which the outer form gives: DESIGN CHOICE (log entry 36). -/
def uplinkPayload : UpFrame → List Byte
  | .hello _ _ => []
  | .probe _ => []
  | .authRequest _ amount card branch => numberBytes 4 amount ++ numberBytes 16 card.toNat ++ numberBytes 2 branch
  | .journalRecord _ _ _ r => recordBytes r
  | .fileRequest _ branch => numberBytes 2 branch
  | .changeConfirm _ price number confirmed unreachable =>
    numberBytes 4 price ++ numberBytes 2 number ++ numberBytes 2 confirmed ++ numberBytes 2 unreachable
  | .changeRefused _ price r => numberBytes 4 price ++ numberBytes 1 r.code
  | .office _ _ wanted payload => numberBytes 1 (flagBit wanted 0) ++ payload
  | .guest _ dest payload => numberBytes 4 dest ++ payload

/-- An uplink frame as it goes out (R197). -/
def uplinkFrame (f : UpFrame) : List Byte := outerFrame (numberBytes 1 f.code ++ uplinkKey f) (uplinkPayload f)

/-! ## Guest port frames (11.8) -/

/-- A guest port frame: device address, kind, code, destination and payload. -/
def guestFrame (a : Addr) (kind code dest : Nat) (payload : List Byte) : List Byte :=
  outerFrame (addressBytes a ++ numberBytes 1 kind ++ numberBytes 1 code ++ numberBytes 4 dest) payload

/-- The payload of a JOIN answer (R154, 11.8). A quota that four signed bytes do not hold is written modulo 2^32: DESIGN CHOICE (log
entry 59). -/
def joinPayload : JoinResult → List Byte
  | .ok seconds quota => numberBytes 4 seconds ++ signedBytes 4 quota
  | _ => []

end Sys2Proof.Machine
end

