-- ==== Sys2Proof/Machine/Wire.lean ====
section
/-! DEFINITION. The bytes that arrive at the ports: how HLK assembles frames (R181), how a received frame is checked (R197), and the command each frame is (R196, 11.3 to 11.8). The table gives no row for a byte, so bytes come in through `State.receive` (log entry 49). -/

namespace Sys2Proof.Machine

/-! ## Reading fields -/

/-- `k` bytes of a payload from a place on. -/
def field (start k : Nat) (l : List Byte) : List Byte := (l.drop start).take k
/-- The number in `k` bytes from a place on (R196). -/
def num (start k : Nat) (l : List Byte) : Nat := readNumber (field start k l)
/-- Whether a flag's byte, or a presence byte, is 0 or 1 (R196; log entry 36). -/
def flagFits (start : Nat) (l : List Byte) : Bool := decide (num start 1 l ≤ 1)
/-- The flag in a byte of its own. -/
def flagAt (start : Nat) (l : List Byte) : Bool := num start 1 l == 1
/-- A hardware or device address (R196). -/
def addrAt (start : Nat) (l : List Byte) : Addr := BitVec.ofNat 48 (num start 6 l)

/-- Header and payload of a frame with R197's outer form and a header of a given size; none when its marker, its length or its
CRC fails. -/
def frameParts (header : Nat) (f : List Byte) : Option (List Byte × List Byte) :=
  if f.head? = some 0x7E#8 ∧ f.length = header + num 1 2 f + 5 ∧ crcHolds f.tail = true then
    some (field 3 header f, field (3 + header) (num 1 2 f) f)
  else none

/-! ## Settings -/

/-- A destination window's 11 bytes; a code or flags it does not define make the value malformed (11.3, R196). -/
def readWindow (l : List Byte) : SettingValue :=
  let scope : Option Scope := match num 9 1 l with
    | 0 => some .internal
    | 1 => some .external
    | 2 => some .blocked
    | _ => none
  match scope with
  | some c =>
    if l.length = 11 ∧ flagFits 0 l = true ∧ num 10 1 l < 4 then
      .window { valid := flagAt 0 l, base := num 1 4 l, limit := num 5 4 l, scope := c,
                office := (num 10 1 l).testBit 0, guest := (num 10 1 l).testBit 1 }
    else .malformed
  | none => .malformed

/-- A setting's value from its bytes, by the id: 4 bytes, signed when its range goes below 0; 1 byte for the closed weekdays; 11
for a window (11.3). -/
def readSetting (id : Nat) (l : List Byte) : SettingValue :=
  match settingTarget id with
  | some (.num n) =>
    if n = .closedWeekdays then (if l.length = 1 then .num (readNumber l : Nat) else .malformed)
    else if l.length = 4 then
      .num (if (settingBounds n).1 < 0 then readSigned l else (readNumber l : Nat))
    else .malformed
  | some (.window _) => readWindow l
  | none => .malformed

/-! ## Host link frames (11.3) -/

/-- The command of a host request's frame that has passed its checks: the fields of its kind, in the order its rule lists them,
and whether the payload fits (R182, R196; log entry 36). The bytes of an absent optional field are not read, zero or not: DESIGN CHOICE
(log entry 49). -/
def requestCommand (kind tag : Nat) (p : List Byte) : Instr :=
  let n := p.length
  let h (fits : Bool) : HostHead := { tag := tag, fits := fits }
  match kind with
  | 1 => .itemAdd (h (n == 9 && flagFits 8 p)) (num 0 4 p) (num 4 4 p) (flagAt 8 p)
  | 2 => .itemRemove (h (n == 4)) (num 0 4 p)
  | 3 => .itemGet (h (n == 4)) (num 0 4 p)
  | 4 => .priceSet (h (n == 9 && flagFits 8 p)) (num 0 4 p) (num 4 4 p) (flagAt 8 p)
  | 5 => .changeStatus (h (n == 0))
  | 6 => .labelBind (h (n == 6)) (num 0 2 p) (num 2 4 p)
  | 7 => .labelUnbind (h (n == 2)) (num 0 2 p)
  | 8 => .labelRetry (h (n == 2)) (num 0 2 p)
  | 9 => .labelGet (h (n == 2)) (num 0 2 p)
  | 10 => .burstNow (h (n == 0))
  | 11 => .healthClear (h (n == 3 && flagFits 0 p)) (if flagAt 0 p then some (num 1 2 p) else none)
  | 12 => .radioStatus (h (n == 0))
  | 13 => .tillStatus (h (n == 0))
  | 14 => .authRelease (h (n == 1)) (num 0 1 p)
  | 15 => .authStatus (h (n == 0))
  | 16 => .journalRead (h (n == 5)) (num 0 4 p) (num 4 1 p)
  | 17 => .journalInfo (h (n == 0))
  | 18 => .uplinkStatus (h (n == 0))
  | 19 => .nightRerun (h (n == 0))
  | 20 => .transferStatus (h (n == 0))
  | 21 => .guestEnd (h (n == 7 && flagFits 0 p)) (if flagAt 0 p then some (addrAt 1 p) else none)
  | 22 => .guestList (h (n == 1)) (num 0 1 p)
  | 23 => .timeSet (h (n == 4)) (num 0 4 p)
  | 24 => .openPrepare (h (n == 0))
  | 25 => .openStore (h (n == 0))
  | 26 => .closeStore (h (n == 0))
  | 27 => .storeStatus (h (n == 0))
  | 28 => .settingSet (h (decide (2 ≤ n))) (num 0 2 p) (readSetting (num 0 2 p) (p.drop 2))
  | 29 => .settingGet (h (n == 2)) (num 0 2 p)
  | 30 => .lock (h (n == 0))
  | 31 => .identify (h (n == 0))
  | 32 => .branchSet (h (n == 2)) (num 0 2 p)
  | 33 => .status (h (n == 0))
  | 34 => .reset (h (n == 0))
  | 35 => .forward (h (decide (5 ≤ n) && flagFits 4 p)) (num 0 4 p) (flagAt 4 p) (p.drop 5)
  | k => .unknownRequest tag k

/-- The command of a valid frame of the host: a NOTICE ACK is kind 255, its payload the notice number alone; one with another
payload names no notice (R181, R185). -/
def hostCommand (kind tag : Nat) (p : List Byte) : Instr :=
  if kind = 255 then .noticeAck tag (if p.length = 2 then num 0 2 p else 0) else requestCommand kind tag p

/-- A complete frame of the host line: its command, or a frame error (R181). -/
def hostFrameCommand (f : List Byte) : Instr :=
  match frameParts 2 f with
  | some (header, payload) => hostCommand (num 0 1 header) (num 1 1 header) payload
  | none => .badFrame (.check .host)

/-- A byte inside a frame: a length field above 1,024 discards the frame there and then; the last byte completes it (R181; log
entry 49). -/
def frameByte (l : List Byte) : HostRx × List Instr :=
  if l.length = 3 ∧ 1024 < num 1 2 l then (idleRx, [.badFrame (.check .host)])
  else if 3 ≤ l.length ∧ l.length = 7 + num 1 2 l then (idleRx, [hostFrameCommand l])
  else ({ bytes := l, stray := false }, [])

/-- A byte on the host line (R181): a marker outside a frame begins one, any other byte outside a frame is skipped, and the first
of each unbroken run of them is a frame error. -/
def hostByte (r : HostRx) (b : Byte) : HostRx × List Instr :=
  if r.bytes ≠ [] then frameByte (r.bytes ++ [b])
  else if b = 0x7E#8 then ({ bytes := [b], stray := false }, [])
  else ({ bytes := [], stray := true }, if r.stray then [] else [.badFrame (.check .host)])

/-- Bytes on the host line, one after another. -/
def hostBytes (r : HostRx) : List Byte → HostRx × List Instr
  | [] => (r, [])
  | b :: bs =>
    let x := hostByte r b
    let y := hostBytes x.1 bs
    (y.1, x.2 ++ y.2)

/-! ## Till frames (11.4) -/

/-- The command of a till request's frame. One of a kind that names no till request comes as a BAD_FRAME that carries its head, for R50
to take and answer (R196; log entry 49). The bytes of an absent keyed price are not read, zero or not: DESIGN CHOICE (log entry 49). -/
def tillKindCommand (kind : Nat) (result : Nat) (till : Nat) (a : Addr) (p : List Byte) : Instr :=
  let n := p.length
  let h (fits : Bool) : TillHead := { till := till, addr := a, fits := fits && result == 0 }
  match kind with
  | 1 => .hello (h (n == 0))
  | 2 => .poll (h (n == 0))
  | 3 => .bye (h (n == 0))
  | 4 => .saleOpen (h (n == 0))
  | 5 => .lineAdd (h (n == 11 && flagFits 6 p)) (num 0 4 p) (readSigned (field 4 2 p))
      (if flagAt 6 p then some (num 7 4 p) else none)
  | 6 => .lineVoid (h (n == 1)) (num 0 1 p)
  | 7 => .saleCancel (h (n == 0))
  | 8 => .tenderCash (h (n == 4)) (num 0 4 p)
  | 9 => .tenderCard (h (n == 16)) (BitVec.ofNat 128 (num 0 16 p))
  | k => .badFrame (.tillKind (h true) k)

/-- A frame on the till port: its command, or a till error when it fails its check (R50, R197). -/
def tillCommand (f : List Byte) : Instr :=
  match frameParts 9 f with
  | some (header, payload) => tillKindCommand (num 7 1 header) (num 8 1 header) (num 0 1 header) (addrAt 1 header) payload
  | none => .badFrame (.check .till)

/-! ## Label frames (11.5) -/

/-- An acknowledgement received by the radio, or a radio error when it fails its check (R31, R197). -/
def labelCommand (f : List Byte) : Instr :=
  if f.length = 11 ∧ crcHolds f = true then
    .labelAcknowledgement (num 0 2 f) (num 2 1 f) (num 3 4 f) (num 7 1 f) (readSigned (field 8 1 f))
  else .badFrame (.check .radio)

/-! ## Guest port frames (11.8) -/

/-- A frame from the access point: JOIN, LEAVE or DATA; any other, or one whose fields are out of range, is discarded without a
count (R196, R197). -/
def guestCommand (f : List Byte) : Instr :=
  match frameParts 12 f with
  | some (header, payload) =>
    let a := addrAt 0 header
    if num 7 1 header ≠ 0 then .badFrame (.check .guest)
    else match num 6 1 header with
      | 1 => if num 8 4 header = 0 ∧ payload = [] then .join a else .badFrame (.check .guest)
      | 2 => if num 8 4 header = 0 ∧ payload = [] then .leave a else .badFrame (.check .guest)
      | 5 => .guestData a (num 8 4 header) payload
      | _ => .badFrame (.check .guest)
  | none => .badFrame (.check .guest)

/-! ## Uplink frames (11.6) -/

/-- One change of a piece: item code, new price, flags (11.6). Bits 2 to 7 of the flags byte are not read: DESIGN CHOICE (log entry
49). -/
def readChange (l : List Byte) : PieceChange :=
  { item := num 0 4 l, price := num 4 4 l, urgent := (num 8 1 l).testBit 0, add := (num 8 1 l).testBit 1 }

/-- A piece's changes: as many as its count byte says (11.6). -/
def readChanges : Nat → List Byte → List PieceChange
  | 0, _ => []
  | n + 1, l => readChange (l.take 9) :: readChanges n (l.drop 9)

/-- A PIECE reply; one of more than 32 changes is a link error (R145, R196). So is one whose payload does not hold the changes it counts,
or whose last flag is above 1: DESIGN CHOICE (log entry 49). -/
def pieceCommand (p : Path) (number last : Nat) (l : List Byte) : Instr :=
  if 32 < num 0 1 l ∨ l.length ≠ 1 + 9 * num 0 1 l ∨ 1 < last then .badFrame (.check (.uplink p))
  else .piece p number (last == 1) (readChanges (num 0 1 l) (l.drop 1))

/-- An authorization code in the payload of AUTH APPROVED, which 11.6 does not lay out: its length and eight bytes, as 11.7 writes it in
a SALE record; any other length of payload gives an empty code, which is out of range: DESIGN CHOICE (log entry 36). -/
def readCode (l : List Byte) : List Byte := if l.length = 9 ∧ num 0 1 l ≤ 8 then field 1 (num 0 1 l) l else []

/-- The command of an uplink frame, by its kind, its key and its payload. A payload that is too short gives the value of its field
that is out of range; bytes beyond a layout are not read (R196; log entry 49). Nor are the key bytes that a kind leaves unused, which
11.6 has the sender write as zero: DESIGN CHOICE (log entry 49). -/
def uplinkKindCommand (p : Path) (kind : Nat) (key l : List Byte) : Instr :=
  match kind with
  | 2 => if l.length < 6 then .badFrame (.check (.uplink p)) else
    .helloAccept p { auth := num 0 1 l, price := num 1 1 l, journal := num 2 1 l, office := num 3 1 l, guest := num 4 1 l,
                     shared := num 5 1 l }
  | 3 => .helloRefused p (num 0 1 l)
  | 5 => .probeReply p (num 0 1 key)
  | 6 => .credit p (num 0 1 key) (num 1 1 key)
  | 11 => .authApproved p (num 0 4 key) (readCode l)
  | 12 => .authDeclined p (num 0 4 key) (num 0 1 l)
  | 13 => .authBusy p (num 0 4 key)
  | 21 => .batchAckAccepted p (num 0 1 key) (num 1 4 key) (if l.length < 4 then 0 else num 0 4 l)
  | 22 => .batchAckBusy p (num 0 1 key)
  | 31 => pieceCommand p (num 0 2 key) (num 2 1 key) l
  | 32 => .noFile p (num 0 2 key)
  | 33 => .fileBusy p (num 0 2 key)
  | 36 => if l.length < 5 ∨ flagFits 4 l = false then .unroutedUplinkFrame p kind else
    .priceChange p (num 0 4 key) (num 0 4 l) (flagAt 4 l)
  | 41 => .officeReply p (num 0 2 key) l
  | 51 => .guestReply p (addrAt 0 key) l
  | 60 => .settings p (num 0 2 key) (readSetting (num 0 2 key) l)
  | 61 => .headOfficeTimeSet p (if l.length < 4 then Config.max32 + 1 else num 0 4 l)
  | 62 => .nightControl p (if l = [] then 1 else num 0 1 l)
  | k => .unroutedUplinkFrame p k

/-- A frame on an uplink path: its command, or a link error when it fails its check (R125, R197). -/
def uplinkCommand (p : Path) (f : List Byte) : Instr :=
  match frameParts 9 f with
  | some (header, payload) => uplinkKindCommand p (num 0 1 header) (field 1 8 header) payload
  | none => .badFrame (.check (.uplink p))

/-! ## Bytes at a port -/

/-- The commands of one whole frame at a port other than the host line. -/
def frameCommands (p : Port) (f : List Byte) : List Instr :=
  match p with
  | .host => []
  | .till => [tillCommand f]
  | .radio => [labelCommand f]
  | .guest => [guestCommand f]
  | .uplink q => [uplinkCommand q f]

/-- The commands that wait when a byte finds the frame before it overdue: the receiver discards that frame there and then, and a bad
frame is counted in the place of its HOST_BYTE_TIMEOUT, or behind all when none waits (R181; log entry 49). -/
def gapCounted (l : List Instr) : List Instr :=
  if l.contains .hostByteTimeout then l.replace .hostByteTimeout (.badFrame (.check .host))
  else l ++ [.badFrame (.check .host)]

/-- A frame whose next byte comes more than 20 ms after the last one is discarded and counted (R181). -/
def dropOverdue (s : State) : State :=
  if byteGapPassed s then { s with hlk := { s.hlk with rx := idleRx }, pending := gapCounted s.pending } else s

/-- Bytes on the host line, which come at the present moment: what they complete joins the commands that wait (R181). -/
def takeBytes (l : List Byte) (s : State) : State :=
  let x := hostBytes s.hlk.rx l
  { s with hlk := { s.hlk with rx := x.1, rxAt := s.timer }, pending := s.pending ++ x.2 }

/-- Bytes of the host line arrive at a running part (R181). -/
def receiveHost (l : List Byte) (s : State) : State := if l = [] then s else takeBytes l (dropOverdue s)

/-- Bytes arrive at a port: on the host line a stretch of bytes, at any other port one whole frame (log entry 49). A part that does
not run receives nothing (R176, R181). -/
def State.receive (s : State) (p : Port) (l : List Byte) : State :=
  if s.running then
    if p = .host then receiveHost l s else { s with pending := s.pending ++ frameCommands p l }
  else s

end Sys2Proof.Machine
end

