-- ==== Sys2Proof/Safety.lean ====
section
/-! DEFINITION. What the statements about the part are said in: its invariants, and the conditions under which a command has the effect its rules give. -/

namespace Sys2Proof.Safety

open Sys2Proof.Machine

/-! ## Commands -/

/-- What of the state outlives a command only when a write to the NV store completes, or a reset or a stop comes: the label
entries, the price book with its change queue and counter, the journal's list with its sequence counter, the settings with the
identity record; beside them the writes under way, and what a reset or a stop alone changes. -/
inductive Area | labels | prices | journal | settings | writes | resets
  deriving DecidableEq, Repr

/-- The areas a command may change. -/
def areas : Instr → Area → Bool
  | .healthClear .. => fun a => a == .labels
  | .labelBindWriteDone _ | .labelUnbindWriteDone _ => fun a => a == .labels || a == .prices || a == .writes
  | .labelRetryWriteDone _ | .ackWriteDone _ | .unreachableWriteDone _ | .floorWriteDone _ =>
    fun a => a == .labels || a == .writes
  | .itemAddWriteDone _ | .itemRemoveWriteDone _ | .pendingWriteDone _ | .effectWriteDone _ =>
    fun a => a == .prices || a == .writes
  | .queueWriteDone => fun a => a == .prices
  | .journalAppendDone | .journalRemovalDone => fun a => a == .journal
  | .settingWriteDone _ | .branchSetWriteDone => fun a => a == .settings || a == .writes
  | .holdAssert | .holdExit | .resetLineAssert | .resetLineRelease | .powerOn | .powerLoss | .hostReset =>
    fun a => a == .resets || a == .writes
  | _ => fun _ => false

/-! ## Host requests -/

/-- A request that the request queue takes at once (R181, R182): the part runs, the tag is 1..255 and no waiting request's, the
queue holds fewer than 8, no RESET is being carried out (R194), and the payload fits its kind. -/
structure Admits (s : State) (h : HostHead) : Prop where
  running : s.running = true
  tagLow : 1 ≤ h.tag
  tagHigh : h.tag ≤ 255
  tagFree : tagInUse s h.tag = false
  room : s.hlk.requests.length < 8
  noReset : s.hlk.resetPhase = .none
  fits : h.fits = true

/-- The state in which an admitted request is decided: what every valid request does first has been done (R182), and the
request is in the queue. -/
def admitted (h : HostHead) (k : RequestKind) (s : State) : State := joinRequest h.tag k (beginRequest s)

/-- A reply to a queued request waits for the transmitter, or has gone out. -/
def Answered (t : State) (tag : Nat) (k : RequestKind) (r : Result) (b : ReplyBody) : Prop :=
  ({ tag := tag, kind := k, result := r, body := b, queued := true } : Reply) ∈ t.hlk.replies ∨
  Output.host (.reply { tag := tag, kind := k, result := r, body := b, queued := true }) ∈ t.out

/-- A command is answered with a next state in which a reply is given. -/
def Replies (c : Instr) (s : State) (tag : Nat) (k : RequestKind) (r : Result) (b : ReplyBody) : Prop :=
  ∃ t, exec c s = .next t ∧ Answered t tag k r b

/-- A command is answered with a next state in which a write to the NV store is under way. -/
def Starts (c : Instr) (s : State) (w : NvWrite) : Prop := ∃ t, exec c s = .next t ∧ w ∈ t.nv

/-- The tag and kind of a host request (11.3). -/
def hostRequest : Instr → Option (HostHead × RequestKind)
  | .itemAdd h _ _ _ => some (h, .itemAdd)
  | .itemRemove h _ => some (h, .itemRemove)
  | .itemGet h _ => some (h, .itemGet)
  | .priceSet h _ _ _ => some (h, .priceSet)
  | .changeStatus h => some (h, .changeStatus)
  | .labelBind h _ _ => some (h, .labelBind)
  | .labelUnbind h _ => some (h, .labelUnbind)
  | .labelRetry h _ => some (h, .labelRetry)
  | .labelGet h _ => some (h, .labelGet)
  | .burstNow h => some (h, .burstNow)
  | .healthClear h _ => some (h, .healthClear)
  | .radioStatus h => some (h, .radioStatus)
  | .tillStatus h => some (h, .tillStatus)
  | .authRelease h _ => some (h, .authRelease)
  | .authStatus h => some (h, .authStatus)
  | .journalRead h _ _ => some (h, .journalRead)
  | .journalInfo h => some (h, .journalInfo)
  | .uplinkStatus h => some (h, .uplinkStatus)
  | .nightRerun h => some (h, .nightRerun)
  | .transferStatus h => some (h, .transferStatus)
  | .guestEnd h _ => some (h, .guestEnd)
  | .guestList h _ => some (h, .guestList)
  | .timeSet h _ => some (h, .timeSet)
  | .openPrepare h => some (h, .openPrepare)
  | .openStore h => some (h, .openStore)
  | .closeStore h => some (h, .closeStore)
  | .storeStatus h => some (h, .storeStatus)
  | .settingSet h _ _ => some (h, .settingSet)
  | .settingGet h _ => some (h, .settingGet)
  | .lock h => some (h, .lock)
  | .identify h => some (h, .identify)
  | .branchSet h _ => some (h, .branchSet)
  | .status h => some (h, .status)
  | .reset h => some (h, .reset)
  | .forward h _ _ _ => some (h, .forward)
  | _ => none

/-- A reply given at once waits for the transmitter, or has gone out (R182). -/
def AnsweredNow (t : State) (tag : Nat) (k : RequestKind) (r : Result) : Prop :=
  ({ tag := tag, kind := k, result := r, body := .empty, queued := false } : Reply) ∈ t.hlk.replies ∨
  Output.host (.reply { tag := tag, kind := k, result := r, body := .empty, queued := false }) ∈ t.out

/-- A command is answered with a next state in which such a reply is given. -/
def RepliesNow (c : Instr) (s : State) (tag : Nat) (k : RequestKind) (r : Result) : Prop :=
  ∃ t, exec c s = .next t ∧ AnsweredNow t tag k r

/-! ## Events taken at once, and writes under way -/

/-- Nothing waits, and no write under way holds one of the keys: an event with these keys is taken at once (R6, R24, R188). -/
structure Ready (s : State) (ks : List Key) : Prop where
  none : s.waiting = []
  free : keysMeet ks (writeKeys s) = false

/-- What a completion names: the kind of the write, and its item, label or setting. -/
def NvWrite.target : NvWrite → Nat × Nat
  | .itemAdd _ e => (0, e.code)
  | .itemRemove _ i => (1, i)
  | .pending w => (2, w.item)
  | .effect i => (3, i)
  | .bind _ l _ => (4, l)
  | .unbind _ l _ => (5, l)
  | .retry _ l => (6, l)
  | .ack a _ => (7, a.label)
  | .unreachable l => (8, l)
  | .floor l _ => (9, l)
  | .setting id _ _ => (10, id)
  | .branch _ _ => (11, 0)

/-- A running part with a write under way, the first that its completion names; the others stand before and after it. -/
structure UnderWay (s : State) (w : NvWrite) (pre post : List NvWrite) : Prop where
  running : s.running = true
  split : s.nv = pre ++ w :: post
  first : ∀ x ∈ pre, NvWrite.target x ≠ NvWrite.target w

/-! ## Till requests -/

/-- The head and kind of a till request other than HELLO, one of a kind that names none included (11.4, R50, R196). -/
def tillRequestOf : Instr → Option (TillHead × TillKind)
  | .poll t => some (t, .poll)
  | .bye t => some (t, .bye)
  | .saleOpen t => some (t, .saleOpen)
  | .lineAdd t _ _ _ => some (t, .lineAdd)
  | .lineVoid t _ => some (t, .lineVoid)
  | .saleCancel t => some (t, .saleCancel)
  | .tenderCash t _ => some (t, .tenderCash)
  | .tenderCard t _ => some (t, .tenderCard)
  | .badFrame (.tillKind t k) => some (t, .other k)
  | _ => none

/-- A till request that passes R50's checks: the place is bound to the frame's address, is not ORPHANED and has no request in
progress; and its payload fits its kind (R196). -/
structure TillAdmits (s : State) (h : TillHead) : Prop where
  running : s.running = true
  number : h.till ≤ 15
  bound : (placeAt s h.till).state ≠ .free
  held : (placeAt s h.till).state ≠ .orphaned
  address : (placeAt s h.till).addr = some h.addr
  clear : (placeAt s h.till).busy = false
  fits : h.fits = true

/-- The place of a till request, with its last-frame time taken from the frame (R50). -/
def touched (s : State) (h : TillHead) : Place := { placeAt s h.till with lastFrame := s.timer }

/-- The part's answer to a till: the place is left as given and the frame goes out; a basket that is open after the closing
grace is then closed (R51, R68). -/
def tillAnswer (h : TillHead) (k : TillKind) (r : Result) (b : TillBody) (p : Place) (s : State) : State :=
  closeIfDue h.till (emit (.till h.till h.addr k r b) (putPlace h.till p s))

/-! ## Frames from head office -/

/-- The path of a frame from head office, other than an answer to HELLO (R126, R127). -/
def fromHeadOffice : Instr → Option Path
  | .probeReply p _ => some p
  | .credit p _ _ => some p
  | .authApproved p _ _ => some p
  | .authDeclined p _ _ => some p
  | .authBusy p _ => some p
  | .batchAckAccepted p _ _ _ => some p
  | .batchAckBusy p _ => some p
  | .piece p _ _ _ => some p
  | .noFile p _ => some p
  | .fileBusy p _ => some p
  | .officeReply p _ _ => some p
  | .guestReply p _ _ => some p
  | .priceChange p _ _ _ => some p
  | .settings p _ _ => some p
  | .headOfficeTimeSet p _ => some p
  | .nightControl p _ => some p
  | .unroutedUplinkFrame p _ => some p
  | _ => none

/-! ## Settings -/

/-- The group of a setting write: settings that a relation ties together are one group (log entry 12). -/
def settingWriteGroup : NvWrite → Option Nat
  | .setting id _ _ => some (settingGroup id)
  | _ => none

/-- The setting groups that have a write under way. -/
def settingGroups (l : List NvWrite) : List Nat := l.filterMap settingWriteGroup

/-- The settings keep their rules: every value in its range (chapters 2 to 10), the relations of R44 and R167, every window's
base at most its limit (R121); and every setting write under way would keep them too, no two of them within one group
(R188). -/
structure SettingsSound (s : State) : Prop where
  values : s.settings.vals.length = 60
  windows : s.settings.windows.length = 16
  inRange : ∀ n : SettingId, inSettingRange n (s.settings.num n) = true
  relations : relationsHold s.settings = true
  windowsFit : ∀ i, windowFits (s.settings.window i) = true
  writes : ∀ id x src, NvWrite.setting id x src ∈ s.nv →
    ∃ t, settingTarget id = some t ∧ settingTakes s.settings t x = true
  apart : (settingGroups s.nv).Nodup

/-! ## The journal -/

/-- The exposure and the UNSENT count are those of the records held (R98, R99); the sequence counter, and the number of a record that is
being written, are within the counter's range (R90). -/
structure JournalFigures (s : State) : Prop where
  exposure : s.sjr.exposure = exposureOf s.sjr.records
  unsent : s.sjr.unsent = unsentOf s.sjr.records
  counter : s.sjr.counter ≤ 4294967295
  writing : ∀ w, s.sjr.writing = some w → w.seq ≤ 4294967295

/-! ## The uplink -/

/-- A credit count's held and in-use credits make up its grant, which lies within its range (R115). -/
def CreditCount.sound (top : Nat) (c : CreditCount) : Prop := c.held + c.inUse = c.grant ∧ c.grant ≤ top

/-- The same of every class and of the shared pool (R115). -/
structure CreditsSound (c : Credits) : Prop where
  auth : CreditCount.sound 7 c.auth
  price : CreditCount.sound 7 c.price
  journal : CreditCount.sound 7 c.journal
  office : CreditCount.sound 7 c.office
  guest : CreditCount.sound 7 c.guest
  shared : CreditCount.sound 127 c.shared

/-- The same on both paths. -/
def CreditsWithinGrant (s : State) : Prop := ∀ p c, (s.ulc.path p).credits = some c → CreditsSound c

/-! ## Capacities -/

/-- The queues that hold at most what the manual gives them: requests (R182), notices (R184), the class queues but AUTH (R114), the
office wait list (R124) and the spent list (R160); the fixed numbers of slots, places, claims and sessions; and only the OFFICE
queue holds frames that want a reply. -/
structure Capacities (s : State) : Prop where
  requests : s.hlk.requests.length ≤ 8
  notices : s.hlk.notices.length ≤ 32
  price : s.ulc.priceQ.length ≤ 32
  journal : s.ulc.journalQ.length ≤ 32
  office : s.ulc.officeQ.length ≤ 32
  guest : s.ulc.guestQ.length ≤ 64
  waits : s.ulc.waits.length ≤ 32
  spent : s.gac.spent.length ≤ 256
  slots : s.pbk.slots.length = 32
  places : s.tsu.places.length = 16
  claims : s.sjr.claims.length = 16
  sessions : s.gac.sessions.length = 64
  replies : ∀ k f, f ∈ s.ulc.queue k → f.wantsReply = true → k = .office

/-! ## The price book and the label table -/

/-- The item entries stand in item-code order with one entry for a code (R1), the change queue holds one entry for an item and its
urgent part ahead of the rest (R10), and the label table one entry for a label, in label order (R24). -/
structure TablesKeyed (s : State) : Prop where
  items : (s.pbk.items.map (·.code)).Pairwise (· < ·)
  queue : (s.pbk.queue.map (·.item)).Nodup
  urgentFirst : s.pbk.queue.Pairwise fun a b => b.urgent = true → a.urgent = true
  labels : (s.lrs.labels.map (·.id)).Pairwise (· < ·)

end Sys2Proof.Safety
end

