-- ==== Sys2Proof/Certificates/Slice0/Obligations.lean ====
section
/-! DEFINITION. The statements for the provers. -/

open Sys2Proof Sys2Proof.Machine Sys2Proof.Safety

/-! ## The machine -/

/-- The command at the front of the queue is run on the queue's rest, and nothing is added to what it answers. -/
def Obligations.StepRunsTheFrontCommand : Prop :=
  ∀ (c : Instr) (s : State), step { s with pending := c :: s.pending } = exec c s

/-- On an empty queue a running part's timer goes on by one millisecond, the clock with it, the schedule events whose minutes the clock
begins fall due, and the timed events that have come due join the queue; a part stopped by the reset line alone keeps its clock, any
other stands still (model's choice, log entry 1). What has come due, for each timed row of the table, and that no other command joins:
an armed time that has come (R34, R46, R68, R77, R110, R137, R140, R146, R155, R185, R186), a window that closes (R32), a till silent for
the limit (R65), and the tick of a timeout class (R128). The end of a host frame's gap is in HostLinkEventsTaken, the host reset in
StopsAndResets, the day's events in DayEventsTaken. -/
def Obligations.EmptyQueueIsOneMillisecond : Prop :=
  (∀ s : State, s.pending = [] →
    (s.running = true → ∀ u, { advanceClock 1 (eventsFallDue 1 s) with timer := s.timer + 1 } = u →
      step s = .next { u with pending := dueCommands u }) ∧
    (s.day.clock = none → eventsFallDue 1 s = s) ∧
    (∀ c, s.day.clock = some c → eventsFallDue 1 s = { s with day := { s.day with
      dueEvents := s.day.dueEvents ++ countedEvents s.settings c ((s.day.clockMs + 1) / 1000) } }) ∧
    (s.running = false → clockCounts s = true → step s = .next (advanceClock 1 s)) ∧
    (s.running = false → clockCounts s = false → step s = .next s)) ∧
  (∀ s : State,
    (.settleEnd ∈ dueCommands s ↔ s.lrs.radio = .settling ∧ ∃ x, s.lrs.settleEnd = some x ∧ x ≤ s.timer) ∧
    (.ackWindowClose ∈ dueCommands s ↔ ∃ t x, s.lrs.inFlight = some t ∧ t.phase = .window x ∧ x ≤ s.timer) ∧
    (.beacon ∈ dueCommands s ↔ s.lrs.radio = .awake ∧ ∃ x, s.lrs.nextBeacon = some x ∧ x ≤ s.timer) ∧
    (.noticeResendExpiry ∈ dueCommands s ↔ ∃ x, s.hlk.ackWait = .waiting x ∧ x ≤ s.timer) ∧
    (.silenceExpiry ∈ dueCommands s ↔ ∃ x, s.hlk.silenceAt = some x ∧ x ≤ s.timer) ∧
    (∀ t, .tillSilenceExpiry t ∈ dueCommands s ↔ t ≤ 15 ∧ ((placeAt s t).state = .idle ∨ (placeAt s t).state = .basket ∨
      (placeAt s t).state = .authorizing) ∧ (placeAt s t).busy = false ∧
      (placeAt s t).lastFrame + 1000 * s.settings.nat .tillSilence ≤ s.timer) ∧
    (.closingGraceEnd ∈ dueCommands s ↔ ∃ x, s.tsu.grace = some x ∧ x ≤ s.timer) ∧
    (∀ t, .authRetryDelayEnd t ∈ dueCommands s ↔ ∃ e ∈ s.auz.entries, e.till = t ∧ e.state = .retryWait ∧
      ∃ x, e.retryEnd = some x ∧ x ≤ s.timer) ∧
    (∀ p, .probeDue p ∈ dueCommands s ↔ ∃ x, (s.ulc.path p).nextProbe = some x ∧ x ≤ s.timer) ∧
    (.batchRetryDelayEnd ∈ dueCommands s ↔ ∃ b x, s.txe.batch = some b ∧ b.retryEnd = some x ∧ x ≤ s.timer) ∧
    (.tricklePauseEnd ∈ dueCommands s ↔ ∃ x, s.txe.pauseEnd = some x ∧ x ≤ s.timer) ∧
    (.fileRetryDelayEnd ∈ dueCommands s ↔ ∃ f x, s.txe.file = some f ∧ f.retryEnd = some x ∧ x ≤ s.timer) ∧
    (∀ i, .guestTimeExpiry i ∈ dueCommands s ↔ i ≤ 63 ∧ ∃ e, sessionAt s i = some e ∧ e.endsAt ≤ s.timer) ∧
    (∀ c, .timeoutTick c ∈ dueCommands s ↔
      ∃ ms, periodMs s.settings c = some ms ∧ (s.ulc.ticks c).lastTick + ms ≤ s.timer) ∧
    (∀ c ∈ dueCommands s,
      c ∈ [Instr.settleEnd, .ackWindowClose, .beacon, .noticeResendExpiry, .silenceExpiry, .hostByteTimeout, .hostReset,
        .closingGraceEnd, .batchRetryDelayEnd, .tricklePauseEnd, .fileRetryDelayEnd, .quietDelayExpiry, .openLeadEvent,
        .openEvent, .closeEvent] ∨
      (∃ t, c = .tillSilenceExpiry t) ∨ (∃ t, c = .authRetryDelayEnd t) ∨ (∃ p, c = .probeDue p) ∨
      (∃ i, c = .guestTimeExpiry i) ∨ ∃ k, c = .timeoutTick k))

/-- The table gives no row any bits, so no word spells a command (log entry 35). -/
def Obligations.TableWordsSpellNoCommand : Prop :=
  ∀ (nbits w : Nat) (s : State), decodeTableWord nbits w = none ∧ s.withFetchWord nbits w = s

/-- Applying power to a part whose NV store has never been written comes to the reset state (R177, R178, R179). -/
def Obligations.PowerOnOfABlankPartIsReset : Prop :=
  exec .powerOn { State.reset with
    out := []
    day := { State.reset.day with powered := false, clock := none } } = .next State.reset

/-- Every command is answered with a next state, and leaves the queue of commands alone. -/
def Obligations.CommandsAnswerAndKeepTheQueue : Prop :=
  ∀ (c : Instr) (s : State), ∃ t, exec c s = .next t ∧ t.pending = s.pending

/-- What a command does not change: each area outside those that `areas` gives it. Of the label entries the failed attempts
are left out (their table keeps one entry for a label, in order), of the records the send states. -/
def Obligations.CommandsChangeOnlyTheirAreas : Prop :=
  ∀ (c : Instr) (s t : State), exec c s = .next t →
    (areas c .settings = false → areas c .resets = false → t.settings = s.settings ∧ t.identity = s.identity) ∧
    (areas c .prices = false → areas c .resets = false →
      t.pbk.items = s.pbk.items ∧ t.pbk.queue = s.pbk.queue ∧ t.pbk.counter = s.pbk.counter) ∧
    (areas c .labels = false → areas c .resets = false → TablesKeyed s →
      t.lrs.labels.map (fun l => { l with failed := 0 }) = s.lrs.labels.map fun l => { l with failed := 0 }) ∧
    (areas c .journal = false → areas c .resets = false →
      t.sjr.counter = s.sjr.counter ∧
      t.sjr.records.map (fun r => { r with sent := none }) = s.sjr.records.map fun r => { r with sent := none }) ∧
    (areas c .writes = false → areas c .resets = false → s.nv <+: t.nv) ∧
    (areas c .resets = false →
      t.day.powered = s.day.powered ∧ t.day.holdLine = s.day.holdLine ∧ t.day.resetLine = s.day.resetLine ∧
      t.day.stopped = s.day.stopped ∧ t.day.cause = s.day.cause)

/-- What follows a command (the waiting events, the writer, admission, the radio, transfer and the transmitters) leaves time, the
lines, the carriers and the durable content alone: of the label entries all but the failed attempts (their table keeps one entry for a
label, in order), of the journal's records all but the send states. Frames, writes and notices are only added. It goes in the model's
order: the events that waited, the journal's writer, admission, the radio, transfer with its paths, the QUIET test, the host
transmitter (model's choice, log entries 13 and 50). The events that wait for a write of their item, label or setting, or behind an
earlier event that does: such an event is left waiting, the first whose keys are free is taken by the state of that moment, and so on
until none is ready (R6, R24, R188; log entries 6 and 63). The radio: a REFRESH transmission is abandoned when priority work has arrived,
and so is its turn to decide its floor write (R40; log entry 39), a burst that waited begins when nothing is in flight (R41), and the next
transmission is chosen, when nothing is in flight, a burst runs and the radio is AWAKE (R35; RadioEventsTaken). Both paths' transmitters
take their next frame whenever they are idle (R118, R119; after every command: model's choice, log entry 70). -/
def Obligations.AfterEffectsKeepTheRest : Prop :=
  ∀ s : State,
    (finish s).pending = s.pending ∧ (finish s).timer = s.timer ∧ (finish s).settings = s.settings ∧
    (finish s).identity = s.identity ∧ (finish s).pbk.items = s.pbk.items ∧ (finish s).pbk.queue = s.pbk.queue ∧
    (finish s).pbk.counter = s.pbk.counter ∧ (finish s).sjr.counter = s.sjr.counter ∧
    (finish s).sjr.exposure = s.sjr.exposure ∧ (finish s).sjr.claims = s.sjr.claims ∧
    (TablesKeyed s → (finish s).lrs.labels.map (fun l => { l with failed := 0 }) =
      s.lrs.labels.map fun l => { l with failed := 0 }) ∧
    (finish s).sjr.records.map (fun r => { r with sent := none }) = s.sjr.records.map (fun r => { r with sent := none }) ∧
    (finish s).day.clock = s.day.clock ∧ (finish s).day.lines = s.day.lines ∧
    (finish s).ulc.carrierPrimary = s.ulc.carrierPrimary ∧ (finish s).ulc.carrierBackup = s.ulc.carrierBackup ∧
    (finish s).hlk.lock = s.hlk.lock ∧
    s.out <+: (finish s).out ∧ s.nv <+: (finish s).nv ∧ s.pbk.ops <+: (finish s).pbk.ops ∧
    s.hlk.notices <+: (finish s).hlk.notices ∧
    finish s = hostPump (react s) ∧ (s.running = false → react s = s) ∧
    (∀ u, s.running = true → drainAll (radioStep (tryAdmission (journalStep (drainAll s)))) = u →
      react s = testQuiet (settleBatch (pumpPaths (transferStep (pumpPaths (transferStep u)))))) ∧
    journalStep s = (List.range (s.sjr.queue.length + 16)).foldl (fun x _ => takeAppend x) s ∧
    (∀ u, (List.range 64).foldl (fun x _ => offerMember x) (formNext (resumeBatch s)) = u → batchStep s = settleBatch u) ∧
    transferStep s = offerFileRequest (settleAbort (feedAll (batchStep (batchStep (settleAbort s))))) ∧
    (feedAll s = match s.txe.file with
      | some f => (List.range (f.feed.length + 1)).foldl (fun x _ => feedOne x) s
      | none => s) ∧
    ((∀ a b : List Key, keysMeet a b = true ↔ ∃ k ∈ a, k ∈ b) ∧
      (∀ k, k ∈ writeKeys s ↔ (∃ w ∈ s.nv, k ∈ w.keys) ∨ ∃ o ∈ s.pbk.ops, k = .item o.item) ∧
      drainAll s = (List.range s.waiting.length).foldl (fun x _ => takeReady x) s ∧
      ((∀ a w b, s.waiting = a ++ w :: b → keysMeet (w.keys s) (writeKeys s ++ a.flatMap (Work.keys s)) = true) →
        drainAll s = s) ∧
      (∀ pre w post, s.waiting = pre ++ w :: post →
        (∀ a x b, pre = a ++ x :: b → keysMeet (x.keys s) (writeKeys s ++ a.flatMap (Work.keys s)) = true) →
        keysMeet (w.keys s) (writeKeys s ++ pre.flatMap (Work.keys s)) = false →
        takeReady s = takeWork w { s with waiting := pre ++ post })) ∧
    (radioStep s = chooseNext (startWaitingBurst (abandonForPriority s)) ∧
      (∀ t, s.lrs.inFlight = some t → t.kind = .refresh →
        (priorityChoice s ((s.lrs.burst.map (·.attempted)).getD [])).isSome → abandonForPriority s =
          { s with
            waiting := s.waiting.filter fun w => match w with | .floor _ => false | _ => true
            lrs := { s.lrs with inFlight := none } }) ∧
      ((∀ t, s.lrs.inFlight = some t → t.kind = .priority ∨
          priorityChoice s ((s.lrs.burst.map (·.attempted)).getD []) = none) → abandonForPriority s = s) ∧
      (∀ n, s.lrs.inFlight = none → s.lrs.waitingBurst = some n → startWaitingBurst s =
        { s with lrs := { s.lrs with
            burst := some { length := n, made := 0, attempted := [] }, waitingBurst := none } }) ∧
      (s.lrs.inFlight.isSome ∨ s.lrs.waitingBurst = none → startWaitingBurst s = s) ∧
      (s.lrs.inFlight.isSome ∨ s.lrs.burst = none ∨ s.lrs.radio ≠ .awake → chooseNext s = s)) ∧
    pumpPaths s = pump .backup (pump .primary s)

/-- A part that does not run (no power, HOLD, or the reset line) is not changed by any command, but for the stop lines and power,
the host reset, and what the building and the modems do outside it. -/
def Obligations.StoppedPartTakesNothing : Prop :=
  ∀ (c : Instr) (s : State), s.running = false → areas c .resets = false →
    (∀ l v, c ≠ .siteLineChange l v) → (∀ p, c ≠ .carrierPresent p) → (∀ p, c ≠ .carrierAbsent p) →
    exec c s = .next s

/-- Every reset kind keeps the NV store's content: settings, identity, entries, change queue, change number counter, sequence
counter, records (UNSENT after it, R98) and label entries (failed attempts 0 and health flags clear, R24). -/
def Obligations.ResetsKeepTheNvStore : Prop :=
  ∀ (k : ResetCause) (s : State), TablesKeyed s →
    (startUp k s).settings = s.settings ∧ (startUp k s).identity = s.identity ∧
    (startUp k s).pbk.items = s.pbk.items ∧ (startUp k s).pbk.queue = s.pbk.queue ∧
    (startUp k s).pbk.counter = s.pbk.counter ∧ (startUp k s).sjr.counter = s.sjr.counter ∧
    (startUp k s).sjr.records = s.sjr.records.map (fun r => { r with sent := none }) ∧
    (startUp k s).lrs.labels =
      (s.lrs.labels.map fun l => { l with failed := 0, health := false }).filter fun l => l != blankLabel l.id

/-- The lock flag is clear after every reset, LOCK sets it, and only a reset (a stop or a power command with it) leaves it clear
again; while it is set, SETTING SET of a lockable setting is refused with LOCKED, and any other is taken as without it
(R188, R189). -/
def Obligations.LockHoldsUntilAReset : Prop :=
  (∀ (c : Instr) (s t : State), s.hlk.lock = true → exec c s = .next t → t.hlk.lock = false → areas c .resets = true) ∧
  (∀ (k : ResetCause) (s : State), (startUp k s).hlk.lock = false) ∧
  (∀ (h : HostHead) (s : State), Admits s h →
    ∃ t, exec (.lock h) s = .next t ∧ Answered t h.tag .lock .ok .empty ∧ t.hlk.lock = true) ∧
  (∀ (h : HostHead) (id : Nat) (v : SettingValue) (x : SettingTarget) (s : State), Admits s h → Ready s [settingKey id] →
    settingTarget id = some x →
    (lockable x = true → s.hlk.lock = true → Replies (.settingSet h id v) s h.tag .settingSet .locked .empty) ∧
    (lockable x = false →
      (settingTakes s.settings x v = false → Replies (.settingSet h id v) s h.tag .settingSet .range .empty) ∧
      (settingTakes s.settings x v = true → heldValue s.settings x = v →
        Replies (.settingSet h id v) s h.tag .settingSet .ok .empty) ∧
      (settingTakes s.settings x v = true → heldValue s.settings x ≠ v →
        Starts (.settingSet h id v) s (.setting id v (.host h.tag))))) ∧
  (∀ x : SettingTarget, lockable x = true ↔
    (∃ i, x = .window i) ∨
    x ∈ ([.floorLimit, .exposureLimit, .fallbackMode, .routeTable, .backupAuth, .backupPrice, .backupJournal, .backupOffice,
      .backupGuest, .guestEnable, .authShed, .sessionLimit, .quota, .rate, .depth] : List SettingId).map SettingTarget.num)

/-! ## Invariants -/

/-- The settings keep their rules and every setting write under way keeps them, through every step (R44, R121, R167, R188). -/
def Obligations.SettingsStaySound : Prop :=
  ∀ s t : State, SettingsSound s → step s = .next t → SettingsSound t

/-- The exposure and the UNSENT count stay those of the records held (R98, R99), and the sequence counter and the number of a record
that is being written stay within 0..4,294,967,295 (R90). -/
def Obligations.JournalFiguresStayExact : Prop :=
  ∀ s t : State, JournalFigures s → step s = .next t → JournalFigures t

/-- On both paths every class's held and in-use credits stay its grant (R115, R116, R117). -/
def Obligations.CreditsStayWithinTheirGrants : Prop :=
  ∀ s t : State, CreditsWithinGrant s → step s = .next t → CreditsWithinGrant t

/-- The request queue, the notice queue, the PRICE, JOURNAL, OFFICE and GUEST queues, the office wait list and the spent list stay
within what the manual gives them; the change slots, the till places, the claims and the guest sessions stay as many as they
are; and only the OFFICE queue holds frames that want a reply. -/
def Obligations.CapacitiesAreKept : Prop :=
  ∀ s t : State, Capacities s → step s = .next t → Capacities t

/-- The item entries, the change queue and the label table keep one entry for a key; the entries stand in item-code order and the
labels in label order; and the change queue keeps its urgent part ahead of every non-urgent entry (R1, R10, R24). -/
def Obligations.TablesStayKeyed : Prop :=
  ∀ s t : State, TablesKeyed s → step s = .next t → TablesKeyed t

/-- The machine right after reset meets every invariant. -/
def Obligations.ResetMeetsTheInvariants : Prop :=
  SettingsSound State.reset ∧ JournalFigures State.reset ∧ CreditsWithinGrant State.reset ∧ Capacities State.reset ∧
  TablesKeyed State.reset

/-! ## Host requests -/

/-- How every request is turned away before its owner sees it (R181, R182): no tag of a request is a frame error; a tag in use,
a full queue and a payload that does not fit are answered TAG_IN_USE, BUSY and RANGE. -/
def Obligations.RequestsTurnedAway : Prop :=
  ∀ (c : Instr) (h : HostHead) (k : RequestKind) (s : State), hostRequest c = some (h, k) → s.running = true →
    (h.tag = 0 ∨ 255 < h.tag →
      exec c s = .next (finish (frameError s)) ∨ exec c s = .next (hostPump (frameError s))) ∧
    (1 ≤ h.tag → h.tag ≤ 255 → tagInUse s h.tag = true → RepliesNow c s h.tag k .tagInUse) ∧
    (1 ≤ h.tag → h.tag ≤ 255 → tagInUse s h.tag = false → 8 ≤ s.hlk.requests.length → RepliesNow c s h.tag k .busy) ∧
    (1 ≤ h.tag → h.tag ≤ 255 → tagInUse s h.tag = false → s.hlk.requests.length < 8 → s.hlk.resetPhase = .none →
      h.fits = false → Replies c s h.tag k .range .empty)

/-- The requests answered from state alone carry the report of their block as it stands when the request is decided (R21, R48,
R71, R86, R104, R132, R150, R180, R191, R193). Units, order and optional fields of the reports where the manual leaves them open are the
model's (log entries 31, 45, 46, 54 and 61). -/
def Obligations.StatusRequestsAnswered : Prop :=
  ∀ (h : HostHead) (s : State), Admits s h →
    Replies (.changeStatus h) s h.tag .changeStatus .ok (.changes (changeReport (admitted h .changeStatus s))) ∧
    Replies (.radioStatus h) s h.tag .radioStatus .ok (.radio (radioReport (admitted h .radioStatus s))) ∧
    Replies (.tillStatus h) s h.tag .tillStatus .ok
      (.tills (s.tsu.places.map (placeReport s)) (graceLeft s) s.tsu.errors) ∧
    Replies (.authStatus h) s h.tag .authStatus .ok (.auths (authStatusReport s)) ∧
    Replies (.journalInfo h) s h.tag .journalInfo .ok (.journal (journalReport (admitted h .journalInfo s))) ∧
    Replies (.uplinkStatus h) s h.tag .uplinkStatus .ok (.uplink (uplinkReport (admitted h .uplinkStatus s))) ∧
    Replies (.transferStatus h) s h.tag .transferStatus .ok (.transfer (transferReport (admitted h .transferStatus s))) ∧
    Replies (.storeStatus h) s h.tag .storeStatus .ok (.store (storeReport (admitted h .storeStatus s))) ∧
    Replies (.identify h) s h.tag .identify .ok
      (.identity s.identity.vendor s.identity.part s.identity.revision s.identity.serial (s.identity.branch.getD 0)) ∧
    Replies (.status h) s h.tag .status .ok (.link (linkReport (admitted h .status s)))

/-- LABEL GET, JOURNAL READ, GUEST LIST and SETTING GET: RANGE outside their ranges, else the report (R28, R103, R162, R188). How many
entries one GUEST LIST reply carries follows from the model's sizes of its fields (model's choice, log entry 21), and LABEL GET shows 0
for a transmission that has no number yet (model's choice, log entry 38). -/
def Obligations.ReadingRequestsAnswered : Prop :=
  ∀ (h : HostHead) (s : State), Admits s h →
    (∀ label, 4095 < label → Replies (.labelGet h label) s h.tag .labelGet .range .empty) ∧
    (∀ label, label ≤ 4095 → Replies (.labelGet h label) s h.tag .labelGet .ok
      (.label (labelReport (admitted h .labelGet s) label))) ∧
    (∀ fromSeq count, fromSeq = 0 ∨ count < 1 ∨ 8 < count →
      Replies (.journalRead h fromSeq count) s h.tag .journalRead .range .empty) ∧
    (∀ fromSeq count, 1 ≤ fromSeq → 1 ≤ count → count ≤ 8 →
      Replies (.journalRead h fromSeq count) s h.tag .journalRead .ok
        (.records ((readRecords (admitted h .journalRead s).sjr fromSeq count).map maskRecord)
          (readNext (admitted h .journalRead s).sjr fromSeq count) (admitted h .journalRead s).sjr.newest)) ∧
    (∀ start, 63 < start → Replies (.guestList h start) s h.tag .guestList .range .empty) ∧
    (∀ start, start ≤ 63 → Replies (.guestList h start) s h.tag .guestList .ok
      (.guests (guestReport (admitted h .guestList s) start))) ∧
    (∀ id, settingTarget id = none → Replies (.settingGet h id) s h.tag .settingGet .range .empty) ∧
    (∀ id x, settingTarget id = some x → Replies (.settingGet h id) s h.tag .settingGet .ok
      (.setting id (heldValue s.settings x) (lockable x) s.hlk.lock))

/-- ITEM GET, when nothing holds the item: RANGE for a code outside 1..4,294,967,295 (R196; log entry 24), UNKNOWN_ITEM with
neither an entry nor a waiting add, else the report (R4), whose queue position counts from 0 (model's choice, log entry 37). Whatever
holds the item, the request joins the events that wait, and is taken as AfterEffectsKeepTheRest says (R6). -/
def Obligations.ItemGetDecided : Prop :=
  ∀ (h : HostHead) (item : Nat) (s : State), Admits s h →
    exec (.itemGet h item) s = .next (finish (queueWork (.itemGet h.tag item) (admitted h .itemGet s))) ∧
    (Ready s [.item item] →
      (item = 0 ∨ 4294967295 < item → Replies (.itemGet h item) s h.tag .itemGet .range .empty) ∧
      (1 ≤ item → item ≤ 4294967295 → (findItem s item).isSome ∨ addWaits s item = true →
        Replies (.itemGet h item) s h.tag .itemGet .ok (.item (itemReport s item))) ∧
      (1 ≤ item → item ≤ 4294967295 → (findItem s item).isNone → addWaits s item = false →
        Replies (.itemGet h item) s h.tag .itemGet .unknownItem .empty)) ∧
    ∀ v : State,
      (item = 0 ∨ 4294967295 < item → takeWork (.itemGet h.tag item) v = reply h.tag .itemGet .range .empty v) ∧
      (1 ≤ item → item ≤ 4294967295 →
        ((findItem v item).isSome ∨ addWaits v item = true →
          takeWork (.itemGet h.tag item) v = reply h.tag .itemGet .ok (.item (itemReport v item)) v) ∧
        (findItem v item = none → addWaits v item = false →
          takeWork (.itemGet h.tag item) v = reply h.tag .itemGet .unknownItem .empty v))

/-- ITEM ADD: the first result of R2's table that applies; an accepted one starts the write of the new entry. The book's load counts
the creations under way with the entries and the waiting adds (model's reading, log entry 11). Whatever holds the item, the request
joins the events that wait, and is judged by the state of the moment it is taken (R6). -/
def Obligations.ItemAddDecided : Prop :=
  ∀ (h : HostHead) (item price : Nat) (openPrice : Bool) (s : State), Admits s h →
    exec (.itemAdd h item price openPrice) s =
      .next (finish (queueWork (.itemAdd h.tag item price openPrice) (admitted h .itemAdd s))) ∧
    (Ready s [.item item] →
      (item = 0 ∨ 4294967295 < item ∨ 9999999 < price →
        Replies (.itemAdd h item price openPrice) s h.tag .itemAdd .range .empty) ∧
      (1 ≤ item → item ≤ 4294967295 → price ≤ 9999999 →
        ((findItem s item).isSome ∨ addWaits s item = true →
          Replies (.itemAdd h item price openPrice) s h.tag .itemAdd .exists_ .empty) ∧
        ((findItem s item).isNone → addWaits s item = false → 8192 ≤ bookLoad s →
          Replies (.itemAdd h item price openPrice) s h.tag .itemAdd .bookFull .empty) ∧
        ((findItem s item).isNone → addWaits s item = false → bookLoad s < 8192 →
          Starts (.itemAdd h item price openPrice) s
            (.itemAdd h.tag { code := item, price := price, openPrice := openPrice, pending := none, bound := 0 })))) ∧
    ∀ v r : State, takeWork (.itemAdd h.tag item price openPrice) v = r →
      (item = 0 ∨ 4294967295 < item ∨ 9999999 < price → r = reply h.tag .itemAdd .range .empty v) ∧
      (1 ≤ item → item ≤ 4294967295 → price ≤ 9999999 →
        ((findItem v item).isSome ∨ addWaits v item = true → r = reply h.tag .itemAdd .exists_ .empty v) ∧
        (findItem v item = none → addWaits v item = false → 8192 ≤ bookLoad v →
          r = reply h.tag .itemAdd .bookFull .empty v) ∧
        (findItem v item = none → addWaits v item = false → bookLoad v < 8192 → writesStopped v = false →
          r = { v with nv := v.nv ++ [.itemAdd h.tag
            { code := item, price := price, openPrice := openPrice, pending := none, bound := 0 }] }))

/-- ITEM REMOVE: RANGE for a code outside 1..4,294,967,295 (R196; log entry 24), else the first result of R3's table that applies;
an accepted one starts the removal of the entry. Whatever holds the item, the request joins the events that wait, and is judged by the
state of the moment it is taken (R6). -/
def Obligations.ItemRemoveDecided : Prop :=
  ∀ (h : HostHead) (item : Nat) (s : State), Admits s h →
    exec (.itemRemove h item) s = .next (finish (queueWork (.itemRemove h.tag item) (admitted h .itemRemove s))) ∧
    (Ready s [.item item] →
      (item = 0 ∨ 4294967295 < item → Replies (.itemRemove h item) s h.tag .itemRemove .range .empty) ∧
      (1 ≤ item → item ≤ 4294967295 → findItem s item = none →
        Replies (.itemRemove h item) s h.tag .itemRemove .unknownItem .empty) ∧
      (∀ e, 1 ≤ item → item ≤ 4294967295 → findItem s item = some e →
        (e.pending.isSome → Replies (.itemRemove h item) s h.tag .itemRemove .pending .empty) ∧
        (e.pending = none → 0 < e.bound → Replies (.itemRemove h item) s h.tag .itemRemove .bound .empty) ∧
        (e.pending = none → e.bound = 0 → Starts (.itemRemove h item) s (.itemRemove h.tag item)))) ∧
    ∀ v r : State, takeWork (.itemRemove h.tag item) v = r →
      (item = 0 ∨ 4294967295 < item → r = reply h.tag .itemRemove .range .empty v) ∧
      (1 ≤ item → item ≤ 4294967295 → findItem v item = none → r = reply h.tag .itemRemove .unknownItem .empty v) ∧
      (∀ e, 1 ≤ item → item ≤ 4294967295 → findItem v item = some e →
        (e.pending.isSome → r = reply h.tag .itemRemove .pending .empty v) ∧
        (e.pending = none → 0 < e.bound → r = reply h.tag .itemRemove .bound .empty v) ∧
        (e.pending = none → e.bound = 0 → writesStopped v = false →
          r = { v with nv := v.nv ++ [.itemRemove h.tag item] }))

/-- PRICE SET: refused by R7; an urgent one revises the item's slot or is issued into a FREE one; any other joins the change
queue, unless that is full (R7, R8, R9). The number of an issue or a revision is given as its write starts (log entry 7), and the
queue's count takes in the joins under way (log entry 11). Whatever holds the item, the request joins the events that wait, and is taken
as PriceWritesDone says (`takeChange`), by the state of that moment (R6). -/
def Obligations.PriceSetDecided : Prop :=
  ∀ (h : HostHead) (item price : Nat) (urgent : Bool) (s : State) (c : Change), Admits s h →
    ({ item := item, price := price, origin := .hostRequest, urgent := urgent, add := false
       source := .host h.tag } : Change) = c →
    exec (.priceSet h item price urgent) s = .next (finish (queueWork (.change c) (admitted h .priceSet s))) ∧
    (∀ v : State, takeWork (.change c) v = takeChange c v) ∧
    (Ready s [.item item] →
      (item = 0 ∨ 9999999 < price → Replies (.priceSet h item price urgent) s h.tag .priceSet .range .empty) ∧
      (1 ≤ item → price ≤ 9999999 → (findItem s item).isNone → addWaits s item = false →
        Replies (.priceSet h item price urgent) s h.tag .priceSet .unknownItem .empty) ∧
      (1 ≤ item → price ≤ 9999999 → (findItem s item).isSome ∨ addWaits s item = true →
        (urgent = true → (slotOf s item).isSome →
          Starts (.priceSet h item price urgent) s (.pending
            { item := item, price := price, origin := .hostRequest, urgent := true, create := false, revise := true,
              number := nextChange s, source := .host h.tag })) ∧
        (urgent = true → slotOf s item = none → addWaits s item = false → (freeSlot s).isSome →
          Starts (.priceSet h item price urgent) s (.pending
            { item := item, price := price, origin := .hostRequest, urgent := true, create := false, revise := false,
              number := nextChange s, source := .host h.tag })) ∧
        (urgent = false ∨ slotOf s item = none ∧ (addWaits s item = true ∨ freeSlot s = none) →
          ((queueEntryOf s item).isSome ∨ queueCount s < 8192 →
            ∃ t, exec (.priceSet h item price urgent) s = .next t ∧
              ({ action := .upsert { item := item, price := price, origin := .hostRequest, add := false, urgent := urgent }
                 answer := .queued (.host h.tag) } : QueueOp) ∈ t.pbk.ops) ∧
          (queueEntryOf s item = none → 8192 ≤ queueCount s →
            Replies (.priceSet h item price urgent) s h.tag .priceSet .full .empty))))

/-- LABEL BIND, LABEL UNBIND and LABEL RETRY: the first result of their rules that applies; an accepted one starts its write
(R25, R26, R27). Whatever write of the label or the item is under way, the request joins the events that wait, and is judged by the state
of the moment it is taken (R24). -/
def Obligations.LabelRequestsDecided : Prop :=
  ∀ (h : HostHead) (label item : Nat) (s : State), Admits s h →
    exec (.labelBind h label item) s = .next (finish (queueWork (.bind h.tag label item) (admitted h .labelBind s))) ∧
    exec (.labelUnbind h label) s = .next (finish (queueWork (.unbind h.tag label) (admitted h .labelUnbind s))) ∧
    exec (.labelRetry h label) s = .next (finish (queueWork (.retry h.tag label) (admitted h .labelRetry s))) ∧
    (∀ v r : State, takeWork (.bind h.tag label item) v = r →
      (4095 < label ∨ item = 0 → r = reply h.tag .labelBind .range .empty v) ∧
      (label ≤ 4095 → 1 ≤ item →
        ((v.label label).state ≠ .unbound → r = reply h.tag .labelBind .bound .empty v) ∧
        ((v.label label).state = .unbound → findItem v item = none →
          r = reply h.tag .labelBind .unknownItem .empty v) ∧
        ((v.label label).state = .unbound → (findItem v item).isSome → writesStopped v = false →
          r = { v with nv := v.nv ++ [.bind h.tag label item] }))) ∧
    (∀ v r : State, takeWork (.unbind h.tag label) v = r →
      (4095 < label → r = reply h.tag .labelUnbind .range .empty v) ∧
      (label ≤ 4095 → (v.label label).item = none → r = reply h.tag .labelUnbind .state .empty v) ∧
      (∀ i, label ≤ 4095 → (v.label label).item = some i → writesStopped v = false →
        r = { v with
          nv := v.nv ++ [.unbind h.tag label i]
          lrs := { v.lrs with
            inFlight := v.lrs.inFlight.map fun t => if t.label = label then { t with unboundMark := true } else t } })) ∧
    (∀ v r : State, takeWork (.retry h.tag label) v = r →
      (4095 < label → r = reply h.tag .labelRetry .range .empty v) ∧
      (label ≤ 4095 → (v.label label).state ≠ .unreachable → r = reply h.tag .labelRetry .state .empty v) ∧
      (label ≤ 4095 → (v.label label).state = .unreachable → writesStopped v = false →
        r = { v with nv := v.nv ++ [.retry h.tag label] })) ∧
    (Ready s [.label label, .item item] →
      (4095 < label ∨ item = 0 → Replies (.labelBind h label item) s h.tag .labelBind .range .empty) ∧
      (label ≤ 4095 → 1 ≤ item →
        ((s.label label).state ≠ .unbound → Replies (.labelBind h label item) s h.tag .labelBind .bound .empty) ∧
        ((s.label label).state = .unbound → (findItem s item).isNone →
          Replies (.labelBind h label item) s h.tag .labelBind .unknownItem .empty) ∧
        ((s.label label).state = .unbound → (findItem s item).isSome →
          Starts (.labelBind h label item) s (.bind h.tag label item)))) ∧
    (Ready s ((Work.unbind h.tag label).keys s) →
      (4095 < label → Replies (.labelUnbind h label) s h.tag .labelUnbind .range .empty) ∧
      (label ≤ 4095 → (s.label label).item = none →
        Replies (.labelUnbind h label) s h.tag .labelUnbind .state .empty) ∧
      (label ≤ 4095 → (s.label label).item = some item →
        Starts (.labelUnbind h label) s (.unbind h.tag label item))) ∧
    (Ready s [.label label] →
      (4095 < label → Replies (.labelRetry h label) s h.tag .labelRetry .range .empty) ∧
      (label ≤ 4095 → (s.label label).state ≠ .unreachable →
        Replies (.labelRetry h label) s h.tag .labelRetry .state .empty) ∧
      (label ≤ 4095 → (s.label label).state = .unreachable → Starts (.labelRetry h label) s (.retry h.tag label)))

/-- SETTING SET: RANGE for an unknown id or a value out of range or against a relation, LOCKED for a lockable setting under the
lock, OK for the value held, else its write starts (R188, R189). Whatever write of the setting is under way, the request joins the
events that wait, and is judged by the state of the moment it is taken, the lock with it (model's choice, log entry 63). -/
def Obligations.SettingSetDecided : Prop :=
  ∀ (h : HostHead) (id : Nat) (v : SettingValue) (s : State), Admits s h →
    exec (.settingSet h id v) s = .next (finish (queueWork (.setting id v (.host h.tag)) (admitted h .settingSet s))) ∧
    (Ready s [settingKey id] →
      (settingTarget id = none → Replies (.settingSet h id v) s h.tag .settingSet .range .empty) ∧
      (∀ x, settingTarget id = some x →
        (lockable x = true → s.hlk.lock = true → Replies (.settingSet h id v) s h.tag .settingSet .locked .empty) ∧
        (lockable x = false ∨ s.hlk.lock = false →
          (settingTakes s.settings x v = false → Replies (.settingSet h id v) s h.tag .settingSet .range .empty) ∧
          (settingTakes s.settings x v = true → heldValue s.settings x = v →
            Replies (.settingSet h id v) s h.tag .settingSet .ok .empty) ∧
          (settingTakes s.settings x v = true → heldValue s.settings x ≠ v →
            Starts (.settingSet h id v) s (.setting id v (.host h.tag)))))) ∧
    ∀ u r : State, takeWork (.setting id v (.host h.tag)) u = r →
      (settingTarget id = none → r = reply h.tag .settingSet .range .empty u) ∧
      (∀ x, settingTarget id = some x →
        (lockable x = true → u.hlk.lock = true → r = reply h.tag .settingSet .locked .empty u) ∧
        (lockable x = false ∨ u.hlk.lock = false →
          (settingTakes u.settings x v = false → r = reply h.tag .settingSet .range .empty u) ∧
          (settingTakes u.settings x v = true → heldValue u.settings x = v →
            r = reply h.tag .settingSet .ok .empty u) ∧
          (settingTakes u.settings x v = true → heldValue u.settings x ≠ v → writesStopped u = false →
            r = { u with nv := u.nv ++ [.setting id v (.host h.tag)] })))

/-- BRANCH SET: RANGE outside 1..65,535, ALREADY_SET once a number is set or its write under way, else its write starts
(R191). -/
def Obligations.BranchSetDecided : Prop :=
  ∀ (h : HostHead) (number : Nat) (s : State), Admits s h →
    (number = 0 ∨ 65535 < number → Replies (.branchSet h number) s h.tag .branchSet .range .empty) ∧
    (1 ≤ number → number ≤ 65535 → branchTaken s = true →
      Replies (.branchSet h number) s h.tag .branchSet .alreadySet .empty) ∧
    (1 ≤ number → number ≤ 65535 → branchTaken s = false →
      Starts (.branchSet h number) s (.branch h.tag number))

/-- BURST NOW: RADIO_ASLEEP unless the radio is AWAKE, BUSY while a burst runs or waits, else OK with a beacon sent (R42). -/
def Obligations.BurstNowDecided : Prop :=
  ∀ (h : HostHead) (s : State), Admits s h →
    (s.day.power = .quiet ∨ s.lrs.radio ≠ .awake → Replies (.burstNow h) s h.tag .burstNow .radioAsleep .empty) ∧
    (s.day.power ≠ .quiet → s.lrs.radio = .awake → s.lrs.burst.isSome ∨ s.lrs.waitingBurst.isSome →
      Replies (.burstNow h) s h.tag .burstNow .busy .empty) ∧
    (s.day.power ≠ .quiet → s.lrs.radio = .awake → s.lrs.burst = none → s.lrs.waitingBurst = none →
      ∃ t, exec (.burstNow h) s = .next t ∧ Answered t h.tag .burstNow .ok .empty ∧ s.out ++ [.beacon] <+: t.out)

/-- HEALTH CLEAR of one label is answered OK with its flag clear and every other label's as it was; of all, OK with every flag
clear; RANGE for a label above 4,095 (R44). It acts at once, also while the label's entry is being written (model's choice, log entry
52). -/
def Obligations.HealthClearDecided : Prop :=
  ∀ (h : HostHead) (s : State), Admits s h → TablesKeyed s →
    (∀ label, 4095 < label → Replies (.healthClear h (some label)) s h.tag .healthClear .range .empty) ∧
    (∀ label, label ≤ 4095 → ∃ t, exec (.healthClear h (some label)) s = .next t ∧
      Answered t h.tag .healthClear .ok .empty ∧ (t.label label).health = false ∧
      ∀ k, k ≠ label → (t.label k).health = (s.label k).health) ∧
    (∃ t, exec (.healthClear h none) s = .next t ∧ Answered t h.tag .healthClear .ok .empty ∧
      ∀ l ∈ t.lrs.labels, l.health = false)

/-- AUTH RELEASE: RANGE above 15, STATE without an undecided entry, else the entry goes to fallback and the reply is OK with its outcome
(R80, R85). What fallback does:
the exposure limit mark, set with an AUTH LIMIT notice by a decline of the exposure check and cleared by an approval (R83), and so ahead
of the GUEST STATE that the withdrawn frame brings (model's choice, log entry 43); the entry DECIDED, its frame withdrawn from the AUTH queue, the outcome counted (R80, R81); and the report to TSU: an approval asks for the SALE
record (R63, R66), a decline releases the second claimed place, returns an AUTHORIZING place to BASKET with its last result, removes
the entry and sends DECLINED (R64), or asks for the DECLINED_LOST record of an ORPHANED place (R66). -/
def Obligations.AuthReleaseDecided : Prop :=
  ∀ (h : HostHead) (till : Nat) (s : State), Admits s h →
    (15 < till → Replies (.authRelease h till) s h.tag .authRelease .range .empty) ∧
    (till ≤ 15 → entryOf s till = none → Replies (.authRelease h till) s h.tag .authRelease .state .empty) ∧
    (∀ e, till ≤ 15 → entryOf s till = some e →
      (e.state = .decided → Replies (.authRelease h till) s h.tag .authRelease .state .empty) ∧
      (e.state ≠ .decided → exec (.authRelease h till) s = .next (finish
        (reply h.tag .authRelease .ok (.released (fallbackDecision s e.amount).1)
          (fallback e (admitted h .authRelease s)))))) ∧
    (∀ (e : AuthEntry) (v : State) (o : AuthOutcome) (byExposure : Bool), fallbackDecision v e.amount = (o, byExposure) →
      fallback e v = reportOutcome e.till o (decideEntry e o (markExposure e.amount o byExposure v)) ∧
      (byExposure = true ↔ v.settings.num .fallbackMode ≠ 0 ∧ (e.amount : Int) ≤ v.settings.num .floorLimit ∧
        v.settings.num .exposureLimit < v.sjr.exposure + v.auz.commitment + e.amount)) ∧
    (∀ (amount : Nat) (o : AuthOutcome) (byExposure : Bool) (v : State),
      (o = .approvedOffline → markExposure amount o byExposure v = { v with auz := { v.auz with mark := false } }) ∧
      (o ≠ .approvedOffline → byExposure = false ∨ v.auz.mark = true → markExposure amount o byExposure v = v) ∧
      (o ≠ .approvedOffline → byExposure = true → v.auz.mark = false → markExposure amount o byExposure v =
        notify (.authLimit v.sjr.exposure v.auz.commitment amount (v.settings.num .exposureLimit))
          { v with auz := { v.auz with mark := true } })) ∧
    (∀ (e : AuthEntry) (o : AuthOutcome) (v u w : State),
      { v with auz := { v.auz with entries := v.auz.entries.map fun x =>
          if x.till = e.till then { e with state := .decided, outcome := some o, expiry := none, retryEnd := none }
          else x } } = u →
      (if v.ulc.authQ.any (fun f => f.hasTrace e.trace) = true then
        guestDecide { u with ulc := { u.ulc with authQ := u.ulc.authQ.filter fun f => !f.hasTrace e.trace } } else u) = w →
      (∀ code, o = .approvedOnline code →
        decideEntry e o v = { w with auz := { w.auz with online := satAdd 4294967295 w.auz.online 1 } }) ∧
      (o = .approvedOffline →
        decideEntry e o v = { w with auz := { w.auz with offline := satAdd 4294967295 w.auz.offline 1 } }) ∧
      (o = .declined .unavailable →
        decideEntry e o v = { w with auz := { w.auz with fallbackDeclines := satAdd 4294967295 w.auz.fallbackDeclines 1 } }) ∧
      (∀ reason, o = .declined (.headOffice reason) →
        decideEntry e o v = { w with auz := { w.auz with hoDeclines := satAdd 4294967295 w.auz.hoDeclines 1 } })) ∧
    (∀ (t : Nat) (v u : State) (p : Place), placeAt v t = p →
      { v with tsu := { v.tsu with places := v.tsu.places.set t { p with busy := true } } } = u →
      (∀ code, reportOutcome t (.approvedOnline code) v = { u with sjr := { u.sjr with queue := u.sjr.queue ++
        [{ till := t
           body := .sale (basketTotal p.basket) .cardOnline p.trace (some code) (p.state == .orphaned) p.basket
           given := 0 }] } }) ∧
      (reportOutcome t .approvedOffline v = { u with sjr := { u.sjr with queue := u.sjr.queue ++
        [{ till := t
           body := .sale (basketTotal p.basket) .cardOffline p.trace none (p.state == .orphaned) p.basket
           given := 0 }] } }) ∧
      (∀ r, p.state = .orphaned → reportOutcome t (.declined r) v = { u with sjr := { u.sjr with
          claims := u.sjr.claims.modify t (· - 1)
          queue := u.sjr.queue ++
            [{ till := t, body := .voidedBasket .declinedLost (basketTotal p.basket) p.basket, given := 0 }] } }) ∧
      (∀ r q x, p.state = .authorizing → { p with state := .basket, trace := none, lastResult := some (.declined r) } = q →
        { v with
          out := v.out ++ [.till t (p.addr.getD 0) .declined .declined (.declined r (p.trace.getD 0))]
          tsu := { v.tsu with places := v.tsu.places.set t q }
          auz := { v.auz with entries := v.auz.entries.filter fun e => e.till != t }
          sjr := { v.sjr with claims := v.sjr.claims.modify t (· - 1) } } = x →
        (v.day.store ≠ .closing ∨ v.tsu.grace.isSome ∨ p.busy = true → reportOutcome t (.declined r) v = x) ∧
        (v.day.store = .closing → v.tsu.grace = none → p.busy = false → reportOutcome t (.declined r) v =
          { x with
            tsu := { x.tsu with places := x.tsu.places.set t { q with busy := true } }
            sjr := { x.sjr with queue := x.sjr.queue ++
              [{ till := t, body := .voidedBasket .close (basketTotal p.basket) p.basket, given := 0 }] } })))

/-- NIGHT RERUN is answered STATE outside NIGHT and during a run; else OK, and a run starts from its beginning with cause
HOST_RERUN, taking a TRICKLE batch in flight (R141, R142). -/
def Obligations.NightRerunDecided : Prop :=
  ∀ (h : HostHead) (s u : State), Admits s h → admitted h .nightRerun s = u →
    (u.day.store ≠ .night ∨ u.txe.run.state = .upload ∨ u.txe.run.state = .download →
      Replies (.nightRerun h) s h.tag .nightRerun .state .empty) ∧
    (u.day.store = .night → u.txe.run.state = .notStarted ∨ u.txe.run.state = .ended →
      exec (.nightRerun h) s = .next (finish (reply h.tag .nightRerun .ok .empty { u with txe := { u.txe with
        run :=
          { state := .upload, cause := some .hostRerun, startTime := some u.clock0, endTime := none, upload := none,
            download := none, uploaded := 0, received := 0, rejected := 0 }
        runBase := u.txe.counts
        abortDue := false
        batch := u.txe.batch.map fun b => { b with owner := .night } } })))

/-- GUEST END of one device ends its session with reason HOST_REQUEST and spends nothing; of all devices it ends every session
and the reply carries their number (R159, R161). -/
def Obligations.GuestEndDecided : Prop :=
  ∀ (h : HostHead) (s u : State), Admits s h → admitted h .guestEnd s = u →
    (∀ a, sessionOf u a = none → Replies (.guestEnd h (some a)) s h.tag .guestEnd .state .empty) ∧
    (∀ a i e, sessionOf u a = some i → sessionAt u i = some e →
      exec (.guestEnd h (some a)) s = .next (finish (reply h.tag .guestEnd .ok .empty
        { u with
          gac := { u.gac with sessions := u.gac.sessions.set i none }
          out := u.out ++ [.sessionEnd a .hostRequest] }))) ∧
    Replies (.guestEnd h none) s h.tag .guestEnd .ok (.ended (admittedCount u)) ∧
    exec (.guestEnd h none) s = .next (finish (reply h.tag .guestEnd .ok (.ended (admittedCount u))
      (endAllSessions .hostRequest u))) ∧
    (endAllSessions .hostRequest u).gac.spent = u.gac.spent ∧
    (u.gac.sessions.length = 64 → admittedCount (endAllSessions .hostRequest u) = 0)

/-- TIME SET is answered OK, the clock takes the value, and CLOCK SET is offered with the old value; beyond 32 bits it is answered
RANGE (R166; log entry 24). The value begins a whole second (model's choice, log entry 60). The store then: with the clock unset
before, NIGHT gives way to the state the schedule gives (R178), each state entered as DayRequestsDecided says, and any other is left; a move forward takes the schedule events
whose minutes it passes, in time order, looking back 1,440 minutes at most; a move backward takes none. The open time is before the
close time, and both within a day (R167). -/
def Obligations.TimeSetTaken : Prop :=
  ∀ (h : HostHead) (value : Nat) (s u : State), Admits s h → admitted h .timeSet s = u →
    (4294967295 < value → Replies (.timeSet h value) s h.tag .timeSet .range .empty) ∧
    (value ≤ 4294967295 → ∃ t, exec (.timeSet h value) s = .next t ∧ Answered t h.tag .timeSet .ok .empty ∧
      t.day.clock = some value ∧
      (u.hlk.held = none → u.hlk.notices.length < 32 →
        ∃ n ∈ t.hlk.notices, n.body = .clockSet u.day.clock value .host)) ∧
    (value ≤ 4294967295 → exec (.timeSet h value) s = .next (finish (afterTimeSet u.day.clock value
      (notify (.clockSet u.day.clock value .host)
        (reply h.tag .timeSet .ok .empty { u with day := { u.day with clock := some value, clockMs := 0 } }))))) ∧
    (∀ v : State,
      (v.day.store ≠ .night → afterTimeSet none value v = v) ∧
      (v.day.store = .night →
        (scheduleState v.settings (some value) = .opening → afterTimeSet none value v = enterOpening (some .clockSet) v) ∧
        (scheduleState v.settings (some value) = .opened →
          afterTimeSet none value v = enterOpen (some .clockSet) (enterOpening (some .clockSet) v)) ∧
        (scheduleState v.settings (some value) = .night → afterTimeSet none value v = v)) ∧
      (∀ old, value ≤ old → afterTimeSet (some old) value v = v) ∧
      (∀ old, old < value → v.settings.nat .openTime < v.settings.nat .closeTime → v.settings.nat .closeTime < 1440 →
        ∃ l : List (ScheduleEvent × Nat),
          afterTimeSet (some old) value v = l.foldl (fun x e => scheduleEvent e.1 x) v ∧
          l.Pairwise (fun a b => a.2 < b.2 ∨ a.2 = b.2 ∧ a.1 = .openLead ∧ b.1 = .openTime) ∧
          ∀ e c, (e, c) ∈ l ↔ c % 60 = 0 ∧ inEventMinute v.settings e c = true ∧ old < c ∧ c ≤ value ∧ value ≤ c + 86400))

/-- OPEN PREPARE, OPEN STORE and CLOSE STORE act from NIGHT, OPENING and OPEN alone, and are answered STATE elsewhere; they
enter OPENING, OPEN, and CLOSING, which gives way to NIGHT at once when no till holds a sale (R169, R170). What entering each state does,
whatever brings it about: the STATE notice with the old and the new state, the clock and the cause, ahead of what the blocks do (R171; log
entry 16), and the refresh cursor at 0 when refresh becomes enabled (R39). OPENING aborts a run, drops the quiet delay and has the guest
service decided again, OPEN has it decided again (R148, R151, R170, R173); CLOSING starts the grace, or with a grace of 0 closes the open
baskets at once, in till order (R68; log entry 43), has the guest service decided, and gives way to NIGHT when no sale is in hand. NIGHT
then frees every IDLE place and sends its till CLOSED, in till order (R69; log entries 43 and 44), empties the spent list (R160), has the
guest service decided, starts a run that takes the batch in flight (R141; with the clock unset too, log entry 67) and starts the quiet
delay (R173). -/
def Obligations.DayRequestsDecided : Prop :=
  (∀ (h : HostHead) (s : State), Admits s h →
    (∀ u, admitted h .openPrepare s = u →
      (u.day.store = .night → exec (.openPrepare h) s =
        .next (finish (reply h.tag .openPrepare .ok .empty (enterOpening (some .host) u))) ∧
        (enterOpening (some .host) u).day.store = .opening) ∧
      (u.day.store ≠ .night → Replies (.openPrepare h) s h.tag .openPrepare .state .empty)) ∧
    (∀ u, admitted h .openStore s = u →
      (u.day.store = .opening → exec (.openStore h) s =
        .next (finish (reply h.tag .openStore .ok .empty (enterOpen (some .host) u))) ∧
        (enterOpen (some .host) u).day.store = .opened) ∧
      (u.day.store ≠ .opening → Replies (.openStore h) s h.tag .openStore .state .empty)) ∧
    (∀ u, admitted h .closeStore s = u →
      (u.day.store = .opened → exec (.closeStore h) s =
        .next (finish (reply h.tag .closeStore .ok .empty (enterClosing (some .host) u))) ∧
        (tillsDone u = false → (enterClosing (some .host) u).day.store = .closing) ∧
        (tillsDone u = true → (enterClosing (some .host) u).day.store = .night)) ∧
      (u.day.store ≠ .opened → Replies (.closeStore h) s h.tag .closeStore .state .empty))) ∧
  (∀ (v : State) (cause : StateCause) (entered : StoreState → State),
    (∀ new, entered new = notify (.state v.day.store new v.clock0 cause)
      { v with
        day := { v.day with store := new }
        lrs := { v.lrs with
          cursor :=
            if (∃ n, refreshSetting v.day.store = some n ∧ v.settings.on n = false) ∧
              (∃ n, refreshSetting new = some n ∧ v.settings.on n = true) then 0 else v.lrs.cursor } }) →
    (∀ y, entered .opening = y → enterOpening (some cause) v =
      guestDecide (abortRun { y with day := { y.day with quietAt := none } })) ∧
    enterOpen (some cause) v = guestDecide (entered .opened) ∧
    (∀ y, entered .closing = y →
      (v.settings.nat .closingGrace ≠ 0 → enterClosing (some cause) v = testTillsDone (guestDecide
        { y with tsu := { y.tsu with grace := some (v.timer + 60000 * v.settings.nat .closingGrace) } })) ∧
      (v.settings.nat .closingGrace = 0 → enterClosing (some cause) v = testTillsDone (guestDecide
        ((List.range 16).foldl (fun x t =>
            if (placeAt x t).state = .basket ∧ (placeAt x t).busy = false then
              { x with
                tsu := { x.tsu with places := x.tsu.places.set t { placeAt x t with busy := true } }
                sjr := { x.sjr with queue := x.sjr.queue ++
                  [{ till := t
                     body := .voidedBasket .close (basketTotal (placeAt x t).basket) (placeAt x t).basket
                     given := 0 }] } }
            else x)
          { y with tsu := { y.tsu with grace := none } })))) ∧
    (v.day.store ≠ .closing ∨ tillsDone v = false → testTillsDone v = v) ∧
    (∀ y z g, v.day.store = .closing → tillsDone v = true → cause = .tillsDone → entered .night = y →
      (List.range 16).foldl (fun x t =>
          if (placeAt x t).state = .idle then
            { x with
              out := x.out ++ [.till t ((placeAt x t).addr.getD 0) .closed .closed .empty]
              tsu := { x.tsu with
                places := x.tsu.places.set t
                  { state := .free, addr := none, lastFrame := (placeAt x t).lastFrame, busy := false, basket := [],
                    trace := none, lastResult := none } } }
          else x)
        { y with tsu := { y.tsu with grace := none } } = z →
      guestDecide { z with gac := { z.gac with spent := [] } } = g →
      testTillsDone v =
        { g with
          txe := { g.txe with
            run :=
              { state := .upload, cause := some .nightEntry, startTime := some g.clock0, endTime := none, upload := none
                download := none, uploaded := 0, received := 0, rejected := 0 }
            runBase := g.txe.counts
            abortDue := false
            batch := g.txe.batch.map fun b => { b with owner := .night } }
          day := { g.day with quietAt := some (g.timer + 60000 * g.settings.nat .quietDelay) } }))

/-- LOCK sets the flag and is answered OK, set or not (R189); RESET is answered OK and waits to be carried out (R194). -/
def Obligations.LockAndResetTaken : Prop :=
  ∀ (h : HostHead) (s u : State), Admits s h →
    (∃ t, exec (.lock h) s = .next t ∧ Answered t h.tag .lock .ok .empty ∧ t.hlk.lock = true) ∧
    (admitted h .reset s = u → exec (.reset h) s = .next (finish (reply h.tag .reset .ok .empty
      { u with hlk := { u.hlk with resetPhase := .asked } })))

/-- FORWARD: RANGE above 1,000 bytes, BLOCKED by the first matching window, BUSY with the OFFICE queue full; else OK with the
next forward number, and the frame joins the OFFICE queue (R123, R192). -/
def Obligations.ForwardDecided : Prop :=
  ∀ (h : HostHead) (dest : Nat) (wanted : Bool) (payload : List Byte) (s u : State), Admits s h →
    admitted h .forward s = u → dest ≤ 4294967295 →
    (1000 < payload.length → Replies (.forward h dest wanted payload) s h.tag .forward .range .empty) ∧
    (payload.length ≤ 1000 →
      (∀ w, firstWindow s.settings.windows false dest = some w → w.scope = .blocked →
        Replies (.forward h dest wanted payload) s h.tag .forward .blocked .empty) ∧
      ((∀ w, firstWindow s.settings.windows false dest = some w → w.scope ≠ .blocked) →
        (32 ≤ u.ulc.officeQ.length → Replies (.forward h dest wanted payload) s h.tag .forward .busy .empty) ∧
        (u.ulc.officeQ.length < 32 →
          exec (.forward h dest wanted payload) s = .next (finish
            (reply h.tag .forward .ok (.forwardNumber (nextIn 1 65535 u.ulc.lastForward))
              { u with ulc := { u.ulc with
                  lastForward := nextIn 1 65535 u.ulc.lastForward
                  officeQ := u.ulc.officeQ ++ [.office (nextIn 1 65535 u.ulc.lastForward) dest wanted payload] } })))))


/-! ## The host link's events -/

/-- NOTICE ACK, a frame cut short, a frame that fails its check at each port, the end of a frame, the resend time, the silence timer
and a request of an unknown kind (R31, R50, R125, R181, R182, R183, R185, R186, R194). A frame is cut short when more than 20
milliseconds have passed since its last byte; with no frame begun the event has no effect (log entry 2), nor has the end of a frame, a
resend time or a silence timer that is not under way. A NOTICE ACK takes the head notice it names out of the queue, sent or not
(model's choice, log entry 62). The silence timer makes a part standalone only when it is not standalone already (model's choice, log
entry 55). A timed event taken early comes with the clock taken on to its time (model's choice, log entry 1). What every valid request does
first: the silence timer, the end of standalone with its HOST RETURN notice, whose seconds are whole (model's choice, log entry 68), and
the wake (R182, R186, R187). What an idle transmitter takes: the oldest reply, and none after a RESET's; else the head notice when it has
not been sent or its resend time has run out (R183, R185, R194); a frame counts as sent as it begins (model's choice, log entry 62), and
of one event's reply and notice the reply goes first (log entry 13). -/
def Obligations.HostLinkEventsTaken : Prop :=
  ∀ s : State, s.running = true →
    (∀ tag number, tag ≠ 0 → exec (.noticeAck tag number) s = .next (finish (frameError s))) ∧
    (∀ n rest, s.hlk.notices = n :: rest → exec (.noticeAck 0 n.number) s =
      .next (finish { s with hlk := { s.hlk with notices := rest, ackWait := .unsent } })) ∧
    (∀ number, (∀ n, s.hlk.notices.head? = some n → n.number ≠ number) →
      exec (.noticeAck 0 number) s = .next (finish s)) ∧
    (s.hlk.rx.bytes = [] → exec .hostByteTimeout s = .next (finish s)) ∧
    (∀ u, s.hlk.rx.bytes ≠ [] → advanceTo (s.hlk.rxAt + 21) s = u → exec .hostByteTimeout s = .next (finish
      (frameError { u with hlk := { u.hlk with rx := { bytes := [], stray := false } } }))) ∧
    (.hostByteTimeout ∈ dueCommands s ↔ s.hlk.rx.bytes ≠ [] ∧ s.hlk.rxAt + 20 < s.timer) ∧
    exec (.badFrame (.check .host)) s = .next (finish
      { s with hlk := { s.hlk with frameErrors := satAdd 65535 s.hlk.frameErrors 1 } }) ∧
    exec (.badFrame (.check .till)) s = .next (finish { s with tsu := { s.tsu with errors := satAdd 65535 s.tsu.errors 1 } }) ∧
    exec (.badFrame (.check .radio)) s = .next (finish
      (if s.lrs.radio = .awake then { s with lrs := { s.lrs with errors := satAdd 65535 s.lrs.errors 1 } } else s)) ∧
    exec (.badFrame (.check .guest)) s = .next (finish s) ∧
    (∀ p, exec (.badFrame (.check (.uplink p))) s = .next (finish
      (if (s.ulc.path p).state = .down then s
       else { s with ulc := { s.ulc with linkErrors := satAdd 65535 s.ulc.linkErrors 1 } }))) ∧
    (∀ f, s.hlk.tx = some f → exec .hostTxEnd s = .next (finish
      { s with hlk := { s.hlk with
          tx := none
          resetPhase := if isResetReply f ∧ s.hlk.resetPhase = .sending then .sent else s.hlk.resetPhase } })) ∧
    (s.hlk.tx = none → exec .hostTxEnd s = .next (finish s)) ∧
    (∀ x u, s.hlk.ackWait = .waiting x → advanceTo x s = u → exec .noticeResendExpiry s =
      .next (finish { u with hlk := { u.hlk with ackWait := .due } })) ∧
    ((∀ x, s.hlk.ackWait ≠ .waiting x) → exec .noticeResendExpiry s = .next (finish s)) ∧
    (∀ x u, s.hlk.silenceAt = some x → advanceTo x s = u →
      (s.hlk.standalone = none → exec .silenceExpiry s = .next (finish
        { u with hlk := { u.hlk with silenceAt := none, standalone := some u.timer, standaloneOverrun := false } })) ∧
      (s.hlk.standalone.isSome → exec .silenceExpiry s = .next (finish { u with hlk := { u.hlk with silenceAt := none } }))) ∧
    (s.hlk.silenceAt = none → exec .silenceExpiry s = .next (finish s)) ∧
    (∀ tag kind u, 1 ≤ tag → tag ≤ 255 → kind ≠ 255 → beginRequest s = u → exec (.unknownRequest tag kind) s = .next (finish
      { u with hlk := { u.hlk with replies := u.hlk.replies ++
          [{ tag := tag, kind := .other kind, result := .unknownRequest, body := .empty, queued := false }] } })) ∧
    (∀ tag kind, tag = 0 ∨ 255 < tag ∨ kind = 255 →
      exec (.unknownRequest tag kind) s = .next (finish (frameError s))) ∧
    (∀ h k u v, { s with hlk := { s.hlk with
        lastRequest := s.timer
        silenceAt := if s.settings.nat .silenceLimit = 0 then none else some (s.timer + 1000 * s.settings.nat .silenceLimit) } } = u →
      wake .hostRequest (endStandalone u) = v → beginRequest s = v ∧
      admitted h k s = { v with hlk := { v.hlk with requests := v.hlk.requests ++ [{ tag := h.tag, kind := k }] } }) ∧
    (s.hlk.standalone = none → endStandalone s = s) ∧
    (∀ x u, s.hlk.standalone = some x →
      notify (.hostReturn ((s.timer - x) / 1000) s.hlk.officeDrops s.hlk.standaloneOverrun)
        { s with hlk := { s.hlk with standalone := none } } = u →
      endStandalone s = { u with hlk := { u.hlk with officeDrops := 0, standaloneOverrun := false } }) ∧
    (s.hlk.tx.isSome → hostPump s = s) ∧
    (s.hlk.tx = none →
      (∀ r rest, writesStopped s = false → s.hlk.replies = r :: rest → hostPump s =
        { s with
          out := s.out ++ [.host (.reply r)]
          hlk := { s.hlk with
            tx := some (.reply r)
            replies := rest
            requests := if r.queued then s.hlk.requests.filter (fun q => q.tag != r.tag) else s.hlk.requests
            resetPhase := if r.kind = .reset ∧ r.result = .ok ∧ s.hlk.resetPhase = .asked then .sending
              else s.hlk.resetPhase } }) ∧
      (s.hlk.replies = [] ∨ writesStopped s = true →
        (∀ n rest, s.hlk.notices = n :: rest → (∀ x, s.hlk.ackWait ≠ .waiting x) → hostPump s =
          { s with
            out := s.out ++ [.host (.notice n)]
            hlk := { s.hlk with
              tx := some (.notice n), ackWait := .waiting (s.timer + s.settings.nat .noticeResend) } }) ∧
        (s.hlk.notices = [] ∨ (∃ x, s.hlk.ackWait = .waiting x) → hostPump s = s))) ∧
    (writesStopped s = true ↔ s.hlk.resetPhase = .sending ∨ s.hlk.resetPhase = .sent)

/-- A notice that a block offers: it joins the queue with the next number and the overrun flag, or is lost with the flag set;
until START has joined it is held behind it (R179, R184, R186). The last-reported value of a site line follows its present value
only when its notice joins. -/
def Obligations.NoticesJoinTheQueue : Prop :=
  ∀ (b : NoticeBody) (s : State),
    (s.hlk.held = none → s.hlk.notices.length < 32 → notify b s =
      { s with hlk := { s.hlk with
          notices := s.hlk.notices ++
            [{ number := if s.hlk.lastNumber < 65535 then s.hlk.lastNumber + 1 else 1, overrun := s.hlk.overrun, body := b }]
          lastNumber := if s.hlk.lastNumber < 65535 then s.hlk.lastNumber + 1 else 1
          overrun := false } }) ∧
    (s.hlk.held = none → 32 ≤ s.hlk.notices.length → notify b s =
      { s with hlk := { s.hlk with
          overrun := true
          standaloneOverrun := s.hlk.standaloneOverrun || s.hlk.standalone.isSome } }) ∧
    (∀ l, s.hlk.held = some l → notify b s = { s with hlk := { s.hlk with held := some (l ++ [b]) } }) ∧
    (∀ l, (s.hlk.notices.length < 32 →
        (reportLine l s).day.reported = s.day.reported.put l (s.day.lines.get l)) ∧
      (32 ≤ s.hlk.notices.length → (reportLine l s).day.reported = s.day.reported))

/-! ## The tills -/

/-- How every till request but HELLO is turned away (R50): RANGE above 15, NOT_LOGGED_ON, BUSY of an ORPHANED place and of a
place with a request in progress; a payload that does not fit, where the model's order is its own choice (log entry 24); and a kind
that names no till request, RANGE after the same checks (R196; log entry 49). And whose last frame a frame is, whatever its request and
its answer: that of the IDLE, BASKET or AUTHORIZING place bound to its address, whichever till it names; of no other place. -/
def Obligations.TillRequestsTurnedAway : Prop :=
  ∀ (c : Instr) (h : TillHead) (k : TillKind) (s : State), tillRequestOf c = some (h, k) → s.running = true →
    (∀ u, touchPlace h s = u →
      (∀ t p, t ≤ 15 → placeAt s t = p → p.state = .idle ∨ p.state = .basket ∨ p.state = .authorizing →
        p.addr = some h.addr →
        (∀ j, j ≠ t → (placeAt s j).addr = some h.addr → (placeAt s j).state = .free ∨ (placeAt s j).state = .orphaned) →
        u = putPlace t { p with lastFrame := s.timer } s) ∧
      ((∀ t, (placeAt s t).addr = some h.addr → (placeAt s t).state = .free ∨ (placeAt s t).state = .orphaned) → u = s) ∧
      (15 < h.till → exec c s = .next (finish (emit (.till h.till h.addr k .range .empty) u))) ∧
      (h.till ≤ 15 → (placeAt s h.till).state = .free ∨ (placeAt s h.till).addr ≠ some h.addr →
        exec c s = .next (finish (emit (.till h.till h.addr k .notLoggedOn .empty) u))) ∧
      (h.till ≤ 15 → (placeAt s h.till).state = .orphaned → (placeAt s h.till).addr = some h.addr →
        exec c s = .next (finish (emit (.till h.till h.addr k .busy .empty) u)))) ∧
    (h.till ≤ 15 → (placeAt s h.till).state ≠ .free → (placeAt s h.till).state ≠ .orphaned →
      (placeAt s h.till).addr = some h.addr → (placeAt s h.till).busy = true →
      exec c s = .next (finish (emit (.till h.till h.addr k .busy .empty) (putPlace h.till (touched s h) s)))) ∧
    (TillAdmits s { h with fits := true } → h.fits = false →
      (k = .poll ∨ k = .bye ∨ k = .saleOpen ∨ k = .saleCancel ∨ (placeAt s h.till).state = .basket →
        exec c s = .next (finish (tillAnswer h k .range .empty (touched s h) s))) ∧
      (k = .lineAdd ∨ k = .lineVoid ∨ k = .tenderCash ∨ k = .tenderCard → (placeAt s h.till).state ≠ .basket →
        exec c s = .next (finish (tillAnswer h k .state .empty (touched s h) s)))) ∧
    (∀ n, k = .other n → TillAdmits s { h with fits := true } →
      exec c s = .next (finish (tillAnswer h k .range .empty (touched s h) s)))

/-- HELLO: RANGE above 15, BUSY with a request in progress, RANGE for a payload that does not fit (model's order, log entry 24),
then R52's table in its order; the answer of QUIET is CLOSED, and the part wakes, unless RANGE has been answered (model's choice, log
entry 64). Its last-frame time goes to the place bound to its
address (R50); one answered TILL_IN_USE, CLOSED or BUSY leaves the flag of the place it names alone (model's choice, log entry 42). -/
def Obligations.HelloDecided : Prop :=
  ∀ (h : TillHead) (s : State), s.running = true →
    (∀ t p, t ≤ 15 → placeAt s t = p → p.state = .idle ∨ p.state = .basket ∨ p.state = .authorizing → p.addr = some h.addr →
      (∀ j, j ≠ t → (placeAt s j).addr = some h.addr → (placeAt s j).state = .free ∨ (placeAt s j).state = .orphaned) →
      touchPlace h s = putPlace t { p with lastFrame := s.timer } s) ∧
    ((∀ t, (placeAt s t).addr = some h.addr → (placeAt s t).state = .free ∨ (placeAt s t).state = .orphaned) →
      touchPlace h s = s) ∧
    (15 < h.till → exec (.hello h) s = .next (finish (emit (.till h.till h.addr .hello .range .empty) (touchPlace h s)))) ∧
    (h.till ≤ 15 → (placeAt s h.till).busy = true → exec (.hello h) s =
      .next (finish (emit (.till h.till h.addr .hello .busy .empty) (touchPlace h s)))) ∧
    (h.till ≤ 15 → (placeAt s h.till).busy = false → h.fits = false → exec (.hello h) s =
      .next (finish (emit (.till h.till h.addr .hello .range .empty) (touchPlace h s)))) ∧
    (∀ u, wake .tillHello (touchPlace h s) = u → h.till ≤ 15 → (placeAt s h.till).busy = false → h.fits = true →
      (s.day.store = .night ∨ s.day.store = .quiet →
        exec (.hello h) s = .next (finish (emit (.till h.till h.addr .hello .closed .empty) u))) ∧
      (s.day.store ≠ .night → s.day.store ≠ .quiet →
        ((∃ k, k ≤ 15 ∧ k ≠ h.till ∧ (placeAt s k).addr = some h.addr ∧ (placeAt s k).state ≠ .free) →
          exec (.hello h) s = .next (finish (emit (.till h.till h.addr .hello .tillInUse .empty) u))) ∧
        ((∀ k, k ≤ 15 → k ≠ h.till → (placeAt s k).addr = some h.addr → (placeAt s k).state = .free) →
          ((placeAt s h.till).state = .free → exec (.hello h) s = .next (finish
            (emit (.till h.till h.addr .hello .ok (.place .idle 0 0))
              (putPlace h.till
                { state := .idle, addr := some h.addr, lastFrame := u.timer, busy := false, basket := [], trace := none,
                  lastResult := none } u)))) ∧
          ((placeAt s h.till).state ≠ .free → (placeAt s h.till).addr ≠ some h.addr →
            exec (.hello h) s = .next (finish (emit (.till h.till h.addr .hello .tillInUse .empty) u))) ∧
          ((placeAt s h.till).addr = some h.addr →
            ((placeAt s h.till).state = .idle ∨ (placeAt s h.till).state = .basket →
              exec (.hello h) s = .next (finish (tillAnswer h .hello .ok
                (.place (placeAt s h.till).state (placeAt s h.till).basket.length (basketTotal (placeAt s h.till).basket))
                { placeAt s h.till with lastFrame := u.timer } u))) ∧
            ((placeAt s h.till).state = .authorizing ∨ (placeAt s h.till).state = .orphaned →
              exec (.hello h) s = .next (finish (emit (.till h.till h.addr .hello .busy .empty) u)))))))

/-- BYE in IDLE is answered OK and frees the place, its address and last result with it; elsewhere BASKET_OPEN. SALE OPEN in
IDLE while the store is OPEN makes the place BASKET with no lines; elsewhere STATE (R54, R55). -/
def Obligations.ByeAndSaleOpenDecided : Prop :=
  ∀ (h : TillHead) (s : State), TillAdmits s h →
    ((placeAt s h.till).state = .idle → exec (.bye h) s = .next (finish
      (emit (.till h.till h.addr .bye .ok .empty)
        (putPlace h.till
          { state := .free, addr := none, lastFrame := s.timer, busy := false, basket := [], trace := none,
            lastResult := none } s)))) ∧
    ((placeAt s h.till).state = .basket ∨ (placeAt s h.till).state = .authorizing →
      exec (.bye h) s = .next (finish (tillAnswer h .bye .basketOpen .empty (touched s h) s))) ∧
    ((placeAt s h.till).state = .idle → s.day.store = .opened → exec (.saleOpen h) s =
      .next (finish (tillAnswer h .saleOpen .ok .empty { touched s h with state := .basket, basket := [] } s))) ∧
    ((placeAt s h.till).state ≠ .idle ∨ s.day.store ≠ .opened →
      exec (.saleOpen h) s = .next (finish (tillAnswer h .saleOpen .state .empty (touched s h) s)))

/-- POLL is answered OK with the place's figures (R53). SALE CANCEL: STATE in IDLE, IN_AUTH in AUTHORIZING; an empty basket
closes at once, any other asks for its VOIDED_BASKET record (R59). -/
def Obligations.PollAndCancelDecided : Prop :=
  ∀ (h : TillHead) (s : State) (p : Place), TillAdmits s h → placeAt s h.till = p →
    exec (.poll h) s = .next (finish (tillAnswer h .poll .ok
      (.poll p.state p.basket.length (basketTotal p.basket) (if p.state = .authorizing then p.trace else none) p.lastResult)
      (touched s h) s)) ∧
    (p.state = .idle →
      exec (.saleCancel h) s = .next (finish (tillAnswer h .saleCancel .state .empty (touched s h) s))) ∧
    (p.state = .authorizing →
      exec (.saleCancel h) s = .next (finish (tillAnswer h .saleCancel .inAuth .empty (touched s h) s))) ∧
    (p.state = .basket → p.basket = [] → exec (.saleCancel h) s = .next (finish (testTillsDone
      (tillAnswer h .saleCancel .ok .empty { touched s h with state := .idle, basket := [], trace := none } s)))) ∧
    (p.state = .basket → p.basket ≠ [] → exec (.saleCancel h) s = .next (finish
      { s with
        tsu := { s.tsu with places := s.tsu.places.set h.till { touched s h with busy := true } }
        sjr := { s.sjr with queue := s.sjr.queue ++
          [{ till := h.till, body := .voidedBasket .cancelled (basketTotal p.basket) p.basket, given := 0 }] } }))

/-- LINE ADD and LINE VOID: STATE outside BASKET; a line is priced in its order for the item by R57's table, and R56's and
R58's refusals are given in their order. -/
def Obligations.LinesDecided : Prop :=
  ∀ (h : TillHead) (s : State) (p : Place), TillAdmits s h → placeAt s h.till = p →
    (p.state ≠ .basket → ∀ item qty keyed line,
      exec (.lineAdd h item qty keyed) s = .next (finish (tillAnswer h .lineAdd .state .empty (touched s h) s)) ∧
      exec (.lineVoid h line) s = .next (finish (tillAnswer h .lineVoid .state .empty (touched s h) s))) ∧
    (p.state = .basket → ∀ item qty keyed u,
      queueWork (.lineAdd h.till item qty keyed) (putPlace h.till { touched s h with busy := true } s) = u →
      exec (.lineAdd h item qty keyed) s = .next (finish u) ∧
      (Ready s [.item item] →
        (item = 0 ∨ qty = 0 ∨ qty < -999 ∨ 999 < qty ∨ (∃ k, keyed = some k ∧ 9999999 < k) →
          drainAll u = tillAnswer h .lineAdd .range .empty (touched s h) s) ∧
        (item ≠ 0 → qty ≠ 0 → -999 ≤ qty → qty ≤ 999 → (∀ k, keyed = some k → k ≤ 9999999) →
          (64 ≤ p.basket.length → drainAll u = tillAnswer h .lineAdd .lineLimit .empty (touched s h) s) ∧
          (p.basket.length < 64 →
            (∀ r, linePrice s item keyed = .error r →
              drainAll u = tillAnswer h .lineAdd r .empty (touched s h) s) ∧
            (∀ price origin, linePrice s item keyed = .ok (price, origin) →
              (basketTotal p.basket + qty * price < -99999999 ∨ 99999999 < basketTotal p.basket + qty * price →
                drainAll u = tillAnswer h .lineAdd .totalRange .empty (touched s h) s) ∧
              (-99999999 ≤ basketTotal p.basket + qty * price → basketTotal p.basket + qty * price ≤ 99999999 →
                drainAll u = tillAnswer h .lineAdd .ok
                  (.line (p.basket.length + 1) price origin (basketTotal p.basket + qty * price))
                  { touched s h with basket := p.basket ++
                      [{ number := p.basket.length + 1, item := item, qty := qty, price := price, origin := origin,
                         voided := false }] } s)))))) ∧
    (∀ item keyed,
      (∀ e c, findItem s item = some e → chargePrice s e = some c → linePrice s item keyed = .ok (c, .book)) ∧
      (∀ e, findItem s item = some e → e.openPrice = true →
        (∀ k, keyed = some k → linePrice s item keyed = .ok (k, .keyed)) ∧
        (keyed = none → linePrice s item keyed = .error .priceNeeded)) ∧
      (findItem s item = none →
        (s.settings.on .keyedUnknown = true → ∀ k, keyed = some k → linePrice s item keyed = .ok (k, .keyed)) ∧
        (s.settings.on .keyedUnknown = true → keyed = none → linePrice s item keyed = .error .priceNeeded) ∧
        (s.settings.on .keyedUnknown = false → linePrice s item keyed = .error .unknownItem))) ∧
    (p.state = .basket → ∀ line b,
      p.basket.map (fun l => if l.number = line then { l with voided := true } else l) = b →
      ((∀ l ∈ p.basket, l.number = line → l.voided = true) →
        exec (.lineVoid h line) s = .next (finish (tillAnswer h .lineVoid .noLine .empty (touched s h) s))) ∧
      ((∃ l ∈ p.basket, l.number = line ∧ l.voided = false) →
        (basketTotal b < -99999999 ∨ 99999999 < basketTotal b →
          exec (.lineVoid h line) s = .next (finish (tillAnswer h .lineVoid .totalRange .empty (touched s h) s))) ∧
        (-99999999 ≤ basketTotal b → basketTotal b ≤ 99999999 →
          exec (.lineVoid h line) s = .next (finish
            (tillAnswer h .lineVoid .ok (.total (basketTotal b)) { touched s h with basket := b } s)))))

/-- TENDER CASH and TENDER CARD: STATE outside BASKET, R61's and R62's refusals in their order; an accepted tender claims its
places, sets the flag and asks for its record (R60, R61, R62). -/
def Obligations.TendersDecided : Prop :=
  ∀ (h : TillHead) (s : State) (p : Place) (given : Nat) (card : CardRef), TillAdmits s h → placeAt s h.till = p →
    (p.state ≠ .basket →
      exec (.tenderCash h given) s = .next (finish (tillAnswer h .tenderCash .state .empty (touched s h) s)) ∧
      exec (.tenderCard h card) s = .next (finish (tillAnswer h .tenderCard .state .empty (touched s h) s))) ∧
    (p.state = .basket →
      (99999999 < given →
        exec (.tenderCash h given) s = .next (finish (tillAnswer h .tenderCash .range .empty (touched s h) s))) ∧
      (given ≤ 99999999 →
        ((∀ l ∈ p.basket, l.voided = true) →
          exec (.tenderCash h given) s = .next (finish (tillAnswer h .tenderCash .noLine .empty (touched s h) s))) ∧
        ((∃ l ∈ p.basket, l.voided = false) →
          ((given : Int) < basketTotal p.basket →
            exec (.tenderCash h given) s = .next (finish (tillAnswer h .tenderCash .short .empty (touched s h) s))) ∧
          (basketTotal p.basket ≤ (given : Int) → claimGranted s.sjr 1 = false → exec (.tenderCash h given) s =
            .next (finish (tillAnswer h .tenderCash .journalFull .empty (touched s h) s))) ∧
          (basketTotal p.basket ≤ (given : Int) → claimGranted s.sjr 1 = true → exec (.tenderCash h given) s =
            .next (finish
              { s with
                tsu := { s.tsu with places := s.tsu.places.set h.till { touched s h with busy := true } }
                sjr := { s.sjr with
                  claims := s.sjr.claims.modify h.till (· + 1)
                  queue := s.sjr.queue ++
                    [{ till := h.till, body := .sale (basketTotal p.basket) .cash none none false p.basket,
                       given := given }] } })))) ∧
      ((∀ l ∈ p.basket, l.voided = true) →
        exec (.tenderCard h card) s = .next (finish (tillAnswer h .tenderCard .noLine .empty (touched s h) s))) ∧
      ((∃ l ∈ p.basket, l.voided = false) →
        (basketTotal p.basket ≤ 0 →
          exec (.tenderCard h card) s = .next (finish (tillAnswer h .tenderCard .notAllowed .empty (touched s h) s))) ∧
        (0 < basketTotal p.basket → claimGranted s.sjr 2 = false → exec (.tenderCard h card) s =
          .next (finish (tillAnswer h .tenderCard .journalFull .empty (touched s h) s))) ∧
        (0 < basketTotal p.basket → claimGranted s.sjr 2 = true → exec (.tenderCard h card) s =
          .next (finish
            { s with
              tsu := { s.tsu with places := s.tsu.places.set h.till { touched s h with busy := true } }
              sjr := { s.sjr with
                claims := s.sjr.claims.modify h.till (· + 2)
                queue := s.sjr.queue ++
                  [{ till := h.till, body := .authTrace (basketTotal p.basket).toNat card, given := 0 }] } }))))

/-- A claim of some places is granted when it leaves 16 free and the sequence counter room, the number of a voided basket that is being
written counted as used (model's choice, log entry 58); and a granted one adds them to the till's count and to no other, so that free
falls by them; a tender whose claim is not granted is refused with JOURNAL_FULL (R91, R92). -/
def Obligations.ClaimsKeepTheReserve : Prop :=
  ∀ (s : State) (till n m : Nat),
    (m = (match s.sjr.writing with
        | some w => (match w.append.body with
          | .voidedBasket .. => 1
          | _ => 0)
        | none => 0) →
      (claimGranted s.sjr n = true ↔
        s.sjr.held + s.sjr.claimed + n + 16 ≤ 32768 ∧ s.sjr.counter + m + s.sjr.claimed + n ≤ 4294967295)) ∧
    (s.sjr.held + s.sjr.claimed ≤ 32768 → (s.sjr.held + s.sjr.claimed + n + 16 ≤ 32768 ↔ n + 16 ≤ s.sjr.free)) ∧
    (till < s.sjr.claims.length → claimGranted s.sjr n = true →
      (addClaim till n s).sjr.claims = s.sjr.claims.modify till (· + n) ∧
      (addClaim till n s).sjr.claimed = s.sjr.claimed + n ∧ (addClaim till n s).sjr.free + n = s.sjr.free) ∧
    (∀ (h : TillHead) (card : CardRef) (given : Nat), TillAdmits s h → (placeAt s h.till).state = .basket →
      (∃ l ∈ (placeAt s h.till).basket, l.voided = false) →
      (given ≤ 99999999 → basketTotal (placeAt s h.till).basket ≤ (given : Int) → claimGranted s.sjr 1 = false →
        exec (.tenderCash h given) s = .next (finish (tillAnswer h .tenderCash .journalFull .empty (touched s h) s))) ∧
      (0 < basketTotal (placeAt s h.till).basket → claimGranted s.sjr 2 = false →
        exec (.tenderCard h card) s = .next (finish (tillAnswer h .tenderCard .journalFull .empty (touched s h) s))))

/-- A till judged silent: IDLE becomes FREE, BASKET asks for its VOIDED_BASKET record, AUTHORIZING becomes ORPHANED; no other place is
judged, nor one with a request in progress, nor one whose last-frame time is the present moment (R65, R67; an event taken early: log
entry 1). At the end of the grace the places are gone through in till order (log entry 43), and each open basket with no request in
progress is closed by its VOIDED_BASKET record (R68), no other place or block changed; and an end with no grace running has no effect
(model's choice, log entry 2). -/
def Obligations.TillEventsTaken : Prop :=
  ∀ s : State, s.running = true →
    (∀ t p u, placeAt s t = p → advanceTo (p.lastFrame + 1000 * s.settings.nat .tillSilence) s = u →
      (p.busy = true ∨ p.state = .free ∨ p.state = .orphaned ∨ s.timer ≤ p.lastFrame →
        exec (.tillSilenceExpiry t) s = .next (finish s)) ∧
      (p.busy = false → p.lastFrame < s.timer → p.state = .idle → exec (.tillSilenceExpiry t) s = .next (finish
        (putPlace t
          { state := .free, addr := none, lastFrame := p.lastFrame, busy := false, basket := [], trace := none,
            lastResult := none }
          (notify (.tillLost t p.addr .idle p.basket.length (basketTotal p.basket) .none) u)))) ∧
      (p.busy = false → p.lastFrame < s.timer → p.state = .basket → exec (.tillSilenceExpiry t) s = .next (finish
        { u with
          tsu := { u.tsu with places := u.tsu.places.set t { p with busy := true } }
          sjr := { u.sjr with queue := u.sjr.queue ++
            [{ till := t, body := .voidedBasket .tillLost (basketTotal p.basket) p.basket, given := 0 }] } })) ∧
      (∀ n, p.busy = false → p.lastFrame < s.timer → p.state = .authorizing → p.trace = some n →
        exec (.tillSilenceExpiry t) s = .next (finish
        (notify (.tillLost t p.addr .authorizing p.basket.length (basketTotal p.basket) (.awaiting n))
          (putPlace t { p with state := .orphaned } u))))) ∧
    (s.tsu.grace = none → exec .closingGraceEnd s = .next (finish s)) ∧
    (∀ x u, s.tsu.grace = some x → advanceTo x s = u →
      exec .closingGraceEnd s = .next (finish
        ((List.range 16).foldl (fun v t => closeIfDue t v) { u with tsu := { u.tsu with grace := none } })) ∧
      ∃ v, exec .closingGraceEnd s = .next (finish v) ∧ v.tsu.grace = none ∧
        (s.day.store = .closing → ∀ t, t ≤ 15 → (placeAt s t).state = .basket → (placeAt s t).busy = false →
          (placeAt v t).busy = true ∧
          ({ till := t
             body := .voidedBasket .close (basketTotal (placeAt s t).basket) (placeAt s t).basket
             given := 0 } : Append) ∈ v.sjr.queue)) ∧
    (∀ (t : Nat) (p : Place) (v : State), placeAt v t = p →
      (v.day.store = .closing → v.tsu.grace = none → p.state = .basket → p.busy = false → closeIfDue t v =
        { v with
          tsu := { v.tsu with places := v.tsu.places.set t { p with busy := true } }
          sjr := { v.sjr with queue := v.sjr.queue ++
            [{ till := t, body := .voidedBasket .close (basketTotal p.basket) p.basket, given := 0 }] } }) ∧
      (v.day.store ≠ .closing ∨ v.tsu.grace.isSome ∨ p.state ≠ .basket ∨ p.busy = true → closeIfDue t v = v))

/-- The charge price of an item that is not open-price is the lowest of its current price, its pending price, and the confirmed
prices and floors of the labels bound to it; an open-price item has none (R5). -/
def Obligations.ChargePriceIsTheLowest : Prop :=
  ∀ (s : State) (i : Item),
    (i.openPrice = true → chargePrice s i = none) ∧
    (i.openPrice = false → ∃ c, chargePrice s i = some c ∧
      (c = i.price ∨ (∃ p, i.pending = some p ∧ c = p.price) ∨
        ∃ l ∈ s.lrs.labels, l.item = some i.code ∧ (l.confirmed = some c ∨ l.floor = some c)) ∧
      c ≤ i.price ∧ (∀ p, i.pending = some p → c ≤ p.price) ∧
      ∀ l ∈ s.lrs.labels, l.item = some i.code →
        (∀ x, l.confirmed = some x → c ≤ x) ∧ (∀ x, l.floor = some x → c ≤ x))

/-! ## The radio -/

/-- An acknowledgement, the closing of the window, the beacon, the end of a price frame and the end of the settle time (R30 to R35,
R41, R46); one of them with nothing of its kind under way has no effect (log entry 2). A beacon in a transmission makes its burst the
one that waits, in place of one that waited already (model's choice, log entry 56). An acknowledgement's write waits for the label's
other writes; it is of the whole entry when the label is bound then and the acknowledgement answers no transmission marked unbound in
flight, and of the label's own fields otherwise (R31). The end of a REFRESH moves the cursor to the next id, or after 4,095 to 0 with one
more cycle counted (R32, R33, R38). A timed event taken early comes with the clock taken on to its time (log entry 1). A failure raises the label's failed
attempts, and at the attempt limit the write that makes an ACTIVE label UNREACHABLE starts (R33); one on an UNBOUND label counts
nothing (log entry 53). How a transmission begins: with its price fixed, number 0 (log entry 38) and a turn behind the label's writes,
then a floor write when the floor is absent or higher, or its frame under the next number (R30); an unbind marks the one in flight to
its label (R26), which is not recalled, be it before its frame or after: it goes on so for an UNBOUND label too (its floor write is the
model's choice, log entry 33). And what a burst chooses (R35 to R38): the priority work of the LABELLING slots but those whose pending
part is still being written (model's choice, log entry 8), urgent ones first, then by issue time, then by slot number, one slot's
labels in their order; else a refresh of the first bound label from the cursor onward; a search that finds none counts one cycle (log
entry 32). -/
def Obligations.RadioEventsTaken : Prop :=
  ∀ s : State, s.running = true →
    (∀ u : State, u.lrs.inFlight = none → sendBeacon u =
      { u with
        out := u.out ++ [.beacon]
        lrs := { u.lrs with
          nextBeacon := some (u.timer + beaconMs u)
          burst := some { length := burstLength u, made := 0, attempted := [] }
          waitingBurst := none } }) ∧
    (∀ u : State, u.lrs.inFlight.isSome → sendBeacon u =
      { u with
        out := u.out ++ [.beacon]
        lrs := { u.lrs with
          nextBeacon := some (u.timer + beaconMs u), burst := none, waitingBurst := some (burstLength u) } }) ∧
    (∀ (t : Transmission) (u : State), t.kind = .priority → endTransmission t u =
      { u with lrs := { u.lrs with
          inFlight := none
          burst := u.lrs.burst.map fun b => { b with made := b.made + 1, attempted := b.attempted ++ [t.label] } } }) ∧
    (∀ (t : Transmission) (u : State), t.kind = .refresh → endTransmission t u =
      passLabel t.label { u with lrs := { u.lrs with
          inFlight := none
          burst := u.lrs.burst.map fun b => { b with made := b.made + 1, attempted := b.attempted ++ [t.label] } } }) ∧
    (∀ (id : Nat) (u : State),
      (id < 4095 → passLabel id u = { u with lrs := { u.lrs with cursor := id + 1 } }) ∧
      (4095 ≤ id → passLabel id u = { u with lrs := { u.lrs with
        cursor := 0, cycles := if u.lrs.cycles < 4294967295 then u.lrs.cycles + 1 else 0 } })) ∧
    (∀ (a : AckReport) (u : State), writesStopped u = false →
      ((u.label a.label).state ≠ .unbound → a.answersUnbound = false →
        takeAck a u = { u with nv := u.nv ++ [.ack a true] }) ∧
      ((u.label a.label).state = .unbound ∨ a.answersUnbound = true →
        takeAck a u = { u with nv := u.nv ++ [.ack a false] })) ∧
    (∀ label number price battery margin,
      (s.lrs.radio ≠ .awake → exec (.labelAcknowledgement label number price battery margin) s = .next (finish s)) ∧
      (s.lrs.radio = .awake → 4095 < label ∨ 9999999 < price ∨ 255 < battery →
        exec (.labelAcknowledgement label number price battery margin) s = .next (finish (radioError s))) ∧
      (s.lrs.radio = .awake → label ≤ 4095 → price ≤ 9999999 → battery ≤ 255 →
        ∀ a : AckReport,
          a.label = label → a.price = price → a.battery = battery → a.margin = max (-40) (min 40 margin) →
          a.time = s.day.clock →
          ((∀ t, s.lrs.inFlight = some t → t.label ≠ label ∨ t.number ≠ number ∨
              (t.phase ≠ .frame ∧ ∀ x, t.phase ≠ .window x)) → a.answersUnbound = false →
            exec (.labelAcknowledgement label number price battery margin) s = .next (finish (queueWork (.ack a) s))) ∧
          (∀ t x, s.lrs.inFlight = some t → t.label = label → t.number = number → t.phase = .window x →
            a.answersUnbound = t.unboundMark →
            exec (.labelAcknowledgement label number price battery margin) s =
              .next (finish (queueWork (.ack a) (endTransmission t s)))) ∧
          (∀ t, s.lrs.inFlight = some t → t.label = label → t.number = number → t.phase = .frame →
            a.answersUnbound = t.unboundMark →
            exec (.labelAcknowledgement label number price battery margin) s =
              .next (finish (queueWork (.ack a) s))))) ∧
    (∀ t x u, s.lrs.inFlight = some t → t.phase = .window x → advanceTo x s = u →
      (t.unboundMark = true → exec .ackWindowClose s = .next (finish (endTransmission t u))) ∧
      (t.unboundMark = false →
        exec .ackWindowClose s = .next (finish (queueWork (.failure t.label) (endTransmission t u))))) ∧
    ((∀ t x, s.lrs.inFlight = some t → t.phase ≠ .window x) → exec .ackWindowClose s = .next (finish s)) ∧
    (∀ x, s.lrs.radio = .awake → s.lrs.nextBeacon = some x →
      exec .beacon s = .next (finish (sendBeacon (advanceTo x s)))) ∧
    (s.lrs.radio ≠ .awake ∨ s.lrs.nextBeacon = none → exec .beacon s = .next (finish s)) ∧
    (∀ t, s.lrs.inFlight = some t → t.phase = .frame → exec .priceFrameEnd s = .next (finish
      { s with lrs := { s.lrs with inFlight := some { t with phase := .window (s.timer + t.windowMs) } } })) ∧
    ((∀ t, s.lrs.inFlight = some t → t.phase ≠ .frame) → exec .priceFrameEnd s = .next (finish s)) ∧
    (∀ x u, s.lrs.radio = .settling → s.lrs.settleEnd = some x → advanceTo x s = u →
      exec .settleEnd s = .next (finish (sendBeacon { u with lrs := { u.lrs with radio := .awake, settleEnd := none } }))) ∧
    (s.lrs.radio ≠ .settling ∨ s.lrs.settleEnd = none → exec .settleEnd s = .next (finish s)) ∧
    (∀ (label n : Nat) (l : Label) (v w : State), v.label label = l → min 15 (l.failed + 1) = n →
      putLabel { l with failed := n } v = w →
      (l.state = .unbound → takeFailure label v = v) ∧
      (l.state = .unreachable ∨ l.state = .active ∧ n < v.settings.nat .attemptLimit → takeFailure label v = w) ∧
      (l.state = .active → v.settings.nat .attemptLimit ≤ n → writesStopped v = false →
        takeFailure label v = { w with nv := w.nv ++ [.unreachable label] })) ∧
    (∀ (label price : Nat) (k : TxKind) (v : State), beginTransmission label price k v =
      { v with
        waiting := v.waiting ++ [.floor label]
        lrs := { v.lrs with
          inFlight := some { label := label, number := 0, price := price, kind := k, unboundMark := false
                             phase := .floorWait, windowMs := 0 } } }) ∧
    (∀ (t : Transmission) (v : State), v.lrs.inFlight = some t → t.phase = .floorWait →
      ((∀ f, (v.label t.label).floor = some f → t.price < f) → writesStopped v = false →
        takeFloor t.label v =
          { v with
            nv := v.nv ++ [.floor t.label t.price]
            lrs := { v.lrs with inFlight := some { t with phase := .floorWrite } } }) ∧
      (∀ f n, (v.label t.label).floor = some f → f ≤ t.price → (v.lrs.txCount + 1) % 256 = n →
        takeFloor t.label v =
          { v with
            out := v.out ++ [.priceFrame t.label n t.price]
            lrs := { v.lrs with
              txCount := n
              inFlight := some { t with number := n, phase := .frame, windowMs := v.settings.nat .ackWindow } } })) ∧
    (∀ (tag label item : Nat) (v : State), label ≤ 4095 → (v.label label).item = some item → writesStopped v = false →
      takeUnbind tag label v =
        { v with
          nv := v.nv ++ [.unbind tag label item]
          lrs := { v.lrs with
            inFlight := v.lrs.inFlight.map fun t => if t.label = label then { t with unboundMark := true } else t } }) ∧
    (∀ (v : State) (b : Burst), v.lrs.inFlight = none → v.lrs.burst = some b → v.lrs.radio = .awake →
      (b.length ≤ b.made → chooseNext v = { v with lrs := { v.lrs with burst := none } }) ∧
      (b.made < b.length →
        (∀ label price, priorityChoice v b.attempted = some (label, price) →
          chooseNext v = beginTransmission label price .priority v) ∧
        (priorityChoice v b.attempted = none → refreshEnabled v.settings v.day.store = false →
          chooseNext v = { v with lrs := { v.lrs with burst := none } }) ∧
        (priorityChoice v b.attempted = none → refreshEnabled v.settings v.day.store = true → TablesKeyed v →
          (∀ l price, l ∈ v.lrs.labels → l.state ≠ .unbound → l.id ∉ b.attempted → targetPrice v l = some price →
            (v.lrs.cursor ≤ l.id →
              (∀ k ∈ v.lrs.labels, k.state ≠ .unbound → k.id ∉ b.attempted → v.lrs.cursor ≤ k.id → l.id ≤ k.id) →
              chooseNext v = beginTransmission l.id price .refresh { v with lrs := { v.lrs with cursor := l.id } }) ∧
            (l.id < v.lrs.cursor →
              (∀ k ∈ v.lrs.labels, k.state ≠ .unbound → k.id ∉ b.attempted → l.id ≤ k.id ∧ k.id < v.lrs.cursor) →
              chooseNext v = beginTransmission l.id price .refresh { v with lrs := { v.lrs with
                cursor := l.id, cycles := nextCycle v.lrs.cycles } })) ∧
          ((∀ k ∈ v.lrs.labels, k.state ≠ .unbound → k.id ∈ b.attempted) → chooseNext v = { v with lrs := { v.lrs with
            burst := none, cycles := nextCycle v.lrs.cycles } })))) ∧
    (∀ v : State, ∃ order : List Slot,
      order.Perm ((v.pbk.slots.filterMap id).filter fun x => x.stage != .issuing) ∧
      order.Pairwise (fun a b => a.urgent = b.urgent ∧ a.issueTime ≤ b.issueTime ∨ a.urgent = true ∧ b.urgent = false) ∧
      (∀ (urgent : Bool) (time : Nat), order.filter (fun x => x.urgent == urgent && x.issueTime == time) =
        ((v.pbk.slots.filterMap id).filter fun x => x.stage != .issuing).filter
          fun x => x.urgent == urgent && x.issueTime == time) ∧
      ∀ attempted, priorityChoice v attempted = (order.flatMap fun x =>
        (x.outstanding.filter fun n => !attempted.contains n).map fun n => (n, x.price)).head?)

/-! ## What a durable write does -/

/-- The label writes: the label's entry takes the write, the item's count and outstanding set follow, and the host is answered or told
(R15 to R17, R25 to R27, R30, R31, R33). A completion with no such write under way does nothing (log entry 2). A label joins and leaves
the outstanding set of its item's slot, and an acknowledgement is judged by the health settings that hold when its write is durable
(log entry 41). The set itself: a label joins it, or leaves it with its tally, and a slot whose set is empty starts its effect write
(R15 to R17, R19), once no pending part of its item is being written (model's reading, log entries 8 and 9). An unbind's write marks
the transmission that was chosen while it was under way (model's choice, log entry 33). The bound label count follows (R25, R26), and
the health watch tells of a label in its scope whose report is out of window, once (R43). -/
def Obligations.LabelWritesDone : Prop :=
  (∀ (s u : State) (w : NvWrite) (pre post : List NvWrite) (l : Label), UnderWay s w pre post →
    { s with nv := pre ++ post } = u →
    (∀ tag label item, w = .bind tag label item → s.label label = l → exec (.labelBindWriteDone label) s = .next (finish
      (reply tag .labelBind .ok .empty (joinOutstanding item label (adjustBound item (· + 1)
        (putLabel { l with state := .active, item := some item, confirmed := none, floor := none, failed := 0 } u)))))) ∧
    (∀ tag label item, w = .unbind tag label item → s.label label = l →
      exec (.labelUnbindWriteDone label) s = .next (finish
        (reply tag .labelUnbind .ok .empty (leaveOutstanding item label 0 0 (adjustBound item (· - 1)
          (putLabel { l with state := .unbound, item := none, confirmed := none, floor := none, failed := 0 }
            { u with lrs := { u.lrs with
              inFlight := u.lrs.inFlight.map fun t => if t.label = label then { t with unboundMark := true } else t } })))))) ∧
    (∀ tag label item, w = .retry tag label → s.label label = l → l.item = some item →
      exec (.labelRetryWriteDone label) s = .next (finish (reply tag .labelRetry .ok .empty
        (joinOutstanding item label (putLabel { l with state := .active, failed := 0 } u))))) ∧
    (∀ a, w = .ack a true → s.label a.label = l → exec (.ackWriteDone a.label) s = .next (finish
      (healthWatch a l.item (reportAck l.item a.label a.price
        (putLabel { l with
            state := .active, confirmed := some a.price, floor := none, failed := 0, battery := some a.battery
            margin := some a.margin, lastAck := a.time } u))))) ∧
    (∀ a, w = .ack a false → s.label a.label = l → exec (.ackWriteDone a.label) s = .next (finish
      (healthWatch a l.item
        (putLabel { l with battery := some a.battery, margin := some a.margin, lastAck := a.time } u)))) ∧
    (∀ label item, w = .unreachable label → s.label label = l → l.item = some item →
      exec (.unreachableWriteDone label) s = .next (finish
        (notify (.labelLost label item l.failed l.confirmed l.floor)
          (leaveOutstanding item label 0 1 (putLabel { l with state := .unreachable } u))))) ∧
    (∀ label price, w = .floor label price → s.label label = l →
      ((∀ t, s.lrs.inFlight = some t → t.label ≠ label ∨ t.phase ≠ .floorWrite) →
        exec (.floorWriteDone label) s = .next (finish (putLabel { l with floor := some price } u))) ∧
      (∀ t n, s.lrs.inFlight = some t → t.label = label → t.phase = .floorWrite → (s.lrs.txCount + 1) % 256 = n →
        ∃ v, putLabel { l with floor := some price } u = v ∧ exec (.floorWriteDone label) s = .next (finish
          { v with
            out := v.out ++ [.priceFrame label n t.price]
            lrs := { v.lrs with
              txCount := n
              inFlight := some { t with number := n, phase := .frame, windowMs := s.settings.nat .ackWindow } } })))) ∧
  (∀ s : State, s.running = true →
    (∀ label, (∀ x ∈ s.nv, NvWrite.target x ≠ (4, label)) → exec (.labelBindWriteDone label) s = .next (finish s)) ∧
    (∀ label, (∀ x ∈ s.nv, NvWrite.target x ≠ (5, label)) → exec (.labelUnbindWriteDone label) s = .next (finish s)) ∧
    (∀ label, (∀ x ∈ s.nv, NvWrite.target x ≠ (6, label)) → exec (.labelRetryWriteDone label) s = .next (finish s)) ∧
    (∀ label, (∀ x ∈ s.nv, NvWrite.target x ≠ (7, label)) → exec (.ackWriteDone label) s = .next (finish s)) ∧
    (∀ label, (∀ x ∈ s.nv, NvWrite.target x ≠ (8, label)) → exec (.unreachableWriteDone label) s = .next (finish s)) ∧
    (∀ label, (∀ x ∈ s.nv, NvWrite.target x ≠ (9, label)) → exec (.floorWriteDone label) s = .next (finish s))) ∧
  (∀ (v : State) (item label : Nat),
    (slotOf v item = none → joinOutstanding item label v = v ∧ checkEffect item v = v ∧
      (∀ a b, leaveOutstanding item label a b v = v) ∧ ∀ price, reportAck (some item) label price v = v) ∧
    (∀ i x, slotOf v item = some i → slotAt v i = some x →
      joinOutstanding item label v = { v with pbk := { v.pbk with
        slots := v.pbk.slots.set i (some { x with outstanding := insertId label x.outstanding }) } } ∧
      (∀ a b, label ∈ x.outstanding → leaveOutstanding item label a b v = checkEffect item { v with pbk := { v.pbk with
        slots := v.pbk.slots.set i (some { x with
          outstanding := x.outstanding.filter (· != label), confirmed := x.confirmed + a
          unreachable := x.unreachable + b }) } }) ∧
      (∀ a b, label ∉ x.outstanding → leaveOutstanding item label a b v = checkEffect item v) ∧
      (∀ price, x.price = price → reportAck (some item) label price v = leaveOutstanding item label 1 0 v) ∧
      (∀ price, x.price ≠ price → reportAck (some item) label price v = v) ∧
      (x.stage = .labelling → x.outstanding = [] → pendingUnderWay v item = false → writesStopped v = false →
        checkEffect item v =
          { v with
            nv := v.nv ++ [.effect item]
            pbk := { v.pbk with slots := v.pbk.slots.set i (some { x with stage := .effecting }) } }) ∧
      (x.stage ≠ .labelling ∨ x.outstanding ≠ [] ∨ pendingUnderWay v item = true → checkEffect item v = v)) ∧
    (∀ l : List Nat, l.Pairwise (· < ·) → (insertId label l).Pairwise (· < ·) ∧
      ∀ n, n ∈ insertId label l ↔ n = label ∨ n ∈ l) ∧
    (pendingUnderWay v item = true ↔ ∃ x, NvWrite.pending x ∈ v.nv ∧ x.item = item) ∧
    (∀ price, reportAck none label price v = v) ∧
    (∀ e f, findItem v item = some e → adjustBound item f v = putItem { e with bound := f e.bound } v) ∧
    (∀ f, findItem v item = none → adjustBound item f v = v)) ∧
  (∀ (v : State) (a : AckReport) (item : Option Nat) (low bad watched : Bool) (l : Label), v.label a.label = l →
    (low = true ↔ (a.battery : Int) < v.settings.num .batteryLow) →
    (bad = true ↔ a.margin < v.settings.num .marginLow ∨ v.settings.num .marginHigh < a.margin) →
    (watched = true ↔ v.settings.num .healthScope = 1 ∨
      v.settings.num .healthScope = 2 ∧ v.settings.nat .scopeLabel = a.label) →
    (watched = true → low = true ∨ bad = true → l.health = false → healthWatch a item v =
      notify (.labelHealth a.label item a.battery a.margin low bad) (putLabel { l with health := true } v)) ∧
    (watched = false ∨ low = false ∧ bad = false ∨ l.health = true → healthWatch a item v = v))

/-- The price book's writes: an entry is added or removed (in two writes, log entry 10), a pending part is written with its change
number, given at issue or revision (log entry 7), and the slot is tied to it, an effect makes the new price current and frees the
slot, and the change queue's writer applies its head write (R2, R3, R12 to R14, R19); how the queue is ordered (R9, R10), a superseded
entry keeping the add flag of either (log entry 34); and how its head is admitted, a non-urgent one while
fewer than 28 slots are non-urgent (R11), once no write of its item's entry is under way (log entry 6). A change that is taken, whoever sent
it: the first refusal of R7's table that applies, answered to the host, told to head office by CHANGE REFUSED, or to the transfer engine;
else a revision, an issue or a join (R7 to R9, R20; counts: log entry 11). A frame to head office joins the PRICE queue below 32, or is
dropped and counted (R20). Between its writes a slot has stages of the model's own (log entry 8). A completion with no such write under way does nothing (log entry 2). -/
def Obligations.PriceWritesDone : Prop :=
  (∀ (s u : State) (w : NvWrite) (pre post : List NvWrite),
    (UnderWay s w pre post → { s with nv := pre ++ post } = u →
      (∀ tag e, w = .itemAdd tag e →
        exec (.itemAddWriteDone e.code) s = .next (finish (reply tag .itemAdd .ok .empty (putItem e u))) ∧
        findItem (putItem e u) e.code = some e) ∧
      (∀ tag item, w = .itemRemove tag item →
        (queueEntryOf s item = none →
          exec (.itemRemoveWriteDone item) s = .next (finish (reply tag .itemRemove .ok .empty (dropItem item u)))) ∧
        ((queueEntryOf s item).isSome → exec (.itemRemoveWriteDone item) s = .next (finish
          (queueWrite { action := .remove item, answer := .itemRemoved tag } (dropItem item u)))) ∧
        findItem (dropItem item u) item = none) ∧
      (∀ x, w = .pending x →
        (∃ t e p, exec (.pendingWriteDone x.item) s = .next t ∧ t.pbk.counter = counterAfter s.pbk.counter x.number ∧
          findItem t x.item = some e ∧ e.pending = some p ∧ p.price = x.price ∧ p.origin = x.origin ∧
          p.number = x.number ∧ (x.urgent = true → p.urgent = true) ∧ (x.revise = false → p.urgent = x.urgent) ∧
          (∀ o, findItem s x.item = some o → e = { o with pending := some p }) ∧
          (findItem s x.item = none → e.price = x.price ∧ e.openPrice = false ∧ e.bound = 0) ∧
          (∀ tag, x.source = .host tag → Answered t tag .priceSet .ok (.changeNumber x.number))) ∧
        (∀ v z, pendingApplied x u = v →
          ((∀ q, queueEntryOf v x.item = some q → x.source ≠ .queue ∧ (x.urgent = false ∨ q.add = true)) → v = z) →
          ((∃ q, queueEntryOf v x.item = some q ∧ (x.source = .queue ∨ x.urgent = true ∧ q.add = false)) →
            queueWrite { action := .remove x.item, answer := .nobody } v = z) →
          (∀ tag, x.source = .host tag → exec (.pendingWriteDone x.item) s =
            .next (finish (checkEffect x.item (reply tag .priceSet .ok (.changeNumber x.number) z)))) ∧
          (x.source = .nightFile → exec (.pendingWriteDone x.item) s =
            .next (finish (checkEffect x.item (nightAnswer true z)))) ∧
          (x.source = .headOffice ∨ x.source = .queue → exec (.pendingWriteDone x.item) s =
            .next (finish (checkEffect x.item z)))) ∧
        (∀ i y, slotOf s x.item = some i → slotAt s i = some y → ∃ e p, findItem (pendingApplied x u) x.item = some e ∧
          e.pending = some p ∧ (x.revise = true → p.urgent = (y.urgent || x.urgent)) ∧
          (x.revise = true → slotAt (pendingApplied x u) i = some
            { y with
              number := p.number, price := p.price, origin := p.origin, urgent := p.urgent
              outstanding := activeLabels s x.item, confirmed := 0, unreachable := 0, stage := .labelling }) ∧
          (x.revise = false → slotAt (pendingApplied x u) i = some { y with stage := .labelling }))) ∧
      (∀ item i x e v, w = .effect item → slotOf s item = some i → slotAt s i = some x → findItem s item = some e →
        notify (.changeDone x.number item x.price x.confirmed x.unreachable)
          (putSlot i none (putItem { e with price := x.price, pending := none } u)) = v →
        (x.origin = .hostRequest → exec (.effectWriteDone item) s = .next (finish v)) ∧
        (x.origin ≠ .hostRequest → exec (.effectWriteDone item) s =
          .next (finish (offerPrice (.changeConfirm item x.price x.number x.confirmed x.unreachable) v))))) ∧
    (s.running = true →
      (s.pbk.ops = [] → exec .queueWriteDone s = .next (finish s)) ∧
      (∀ o rest, s.pbk.ops = o :: rest → writesStopped s = false →
        { s with pbk := { s.pbk with queue := applyQueue o.action s.pbk.queue, ops := rest } } = u →
        (o.answer = .nobody → exec .queueWriteDone s = .next (finish u)) ∧
        (∀ tag, o.answer = .queued (.host tag) →
          exec .queueWriteDone s = .next (finish (reply tag .priceSet .queued .empty u))) ∧
        (o.answer = .queued .headOffice → exec .queueWriteDone s = .next (finish u)) ∧
        (o.answer = .queued .nightFile → exec .queueWriteDone s = .next (finish (nightAnswer true u))) ∧
        (∀ tag, o.answer = .itemRemoved tag →
          exec .queueWriteDone s = .next (finish (reply tag .itemRemove .ok .empty u)) ∧
          ((∀ x ∈ s.nv, NvWrite.target x ≠ (1, o.item)) → exec (.itemRemoveWriteDone o.item) s =
            .next (finish (reply tag .itemRemove .ok .empty u))))) ∧
      (∀ item, (∀ x ∈ s.nv, NvWrite.target x ≠ (0, item)) → exec (.itemAddWriteDone item) s = .next (finish s)) ∧
      (∀ item, (∀ x ∈ s.nv, NvWrite.target x ≠ (2, item)) → exec (.pendingWriteDone item) s = .next (finish s)) ∧
      (∀ item, (∀ x ∈ s.nv, NvWrite.target x ≠ (3, item)) → exec (.effectWriteDone item) s = .next (finish s)))) ∧
  (∀ (e : QueueEntry) (q : List QueueEntry),
    ((∀ x ∈ q, x.item ≠ e.item) →
      (e.urgent = true → applyQueue (.upsert e) q = q.filter (·.urgent) ++ [e] ++ q.filter (!·.urgent)) ∧
      (e.urgent = false → applyQueue (.upsert e) q = q ++ [e])) ∧
    (∀ o e1 r, q.find? (fun x => x.item == e.item) = some o → { e with add := o.add || e.add } = e1 →
      q.filter (fun x => x.item != e.item) = r →
      (o.urgent = e.urgent → applyQueue (.upsert e) q = q.map fun x => if x.item = e.item then e1 else x) ∧
      (o.urgent ≠ e.urgent → applyQueue (.upsert e) q = r.filter (·.urgent) ++ [e1] ++ r.filter (!·.urgent))) ∧
    (∀ item, applyQueue (.remove item) q = q.filter fun x => x.item != item)) ∧
  (∀ (s : State) (q : QueueEntry) (rest : List QueueEntry), s.pbk.queue = q :: rest →
    (keysMeet [.item q.item] (writeKeys s) = true → tryAdmission s = s) ∧
    (keysMeet [.item q.item] (writeKeys s) = false →
      ((slotOf s q.item).isSome → tryAdmission s = reviseChange (entryChange q false) s) ∧
      (slotOf s q.item = none → findItem s q.item = none → q.add = false →
        tryAdmission s = queueWrite { action := .remove q.item, answer := .nobody } s) ∧
      (slotOf s q.item = none → (findItem s q.item).isSome ∨ q.add = true →
        (∀ i, freeSlot s = some i → q.urgent = true ∨ nonUrgentCount s < 28 →
          tryAdmission s = issueChange (entryChange q (findItem s q.item).isNone) i s) ∧
        (freeSlot s = none ∨ q.urgent = false ∧ 28 ≤ nonUrgentCount s → tryAdmission s = s)))) ∧
  (∀ (c : Change) (i n : Nat) (s : State), writesStopped s = false →
    (if s.pbk.taken < 65535 then s.pbk.taken + 1 else 1) = n →
    issueChange c i s =
      { s with
        nv := s.nv ++ [.pending
          { item := c.item, price := c.price, origin := c.origin, urgent := c.urgent, create := c.add, revise := false
            number := n, source := c.source }]
        pbk := { s.pbk with
          taken := n
          slots := s.pbk.slots.set i (some
            { number := n, item := c.item, price := c.price, origin := c.origin, urgent := c.urgent
              outstanding := activeLabels s c.item, issueTime := s.clock0, confirmed := 0, unreachable := 0
              stage := .issuing }) } } ∧
    reviseChange c s =
      { s with
        nv := s.nv ++ [.pending
          { item := c.item, price := c.price, origin := c.origin, urgent := c.urgent, create := false, revise := true
            number := n, source := c.source }]
        pbk := { s.pbk with taken := n } } ∧
    (s.pbk.taken ≤ 65535 → counterAfter s.pbk.taken n = n)) ∧
  (∀ (f : UpFrame) (s : State),
    (s.ulc.priceQ.length < 32 → offerPrice f s = { s with ulc := { s.ulc with priceQ := s.ulc.priceQ ++ [f] } }) ∧
    (32 ≤ s.ulc.priceQ.length → offerPrice f s =
      { s with pbk := { s.pbk with drops := satAdd 65535 s.pbk.drops 1 } })) ∧
  (∀ (c : Change) (s : State) (refused : Result → State),
    (∀ r tag, c.source = .host tag → refused r = reply tag .priceSet r .empty s) →
    (∀ r, c.source = .headOffice → refused r = offerPrice (.changeRefused c.item c.price r) s) →
    (∀ r, c.source = .nightFile → refused r = nightAnswer false s) → c.source ≠ .queue →
    (c.item = 0 ∨ 9999999 < c.price → takeChange c s = refused .range) ∧
    (c.item ≠ 0 → c.price ≤ 9999999 →
      (c.add = true → (findItem s c.item).isSome ∨ addWaits s c.item = true → takeChange c s = refused .exists_) ∧
      (c.add = true → findItem s c.item = none → addWaits s c.item = false → 8192 ≤ bookLoad s →
        takeChange c s = refused .bookFull) ∧
      (c.add = false → findItem s c.item = none → addWaits s c.item = false → takeChange c s = refused .unknownItem) ∧
      (c.add = true ∧ findItem s c.item = none ∧ addWaits s c.item = false ∧ bookLoad s < 8192 ∨
          c.add = false ∧ ((findItem s c.item).isSome ∨ addWaits s c.item = true) →
        (c.urgent = true → (slotOf s c.item).isSome → takeChange c s = reviseChange c s) ∧
        (∀ i, c.urgent = true → slotOf s c.item = none → addWaits s c.item = false → freeSlot s = some i →
          takeChange c s = issueChange c i s) ∧
        (c.urgent = false ∨ slotOf s c.item = none ∧ (addWaits s c.item = true ∨ freeSlot s = none) →
          ((queueEntryOf s c.item).isSome ∨ queueCount s < 8192 → writesStopped s = false → takeChange c s =
            { s with pbk := { s.pbk with ops := s.pbk.ops ++
              [{ action := .upsert
                   { item := c.item, price := c.price, origin := c.origin, add := c.add, urgent := c.urgent }
                 answer := .queued c.source }] } }) ∧
          (queueEntryOf s c.item = none → 8192 ≤ queueCount s → takeChange c s = refused .full)))))

/-- The journal's writes: a durable append joins the list with its sequence, the counter and the exposure with it, a claimed one
consumes a place of its till's claim (R93, R95, R99), and TSU answers the till. A cash or card sale leaves the place IDLE with the last
result SALE_CLOSED, the card's entry removed (R61, R63, R81), and an orphaned place FREE, with a TILL LOST notice (R66, R67). A trace
record makes the place AUTHORIZING and AUZ's entry, which is QUEUED with its frame in the AUTH queue, or goes to fallback and is
reported after the reply (R62, R73, R81). A voided basket leaves the place IDLE, or FREE with a TILL LOST notice when the till was lost
(R59, R65 to R68; the result of BASKET VOIDED: log entry 44). A removal takes the named records out, and the exposure falls by theirs
(R105); those that waited follow, first in first out (model's choice, log entry 47). The writer takes the head append: a claimed one,
and a voided basket that finds a free place and a number, are written under the next sequence and the present time; any other voided
basket is answered NOT_RECORDED (R94 to R96); with the counter at its end none is given a number (R90), to which no claimed one
comes by a claim that was granted (log entry 58). After an append and a removal the level is compared, and JOURNAL LEVEL tells of a rise, or of a fall below 50 % (R101). -/
def Obligations.JournalWritesDone : Prop :=
  ∀ s : State, s.running = true →
    (s.sjr.writing = none → exec .journalAppendDone s = .next (finish s)) ∧
    (∀ w p, s.sjr.writing = some w → placeAt s w.append.till = p →
      ∃ t, exec .journalAppendDone s = .next t ∧ t.sjr.counter = w.seq ∧
        t.sjr.exposure = s.sjr.exposure + w.append.body.exposed ∧
        (t.sjr.records.map fun r => { r with sent := none }) =
          (s.sjr.records.map fun r => { r with sent := none }) ++
            [{ seq := w.seq, till := w.append.till, time := w.time, body := w.append.body, sent := none }] ∧
        (∀ total trace code lost lines, w.append.body = .sale total .cash trace code lost lines →
          Output.till w.append.till (p.addr.getD 0) .tenderCash .saleClosed (.cash w.seq total (w.append.given - total))
            ∈ t.out) ∧
        (∀ total tender trace code lost lines, w.append.body = .sale total tender trace code lost lines →
          tender ≠ .cash → p.state ≠ .orphaned →
          Output.till w.append.till (p.addr.getD 0) .saleClosed .saleClosed (.card w.seq total tender code) ∈ t.out) ∧
        (∀ amount card, w.append.body = .authTrace amount card →
          Output.till w.append.till (p.addr.getD 0) .tenderCard .authorizing (.trace w.seq) ∈ t.out) ∧
        (∀ total lines, w.append.body = .voidedBasket .cancelled total lines →
          Output.till w.append.till (p.addr.getD 0) .saleCancel .ok (.cancelled (some w.seq)) ∈ t.out) ∧
        (∀ total lines, w.append.body = .voidedBasket .close total lines →
          Output.till w.append.till (p.addr.getD 0) .basketVoided .ok (.voided .close (some w.seq)) ∈ t.out)) ∧
    (∀ w t p, s.sjr.writing = some w → w.append.till = t → placeAt s t = p → t < s.tsu.places.length →
      ∃ u v, exec .journalAppendDone s = .next (finish (testTillsDone v)) ∧
        u.tsu = s.tsu ∧ u.auz = s.auz ∧ u.sjr.writing = none ∧ u.sjr.counter = w.seq ∧
        ((∃ r total lines, w.append.body = .voidedBasket r total lines) → u.sjr.claims = s.sjr.claims) ∧
        ((∀ r total lines, w.append.body ≠ .voidedBasket r total lines) →
          u.sjr.claims = s.sjr.claims.modify t (· - 1)) ∧
        (∀ q, { p with state := .idle, basket := [], trace := none, busy := false, lastFrame := s.timer } = q →
          (∀ total trace code lost lines, w.append.body = .sale total .cash trace code lost lines →
            v = emit (.till t (p.addr.getD 0) .tenderCash .saleClosed (.cash w.seq total (w.append.given - total)))
              (putPlace t { q with lastResult := some (.saleClosed w.seq) } u)) ∧
          (∀ total tender trace code lost lines, w.append.body = .sale total tender trace code lost lines →
            tender ≠ .cash → p.state ≠ .orphaned →
            v = emit (.till t (p.addr.getD 0) .saleClosed .saleClosed (.card w.seq total tender code))
              (putPlace t { q with lastResult := some (.saleClosed w.seq) }
                { u with auz := { u.auz with entries := u.auz.entries.filter fun e => e.till != t } })) ∧
          (∀ total lines, w.append.body = .voidedBasket .cancelled total lines →
            v = emit (.till t (p.addr.getD 0) .saleCancel .ok (.cancelled (some w.seq))) (putPlace t q u)) ∧
          (∀ total lines, w.append.body = .voidedBasket .close total lines →
            v = emit (.till t (p.addr.getD 0) .basketVoided .ok (.voided .close (some w.seq))) (putPlace t q u))) ∧
        (∀ q, ({ state := .free, addr := none, lastFrame := s.timer, busy := false, basket := [], trace := none
                 lastResult := none } : Place) = q →
          (∀ total tender trace code lost lines, w.append.body = .sale total tender trace code lost lines →
            tender ≠ .cash → p.state = .orphaned →
            v = putPlace t q (notify
              (.tillLost t p.addr .authorizing p.basket.length (basketTotal p.basket) (.approved w.seq (p.trace.getD 0)))
              { u with auz := { u.auz with entries := u.auz.entries.filter fun e => e.till != t } })) ∧
          (∀ total lines, w.append.body = .voidedBasket .declinedLost total lines →
            v = putPlace t q (notify
              (.tillLost t p.addr .authorizing p.basket.length (basketTotal p.basket)
                (.declined (some w.seq) (p.trace.getD 0)))
              { u with auz := { u.auz with entries := u.auz.entries.filter fun e => e.till != t } })) ∧
          (∀ total lines, w.append.body = .voidedBasket .tillLost total lines →
            v = putPlace t q (notify
              (.tillLost t p.addr .basket p.basket.length (basketTotal p.basket) (.recorded w.seq)) u))) ∧
        (∀ amount card e x, w.append.body = .authTrace amount card → (∀ y ∈ s.auz.entries, y.till ≠ t) →
          ({ till := t, trace := w.seq, amount := amount, card := card, session := none, attempts := 0, state := .queued,
             outcome := none, expiry := none, retryEnd := none } : AuthEntry) = e →
          putPlace t { p with state := .authorizing, trace := some w.seq } u = x →
          (queuingTest u = true →
            v = emit (.till t (p.addr.getD 0) .tenderCard .authorizing (.trace w.seq))
              (putPlace t { p with state := .authorizing, trace := some w.seq, busy := false, lastFrame := s.timer }
                (guestDecide { x with
                  auz := { x.auz with entries := x.auz.entries ++ [{ e with expiry := some u.ulc.t1.counter }] }
                  ulc := { x.ulc with authQ := x.ulc.authQ ++
                    [.authRequest w.seq amount card (u.identity.branch.getD 0)] } }))) ∧
          (∀ o byExposure, queuingTest u = false → fallbackDecision u amount = (o, byExposure) →
            v = reportOutcome t o (emit (.till t (p.addr.getD 0) .tenderCard .authorizing (.trace w.seq))
              (putPlace t { p with state := .authorizing, trace := some w.seq, busy := false, lastFrame := s.timer }
                (decideEntry e o (markExposure amount o byExposure
                  { x with auz := { x.auz with entries := x.auz.entries ++ [e] } })))))) ∧
        ∃ claims, u = guestDecide (compareLevel { s with sjr := { s.sjr with
          records := s.sjr.records ++
            [{ seq := w.seq, till := w.append.till, time := w.time, body := w.append.body, sent := none }]
          counter := w.seq, claims := claims, writing := none, unsent := s.sjr.unsent + 1
          exposure := s.sjr.exposure + w.append.body.exposed } })) ∧
    (s.sjr.removing = none → exec .journalRemovalDone s = .next (finish s)) ∧
    (∀ w gone u v, s.sjr.removing = some w → s.sjr.records.filter (fun r => w.named.contains r.seq) = gone →
      guestDecide (compareLevel { s with sjr := { s.sjr with
        records := s.sjr.records.filter fun r => !w.named.contains r.seq
        exposure := s.sjr.exposure - exposureOf gone, unsent := s.sjr.unsent - unsentOf gone, removing := none } }) = u →
      removalTold w.req gone.length (dropMembers w.named u) = v →
      exec .journalRemovalDone s = .next (finish (nextRemovals v.sjr.removals.length v))) ∧
    (∀ w, s.sjr.removing = some w →
      ∃ t, exec .journalRemovalDone s = .next t ∧ t.sjr.counter = s.sjr.counter ∧
        t.sjr.exposure = s.sjr.exposure - exposureOf (s.sjr.records.filter fun r => w.named.contains r.seq) ∧
        (t.sjr.records.map fun r => { r with sent := none }) =
          (s.sjr.records.filter fun r => !w.named.contains r.seq).map fun r => { r with sent := none }) ∧
    (s.sjr.writing.isSome ∨ s.sjr.queue = [] → takeAppend s = s) ∧
    (∀ a rest fits, s.sjr.writing = none → s.sjr.queue = a :: rest →
      (fits = true ↔ s.sjr.records.length + s.sjr.claims.sum < 32768 ∧ s.sjr.counter + s.sjr.claims.sum < 4294967295) →
      ((∀ r total lines, a.body ≠ .voidedBasket r total lines) → 4294967295 ≤ s.sjr.counter → takeAppend s = s) ∧
      ((∀ r total lines, a.body ≠ .voidedBasket r total lines) ∧ s.sjr.counter < 4294967295 ∨ fits = true →
        writesStopped s = false → takeAppend s =
        { s with sjr := { s.sjr with
            queue := rest, writing := some { append := a, seq := s.sjr.counter + 1, time := s.clock0 } } }) ∧
      (∀ r total lines u p q f, a.body = .voidedBasket r total lines → fits = false →
        { s with sjr := { s.sjr with queue := rest } } = u → placeAt s a.till = p → a.till < s.tsu.places.length →
        { p with state := .idle, basket := [], trace := none, busy := false, lastFrame := s.timer } = q →
        ({ state := .free, addr := none, lastFrame := s.timer, busy := false, basket := [], trace := none
           lastResult := none } : Place) = f →
        (r = .cancelled → takeAppend s = testTillsDone
          (emit (.till a.till (p.addr.getD 0) .saleCancel .ok (.cancelled none)) (putPlace a.till q u))) ∧
        (r = .close → takeAppend s = testTillsDone
          (emit (.till a.till (p.addr.getD 0) .basketVoided .ok (.voided .close none)) (putPlace a.till q u))) ∧
        (r = .tillLost → takeAppend s = testTillsDone (putPlace a.till f (notify
          (.tillLost a.till p.addr .basket p.basket.length (basketTotal p.basket) (.recorded none)) u))) ∧
        (r = .declinedLost → takeAppend s = testTillsDone (putPlace a.till f (notify
          (.tillLost a.till p.addr .authorizing p.basket.length (basketTotal p.basket)
            (.declined none (p.trace.getD 0)))
          { u with auz := { u.auz with entries := u.auz.entries.filter fun e => e.till != a.till } }))))) ∧
    (∀ n, (n < 16384 → levelReached n = .below50) ∧ (16384 ≤ n → n < 24576 → levelReached n = .l50) ∧
      (24576 ≤ n → n < 29492 → levelReached n = .l75) ∧ (29492 ≤ n → n < 32768 → levelReached n = .l90) ∧
      (32768 ≤ n → levelReached n = .l100)) ∧
    (∀ n l j, s.sjr.records.length = n → levelReached n = l → { s.sjr with level := l } = j →
      (s.sjr.level.rank < l.rank ∨ n < 16384 ∧ s.sjr.level ≠ .below50 → compareLevel s =
        notify (.journalLevel
          { level := l, held := n, claimed := s.sjr.claims.sum, free := 32768 - n - s.sjr.claims.sum
            oldest := s.sjr.records.head?.map (·.seq), newest := s.sjr.records.getLast?.map (·.seq)
            unsent := s.sjr.unsent, exposure := s.sjr.exposure }) { s with sjr := j }) ∧
      (l.rank ≤ s.sjr.level.rank → 16384 ≤ n ∨ s.sjr.level = .below50 → compareLevel s = s)) ∧
    Level.below50.rank < Level.l50.rank ∧ Level.l50.rank < Level.l75.rank ∧ Level.l75.rank < Level.l90.rank ∧
    Level.l90.rank < Level.l100.rank

/-- A setting's write: the setting has its new value, and the host is answered, or told of head office's with the source HEAD_OFFICE
(R188, R190). What a new value does: a timeout period whose next tick has passed by it ticks at once (R129); the exposure limit clears
the mark (R83); the AUTH permission has the queuing test applied (R74); the guest service's settings and the shed mark have it decided
again (R102, R151); rate and depth bring the tokens up to date, by the old value and then by the new (R156; log entry 20); refresh that
becomes enabled returns the cursor to 0 (R39); a window takes the frames it no longer lets out from the GUEST queue (R121); any other
does nothing else, so that a running settle time, closing grace, quiet delay, retry delay or notice wait keeps its end (model's choice,
log entry 57). What the value brings about goes before SETTING CHANGED (model's choice, log entry 43). The branch number's write: the
identity record takes it, the queuing test is applied, and the host is answered (R74, R191). A QUEUED entry that fails the test goes to
fallback, in the order of creation (log entry 18). A completion with no such write under way does nothing (log entry 2). -/
def Obligations.SettingWritesDone : Prop :=
  (∀ (s : State) (w : NvWrite) (pre post : List NvWrite), UnderWay s w pre post →
    (∀ id v src x, w = .setting id v src → settingTarget id = some x →
      ∃ u t, exec (.settingWriteDone id) s = .next t ∧ t.settings = putValue s.settings x v ∧ t.identity = s.identity ∧
        (∀ tag, src = .host tag → Answered t tag .settingSet .ok .empty ∧ t = finish (reply tag .settingSet .ok .empty u)) ∧
        (src = .headOffice → t = finish (notify (.settingChanged id (heldValue s.settings x) v .headOffice) u)) ∧
        (∀ y, { s with nv := pre ++ post, settings := putValue s.settings x v } = y →
          (∀ c, x = .num (periodSetting c) →
            (∀ ms, periodMs y.settings c = some ms → (y.ulc.ticks c).lastTick + ms ≤ y.timer → u = tickClass c y) ∧
            (periodMs y.settings c = none → u = y) ∧
            (∀ ms, periodMs y.settings c = some ms → y.timer < (y.ulc.ticks c).lastTick + ms → u = y)) ∧
          (x = .num .exposureLimit → u = { y with auz := { y.auz with mark := false } }) ∧
          (x = .num .backupAuth → u = testQueued y) ∧
          (x = .num .backupGuest ∨ x = .num .guestEnable ∨ x = .num .authShed ∨ x = .num .shedMark → u = guestDecide y) ∧
          (x = .num .rate ∨ x = .num .depth → u = { y with gac := { y.gac with
            sessions := (s.gac.sessions.map fun e => e.map (freshTokens s.settings s.timer)).map
              fun e => e.map (freshTokens y.settings s.timer) } }) ∧
          (x ∈ [SettingId.refreshOpening, .refreshOpen, .refreshClosing, .refreshNight].map SettingTarget.num →
            (refreshEnabled s.settings s.day.store = false → refreshEnabled y.settings s.day.store = true →
              u = { y with lrs := { y.lrs with cursor := 0 } }) ∧
            (refreshEnabled s.settings s.day.store = true ∨ refreshEnabled y.settings s.day.store = false → u = y)) ∧
          ((∃ i, x = .window i) → ∀ keep, y.ulc.guestQ.filter (fun f => match f with
              | .guest _ dest _ => (firstWindow y.settings.windows true dest).any (·.scope == .external)
              | _ => true) = keep →
            u = { y with
              ulc := { y.ulc with guestQ := keep }
              gac := { y.gac with drops := satAdd 4294967295 y.gac.drops (y.ulc.guestQ.length - keep.length) } }) ∧
          ((∀ i, x ≠ .window i) → (∀ c, x ≠ .num (periodSetting c)) →
            x ∉ ([.exposureLimit, .backupAuth, .backupGuest, .guestEnable, .authShed, .shedMark, .rate, .depth,
              .refreshOpening, .refreshOpen, .refreshClosing, .refreshNight] : List SettingId).map SettingTarget.num →
            u = y))) ∧
    (∀ tag n u, w = .branch tag n →
      { s with nv := pre ++ post, identity := { s.identity with branch := some n } } = u →
      exec .branchSetWriteDone s = .next (finish (testQueued (reply tag .branchSet .ok .empty u))) ∧
      ∃ t, exec .branchSetWriteDone s = .next t ∧ t.identity = { s.identity with branch := some n } ∧
        t.settings = s.settings ∧ Answered t tag .branchSet .ok .empty)) ∧
  (∀ s : State, s.running = true →
    (∀ id, (∀ x ∈ s.nv, NvWrite.target x ≠ (10, id)) → exec (.settingWriteDone id) s = .next (finish s)) ∧
    ((∀ x ∈ s.nv, NvWrite.target x ≠ (11, 0)) → exec .branchSetWriteDone s = .next (finish s)) ∧
    (queuingTest s = true → testQueued s = s) ∧
    (queuingTest s = false → testQueued s =
      ((s.auz.entries.filter fun e => e.state == .queued).map (·.trace)).foldl
        (fun u n => match u.auz.entries.find? fun e => e.trace == n with
          | some e => fallback e u
          | none => u) s) ∧
    (queuingTest s = true ↔ ∃ p, s.ulc.active = some p ∧ permittedOn s.settings .auth p = true ∧ s.identity.branch.isSome) ∧
    (∀ (t : Settings) (now : Nat) (e : Session), freshTokens t now e = { e with
      tokenBits := min (t.nat .depth * 8192) (e.tokenBits + (now - e.tokenTime) * t.nat .rate), tokenTime := now }))

/-! ## Authorization -/

/-- The expiries of QUEUED and SENT entries send them to fallback at their tick of T1; an expiry taken as an event brings on the ticks
it still wants, none while T1 is off (model's choice, log entry 1; the entries in order of creation, log entry 18); the retry delay's
end applies the queuing test, and has no effect with no entry in RETRY_WAIT (model's choice, log entry 2); an entry that passes it is
QUEUED with an expiry in T1, its frame with the branch number of that moment joins the AUTH queue, and the guest service is decided again
(R73, R75, R77, R151); a decisive reply decides the entry, or is a late outcome; one whose trace, reason or code is out of range is a route
error (R127, R196; log entry 25); a BUSY is retried up to the limit; and what fallback decides (R75 to R78, R80, R82, R126, R128,
R129). -/
def Obligations.AuthEventsTaken : Prop :=
  ∀ s : State, s.running = true →
    (∀ till, entryOf s till = none → exec (.authWaitExpiry till) s = .next (finish s) ∧
      exec (.authReplyExpiry till) s = .next (finish s) ∧ exec (.authRetryDelayEnd till) s = .next (finish s)) ∧
    (∀ till e, entryOf s till = some e →
      (∀ x n, e.expiry = some x → 4 - (s.ulc.t1.counter - x).toNat = n → (periodMs s.settings .t1).isSome →
        (e.state = .queued → exec (.authWaitExpiry till) s = .next (finish (tickTimes .t1 n (expireDue .t1 s)))) ∧
        (e.state = .sent → exec (.authReplyExpiry till) s = .next (finish (tickTimes .t1 n (expireDue .t1 s))))) ∧
      (e.state ≠ .queued ∨ e.expiry = none ∨ periodMs s.settings .t1 = none →
        exec (.authWaitExpiry till) s = .next (finish s)) ∧
      (e.state ≠ .sent ∨ e.expiry = none ∨ periodMs s.settings .t1 = none →
        exec (.authReplyExpiry till) s = .next (finish s)) ∧
      (∀ x u, e.state = .retryWait → e.retryEnd = some x → advanceTo x s = u →
        (queuingTest u = true → exec (.authRetryDelayEnd till) s = .next (finish (queueEntry e u))) ∧
        (queuingTest u = false → exec (.authRetryDelayEnd till) s = .next (finish (fallback e u)))) ∧
      (e.state ≠ .retryWait ∨ e.retryEnd = none → exec (.authRetryDelayEnd till) s = .next (finish s))) ∧
    (∀ (e : AuthEntry) (v : State), queueEntry e v = guestDecide
      { v with
        auz := { v.auz with entries := v.auz.entries.map fun x =>
          if x.till = e.till then { e with state := .queued, expiry := some v.ulc.t1.counter, retryEnd := none } else x }
        ulc := { v.ulc with authQ := v.ulc.authQ ++
          [.authRequest e.trace e.amount e.card (v.identity.branch.getD 0)] } }) ∧
    (∀ p trace, (s.ulc.path p).state = .up →
      (∀ code, trace = 0 ∨ 4294967295 < trace ∨ code = [] ∨ 8 < code.length →
        exec (.authApproved p trace code) s = .next (finish (routeError s))) ∧
      (∀ reason, trace = 0 ∨ 4294967295 < trace ∨ reason = 0 ∨ 255 < reason →
        exec (.authDeclined p trace reason) s = .next (finish (routeError s))) ∧
      (trace = 0 ∨ 4294967295 < trace → exec (.authBusy p trace) s = .next (finish (routeError s)))) ∧
    (∀ v : State, expireDue .t1 v = fallbackAll ((v.auz.entries.filter fun e =>
        (e.state == .queued || e.state == .sent) && e.expiry.any fun x => expired v.ulc.t1.counter x).map (·.trace)) v) ∧
    (∀ (v : State) (trace : Nat) (rest : List Nat),
      fallbackAll [] v = v ∧
      (entryByTrace v trace = none → fallbackAll (trace :: rest) v = fallbackAll rest v) ∧
      (∀ e, entryByTrace v trace = some e → fallbackAll (trace :: rest) v = fallbackAll rest (fallback e v))) ∧
    (∀ p trace u, (s.ulc.path p).state = .up → wake .headOffice s = u → 1 ≤ trace → trace ≤ 4294967295 →
      (∀ code, 1 ≤ code.length → code.length ≤ 8 →
        (∀ e, entryByTrace s trace = some e → e.state ≠ .decided → exec (.authApproved p trace code) s =
          .next (finish (reportOutcome e.till (.approvedOnline code) (decideEntry e (.approvedOnline code) u)))) ∧
        ((∀ e, entryByTrace s trace = some e → e.state = .decided) → exec (.authApproved p trace code) s =
          .next (finish (notify (.lateOutcome trace (.approvedOnline code) p)
            { u with auz := { u.auz with late := satAdd 4294967295 u.auz.late 1 } })))) ∧
      (∀ reason, 1 ≤ reason → reason ≤ 255 →
        (∀ e, entryByTrace s trace = some e → e.state ≠ .decided → exec (.authDeclined p trace reason) s =
          .next (finish (reportOutcome e.till (.declined (.headOffice reason))
            (decideEntry e (.declined (.headOffice reason)) u)))) ∧
        ((∀ e, entryByTrace s trace = some e → e.state = .decided) → exec (.authDeclined p trace reason) s =
          .next (finish (notify (.lateOutcome trace (.declined (.headOffice reason)) p)
            { u with auz := { u.auz with late := satAdd 4294967295 u.auz.late 1 } })))) ∧
      (∀ e, entryByTrace s trace = some e → e.state = .sent →
        ((e.attempts : Int) ≤ s.settings.num .retryLimit → exec (.authBusy p trace) s = .next (finish
          (putEntry { e with state := .retryWait, expiry := none, retryEnd := some (u.timer + 1000) } u))) ∧
        (s.settings.num .retryLimit < (e.attempts : Int) →
          exec (.authBusy p trace) s = .next (finish (fallback e u)))) ∧
      ((∀ e, entryByTrace s trace = some e → e.state ≠ .sent) → exec (.authBusy p trace) s = .next (finish u))) ∧
    (∀ amount : Nat,
      (s.settings.num .fallbackMode = 0 → (fallbackDecision s amount).1 = .declined .unavailable) ∧
      (s.settings.num .fallbackMode ≠ 0 →
        ((amount : Int) ≤ s.settings.num .floorLimit →
          s.sjr.exposure + s.auz.commitment + amount ≤ s.settings.num .exposureLimit →
          (fallbackDecision s amount).1 = .approvedOffline) ∧
        (s.settings.num .floorLimit < (amount : Int) ∨
            s.settings.num .exposureLimit < s.sjr.exposure + s.auz.commitment + amount →
          (fallbackDecision s amount).1 = .declined .unavailable)))

/-! ## The uplink -/

/-- Carrier, the answers to HELLO, the greeting's expiry, a session's end in its five steps, the end of a frame and the ticks of the
timeout classes with what falls due at them (R107 to R109, R115, R119, R128, R129); and the choice of the active path with what a
change of it does, step by step: the session left behind ends, the new path takes effect, the UPLINK notice is offered, and the queuing
test and the guest service are judged again (R74, R113). Entries that fall back together go in the order they were created (model's
choice, log entry 18), and a path change wakes the part, with its STATE notice, before the UPLINK notice (log entry 19). A tick taken
early comes with the clock taken on to its time, and an expiry taken as an event with the ticks it still wants (log entry 1). A
greeting empties the control frames that waited (log entry 17), the owners of a session's expiries are told in the order AUZ, TXE,
office, whose FORWARD TIMEOUT notices go in the order of the wait list (model's choices, log entry 43), and a refusal's reason out of
range is a link error (R196; log entry 25). A session's grants are taken at most at 7 for a class and 127 for the shared pool, all held and
none in use, and an answer with any above its range counts one link error (R115). -/
def Obligations.SessionsTaken : Prop :=
  ∀ (s : State) (p : Path),
    (∀ u : State, greet p u = putPath p
      { u.ulc.path p with
        state := .helloWait
        control := [.hello u.identity.serial (u.identity.branch.getD 0)]
        helloExpiry := some u.ulc.t2.counter } u) ∧
    (∀ g : Grants, openCredits g =
        { auth := { grant := min g.auth 7, held := min g.auth 7, inUse := 0 }
          price := { grant := min g.price 7, held := min g.price 7, inUse := 0 }
          journal := { grant := min g.journal 7, held := min g.journal 7, inUse := 0 }
          office := { grant := min g.office 7, held := min g.office 7, inUse := 0 }
          guest := { grant := min g.guest 7, held := min g.guest 7, inUse := 0 }
          shared := { grant := min g.shared 127, held := min g.shared 127, inUse := 0 } } ∧
      (grantsTooHigh g = true ↔
        7 < g.auth ∨ 7 < g.price ∨ 7 < g.journal ∨ 7 < g.office ∨ 7 < g.guest ∨ 127 < g.shared)) ∧
    (∀ u : State, linkError u = { u with ulc := { u.ulc with linkErrors := satAdd 65535 u.ulc.linkErrors 1 } }) ∧
    (∀ u : State, sendProbe p u = putPath p
      { u.ulc.path p with
        probes := (u.ulc.path p).probes ++
          [{ number := (u.ulc.path p).probeNumber, sentAt := u.timer, expiry := u.ulc.t2.counter }]
        probeNumber := ((u.ulc.path p).probeNumber + 1) % 256
        nextProbe := some (u.timer + probeMs u)
        control := (u.ulc.path p).control ++ [.probe (u.ulc.path p).probeNumber] } u) ∧
    (∀ (u v : State) (n : Nat), (u.ulc.path p).session = some n →
      officeSessionEnd n (transferSessionEnd n (authSessionEnd n (putPath p { u.ulc.path p with credits := none } u))) = v →
      (v.ulc.path p).credits = none ∧
      ((v.ulc.path p).carrier = true → endPathSession p u =
        greet p (putPath p { v.ulc.path p with probes := [], nextProbe := none, session := none } v)) ∧
      ((v.ulc.path p).carrier = false → endPathSession p u = putPath p
        { resetPath with refusal := (v.ulc.path p).refusal, probeNumber := (v.ulc.path p).probeNumber } v) ∧
      ((endPathSession p u).ulc.path p).session = none ∧ ((endPathSession p u).ulc.path p).state ≠ .up ∧
      ((endPathSession p u).ulc.path p).probes = [] ∧ ((endPathSession p u).ulc.path p).credits = none) ∧
    (∀ (u : State) (n : Nat),
      authSessionEnd n u = fallbackAll
        ((u.auz.entries.filter fun e => e.state == .sent && e.session == some n).map (·.trace)) u ∧
      officeSessionEnd n u = (u.ulc.waits.filter fun w => w.session == n).foldl
        (fun x w => notify (.forwardTimeout w.forward .sessionEnd) x)
        { u with ulc := { u.ulc with waits := u.ulc.waits.filter fun w => w.session != n } } ∧
      (officeSessionEnd n u).ulc.waits = u.ulc.waits.filter (fun w => w.session != n) ∧
      ∀ v, (if (u.txe.batch.bind (·.expiry)).any (fun e => e.session == n) = true then batchBusy u else u) = v →
        transferSessionEnd n u =
          if (v.txe.file.bind (·.expiry)).any (fun e => e.session == n) = true then fileRequestBusy v else v) ∧
    (∀ (u : State) (c : TimeoutClass) (n : Nat), tickTimes c 0 u = u ∧ tickTimes c (n + 1) u = tickTimes c n (tickClass c u)) ∧
    (∀ (u : State) (c : TimeoutClass), periodMs u.settings c = none → tickClass c u = u) ∧
    (∀ (u v : State) (c : TimeoutClass) (ms : Nat), periodMs u.settings c = some ms →
      countTick c (advanceTo ((u.ulc.ticks c).lastTick + ms) u) = v →
      tickClass c u = expireDue c v ∧
      v.ulc.ticks c = { counter := (u.ulc.ticks c).counter + 1, lastTick := max u.timer ((u.ulc.ticks c).lastTick + ms) } ∧
      v.timer = max u.timer ((u.ulc.ticks c).lastTick + ms) ∧ ∀ d, d ≠ c → v.ulc.ticks d = u.ulc.ticks d) ∧
    (∀ u : State,
      expireDue .t2 u = expireProbes .backup (expireProbes .primary (expireHello .backup (expireHello .primary u))) ∧
      ((u.ulc.path p).state = .helloWait → (u.ulc.path p).helloExpiry.any (expired u.ulc.t2.counter) = true →
        expireHello p u = greet p u) ∧
      ((u.ulc.path p).state ≠ .helloWait ∨ (u.ulc.path p).helloExpiry.any (expired u.ulc.t2.counter) = false →
        expireHello p u = u)) ∧
    (∀ u : Ulc,
      (u.primary.state = .up → u.primary.degraded = false → chosenPath u = some .primary) ∧
      (u.primary.state ≠ .up ∨ u.primary.degraded = true → u.backup.state = .up → chosenPath u = some .backup) ∧
      (u.primary.state = .up → u.primary.degraded = true → u.backup.state ≠ .up → chosenPath u = some .primary) ∧
      (u.primary.state ≠ .up → u.backup.state ≠ .up → chosenPath u = none)) ∧
    (∀ (c : PathCause) (u : State),
      (chosenPath u.ulc = u.ulc.active → rechoose c u = u) ∧
      (∀ new v w, chosenPath u.ulc = new → new ≠ u.ulc.active →
        (match u.ulc.active with
          | some q => if (u.ulc.path q).state = PathState.up then endPathSession q u else u
          | none => u) = v →
        wake .pathChange { v with ulc := { v.ulc with active := new } } = w →
        rechoose c u = guestDecide (testQueued (notify
          (.uplink u.ulc.active new c (new.bind fun q => (w.ulc.path q).session) w.ulc.primary.state w.ulc.backup.state
            w.ulc.primary.degraded w.ulc.backup.degraded) w)))) ∧
    (∀ u : State, (queuingTest u = true → testQueued u = u) ∧
      (queuingTest u = false → testQueued u =
        fallbackAll ((u.auz.entries.filter fun e => e.state == .queued).map (·.trace)) u)) ∧
    (s.running = false → exec (.carrierPresent p) s = .next (setWire p true s) ∧
      exec (.carrierAbsent p) s = .next (setWire p false s)) ∧
    (s.running = true →
      (∀ u, putPath p { s.ulc.path p with carrier := true } (setWire p true s) = u →
        ((s.ulc.path p).state = .down → exec (.carrierPresent p) s = .next (finish (greet p u))) ∧
        ((s.ulc.path p).state ≠ .down → exec (.carrierPresent p) s = .next (finish u))) ∧
      (∀ u, putPath p { s.ulc.path p with carrier := false, tx := none, control := [] } (setWire p false s) = u →
        ((s.ulc.path p).state = .up →
          exec (.carrierAbsent p) s = .next (finish (rechoose .carrierLost (endPathSession p u)))) ∧
        ((s.ulc.path p).state ≠ .up → exec (.carrierAbsent p) s = .next (finish (putPath p
          { resetPath with refusal := (s.ulc.path p).refusal, probeNumber := (s.ulc.path p).probeNumber } u)))) ∧
      ((s.ulc.path p).state = .down → ∀ g reason,
        exec (.helloAccept p g) s = .next (finish s) ∧ exec (.helloRefused p reason) s = .next (finish s)) ∧
      ((s.ulc.path p).state = .up → ∀ g reason,
        exec (.helloAccept p g) s = .next (finish (linkError s)) ∧
        exec (.helloRefused p reason) s = .next (finish (linkError s))) ∧
      ((s.ulc.path p).state = .helloWait →
        (∀ g n u, (if s.ulc.sessions < 4294967295 then s.ulc.sessions + 1 else 1) = n →
          putPath p
            { s.ulc.path p with
              state := .up, session := some n, helloExpiry := none, outCount := 0, missed := 0, probes := []
              credits := some (openCredits g), control := [] }
            { s with ulc := { s.ulc with sessions := n } } = u →
          (grantsTooHigh g = false →
            exec (.helloAccept p g) s = .next (finish (rechoose .pathUp (sendProbe p u)))) ∧
          (grantsTooHigh g = true →
            exec (.helloAccept p g) s = .next (finish (rechoose .pathUp (sendProbe p (linkError u)))))) ∧
        (∀ reason, 1 ≤ reason → reason ≤ 255 → exec (.helloRefused p reason) s =
          .next (finish (putPath p { s.ulc.path p with refusal := some reason } s))) ∧
        (∀ reason, reason = 0 ∨ 255 < reason → exec (.helloRefused p reason) s = .next (finish (linkError s))) ∧
        (∀ e n, (s.ulc.path p).helloExpiry = some e → 4 - (s.ulc.t2.counter - e).toNat = n →
          (periodMs s.settings .t2).isSome →
          exec (.helloExpiry p) s = .next (finish (tickTimes .t2 n (expireDue .t2 s))))) ∧
      ((s.ulc.path p).state ≠ .helloWait ∨ (s.ulc.path p).helloExpiry = none ∨ periodMs s.settings .t2 = none →
        exec (.helloExpiry p) s = .next (finish s)) ∧
      exec (.uplinkTxEnd p) s = .next (finish (putPath p { s.ulc.path p with tx := none } s)) ∧
      (∀ c, exec (.timeoutTick c) s = .next (finish (tickClass c s))))

/-- A probe is sent when it falls due, answered, or missed, the third miss in a row ending the session (R110 to R112); a CREDIT
frame moves credits back from in use, and one beyond them is a route error too (R116); which classes have a usable credit, and
which credit is spent (R117); and the arbiter's order of classes, what a class needs to qualify, its permission on each path, and
what taking a frame does (R118 to R120; the arbiter's moments: AfterEffectsKeepTheRest and log entry 70). What the owner of a frame sent
does: an authorization entry is SENT with one more attempt, the session and an expiry in T1, and the guest service is decided again (R75,
R151); a record is SENT with its batch, which counts the frame, its first time and the session (R98, R135); the FILE REQUEST is SENT with
its first time and an expiry in T3 (R144, R146); an OFFICE frame that wants a reply joins the wait list with the session and an expiry in
T4 (R119, R124); any other frame has no owner to tell. A probe or an expiry taken early comes with its time or its ticks (model's choice, log
entry 1), an event with nothing armed does nothing (log entry 2), and a permission is the setting's first name (log entry 23). -/
def Obligations.ProbesAndCreditsTaken : Prop :=
  ∀ (s : State) (p : Path) (r : PathRec), s.running = true → s.ulc.path p = r →
    (r.state ≠ .up ∨ r.nextProbe = none → exec (.probeDue p) s = .next (finish s)) ∧
    (∀ x u, r.state = .up → r.nextProbe = some x → advanceTo x s = u →
      (r.probes.length < 4 → exec (.probeDue p) s = .next (finish (sendProbe p u))) ∧
      (∀ y rest v, r.probes = y :: rest → 4 ≤ r.probes.length → probeMissed p y.number u = v →
        ((v.ulc.path p).state = .up → (v.ulc.path p).session = r.session →
          exec (.probeDue p) s = .next (finish (sendProbe p v))) ∧
        ((v.ulc.path p).state ≠ .up ∨ (v.ulc.path p).session ≠ r.session →
          exec (.probeDue p) s = .next (finish v)))) ∧
    (∀ number,
      ((∀ x ∈ r.probes, x.number ≠ number) ∨ periodMs s.settings .t2 = none →
        exec (.probeExpiry p number) s = .next (finish s)) ∧
      (∀ x n, r.probes.find? (fun y => y.number == number) = some x → 4 - (s.ulc.t2.counter - x.expiry).toNat = n →
        (periodMs s.settings .t2).isSome →
        exec (.probeExpiry p number) s = .next (finish (tickTimes .t2 n (expireDue .t2 s))))) ∧
    (expireProbes p s = ((r.probes.filter fun x => expired s.ulc.t2.counter x.expiry).map (·.number)).foldl
      (fun u n => missNumber p n u) s) ∧
    (∀ number v, putPath p { r with probes := r.probes.filter (fun x => x.number != number), missed := r.missed + 1 } s = v →
      ((∀ x ∈ r.probes, x.number ≠ number) → missNumber p number s = s) ∧
      ((∃ x ∈ r.probes, x.number = number) →
        (r.missed + 1 < 3 → missNumber p number s = v) ∧
        (3 ≤ r.missed + 1 → missNumber p number s = rechoose .probesMissed (endPathSession p v)))) ∧
    (r.state = .up →
      (∀ number, (∀ x ∈ r.probes, x.number ≠ number) → exec (.probeReply p number) s = .next (finish s)) ∧
      (∀ number x rt, r.probes.find? (fun y => y.number == number) = some x → s.timer - x.sentAt = rt →
        (qualityScoped s.settings p = false → exec (.probeReply p number) s = .next (finish (putPath p
          { r with probes := r.probes.filter (fun y => y.number != number), roundTrip := some rt, missed := 0 } s))) ∧
        (qualityScoped s.settings p = true → rt ≤ s.settings.nat .qualityHigh →
          ∀ v, putPath p
              { r with
                probes := r.probes.filter (fun y => y.number != number), roundTrip := some rt, missed := 0, outCount := 0
                degraded := false } s = v →
            (r.degraded = false → exec (.probeReply p number) s = .next (finish v)) ∧
            (r.degraded = true → exec (.probeReply p number) s = .next (finish (rechoose .recovered v)))) ∧
        (qualityScoped s.settings p = true → s.settings.nat .qualityHigh < rt → ∀ n v, satAdd 8 r.outCount 1 = n →
          putPath p
              { r with
                probes := r.probes.filter (fun y => y.number != number), roundTrip := some rt, missed := 0, outCount := n
                degraded := r.degraded || decide (s.settings.nat .qualityCount ≤ n) } s = v →
            (r.degraded = true ∨ n < s.settings.nat .qualityCount →
              exec (.probeReply p number) s = .next (finish v)) ∧
            (r.degraded = false → s.settings.nat .qualityCount ≤ n →
              exec (.probeReply p number) s = .next (finish (rechoose .degraded v))))) ∧
      (∀ target count, 5 < target ∨ count = 0 ∨ 127 < count →
        exec (.credit p target count) s = .next (finish (routeError s))) ∧
      (∀ c target k count v, r.credits = some c → classes[target]? = some k → 1 ≤ count → count ≤ 127 →
        putPath p { r with credits := some (c.put k
          { grant := (c.get k).grant, held := (c.get k).held + min count (c.get k).inUse
            inUse := (c.get k).inUse - min count (c.get k).inUse }) } s = v →
        (count ≤ (c.get k).inUse → exec (.credit p target count) s = .next (finish v)) ∧
        ((c.get k).inUse < count → exec (.credit p target count) s = .next (finish (routeError v)))) ∧
      (∀ c count v, r.credits = some c → 1 ≤ count → count ≤ 127 →
        putPath p { r with credits := some { c with shared :=
          { grant := c.shared.grant, held := c.shared.held + min count c.shared.inUse
            inUse := c.shared.inUse - min count c.shared.inUse } } } s = v →
        (count ≤ c.shared.inUse → exec (.credit p 5 count) s = .next (finish v)) ∧
        (c.shared.inUse < count → exec (.credit p 5 count) s = .next (finish (routeError v))))) ∧
    (∀ c k,
      (k = .auth ∨ k = .price ∨ k = .journal →
        (usableCredit s.settings c k = true ↔ 0 < (c.get k).held ∨ 0 < c.shared.held)) ∧
      (k = .office ∨ k = .guest →
        (usableCredit s.settings c k = true ↔ 0 < (c.get k).held ∨ s.settings.nat .sharedFloor < c.shared.held)) ∧
      (0 < (c.get k).held → spendCredit c k = c.put k
        { grant := (c.get k).grant, held := (c.get k).held - 1, inUse := (c.get k).inUse + 1 }) ∧
      ((c.get k).held = 0 → spendCredit c k = { c with shared :=
        { grant := c.shared.grant, held := c.shared.held - 1, inUse := c.shared.inUse + 1 } })) ∧
    (s.day.store = .opened ∨ s.day.store = .closing →
      (promoteReached s = false → arbiterOrder s = [.auth, .price, .journal, .office, .guest]) ∧
      (promoteReached s = true → arbiterOrder s = [.auth, .journal, .price, .office, .guest])) ∧
    (s.day.store = .opening ∨ s.day.store = .night ∨ s.day.store = .quiet →
      arbiterOrder s = [.auth, .journal, .price, .office]) ∧
    (∀ k, permittedOn s.settings k .primary = true) ∧
    (∀ k n, (k, n) ∈ [(Machine.Class.auth, SettingId.backupAuth), (.price, .backupPrice), (.journal, .backupJournal),
        (.office, .backupOffice), (.guest, .backupGuest)] →
      (permittedOn s.settings k .backup = true ↔ s.settings.on n = true)) ∧
    (∀ c k,
      (s.ulc.queue k = [] → classQualifies s p c k = false) ∧
      (∀ f rest, s.ulc.queue k = f :: rest → (classQualifies s p c k = true ↔
        permittedOn s.settings k p = true ∧ usableCredit s.settings c k = true ∧
        (k = .office → f.wantsReply = false ∨ s.ulc.waits.length < 32) ∧ (k = .guest → s.gac.service = .opened)))) ∧
    (r.tx.isSome → pump p s = s) ∧
    (∀ f rest, r.tx = none → r.control = f :: rest →
      pump p s = transmit p (controlFrame s f) (putPath p { r with control := rest } s)) ∧
    (r.tx = none → r.control = [] →
      (s.ulc.active ≠ some p ∨ r.credits = none → pump p s = s) ∧
      (∀ c, s.ulc.active = some p → r.credits = some c →
        ((∀ k ∈ arbiterOrder s, classQualifies s p c k = false) → pump p s = s) ∧
        (∀ before k after f rest, arbiterOrder s = before ++ k :: after → (∀ j ∈ before, classQualifies s p c j = false) →
          classQualifies s p c k = true → s.ulc.queue k = f :: rest →
          pump p s = frameSent f (r.session.getD 0) (emit (.uplink p f)
            (putPath p { r with credits := some (spendCredit c k), tx := some f }
              { s with ulc := s.ulc.putQueue k rest }))))) ∧
    (∀ (f : UpFrame) (n : Nat) (v : State),
      (∀ trace amount card branch, f = .authRequest trace amount card branch →
        (∀ e, entryByTrace v trace = some e → frameSent f n v = guestDecide { v with auz := { v.auz with
          entries := v.auz.entries.map fun x =>
            if x.till = e.till then
              { e with state := .sent, attempts := e.attempts + 1, session := some n, expiry := some v.ulc.t1.counter }
            else x } }) ∧
        (entryByTrace v trace = none → frameSent f n v = guestDecide v)) ∧
      (∀ batch place count r u, f = .journalRecord batch place count r →
        { v with sjr := { v.sjr with
          records := v.sjr.records.map fun x => if x.seq = r.seq then { x with sent := some batch } else x
          unsent := v.sjr.unsent - v.sjr.records.countP fun x => x.seq == r.seq && x.sent.isNone } } = u →
        (∀ b, v.txe.batch = some b → b.number = batch → frameSent f n v = { u with txe := { u.txe with
          batch := some { b with
            framesSent := b.framesSent + 1, firstSent := some (b.firstSent.getD v.timer), lastSession := n } } }) ∧
        ((∀ b, v.txe.batch = some b → b.number ≠ batch) → frameSent f n v = u)) ∧
      (∀ piece branch, f = .fileRequest piece branch →
        (∀ x, v.txe.file = some x → x.state = .queued → frameSent f n v = { v with txe := { v.txe with
          file := some { x with
            state := .sent, firstSent := some (x.firstSent.getD v.timer)
            expiry := some { tick := v.ulc.t3.counter, session := n } } } }) ∧
        ((∀ x, v.txe.file = some x → x.state ≠ .queued) → frameSent f n v = v)) ∧
      (∀ m dest payload, f = .office m dest true payload → frameSent f n v = { v with ulc := { v.ulc with
        waits := v.ulc.waits ++ [{ forward := m, session := n, expiry := v.ulc.t4.counter }] } }) ∧
      ((∀ trace amount card branch, f ≠ .authRequest trace amount card branch) →
        (∀ batch place count r, f ≠ .journalRecord batch place count r) → (∀ piece branch, f ≠ .fileRequest piece branch) →
        f.wantsReply = false → frameSent f n v = v))

/-- Frames from head office: none is received on a DOWN path, and one on a path in HELLO_WAIT is a link error (R125); an unsolicited
one is dropped while the route table is off, a route error when it names no route or its fields are out of range, and else handed to
its owner, which wakes the part (R127, R130); one for a setting that is being written waits for that write, in range or not. A setting
message is judged when it is taken: a route error when out of range then, SETTING CHANGED with the value held already, else its write
starts, lock or no lock (R189, R190); what PBK does with a change is in PriceWritesDone. Office replies and their expiries, taken at their tick of T4 or as an event that brings
on the ticks it still wants (R124, R128, R192; log entry 1), one for a record that is not there having no effect (log entry 2). -/
def Obligations.HeadOfficeFramesTaken : Prop :=
  ∀ (s u : State) (p : Path), s.running = true → wake .headOffice s = u →
    (∀ c, fromHeadOffice c = some p →
      ((s.ulc.path p).state = .down → exec c s = .next (finish s)) ∧
      ((s.ulc.path p).state = .helloWait → exec c s = .next (finish (linkError s)))) ∧
    ((s.ulc.path p).state = .up →
      (s.settings.on .routeTable = false → ∀ item price urgent id v value command kind,
        exec (.priceChange p item price urgent) s = .next (finish s) ∧ exec (.settings p id v) s = .next (finish s) ∧
        exec (.headOfficeTimeSet p value) s = .next (finish s) ∧ exec (.nightControl p command) s = .next (finish s) ∧
        exec (.unroutedUplinkFrame p kind) s = .next (finish s)) ∧
      (s.settings.on .routeTable = true →
        (∀ item price urgent, exec (.priceChange p item price urgent) s = .next (finish (queueWork (.change
          { item := item, price := price, origin := .headOffice, urgent := urgent, add := false, source := .headOffice })
          u))) ∧
        (∀ id v, settingTarget id = none → exec (.settings p id v) s = .next (finish (routeError s))) ∧
        (∀ id v x, settingTarget id = some x →
          (settingTakes s.settings x v = true →
            exec (.settings p id v) s = .next (finish (queueWork (.setting id v .headOffice) u))) ∧
          (settingTakes s.settings x v = false → keysMeet [settingKey id] (writeKeys s) = false →
            exec (.settings p id v) s = .next (finish (routeError s))) ∧
          (settingTakes s.settings x v = false → keysMeet [settingKey id] (writeKeys s) = true →
            exec (.settings p id v) s = .next (finish (queueWork (.setting id v .headOffice) u)))) ∧
        (∀ value, value ≤ 4294967295 →
          exec (.headOfficeTimeSet p value) s = .next (finish (timeSet value .headOffice u))) ∧
        (∀ value, 4294967295 < value → exec (.headOfficeTimeSet p value) s = .next (finish (routeError s))) ∧
        (u.day.store = .night → u.txe.run.state = .notStarted ∨ u.txe.run.state = .ended →
          exec (.nightControl p 0) s = .next (finish { u with txe := { u.txe with
            run :=
              { state := .upload, cause := some .headOffice, startTime := some u.clock0, endTime := none, upload := none,
                download := none, uploaded := 0, received := 0, rejected := 0 }
            runBase := u.txe.counts
            abortDue := false
            batch := u.txe.batch.map fun b => { b with owner := .night } } })) ∧
        (u.day.store ≠ .night ∨ u.txe.run.state = .upload ∨ u.txe.run.state = .download →
          exec (.nightControl p 0) s = .next (finish u)) ∧
        (∀ command, command ≠ 0 → exec (.nightControl p command) s = .next (finish (routeError s))) ∧
        (∀ kind, exec (.unroutedUplinkFrame p kind) s = .next (finish (routeError s)))) ∧
      (∀ n payload, n = 0 ∨ 65535 < n → exec (.officeReply p n payload) s = .next (finish (routeError s))) ∧
      (∀ n payload v, 1 ≤ n → n ≤ 65535 →
        { u with ulc := { u.ulc with waits := u.ulc.waits.eraseP fun w => w.forward == n } } = v →
        (u.hlk.standalone = none → exec (.officeReply p n payload) s = .next (finish
          (notify (.inbound n (!u.ulc.waits.any fun w => w.forward == n) p (payload.take 1000)
            (decide (1000 < payload.length))) v))) ∧
        (u.hlk.standalone.isSome → exec (.officeReply p n payload) s = .next (finish
          { v with hlk := { v.hlk with officeDrops := satAdd 65535 v.hlk.officeDrops 1 } })))) ∧
    (∀ n w k, s.ulc.waits.find? (fun x => x.forward == n) = some w → 4 - (s.ulc.t4.counter - w.expiry).toNat = k →
      (periodMs s.settings .t4).isSome →
      exec (.officeReplyExpiry n) s = .next (finish (tickTimes .t4 k (expireDue .t4 s)))) ∧
    (∀ n, (∀ w ∈ s.ulc.waits, w.forward ≠ n) ∨ periodMs s.settings .t4 = none →
      exec (.officeReplyExpiry n) s = .next (finish s)) ∧
    expireDue .t4 s = (s.ulc.waits.filter fun w => expired s.ulc.t4.counter w.expiry).foldl
      (fun x w => notify (.forwardTimeout w.forward .expired) x)
      { s with ulc := { s.ulc with waits := s.ulc.waits.filter fun w => !expired s.ulc.t4.counter w.expiry } } ∧
    (∀ (id : Nat) (x : SettingValue) (v r : State), takeWork (.setting id x .headOffice) v = r →
      (settingTarget id = none → r = routeError v) ∧
      (∀ y, settingTarget id = some y →
        (settingTakes v.settings y x = false → r = routeError v) ∧
        (settingTakes v.settings y x = true → heldValue v.settings y = x →
          r = notify (.settingChanged id x x .headOffice) v) ∧
        (settingTakes v.settings y x = true → heldValue v.settings y ≠ x → writesStopped v = false →
          r = { v with nv := v.nv ++ [.setting id x .headOffice] })))

/-! ## Transfer -/

/-- A batch is acknowledged, told BUSY, or waits too long; its retry delay and the trickle pause end; and the same of the price file
request, whose piece or NO_FILE is an answer to it or comes late (R105, R128, R136 to R140, R145, R146, R148). A batch whose ACCEPTED
has been taken no longer expires, and OPENING entry's abort waits for such a batch or for a piece being fed (log entry 48). An early
event comes with its time or its ticks (log entry 1); one with nothing armed does nothing (log entry 2). Removals queue (log entry 47).
How a batch is aborted, the upload fails and the run ends with its NIGHT REPORT (R138, R143, R147), which waits for no removal (log
entry 48); what a removal's number does (R136, R143); how the next batch is formed of the oldest UNSENT records, resumed, offered to
the JOURNAL queue member by member (places from 1, over the members that are left: model's choices, log entry 22) and left waiting for its acknowledgement (R134, R135, R137, R140,
R143), or ended with no member left (at a resume, and what a drop of the last offers does: log entry 69); how the FILE REQUEST joins
the PRICE queue, with the branch number of that moment, 0 while unset (model's choice, log entry 66), when the change queue has room
for 32, joins on their way counted (model's reading, log entry 11); and how a piece's changes are handed over one at a time (R144,
R145). -/
def Obligations.TransferEventsTaken : Prop :=
  (∀ (s u : State) (p : Path), s.running = true → wake .headOffice s = u →
    ((s.ulc.path p).state = .up →
      (∀ batch first last, 1 ≤ first → first ≤ 4294967295 → 1 ≤ last → last ≤ 4294967295 →
        (∀ b, u.txe.batch = some b → b.number = batch → exec (.batchAckAccepted p batch first last) s =
          .next (finish (askRemoval
            { first := first, last := last, batch := some batch, counts := u.txe.run.state.going }
            { u with txe := { u.txe with
                batch := some { b with accepted := true, expiry := none, retryEnd := none } } }))) ∧
        ((∀ b, u.txe.batch = some b → b.number ≠ batch) → exec (.batchAckAccepted p batch first last) s =
          .next (finish (askRemoval
            { first := first, last := last, batch := none, counts := u.txe.run.state.going }
            { u with txe := { u.txe with counts := { u.txe.counts with lateAcks := u.txe.counts.lateAcks + 1 } } })))) ∧
      (∀ batch first last, first = 0 ∨ 4294967295 < first ∨ last = 0 ∨ 4294967295 < last →
        exec (.batchAckAccepted p batch first last) s = .next (finish (routeError s))) ∧
      (∀ batch,
        (∀ b, u.txe.batch = some b → b.number = batch →
          exec (.batchAckBusy p batch) s = .next (finish (batchBusy u))) ∧
        ((∀ b, u.txe.batch = some b → b.number ≠ batch) → exec (.batchAckBusy p batch) s = .next (finish u))) ∧
      (∀ number last changes, 32 < changes.length →
        exec (.piece p number last changes) s = .next (finish (linkError s))) ∧
      (∀ number last changes, changes.length ≤ 32 →
        (∀ f, answersRequest u number = some f → exec (.piece p number last changes) s = .next (finish
          { u with
            ulc := { u.ulc with priceQ := u.ulc.priceQ.filter fun x => !x.isFileRequest }
            txe := { u.txe with
              file := some { f with
                state := .feeding, expiry := none, retryEnd := none, feed := changes, last := last, awaiting := false }
              run := { u.txe.run with received := u.txe.run.received + changes.length } } })) ∧
        (answersRequest u number = none → exec (.piece p number last changes) s = .next (finish
          { u with txe := { u.txe with
              counts := { u.txe.counts with latePieces := u.txe.counts.latePieces + 1 } } }))) ∧
      (∀ number, (answersRequest u number).isSome → exec (.noFile p number) s = .next (finish (endRun .failed .ok u))) ∧
      (∀ number, answersRequest u number = none → exec (.noFile p number) s = .next (finish
        { u with txe := { u.txe with counts := { u.txe.counts with latePieces := u.txe.counts.latePieces + 1 } } })) ∧
      (∀ number, number = u.txe.pieceNumber → exec (.fileBusy p number) s = .next (finish (fileRequestBusy u))) ∧
      (∀ number, number ≠ u.txe.pieceNumber → exec (.fileBusy p number) s = .next (finish u))) ∧
    (∀ (v : State) (b : Batch), v.txe.batch = some b →
      (b.state = .waitingAck → b.accepted = false → windowOpen v b.firstSent = true →
        batchBusy v = { v with txe := { v.txe with
          batch := some { b with state := .retryWait, expiry := none, retryEnd := some (v.timer + retryDelayMs v) } } }) ∧
      (b.state = .waitingAck → b.accepted = false → windowOpen v b.firstSent = false →
        batchBusy v = failUpload b.owner (abortBatch v)) ∧
      (b.state ≠ .waitingAck ∨ b.accepted = true → batchBusy v = v)) ∧
    (∀ (v : State) (f : FileRequest), v.txe.file = some f →
      (f.state = .sent → windowOpen v f.firstSent = true → fileRequestBusy v = { v with txe := { v.txe with
        file := some { f with state := .retryWait, expiry := none, retryEnd := some (v.timer + retryDelayMs v) } } }) ∧
      (f.state = .sent → windowOpen v f.firstSent = false → fileRequestBusy v = endRun .failed .failed v) ∧
      (f.state ≠ .sent → fileRequestBusy v = v)) ∧
    (∀ (v : State) (q : Removal),
      (v.sjr.removing.isSome → askRemoval q v = { v with sjr := { v.sjr with removals := v.sjr.removals ++ [q] } }) ∧
      (v.sjr.removing = none → rangeHeld v.sjr q.first q.last = [] → askRemoval q v = removalTold q 0 v) ∧
      (v.sjr.removing = none → rangeHeld v.sjr q.first q.last ≠ [] → writesStopped v = false → askRemoval q v =
        { v with sjr := { v.sjr with
            removing := some { req := q, named := rangeHeld v.sjr q.first q.last } } })) ∧
    (∀ v w : State,
      (if (v.txe.batch.bind (·.expiry)).any (fun e => expired v.ulc.t3.counter e.tick) = true then batchBusy v else v) = w →
      expireDue .t3 v =
        if (w.txe.file.bind (·.expiry)).any (fun e => expired w.ulc.t3.counter e.tick) = true then fileRequestBusy w
        else w) ∧
    (∀ v : State,
      (v.txe.run.state = .upload → abortNow v = endRun .aborted .skipped v) ∧
      (v.txe.run.state = .download → abortNow v = endRun .failed .aborted v) ∧
      (v.txe.run.state.going = false → abortNow v = v) ∧
      (v.txe.abortDue = true → replyPending v = false →
        settleAbort v = abortNow { v with txe := { v.txe with abortDue := false } }) ∧
      (v.txe.abortDue = false ∨ replyPending v = true → settleAbort v = v) ∧
      abortRun v = settleAbort { v with txe := { v.txe with abortDue := v.txe.run.state.going } } ∧
      (replyPending v = true ↔ v.txe.run.state.going = true ∧
        ((∃ w, v.sjr.removing = some w ∧ w.req.counts = true) ∨ (∃ q ∈ v.sjr.removals, q.counts = true) ∨
          ∃ f, v.txe.file = some f ∧ f.state = .feeding))) ∧
    (∀ b e n, s.txe.batch = some b → b.expiry = some e → 4 - (s.ulc.t3.counter - e.tick).toNat = n →
      (periodMs s.settings .t3).isSome →
      exec .batchExpiry s = .next (finish (tickTimes .t3 n (expireDue .t3 s)))) ∧
    ((∀ b, s.txe.batch = some b → b.expiry = none) ∨ periodMs s.settings .t3 = none →
      exec .batchExpiry s = .next (finish s)) ∧
    (∀ b x v, s.txe.batch = some b → b.retryEnd = some x → advanceTo x s = v → exec .batchRetryDelayEnd s =
      .next (finish { v with txe := { v.txe with batch := some { b with retryEnd := none } } })) ∧
    ((∀ b, s.txe.batch = some b → b.retryEnd = none) → exec .batchRetryDelayEnd s = .next (finish s)) ∧
    (∀ x v, s.txe.pauseEnd = some x → advanceTo x s = v →
      exec .tricklePauseEnd s = .next (finish { v with txe := { v.txe with pauseEnd := none } })) ∧
    (s.txe.pauseEnd = none → exec .tricklePauseEnd s = .next (finish s)) ∧
    (∀ f e n, s.txe.file = some f → f.expiry = some e → 4 - (s.ulc.t3.counter - e.tick).toNat = n →
      (periodMs s.settings .t3).isSome →
      exec .fileRequestExpiry s = .next (finish (tickTimes .t3 n (expireDue .t3 s)))) ∧
    ((∀ f, s.txe.file = some f → f.expiry = none) ∨ periodMs s.settings .t3 = none →
      exec .fileRequestExpiry s = .next (finish s)) ∧
    (∀ f x v, s.txe.file = some f → f.state = .retryWait → f.retryEnd = some x → advanceTo x s = v →
      exec .fileRetryDelayEnd s = .next (finish { v with txe := { v.txe with
        file := some { f with state := .waitingRoom, retryEnd := none } } })) ∧
    ((∀ f, s.txe.file = some f → f.state ≠ .retryWait ∨ f.retryEnd = none) →
      exec .fileRetryDelayEnd s = .next (finish s))) ∧
  (∀ v : State,
    (v.txe.batch = none → abortBatch v = v) ∧
    (∀ b, v.txe.batch = some b → abortBatch v =
      { v with
        ulc := { v.ulc with journalQ := v.ulc.journalQ.filter fun f => !f.inBatch b.number }
        sjr := { v.sjr with
          records := v.sjr.records.map fun r => if r.sent = some b.number then { r with sent := none } else r
          unsent := v.sjr.unsent + v.sjr.records.countP fun r => r.sent == some b.number }
        txe := { v.txe with
          batch := none
          counts := { v.txe.counts with aborts := v.txe.counts.aborts + 1 }
          pauseEnd := if b.owner = .trickle then some (v.timer + 1000 * v.settings.nat .retryDelay) else v.txe.pauseEnd } }) ∧
    retryDelayMs v = 1000 * v.settings.nat .retryDelay ∧
    (windowOpen v none = true ∧ ∀ x, windowOpen v (some x) = true ↔ v.timer - x < 60000 * v.settings.nat .retryWindow) ∧
    (∀ result, beginDownload result v = { v with txe := { v.txe with
      run := { v.txe.run with state := .download, upload := some result }
      pieceNumber := 0
      file := some
        { state := .waitingRoom, firstSent := none, expiry := none, retryEnd := none, feed := [], last := false
          awaiting := false } } }) ∧
    (v.txe.run.state = .upload → failUpload .night v = beginDownload .failed v) ∧
    (∀ o, o ≠ .night ∨ v.txe.run.state ≠ .upload → failUpload o v = v) ∧
    (∀ up down y z, abortBatch { v with txe := { v.txe with run := { v.txe.run with
        download := some down, upload := some (v.txe.run.upload.getD up) } } } = y →
      { y with
        ulc := { y.ulc with priceQ := y.ulc.priceQ.filter fun f => !f.isFileRequest }
        txe := { y.txe with
          file := none, run := { y.txe.run with endTime := some y.clock0, state := .ended } } } = z →
      endRun up down v = notify
        (.nightReport z.txe.run z.sjr.unsent z.pbk.queue.length
          { aborts := z.txe.counts.aborts - z.txe.runBase.aborts
            lateAcks := z.txe.counts.lateAcks - z.txe.runBase.lateAcks
            latePieces := z.txe.counts.latePieces - z.txe.runBase.latePieces }) z) ∧
    (∀ q n y, (if q.counts = true then
        { v with txe := { v.txe with run := { v.txe.run with uploaded := v.txe.run.uploaded + n } } } else v) = y →
      (∀ b, q.batch = some b.number → v.txe.batch = some b → removalTold q n v =
        { y with
          ulc := { y.ulc with journalQ := y.ulc.journalQ.filter fun f => !f.inBatch b.number }
          sjr := { y.sjr with
            records := y.sjr.records.map fun r => if r.sent = some b.number then { r with sent := none } else r
            unsent := y.sjr.unsent + y.sjr.records.countP fun r => r.sent == some b.number }
          txe := { y.txe with batch := none } }) ∧
      ((∀ b, v.txe.batch = some b → q.batch ≠ some b.number) → removalTold q n v = y))) ∧
  (∀ v : State,
    (trickleMaySend v = true ↔ (v.day.store = .opened ∨ v.day.store = .closing) ∧ v.settings.on .trickleEnable = true ∧
      (∃ p, v.ulc.active = some p ∧ permittedOn v.settings .journal p = true) ∧ v.txe.pauseEnd = none) ∧
    (v.txe.batch.isSome → formNext v = v) ∧
    (v.txe.batch = none →
      (v.txe.run.state = .upload → v.sjr.unsent = 0 → formNext v = beginDownload .ok v) ∧
      (v.txe.run.state = .upload → v.sjr.unsent ≠ 0 → v.ulc.active = none → formNext v = v) ∧
      (∀ owner size members, (owner = .night ∧ v.txe.run.state = .upload ∧ v.sjr.unsent ≠ 0 ∧ v.ulc.active ≠ none ∧
          size = v.settings.nat .nightSize ∨
          owner = .trickle ∧ v.txe.run.state ≠ .upload ∧ trickleMaySend v = true ∧ size = v.settings.nat .trickleSize) →
        ((v.sjr.records.filter fun r => r.sent.isNone).take size).map (·.seq) = members →
        (members = [] → formNext v = v) ∧
        (members ≠ [] → formNext v = { v with txe := { v.txe with
          batch := some
            { number := v.txe.nextBatch, members := members, owner := owner, state := .sending, framesSent := 0
              firstSent := none, toOffer := members, lastSession := 0, expiry := none, retryEnd := none, accepted := false }
          nextBatch := (v.txe.nextBatch + 1) % 256 } })) ∧
      (v.txe.run.state ≠ .upload → trickleMaySend v = false → formNext v = v)) ∧
    (v.txe.batch = none → resumeBatch v = v ∧ offerMember v = v ∧ settleBatch v = v) ∧
    (∀ b, v.txe.batch = some b →
      (∀ held, b.members.filter (fun m => v.sjr.records.any fun r => r.seq == m) = held →
        (b.state = .retryWait → b.accepted = false → b.retryEnd = none →
          (b.owner = .night ∧ v.ulc.active ≠ none ∨ b.owner = .trickle ∧ trickleMaySend v = true) →
          resumeBatch v = { v with txe := { v.txe with
            batch := some { b with state := .sending, framesSent := 0, members := held, toOffer := held } } }) ∧
        (b.state ≠ .retryWait ∨ b.accepted = true ∨ b.retryEnd ≠ none ∨ b.owner = .night ∧ v.ulc.active = none ∨
          b.owner = .trickle ∧ trickleMaySend v = false → resumeBatch v = v)) ∧
      (b.state ≠ .sending ∨ b.accepted = true ∨ b.toOffer = [] → offerMember v = v) ∧
      (∀ m rest, b.state = .sending → b.accepted = false → b.toOffer = m :: rest →
        ((∀ r ∈ v.sjr.records, r.seq ≠ m) → offerMember v = { v with txe := { v.txe with
          batch := some { b with toOffer := rest, members := b.members.filter (· != m) } } }) ∧
        (∀ r, v.sjr.records.find? (fun x => x.seq == m) = some r →
          (v.ulc.journalQ.length < 32 → offerMember v =
            { v with
              ulc := { v.ulc with journalQ := v.ulc.journalQ ++
                [.journalRecord b.number (b.members.idxOf m + 1) b.members.length { r with sent := none }] }
              txe := { v.txe with batch := some { b with toOffer := rest } } }) ∧
          (32 ≤ v.ulc.journalQ.length → offerMember v = v))) ∧
      (b.accepted = true → settleBatch v = v) ∧
      (b.accepted = false → b.members = [] → settleBatch v =
        { v with
          ulc := { v.ulc with journalQ := v.ulc.journalQ.filter fun f => !f.inBatch b.number }
          sjr := { v.sjr with
            records := v.sjr.records.map fun r => if r.sent = some b.number then { r with sent := none } else r
            unsent := v.sjr.unsent + v.sjr.records.countP fun r => r.sent == some b.number }
          txe := { v.txe with batch := none } }) ∧
      (b.accepted = false → b.members ≠ [] →
        (b.state = .sending → b.toOffer = [] → (∀ f ∈ v.ulc.journalQ, f.inBatch b.number = false) →
          settleBatch v = { v with txe := { v.txe with batch := some { b with
            state := .waitingAck, expiry := some { tick := v.ulc.t3.counter, session := b.lastSession } } } }) ∧
        (b.state ≠ .sending ∨ b.toOffer ≠ [] ∨ (∃ f ∈ v.ulc.journalQ, f.inBatch b.number = true) → settleBatch v = v)))) ∧
  (∀ v : State,
    (v.txe.file = none → offerFileRequest v = v ∧ feedOne v = v) ∧
    (∀ f, v.txe.file = some f →
      (f.state = .waitingRoom → v.ulc.active ≠ none → queueCount v + 32 ≤ 8192 → v.ulc.priceQ.length < 32 →
        offerFileRequest v =
          { v with
            ulc := { v.ulc with priceQ := v.ulc.priceQ ++ [.fileRequest v.txe.pieceNumber (v.identity.branch.getD 0)] }
            txe := { v.txe with file := some { f with state := .queued } } }) ∧
      (f.state ≠ .waitingRoom ∨ v.ulc.active = none ∨ 8192 < queueCount v + 32 ∨ 32 ≤ v.ulc.priceQ.length →
        offerFileRequest v = v) ∧
      (f.state ≠ .feeding ∨ f.awaiting = true → feedOne v = v) ∧
      (f.state = .feeding → f.awaiting = false →
        (∀ c rest, f.feed = c :: rest → feedOne v = drainAll (queueWork
          (.change { item := c.item, price := c.price, origin := .nightFile, urgent := c.urgent, add := c.add
                     source := .nightFile })
          { v with txe := { v.txe with file := some { f with feed := rest, awaiting := true } } })) ∧
        (f.feed = [] → f.last = true → feedOne v = endRun .failed .ok v) ∧
        (f.feed = [] → f.last = false → v.txe.pieceNumber < 65535 → feedOne v = { v with txe := { v.txe with
          file := some { f with state := .waitingRoom, firstSent := none }, pieceNumber := v.txe.pieceNumber + 1 } }) ∧
        (f.feed = [] → f.last = false → 65535 ≤ v.txe.pieceNumber → feedOne v = endRun .failed .failed v)) ∧
      (∀ accepted, f.state = .feeding → f.awaiting = true → nightAnswer accepted v = { v with txe := { v.txe with
        file := some { f with awaiting := false }
        run := { v.txe.run with rejected := v.txe.run.rejected + if accepted then 0 else 1 } } })) ∧
    queueCount v = v.pbk.queue.length + v.pbk.ops.countP fun o => match o.action with
      | .upsert e => v.pbk.queue.all fun q => q.item != e.item
      | .remove _ => false)

/-! ## Guest access -/

/-- The guest port: JOIN is answered by the first line that applies (R154), LEAVE ends the session (R159), a data frame is judged in
order and dropped, or queued with its tokens and quota taken (R122, R156, R157), a reply is delivered or dropped (R158), a session's
time runs out (R155); how a session ends (R159) and where its address goes (R160); and the guest service: what its five conditions are,
the state they and the store decide (R151), and what a change of it does (R114, R152; sessions end in entry order, log entry 43). In
QUIET the port is off (R164). Tokens are held in eighths of a byte (log entry 20), a reply whose payload is out of range is a route
error (R196; log entry 25), and a session's end taken early comes with its time (log entry 1), and one of an entry that holds none has
no effect (log entry 2). -/
def Obligations.GuestPortTaken : Prop :=
  (∀ (s : State) (a : Addr), s.running = true →
    (s.day.power = .quiet → ∀ dest payload,
      exec (.join a) s = .next (finish s) ∧ exec (.leave a) s = .next (finish s) ∧
      exec (.guestData a dest payload) s = .next (finish s)) ∧
    (s.day.power ≠ .quiet →
      (s.gac.service ≠ .opened → exec (.join a) s = .next (finish (emit (.joinAnswer a .refusedClosed) s))) ∧
      (s.gac.service = .opened → s.gac.spent.contains a = true →
        exec (.join a) s = .next (finish (emit (.joinAnswer a .refusedSpent) s))) ∧
      (s.gac.service = .opened → s.gac.spent.contains a = false →
        (∀ i e, sessionOf s a = some i → sessionAt s i = some e →
          exec (.join a) s = .next (finish (emit (.joinAnswer a (.ok ((e.endsAt - s.timer) / 1000) e.quota)) s))) ∧
        (sessionOf s a = none → freeSession s = none →
          exec (.join a) s = .next (finish (emit (.joinAnswer a .refusedFull) s))) ∧
        (∀ i, sessionOf s a = none → freeSession s = some i → exec (.join a) s = .next (finish
          (emit (.joinAnswer a (.ok (60 * s.settings.nat .sessionLimit) (s.settings.nat .quota * 1048576 : Nat)))
            { s with gac := { s.gac with sessions := s.gac.sessions.set i (some
                { addr := a, admitted := s.clock0, endsAt := s.timer + 60000 * s.settings.nat .sessionLimit
                  quota := (s.settings.nat .quota * 1048576 : Nat), tokenBits := s.settings.nat .depth * 8192
                  tokenTime := s.timer, bytesOut := 0, bytesIn := 0 }) } })))) ∧
      (∀ i, sessionOf s a = some i → exec (.leave a) s = .next (finish (endSession i .leave s))) ∧
      (sessionOf s a = none → exec (.leave a) s = .next (finish s)) ∧
      (sessionOf s a = none ∨ s.gac.service ≠ .opened → ∀ dest payload,
        exec (.guestData a dest payload) s = .next (finish (countDrops 1 s))) ∧
      (∀ i e e1 v dest payload, s.gac.service = .opened → sessionOf s a = some i → sessionAt s i = some e →
        { e with
          tokenBits := min (s.settings.nat .depth * 8192) (e.tokenBits + (s.timer - e.tokenTime) * s.settings.nat .rate)
          tokenTime := s.timer } = e1 →
        { s with gac := { s.gac with sessions := s.gac.sessions.set i (some e1) } } = v →
        (payload.length = 0 ∨ 1536 < payload.length →
          exec (.guestData a dest payload) s = .next (finish (countDrops 1 s))) ∧
        (1 ≤ payload.length → payload.length ≤ 1536 →
          (e1.tokenBits < 8 * payload.length ∨ e1.quota < (payload.length : Int) →
            exec (.guestData a dest payload) s = .next (finish (countDrops 1 v))) ∧
          (8 * payload.length ≤ e1.tokenBits → (payload.length : Int) ≤ e1.quota →
            (firstWindow s.settings.windows true dest = none →
              exec (.guestData a dest payload) s = .next (finish (countDrops 1 v))) ∧
            (∀ w, firstWindow s.settings.windows true dest = some w →
              (w.scope ≠ .external → exec (.guestData a dest payload) s = .next (finish (countDrops 1 { v with ulc :=
                { v.ulc with isolation := satAdd 65535 v.ulc.isolation 1 } }))) ∧
              (w.scope = .external → 64 ≤ s.ulc.guestQ.length →
                exec (.guestData a dest payload) s = .next (finish (countDrops 1 v))) ∧
              (∀ x, w.scope = .external → s.ulc.guestQ.length < 64 →
                { s with
                  ulc := { s.ulc with guestQ := s.ulc.guestQ ++ [.guest a dest payload] }
                  gac := { s.gac with sessions := s.gac.sessions.set i (some
                    { e1 with
                      tokenBits := e1.tokenBits - 8 * payload.length
                      quota := e1.quota - payload.length
                      bytesOut := e1.bytesOut + payload.length }) } } = x →
                ((payload.length : Int) < e1.quota → exec (.guestData a dest payload) s = .next (finish x)) ∧
                (e1.quota = (payload.length : Int) →
                  exec (.guestData a dest payload) s = .next (finish (endSession i .quota x))))))))) ∧
    (∀ n, sessionAt s n = none → exec (.guestTimeExpiry n) s = .next (finish s)) ∧
    (∀ n e, sessionAt s n = some e →
      exec (.guestTimeExpiry n) s = .next (finish (endSession n .time (advanceTo e.endsAt s)))) ∧
    (∀ p payload u, (s.ulc.path p).state = .up → wake .headOffice s = u →
      (payload.length = 0 ∨ 1536 < payload.length →
        exec (.guestReply p a payload) s = .next (finish (routeError s))) ∧
      (1 ≤ payload.length → payload.length ≤ 1536 →
        (sessionOf u a = none → exec (.guestReply p a payload) s = .next (finish (countDrops 1 u))) ∧
        (∀ i e x, sessionOf u a = some i → sessionAt u i = some e →
          emit (.guestData a payload) { u with gac := { u.gac with sessions := u.gac.sessions.set i (some
            { e with quota := e.quota - payload.length, bytesIn := e.bytesIn + payload.length }) } } = x →
          ((payload.length : Int) < e.quota → exec (.guestReply p a payload) s = .next (finish x)) ∧
          (e.quota ≤ (payload.length : Int) → exec (.guestReply p a payload) s = .next (finish (endSession i .quota x))))))) ∧
  (∀ (s : State) (n : Nat), (countDrops n s).gac.drops = min 4294967295 (s.gac.drops + n)) ∧
  (∀ (s : State) (i : Nat) (r : EndReason),
    (sessionAt s i = none → endSession i r s = s) ∧
    (∀ e, sessionAt s i = some e →
      (r = .time ∨ r = .quota → endSession i r s = emit (.sessionEnd e.addr r)
        { s with gac := { s.gac with sessions := s.gac.sessions.set i none, spent := spentAfter e.addr s.gac.spent } }) ∧
      (r ≠ .time → r ≠ .quota → endSession i r s = emit (.sessionEnd e.addr r)
        { s with gac := { s.gac with sessions := s.gac.sessions.set i none } }))) ∧
  (∀ (a : Addr) (l : List Addr),
    (l.contains a = true → spentAfter a l = l.filter (fun x => x != a) ++ [a]) ∧
    (l.contains a = false → l.length < 256 → spentAfter a l = l ++ [a]) ∧
    (l.contains a = false → 256 ≤ l.length → spentAfter a l = l.drop 1 ++ [a])) ∧
  (∀ s : State,
    (.disabled ∈ failingConditions s ↔ s.settings.on .guestEnable = false) ∧
    (.mains ∈ failingConditions s ↔ s.day.lines.mains = false) ∧
    (.path ∈ failingConditions s ↔ ∀ p, s.ulc.active = some p → permittedOn s.settings .guest p = false) ∧
    (.journal ∈ failingConditions s ↔ s.settings.nat .shedMark * 32768 ≤ s.sjr.records.length * 100) ∧
    (.auth ∈ failingConditions s ↔ s.settings.nat .authShed < s.ulc.authQ.length) ∧
    (s.day.store ≠ .opened → serviceDecided s = .closed) ∧
    (s.day.store = .opened → (∀ c, c ∉ failingConditions s) → serviceDecided s = .opened) ∧
    (∀ c, s.day.store = .opened → c ∈ failingConditions s → serviceDecided s = .shed) ∧
    (serviceDecided s = s.gac.service → guestDecide s = s) ∧
    (∀ old new x, s.gac.service = old → serviceDecided s = new → new ≠ old →
      (if old = .opened then countDrops s.ulc.guestQ.length { s with ulc := { s.ulc with guestQ := [] } } else s) = x →
      (new = .opened → guestDecide s = notify (.guestState old .opened (admittedCount x) [] 0)
        { x with gac := { x.gac with service := .opened } }) ∧
      (new = .shed → guestDecide s = notify (.guestState old .shed (admittedCount x) (failingConditions s) 0)
        { x with gac := { x.gac with service := .shed } }) ∧
      (∀ y, new = .closed → (List.range 64).foldl (fun z i => endSession i .close z) x = y →
        guestDecide s = notify (.guestState old .closed (admittedCount y) [] (admittedCount s))
          { y with gac := { y.gac with service := .closed } })))

/-! ## The day -/

/-- The schedule events act on the store state they name, the quiet delay runs out, a site line changes; an end with no quiet delay
running has no effect (model's choice, log entry 2); and QUIET: when it is entered, what it stops, what a wake does and which state it
chooses, with the STATE notice of each and the SITE notices of a wake (R167, R168, R171 to R175). An entry to QUIET with a line
unreported wakes at once (R174), and with a quiet delay of 0, which runs out as the wake starts it, the test is made once more, and once
in every millisecond after that while it comes out the same (R173; model's choice, log entry 30). A join still in the change queue's writer does not keep the part out of QUIET (model's choice, log
entry 51), and a quiet delay keeps the end it started with (log entry 57). An event falls due as the clock begins its minute, across
the clock's wrap too, and joins the queue behind the quiet delay's end; one sent early comes with its minute: the clock goes on to it
(model's choices, log entries 1 and 29). The SITE notices of a wake go in the order of the lines, and at a change of MAINS SITE goes
before GUEST STATE (log entry 43). The open time is before the close time, and both within a day (R167). -/
def Obligations.DayEventsTaken : Prop :=
  (∀ s : State, s.running = true →
    (∀ e c, (e, c) ∈ [(ScheduleEvent.openLead, Instr.openLeadEvent), (.openTime, .openEvent), (.close, .closeEvent)] →
      (s.day.clock = none → exec c s = .next (finish s)) ∧
      (∀ now, s.day.clock = some now →
        (e ∈ s.day.dueEvents ∨ inEventMinute s.settings e now = true → exec c s = .next (finish (scheduleEvent e
          { s with day := { s.day with dueEvents := s.day.dueEvents.erase e } }))) ∧
        (∀ x u, e ∉ s.day.dueEvents → inEventMinute s.settings e now = false → nextEventAt s.settings e now = some x →
          advanceTo (s.timer + (1000 * (x - now) - s.day.clockMs)) s = u → exec c s = .next (finish (scheduleEvent e
            { u with day := { u.day with dueEvents := u.day.dueEvents.erase e } }))) ∧
        (e ∉ s.day.dueEvents → inEventMinute s.settings e now = false → nextEventAt s.settings e now = none →
          exec c s = .next (finish s)))) ∧
    (∃ l, dueCommands s = l ++
      (if s.day.quietAt = some s.timer ∨ quietDue s = true then [.quietDelayExpiry] else []) ++
      s.day.dueEvents.map fun e => match e with
        | .openLead => .openLeadEvent
        | .openTime => .openEvent
        | .close => .closeEvent) ∧
    (∀ x, x ≤ s.timer → advanceTo x s = s) ∧
    (∀ x, s.timer < x → advanceTo x s = { advanceClock (x - s.timer) (eventsFallDue (x - s.timer) s) with timer := x }) ∧
    (∀ ms, s.day.clock = none → eventsFallDue ms s = s) ∧
    (∀ c ms, s.day.clock = some c → eventsFallDue ms s = { s with day := { s.day with
      dueEvents := s.day.dueEvents ++ countedEvents s.settings c ((s.day.clockMs + ms) / 1000) } }) ∧
    (s.day.quietAt = none → exec .quietDelayExpiry s = .next (finish s)) ∧
    (∀ x, s.day.quietAt = some x → exec .quietDelayExpiry s = .next (finish (advanceTo x s)))) ∧
  (∀ (s : State) (l : SiteLine) (v : Bool) (u : State),
    { s with day := { s.day with lines := s.day.lines.put l v } } = u →
    (s.day.lines.get l = v → exec (.siteLineChange l v) s = .next s) ∧
    (s.day.lines.get l ≠ v → s.running = false → exec (.siteLineChange l v) s = .next u) ∧
    (s.day.lines.get l ≠ v → s.running = true →
      (s.day.power = .quiet → s.day.reported.get l = v → exec (.siteLineChange l v) s = .next (finish u)) ∧
      (s.day.power = .quiet → s.day.reported.get l ≠ v →
        exec (.siteLineChange l v) s = .next (finish (wake .siteLine u))) ∧
      (s.day.power ≠ .quiet → l = .mains →
        exec (.siteLineChange l v) s = .next (finish (guestDecide (reportLine l u)))) ∧
      (s.day.power ≠ .quiet → l ≠ .mains → exec (.siteLineChange l v) s = .next (finish (reportLine l u))))) ∧
  (∀ (t : Settings) (c : Nat),
    (inEventMinute t .close c = true ↔ c / 60 % 1440 = t.nat .closeTime) ∧
    (inEventMinute t .openTime c = true ↔ c / 60 % 1440 = t.nat .openTime ∧ tradingDay t c = true) ∧
    (inEventMinute t .openLead c = true ↔
      c / 60 % 1440 = t.nat .openTime - t.nat .openingLead ∧ tradingDay t c = true) ∧
    (tradingDay t c = true ↔ (t.nat .closedWeekdays).testBit (c / 86400 % 7) = false) ∧
    (t.nat .openTime < t.nat .closeTime → t.nat .closeTime < 1440 → c ≤ 4294967295 →
      (∀ n, n ≤ 4294967295 → ∃ l : List (ScheduleEvent × Nat), countedEvents t c n = l.map (·.1) ∧
        l.Pairwise (fun a b => a.2 < b.2 ∨ a.2 = b.2 ∧ a.1 = .openLead ∧ b.1 = .openTime) ∧
        ∀ e x, (e, x) ∈ l ↔ c < x ∧ x ≤ c + n ∧ x % 4294967296 % 60 = 0 ∧ inEventMinute t e (x % 4294967296) = true) ∧
      (∀ e x, nextEventAt t e c = some x → c < x ∧ x % 4294967296 % 60 = 0 ∧ inEventMinute t e (x % 4294967296) = true ∧
        ∀ y, c < y → y < x → y % 4294967296 % 60 = 0 → inEventMinute t e (y % 4294967296) = false))) ∧
  (∀ s : State,
    (s.day.store = .night → scheduleEvent .openLead s = enterOpening (some .schedule) s) ∧
    (s.day.store = .quiet → scheduleEvent .openLead s = wake .openLead s) ∧
    (s.day.store ≠ .night → s.day.store ≠ .quiet → scheduleEvent .openLead s = s) ∧
    (s.day.store = .opening → scheduleEvent .openTime s = enterOpen (some .schedule) s) ∧
    (s.day.store ≠ .opening → scheduleEvent .openTime s = s) ∧
    (s.day.store = .opened → scheduleEvent .close s = enterClosing (some .schedule) s) ∧
    (s.day.store ≠ .opened → scheduleEvent .close s = s) ∧
    (quietDue s = true ↔
      s.day.store = .night ∧ s.day.power = .run ∧ s.settings.on .quietEnable = true ∧
      (∃ x, s.day.quietAt = some x ∧ x ≤ s.timer) ∧ s.txe.run.state = .ended ∧ (∀ x ∈ s.pbk.slots, x = none) ∧
      s.pbk.queue = [] ∧ s.day.lines.mains = true) ∧
    (quietDue s = false → testQuiet s = s) ∧
    (quietDue s = true → ∀ t, enterQuiet s = t →
      (quietDue t = false → testQuiet s = t) ∧ (quietDue t = true → testQuiet s = enterQuiet t) ∧
      (s.day.lines = s.day.reported ∨ s.settings.nat .quietDelay ≠ 0 → quietDue t = false)) ∧
    (∀ y v, notify (.state s.day.store .quiet s.clock0 .quietEntry)
        { s with day := { s.day with power := .quiet, store := .quiet, quietAt := none } } = y →
      { y with
        waiting := y.waiting.filter fun w => match w with | .floor _ => false | _ => true
        lrs := { y.lrs with
          radio := .asleep, inFlight := none, burst := none, waitingBurst := none, nextBeacon := none, settleEnd := none }
        hlk := { y.hlk with silenceAt := none } } = v →
      (s.day.lines = s.day.reported → enterQuiet s = v) ∧
      (s.day.lines ≠ s.day.reported → enterQuiet s = wake .siteLine v)) ∧
    (s.day.power ≠ .quiet → ∀ c, wake c s = s) ∧
    (s.day.power = .quiet → ∀ c v, wake c s = v →
      v.day.power = .run ∧ v.day.lastWake = some c ∧ v.lrs.radio = .settling ∧
      v.lrs.settleEnd = some (s.timer + s.settings.nat .settleTime) ∧ v.day.store = wakeState s c) ∧
    (s.day.power = .quiet → s.day.store = .quiet → ∀ c y v,
      notify (.state .quiet (wakeState s c) s.clock0 (.wake c))
        { s with day := { s.day with power := .run, store := wakeState s c, lastWake := some c } } = y →
      { y with
        lrs := { y.lrs with radio := .settling, settleEnd := some (s.timer + s.settings.nat .settleTime) }
        hlk := { y.hlk with
          silenceAt :=
            if s.settings.nat .silenceLimit = 0 then none else some (s.timer + 1000 * s.settings.nat .silenceLimit) } } = v →
      (wakeState s c = .opening → wake c s =
        reportLines (guestDecide (abortRun { v with day := { v.day with quietAt := none } }))) ∧
      (wakeState s c = .night → wake c s = reportLines (guestDecide
        { v with day := { v.day with quietAt := some (s.timer + 60000 * s.settings.nat .quietDelay) } }))) ∧
    reportLines s = [SiteLine.door, .mains, .alarmSet, .spare].foldl
      (fun u l => if u.day.lines.get l = u.day.reported.get l then u else reportLine l u) s ∧
    (∀ l u, notify (.site l (s.day.lines.get l) s.clock0 s.day.lines) s = u →
      (s.hlk.notices.length < 32 → reportLine l s =
        { u with day := { u.day with reported := u.day.reported.put l (s.day.lines.get l) } }) ∧
      (32 ≤ s.hlk.notices.length → reportLine l s = u)) ∧
    wakeState s .openLead = .opening ∧
    (∀ c, c ≠ .openLead →
      (s.day.clock = none → wakeState s c = .night) ∧
      (∀ now m, s.day.clock = some now → now / 60 % 1440 = m →
        (tradingDay s.settings now = true → s.settings.nat .openTime - s.settings.nat .openingLead ≤ m →
          m < s.settings.nat .openTime → wakeState s c = .opening) ∧
        (tradingDay s.settings now = false ∨ m < s.settings.nat .openTime - s.settings.nat .openingLead ∨
          s.settings.nat .openTime ≤ m → wakeState s c = .night))))

/-! ## Stops, power and start-up -/

/-- HOLD, the reset line, power and the host reset: what each stops and clears at once, and when the start-up comes (R176, R177, R194;
log entry 15), the host reset joining the queue by itself (model's choice, log entry 1); and what every start-up leaves: the reset's
cause, no lock, the clock kept or unset by the kind, the timer at 0 (model's choice, log entry 5), and the START notice first, numbered
1, with the store state chosen, whether a night run was started, the records held and the number of slots rebuilt (R177, R179, R195);
the host link's queues empty, its flags clear and its counts 0, with the silence timer started (R195); the radio SETTLING, with cursor,
cycles and counts at 0 and nothing in flight (R46, R47); the slots rebuilt in item-code order, each with its outstanding set, its confirmed
tally and the issue time of start-up, one with an empty set taking effect at once, and the drop count 0 (R19, R22); the journal's level,
exposure and UNSENT count from its list (R100);
no place, entry, claim, append, session, credit, frame, wait, batch or spent address (R49, R70, R87, R106, R131, R149, R164), each path
with carrier greeting (R107); the store state the schedule gives by R178's table; and a fresh night run in NIGHT with the clock set,
none otherwise (R141, R178). -/
def Obligations.StopsAndResets : Prop :=
  (∀ s : State,
    (s.day.powered = false → exec .holdAssert s = .next { s with day := { s.day with holdLine := true } }) ∧
    (∀ k, s.day.powered = true → (if s.day.stopped = some .powerOn then ResetCause.powerOn else .holdExit) = k →
      exec .holdAssert s = .next
        { s with
          nv := [], waiting := []
          pbk := { s.pbk with ops := [] }
          sjr := { s.sjr with writing := none, queue := [], removing := none, removals := [] }
          day := { s.day with holdLine := true, power := .hold, stopped := some k } }) ∧
    (s.running = true → ∀ k, (if s.day.power = .quiet then ResetCause.resetLineQuiet else .resetLine) = k →
      exec .resetLineAssert s = .next
        { s with
          nv := [], waiting := []
          pbk := { s.pbk with ops := [] }
          sjr := { s.sjr with writing := none, queue := [], removing := none, removals := [] }
          day := { s.day with resetLine := true, stopped := some k } }) ∧
    (s.running = false → exec .resetLineAssert s = .next { s with day := { s.day with resetLine := true } }) ∧
    (∀ u, { s with day := { s.day with holdLine := false } } = u →
      (s.day.holdLine = false → exec .holdExit s = .next s) ∧
      (s.day.holdLine = true → s.day.resetLine = true ∨ s.day.powered = false ∨ s.day.stopped = none →
        exec .holdExit s = .next u) ∧
      (∀ k, s.day.holdLine = true → s.day.resetLine = false → s.day.powered = true → s.day.stopped = some k →
        exec .holdExit s = .next (startUp k u))) ∧
    (∀ u, { s with day := { s.day with resetLine := false } } = u →
      (s.day.resetLine = false → exec .resetLineRelease s = .next s) ∧
      (s.day.resetLine = true → s.day.holdLine = true ∨ s.day.powered = false ∨ s.day.stopped = none →
        exec .resetLineRelease s = .next u) ∧
      (∀ k, s.day.resetLine = true → s.day.holdLine = false → s.day.powered = true → s.day.stopped = some k →
        exec .resetLineRelease s = .next (startUp k u))) ∧
    (∀ u, { s with
        nv := [], waiting := []
        pbk := { s.pbk with ops := [] }
        sjr := { s.sjr with writing := none, queue := [], removing := none, removals := [] }
        day := { s.day with
          powered := true, clock := none, clockMs := 0, power := if s.day.holdLine then .hold else .run
          stopped := some .powerOn } } = u →
      (s.day.holdLine = true ∨ s.day.resetLine = true → exec .powerOn s = .next u) ∧
      (s.day.holdLine = false → s.day.resetLine = false → exec .powerOn s = .next (startUp .powerOn u))) ∧
    exec .powerLoss s = .next
      { s with
        nv := [], waiting := []
        pbk := { s.pbk with ops := [] }
        sjr := { s.sjr with writing := none, queue := [], removing := none, removals := [] }
        day := { s.day with powered := false, clock := none, clockMs := 0, stopped := none } } ∧
    (hostResetDue s = true → exec .hostReset s = .next (startUp .hostReset s)) ∧
    (hostResetDue s = false → exec .hostReset s = .next s) ∧
    (.hostReset ∈ dueCommands s ↔ hostResetDue s = true) ∧
    (hostResetDue s = true ↔
      s.running = true ∧ s.hlk.resetPhase = .sent ∧ s.nv = [] ∧ s.pbk.ops = [] ∧ s.sjr.writing = none ∧
      s.sjr.removing = none)) ∧
  (∀ (k : ResetCause) (s t : State), startUp k s = t →
    t.day.cause = k ∧ t.running = true ∧ t.day.stopped = none ∧ t.hlk.lock = false ∧ t.timer = 0 ∧
    (k = .powerOn ∨ k = .holdExit → t.day.clock = none) ∧
    (k ≠ .powerOn → k ≠ .holdExit → t.day.clock = s.day.clock) ∧
    t.hlk.notices.head? = some
      { number := 1, overrun := false
        body := .start k t.day.clock t.day.store (t.day.store == .night && t.day.clock.isSome) s.sjr.records.length
          (s.pbk.items.countP (·.pending.isSome)) s.day.lines } ∧
    t.hlk.requests = [] ∧ t.hlk.replies = [] ∧ t.hlk.standalone = none ∧ t.hlk.standaloneOverrun = false ∧
    t.hlk.overrun = false ∧ t.hlk.frameErrors = 0 ∧ t.hlk.officeDrops = 0 ∧ t.hlk.resetPhase = .none ∧ t.hlk.rx.bytes = [] ∧
    t.hlk.silenceAt =
      (if s.settings.nat .silenceLimit = 0 then none else some (1000 * s.settings.nat .silenceLimit)) ∧
    t.lrs.radio = .settling ∧ t.lrs.settleEnd = some (s.settings.nat .settleTime) ∧ t.lrs.cursor = 0 ∧ t.lrs.cycles = 0 ∧
    t.lrs.txCount = 0 ∧ t.lrs.inFlight = none ∧ t.lrs.burst = none ∧ t.lrs.waitingBurst = none ∧ t.lrs.nextBeacon = none ∧
    t.lrs.errors = 0 ∧ t.pbk.drops = 0 ∧
    (∀ i e p l, i < 32 → (s.pbk.items.filter (·.pending.isSome))[i]? = some e → e.pending = some p →
      s.lrs.labels.filter (fun y => y.item == some e.code && y.state == .active) = l →
      ∃ x, slotAt t i = some x ∧ x.number = p.number ∧ x.item = e.code ∧ x.price = p.price ∧ x.origin = p.origin ∧
        x.urgent = p.urgent ∧ x.issueTime = t.day.clock.getD 0 ∧
        x.outstanding = (l.filter fun y => y.confirmed != some p.price).map (·.id) ∧
        x.confirmed = l.countP (fun y => y.confirmed == some p.price) ∧ x.unreachable = 0 ∧
        (x.outstanding ≠ [] → x.stage = .labelling) ∧
        (x.outstanding = [] → TablesKeyed s → x.stage = .effecting ∧ .effect e.code ∈ t.nv)) ∧
    t.tsu = { places := List.replicate 16 freePlace, grace := none, errors := 0 } ∧
    t.auz = { entries := [], mark := false, online := 0, hoDeclines := 0, offline := 0, fallbackDeclines := 0, late := 0 } ∧
    t.sjr.level = levelReached s.sjr.records.length ∧ t.sjr.exposure = exposureOf s.sjr.records ∧
    t.sjr.unsent = s.sjr.records.length ∧
    t.sjr.claims = List.replicate 16 0 ∧ t.sjr.queue = [] ∧ t.sjr.writing = none ∧ t.sjr.removing = none ∧
    t.sjr.removals = [] ∧
    t.gac = { service := if t.day.store = .opened then .shed else .closed, sessions := List.replicate 64 none
              spent := [], drops := 0 } ∧
    t.ulc.active = none ∧ t.ulc.sessions = 0 ∧ (∀ c, t.ulc.queue c = []) ∧ t.ulc.waits = [] ∧ t.ulc.lastForward = 0 ∧
    (∀ p, (t.ulc.path p).session = none ∧ (t.ulc.path p).credits = none ∧ (t.ulc.path p).probes = [] ∧
      (t.ulc.path p).degraded = false ∧
      (t.ulc.path p).carrier = (match p with | .primary => s.ulc.carrierPrimary | .backup => s.ulc.carrierBackup) ∧
      ((t.ulc.path p).carrier = true → (t.ulc.path p).state = .helloWait) ∧
      ((t.ulc.path p).carrier = false → (t.ulc.path p).state = .down)) ∧
    t.txe.batch = none ∧ t.txe.nextBatch = 0 ∧ t.txe.pieceNumber = 0 ∧ t.txe.pauseEnd = none ∧
    t.txe.counts = { aborts := 0, lateAcks := 0, latePieces := 0 } ∧
    (t.day.store ≠ .night ∨ t.day.clock = none → t.txe.file = none ∧ t.txe.run =
      { state := .notStarted, cause := none, startTime := none, endTime := none, upload := none, download := none
        uploaded := 0, received := 0, rejected := 0 }) ∧
    (∀ c, t.day.store = .night → t.day.clock = some c →
      (s.sjr.records ≠ [] → t.txe.file = none ∧ t.txe.run =
        { state := .upload, cause := some .nightEntry, startTime := some c, endTime := none, upload := none
          download := none, uploaded := 0, received := 0, rejected := 0 }) ∧
      (s.sjr.records = [] → t.txe.run =
        { state := .download, cause := some .nightEntry, startTime := some c, endTime := none, upload := some .ok
          download := none, uploaded := 0, received := 0, rejected := 0 })) ∧
    t.day.power = .run ∧ (t.day.clock = none → t.day.store = .night) ∧
    (∀ c m, t.day.clock = some c → c / 60 % 1440 = m →
      (tradingDay s.settings c = true → s.settings.nat .openTime - s.settings.nat .openingLead ≤ m →
        m < s.settings.nat .openTime → t.day.store = .opening) ∧
      (tradingDay s.settings c = true → s.settings.nat .openTime ≤ m → m < s.settings.nat .closeTime →
        t.day.store = .opened) ∧
      (tradingDay s.settings c = false ∨ m < s.settings.nat .openTime - s.settings.nat .openingLead ∨
        s.settings.nat .openTime ≤ m ∧ s.settings.nat .closeTime ≤ m → t.day.store = .night)))

/-! ## Numbers on the line -/

/-- A number's bytes are read back as it, a record's bytes are as many as 11.7 gives it, and the check is the CRC-16 of 11.2: from
0xFFFF, polynomial x^16 + x^12 + x^5 + 1, most significant bit first, the test string's value 0x29B1, sent most significant byte
first. A whole frame on the host line is the command of its kind, tag and payload; one whose check fails is a bad frame, as is a
length above 1,024 at its second length byte and each run of stray bytes at its first. Bytes that come more than 20 milliseconds after
the last of a frame begin anew, and that frame is counted in place of the event that was to count it (R181, R196, R197; log entry 49). -/
def Obligations.NumbersAreRead : Prop :=
  (∀ k n : Nat, (numberBytes k n).length = k ∧ (n < 256 ^ k → readNumber (numberBytes k n) = n)) ∧
  (∀ r : Record, (recordBytes r).length = r.body.size) ∧
  (crc16 [] = 0xFFFF#16 ∧
    crc16 [0x31#8, 0x32#8, 0x33#8, 0x34#8, 0x35#8, 0x36#8, 0x37#8, 0x38#8, 0x39#8] = 0x29B1#16 ∧
    (∀ (r : BitVec 16) (b : Bool),
      (r.msb = b → crcBit r b = r <<< 1) ∧ (r.msb ≠ b → crcBit r b = (r <<< 1) ^^^ 0x1021#16)) ∧
    (∀ (l : List Byte) (b : Byte), crc16 (l ++ [b]) =
      crcBit (crcBit (crcBit (crcBit (crcBit (crcBit (crcBit (crcBit (crc16 l) (b.getLsbD 7)) (b.getLsbD 6))
        (b.getLsbD 5)) (b.getLsbD 4)) (b.getLsbD 3)) (b.getLsbD 2)) (b.getLsbD 1)) (b.getLsbD 0)) ∧
    (∀ l : List Byte, crcHolds (withCrc l) = true ∧ withCrc l = l ++ [(crc16 l).extractLsb' 8 8, (crc16 l).extractLsb' 0 8]) ∧
    (∀ (l : List Byte) (x y : Byte), crcHolds (l ++ [x, y]) = true ↔
      x = (crc16 l).extractLsb' 8 8 ∧ y = (crc16 l).extractLsb' 0 8)) ∧
  (∀ (kind tag : Byte) (payload : List Byte), payload.length ≤ 1024 →
    hostBytes { bytes := [], stray := false } (outerFrame [kind, tag] payload) =
      ({ bytes := [], stray := false }, [hostCommand kind.toNat tag.toNat payload])) ∧
  (∀ (l payload : List Byte) (kind tag x y : Byte), payload.length ≤ 1024 →
    numberBytes 2 payload.length ++ [kind, tag] ++ payload = l → crcHolds (l ++ [x, y]) = false →
    hostBytes { bytes := [], stray := false } (0x7E#8 :: l ++ [x, y]) = ({ bytes := [], stray := false }, [.badFrame (.check .host)])) ∧
  (∀ x y : Byte, 1024 < 256 * x.toNat + y.toNat →
    hostBytes { bytes := [], stray := false } [0x7E#8, x, y] = ({ bytes := [], stray := false }, [.badFrame (.check .host)])) ∧
  (∀ (b : Byte) (l : List Byte), b ≠ 0x7E#8 → (∀ x ∈ l, x ≠ 0x7E#8) →
    hostBytes { bytes := [], stray := false } (b :: l) = ({ bytes := [], stray := true }, [.badFrame (.check .host)])) ∧
  (∀ (s : State) (l : List Byte) (x : HostRx) (cs : List Instr),
    (s.running = true → l = [] → s.receive .host l = s) ∧
    (s.running = true → l ≠ [] →
      (s.hlk.rx.bytes = [] ∨ s.timer ≤ s.hlk.rxAt + 20 → hostBytes s.hlk.rx l = (x, cs) → s.receive .host l =
        { s with hlk := { s.hlk with rx := x, rxAt := s.timer }, pending := s.pending ++ cs }) ∧
      (s.hlk.rx.bytes ≠ [] → s.hlk.rxAt + 20 < s.timer → hostBytes { bytes := [], stray := false } l = (x, cs) →
        s.receive .host l =
          { s with hlk := { s.hlk with rx := x, rxAt := s.timer }, pending := gapCounted s.pending ++ cs })) ∧
    (.hostByteTimeout ∉ s.pending → gapCounted s.pending = s.pending ++ [.badFrame (.check .host)]) ∧
    (∀ pre post, s.pending = pre ++ .hostByteTimeout :: post → .hostByteTimeout ∉ pre →
      gapCounted s.pending = pre ++ .badFrame (.check .host) :: post) ∧
    (s.running = false → ∀ p, s.receive p l = s))
end

