-- ==== Sys2Proof/Laws/Moves.lean ====
section
/-! SUPPORT. What a step can do, said once: the part of the state that the statements are about, the elementary moves on it, and runs of moves. Every shared operation has one lemma of the form "the operation is a run of moves" in the files beside this one. -/

namespace Sys2Proof.Laws

open Sys2Proof.Machine Sys2Proof.Safety

/-- The part of the state that the statements are about. What it leaves out (bursts, baskets, paths' timers, batches, slots'
content and the like) an operation changes freely. -/
structure View where
  pending : List Instr
  out : List Output
  timer : Nat
  settings : Settings
  identity : Identity
  nv : List NvWrite
  items : List Item
  queue : List QueueEntry
  ops : List QueueOp
  changes : Nat
  slotCount : Nat
  labels : List Label
  placeCount : Nat
  records : List Record
  sequence : Nat
  writing : Option Writing
  exposure : Int
  unsent : Nat
  claims : List Nat
  creditsPrimary : Option Credits
  creditsBackup : Option Credits
  authQ : List UpFrame
  priceQ : List UpFrame
  journalQ : List UpFrame
  officeQ : List UpFrame
  guestQ : List UpFrame
  waits : List OfficeWait
  carriers : Bool × Bool
  ticks : TickRec × TickRec × TickRec × TickRec
  sessionCount : Nat
  spent : List Addr
  clock : Option Nat × Nat
  lines : LineValues
  stops : Bool × Bool × Bool × Option ResetCause
  cause : ResetCause
  requests : List QueuedRequest
  replies : List Reply
  notices : List Notice
  lock : Bool

/-- The view of a state. -/
def view (s : State) : View :=
  { pending := s.pending
    out := s.out
    timer := s.timer
    settings := s.settings
    identity := s.identity
    nv := s.nv
    items := s.pbk.items
    queue := s.pbk.queue
    ops := s.pbk.ops
    changes := s.pbk.counter
    slotCount := s.pbk.slots.length
    labels := s.lrs.labels
    placeCount := s.tsu.places.length
    records := s.sjr.records
    sequence := s.sjr.counter
    writing := s.sjr.writing
    exposure := s.sjr.exposure
    unsent := s.sjr.unsent
    claims := s.sjr.claims
    creditsPrimary := s.ulc.primary.credits
    creditsBackup := s.ulc.backup.credits
    authQ := s.ulc.authQ
    priceQ := s.ulc.priceQ
    journalQ := s.ulc.journalQ
    officeQ := s.ulc.officeQ
    guestQ := s.ulc.guestQ
    waits := s.ulc.waits
    carriers := (s.ulc.carrierPrimary, s.ulc.carrierBackup)
    ticks := (s.ulc.t1, s.ulc.t2, s.ulc.t3, s.ulc.t4)
    sessionCount := s.gac.sessions.length
    spent := s.gac.spent
    clock := (s.day.clock, s.day.clockMs)
    lines := s.day.lines
    stops := (s.day.powered, s.day.holdLine, s.day.resetLine, s.day.stopped)
    cause := s.day.cause
    requests := s.hlk.requests
    replies := s.hlk.replies
    notices := s.hlk.notices
    lock := s.hlk.lock }

/-- The credits of a path in a view. -/
def View.credits (v : View) : Path → Option Credits
  | .primary => v.creditsPrimary
  | .backup => v.creditsBackup

/-- A view with a path's credits changed. -/
def View.putCredits (v : View) (p : Path) (c : Option Credits) : View :=
  match p with
  | .primary => { v with creditsPrimary := c }
  | .backup => { v with creditsBackup := c }

/-- A class queue of a view. -/
def View.classQ (v : View) : Machine.Class → List UpFrame
  | .auth => v.authQ
  | .price => v.priceQ
  | .journal => v.journalQ
  | .office => v.officeQ
  | .guest => v.guestQ

/-- A view with a class queue changed. -/
def View.putClassQ (v : View) (k : Machine.Class) (q : List UpFrame) : View :=
  match k with
  | .auth => { v with authQ := q }
  | .price => { v with priceQ := q }
  | .journal => { v with journalQ := q }
  | .office => { v with officeQ := q }
  | .guest => { v with guestQ := q }

/-- The capacity of a class queue; the AUTH queue is bounded by the entries instead (R114). -/
def classRoom : Machine.Class → Option Nat
  | .auth => none
  | .guest => some 64
  | _ => some 32

/-- Whether a class queue has room for one more frame (R114). -/
def hasRoom (k : Machine.Class) (q : List UpFrame) : Prop := ∀ n, classRoom k = some n → q.length < n

/-- Whether a write is a write of a setting. -/
@[simp] def isSetting : NvWrite → Bool
  | .setting .. => true
  | _ => false

/-- How far a move reaches: what the after-effects of any command may do (`inner`), and what only a command itself does
(`outer`), with the areas it may change. -/
inductive Reach | inner | outer (areas : Area → Bool)

/-- A view after a reset (R177): what is volatile is cleared, and the figures of the journal are derived from its list. -/
def View.fresh (c : ResetCause) (v : View) : View :=
  { v with
    timer := 0
    nv := []
    ops := []
    slotCount := Config.slotCount
    labels := (v.labels.map freshLabel).filter fun x => x != blankLabel x.id
    placeCount := Config.tillCount
    records := v.records.map fun r => { r with sent := none }
    exposure := exposureOf (v.records.map fun r => { r with sent := none })
    unsent := v.records.length
    writing := none
    claims := List.replicate Config.tillCount 0
    creditsPrimary := none
    creditsBackup := none
    authQ := []
    priceQ := []
    journalQ := []
    officeQ := []
    guestQ := []
    waits := []
    ticks := (resetTick, resetTick, resetTick, resetTick)
    sessionCount := Config.sessionCount
    spent := []
    clock := (if unsetsClock c then none else v.clock.1, if unsetsClock c then 0 else v.clock.2)
    stops := (true, v.stops.2.1, v.stops.2.2.1, none)
    cause := c
    requests := []
    replies := []
    notices := []
    lock := false }

/-- The elementary moves. -/
inductive Move : Reach → View → View → Prop
  | emit {k v} (o : Output) : Move k v { v with out := v.out ++ [o] }
  | write {k v} (w : NvWrite) (h : isSetting w = false) : Move k v { v with nv := v.nv ++ [w] }
  | writeSetting {k v} (id : Nat) (x : SettingValue) (src : SettingSource) (t : SettingTarget)
      (ht : settingTarget id = some t) (hx : settingTakes v.settings t x = true)
      (hg : settingGroup id ∉ settingGroups v.nv) : Move k v { v with nv := v.nv ++ [.setting id x src] }
  | queueWrite {k v} (o : QueueOp) : Move k v { v with ops := v.ops ++ [o] }
  | notice {k v} (n : Notice) (h : v.notices.length < 32) : Move k v { v with notices := v.notices ++ [n] }
  | reply {k v} (r : Reply) : Move k v { v with replies := v.replies ++ [r] }
  | sendReply {k v} (r : Reply) (rest : List Reply) (h : v.replies = r :: rest) : Move k v
      { v with out := v.out ++ [.host (.reply r)], replies := rest,
               requests := if r.queued then v.requests.filter (fun q => q.tag != r.tag) else v.requests }
  | joinClass {k v} (c : Machine.Class) (f : UpFrame) (h : hasRoom c (v.classQ c))
      (hw : f.wantsReply = true → c = .office) : Move k v (v.putClassQ c (v.classQ c ++ [f]))
  | leaveClass {k v} (c : Machine.Class) (q : List UpFrame) (h : q.Sublist (v.classQ c)) : Move k v (v.putClassQ c q)
  | joinWaits {k v} (c : Machine.Class) (f : UpFrame) (w : OfficeWait) (hf : f ∈ v.classQ c) (hr : f.wantsReply = true)
      (h : c = .office → v.waits.length < 32) : Move k v { v with waits := v.waits ++ [w] }
  | leaveWaits {k v} (l : List OfficeWait) (h : l.Sublist v.waits) : Move k v { v with waits := l }
  | spend {k v} (p : Path) (c : Credits) (t : Settings) (x : Machine.Class) (hc : v.credits p = some c)
      (h : usableCredit t c x = true) : Move k v (v.putCredits p (some (spendCredit c x)))
  | noCredits {k v} (p : Path) : Move k v (v.putCredits p none)
  | failed {k v} (l : Label) (n : Nat) (h : l ∈ v.labels) : Move k v
      { v with labels := insertLabel { l with failed := n } v.labels }
  | markSent {k v} (seq batch : Nat) : Move k v
      { v with records := v.records.map fun r => if r.seq = seq then { r with sent := some batch } else r
               unsent := v.unsent - v.records.countP fun r => r.seq == seq && r.sent.isNone }
  | unsend {k v} (batch : Nat) : Move k v
      { v with records := v.records.map fun r => if r.sent = some batch then { r with sent := none } else r
               unsent := v.unsent + v.records.countP fun r => r.sent == some batch }
  | takeAppend {k v} (w : Writing) (h : w.seq ≤ Config.max32) : Move k v { v with writing := some w }
  | clearSpent {k v} : Move k v { v with spent := [] }
  | time {d v} (n : Nat) (c : Option Nat × Nat) : Move (.outer d) v { v with timer := n, clock := c }
  | claims {d v} (l : List Nat) (h : l.length = v.claims.length) : Move (.outer d) v { v with claims := l }
  | acknowledge {d v} : Move (.outer d) v { v with notices := v.notices.tail }
  | joinRequest {d v} (q : QueuedRequest) (h : v.requests.length < 8) : Move (.outer d) v
      { v with requests := v.requests ++ [q] }
  | openCredits {d v} (p : Path) (g : Grants) : Move (.outer d) v (v.putCredits p (some (openCredits g)))
  | giveBack {d v} (p : Path) (c : Credits) (x : Machine.Class) (n : Nat) (h : v.credits p = some c) :
      Move (.outer d) v (v.putCredits p (some (c.put x ((c.get x).giveBack n))))
  | giveShared {d v} (p : Path) (c : Credits) (n : Nat) (h : v.credits p = some c) :
      Move (.outer d) v (v.putCredits p (some { c with shared := c.shared.giveBack n }))
  | spent {d v} (a : Addr) : Move (.outer d) v { v with spent := spentAfter a v.spent }
  | settingDone {d v} (hsettings : d .settings = true) (hwrites : d .writes = true) (id : Nat) (x : SettingValue) (src : SettingSource) (t : SettingTarget) (pre post : List NvWrite)
      (h : v.nv = pre ++ .setting id x src :: post) (ht : settingTarget id = some t) :
      Move (.outer d) v { v with nv := pre ++ post, settings := putValue v.settings t x }
  | dropWrites {d v} (hwrites : d .writes = true) (l : List NvWrite) (h : l.Sublist v.nv) : Move (.outer d) v { v with nv := l }
  | item {d v} (hprices : d .prices = true) (i : Item) : Move (.outer d) v { v with items := insertItem i v.items }
  | dropItem {d v} (hprices : d .prices = true) (c : Nat) : Move (.outer d) v { v with items := v.items.filter fun i => i.code != c }
  | queueOp {d v} (hprices : d .prices = true) (a : QueueAction) (l : List QueueOp) : Move (.outer d) v
      { v with queue := applyQueue a v.queue, ops := l }
  | cut {d v} (hwrites : d .writes = true) : Move (.outer d) v { v with nv := [], ops := [], writing := none }
  | change {d v} (hprices : d .prices = true) (n : Nat) : Move (.outer d) v { v with changes := n }
  | label {d v} (hlabels : d .labels = true) (l : Label) : Move (.outer d) v
      { v with labels :=
          if l = blankLabel l.id then v.labels.filter (fun x => x.id != l.id) else insertLabel l v.labels }
  | append {d v} (hjournal : d .journal = true) (w : Writing) (h : v.writing = some w) : Move (.outer d) v
      { v with records := v.records ++ [w.record], sequence := w.seq, writing := none, unsent := v.unsent + 1
               exposure := v.exposure + w.append.body.exposed }
  | drop {d v} (hjournal : d .journal = true) (named : List Nat) : Move (.outer d) v
      { v with records := v.records.filter fun r => !named.contains r.seq
               exposure := v.exposure - exposureOf (v.records.filter fun r => named.contains r.seq)
               unsent := v.unsent - unsentOf (v.records.filter fun r => named.contains r.seq) }
  | lock {d v} : Move (.outer d) v { v with lock := true }
  | branch {d v} (hsettings : d .settings = true) (n : Nat) : Move (.outer d) v { v with identity := { v.identity with branch := some n } }
  | lines {d v} (l : LineValues) : Move (.outer d) v { v with lines := l }
  | carriers {d v} (c : Bool × Bool) : Move (.outer d) v { v with carriers := c }
  | ticks {d v} (x : TickRec × TickRec × TickRec × TickRec) : Move (.outer d) v { v with ticks := x }
  | stops {d v} (hresets : d .resets = true) (x : Bool × Bool × Bool × Option ResetCause) (c : Option Nat × Nat) : Move (.outer d) v
      { v with stops := x, clock := c }
  | fresh {d v} (hresets : d .resets = true) (c : ResetCause) : Move (.outer d) v (v.fresh c)

/-- Runs of moves. -/
inductive Runs (k : Reach) (v : View) : View → Prop
  | refl : Runs k v v
  | tail {w x} : Runs k v w → Move k w x → Runs k v x

end Sys2Proof.Laws
end

