-- ==== Sys2Proof/Laws/State.lean ====
section
/-! SUPPORT. What an update of one field of the state does to its view: nothing, or the one change it names. -/

namespace Sys2Proof.Laws

open Sys2Proof.Machine Sys2Proof.Safety

@[simp ↓] theorem view_waiting (s : State) (x) : view { s with waiting := x } = view s := Eq.trans rfl rfl
@[simp ↓] theorem view_auz (s : State) (x) : view { s with auz := x } = view s := Eq.trans rfl rfl
@[simp ↓] theorem view_txe (s : State) (x) : view { s with txe := x } = view s := Eq.trans rfl rfl
@[simp ↓] theorem view_pbk (s : State) (x : Pbk) (h1 : x.items = s.pbk.items) (h2 : x.queue = s.pbk.queue)
    (h3 : x.counter = s.pbk.counter) (h4 : x.slots.length = s.pbk.slots.length)
    (h5 : x.ops = s.pbk.ops) :
    view { s with pbk := x } = view s := by simp [view, *]
@[simp ↓] theorem view_lrs (s : State) (x : Lrs) (h : x.labels = s.lrs.labels) : view { s with lrs := x } = view s := by
  simp [view, *]
@[simp ↓] theorem view_tsu (s : State) (x : Tsu) (h : x.places.length = s.tsu.places.length) :
    view { s with tsu := x } = view s := by simp [view, *]
@[simp ↓] theorem view_sjr (s : State) (x : Sjr) (h1 : x.records = s.sjr.records) (h2 : x.counter = s.sjr.counter)
    (h3 : x.exposure = s.sjr.exposure) (h4 : x.unsent = s.sjr.unsent) (h5 : x.claims = s.sjr.claims)
    (h6 : x.writing = s.sjr.writing) :
    view { s with sjr := x } = view s := by simp [view, *]
@[simp ↓] theorem view_gac (s : State) (x : Gac) (h1 : x.sessions.length = s.gac.sessions.length) (h2 : x.spent = s.gac.spent) :
    view { s with gac := x } = view s := by simp [view, *]
@[simp ↓] theorem view_day (s : State) (x : Day) (h1 : x.clock = s.day.clock) (h2 : x.clockMs = s.day.clockMs)
    (h3 : x.lines = s.day.lines) (h4 : x.powered = s.day.powered) (h5 : x.holdLine = s.day.holdLine)
    (h6 : x.resetLine = s.day.resetLine) (h7 : x.stopped = s.day.stopped) (h8 : x.cause = s.day.cause) :
    view { s with day := x } = view s := by simp [view, *]
@[simp ↓] theorem view_hlk (s : State) (x : Hlk) (h1 : x.requests = s.hlk.requests) (h2 : x.replies = s.hlk.replies)
    (h3 : x.notices = s.hlk.notices) (h4 : x.lock = s.hlk.lock) : view { s with hlk := x } = view s := by
  simp [view, *]
@[simp ↓] theorem view_ulc (s : State) (x : Ulc) (h1 : x.primary.credits = s.ulc.primary.credits)
    (h2 : x.backup.credits = s.ulc.backup.credits) (h3 : x.authQ = s.ulc.authQ) (h4 : x.priceQ = s.ulc.priceQ)
    (h5 : x.journalQ = s.ulc.journalQ) (h6 : x.officeQ = s.ulc.officeQ) (h7 : x.guestQ = s.ulc.guestQ)
    (h8 : x.waits = s.ulc.waits) (h9 : x.carrierPrimary = s.ulc.carrierPrimary)
    (h10 : x.carrierBackup = s.ulc.carrierBackup) (h11 : x.t1 = s.ulc.t1) (h12 : x.t2 = s.ulc.t2)
    (h13 : x.t3 = s.ulc.t3) (h14 : x.t4 = s.ulc.t4) : view { s with ulc := x } = view s := by
  simp [view, *]
theorem view_putPath (p : Path) (r : PathRec) (s : State) :
    view (putPath p r s) = (view s).putCredits p r.credits := by cases p <;> rfl

/-! ## The fields of an update -/

@[simp] theorem emit_pending (o : Output) (s : State) : (emit o s).pending = s.pending := rfl
@[simp] theorem emit_out (o : Output) (s : State) : (emit o s).out = s.out ++ [o] := rfl
@[simp] theorem emit_timer (o : Output) (s : State) : (emit o s).timer = s.timer := rfl
@[simp] theorem emit_settings (o : Output) (s : State) : (emit o s).settings = s.settings := rfl
@[simp] theorem emit_identity (o : Output) (s : State) : (emit o s).identity = s.identity := rfl
@[simp] theorem emit_nv (o : Output) (s : State) : (emit o s).nv = s.nv := rfl
@[simp] theorem emit_waiting (o : Output) (s : State) : (emit o s).waiting = s.waiting := rfl
@[simp] theorem emit_pbk (o : Output) (s : State) : (emit o s).pbk = s.pbk := rfl
@[simp] theorem emit_lrs (o : Output) (s : State) : (emit o s).lrs = s.lrs := rfl
@[simp] theorem emit_tsu (o : Output) (s : State) : (emit o s).tsu = s.tsu := rfl
@[simp] theorem emit_auz (o : Output) (s : State) : (emit o s).auz = s.auz := rfl
@[simp] theorem emit_sjr (o : Output) (s : State) : (emit o s).sjr = s.sjr := rfl
@[simp] theorem emit_ulc (o : Output) (s : State) : (emit o s).ulc = s.ulc := rfl
@[simp] theorem emit_txe (o : Output) (s : State) : (emit o s).txe = s.txe := rfl
@[simp] theorem emit_gac (o : Output) (s : State) : (emit o s).gac = s.gac := rfl
@[simp] theorem emit_day (o : Output) (s : State) : (emit o s).day = s.day := rfl
@[simp] theorem emit_hlk (o : Output) (s : State) : (emit o s).hlk = s.hlk := rfl

@[simp] theorem reply_pending (tag : Nat) (k : RequestKind) (r : Result) (b : ReplyBody) (s : State) : (reply tag k r b s).pending = s.pending := rfl
@[simp] theorem reply_out (tag : Nat) (k : RequestKind) (r : Result) (b : ReplyBody) (s : State) : (reply tag k r b s).out = s.out := rfl
@[simp] theorem reply_timer (tag : Nat) (k : RequestKind) (r : Result) (b : ReplyBody) (s : State) : (reply tag k r b s).timer = s.timer := rfl
@[simp] theorem reply_settings (tag : Nat) (k : RequestKind) (r : Result) (b : ReplyBody) (s : State) : (reply tag k r b s).settings = s.settings := rfl
@[simp] theorem reply_identity (tag : Nat) (k : RequestKind) (r : Result) (b : ReplyBody) (s : State) : (reply tag k r b s).identity = s.identity := rfl
@[simp] theorem reply_nv (tag : Nat) (k : RequestKind) (r : Result) (b : ReplyBody) (s : State) : (reply tag k r b s).nv = s.nv := rfl
@[simp] theorem reply_waiting (tag : Nat) (k : RequestKind) (r : Result) (b : ReplyBody) (s : State) : (reply tag k r b s).waiting = s.waiting := rfl
@[simp] theorem reply_pbk (tag : Nat) (k : RequestKind) (r : Result) (b : ReplyBody) (s : State) : (reply tag k r b s).pbk = s.pbk := rfl
@[simp] theorem reply_lrs (tag : Nat) (k : RequestKind) (r : Result) (b : ReplyBody) (s : State) : (reply tag k r b s).lrs = s.lrs := rfl
@[simp] theorem reply_tsu (tag : Nat) (k : RequestKind) (r : Result) (b : ReplyBody) (s : State) : (reply tag k r b s).tsu = s.tsu := rfl
@[simp] theorem reply_auz (tag : Nat) (k : RequestKind) (r : Result) (b : ReplyBody) (s : State) : (reply tag k r b s).auz = s.auz := rfl
@[simp] theorem reply_sjr (tag : Nat) (k : RequestKind) (r : Result) (b : ReplyBody) (s : State) : (reply tag k r b s).sjr = s.sjr := rfl
@[simp] theorem reply_ulc (tag : Nat) (k : RequestKind) (r : Result) (b : ReplyBody) (s : State) : (reply tag k r b s).ulc = s.ulc := rfl
@[simp] theorem reply_txe (tag : Nat) (k : RequestKind) (r : Result) (b : ReplyBody) (s : State) : (reply tag k r b s).txe = s.txe := rfl
@[simp] theorem reply_gac (tag : Nat) (k : RequestKind) (r : Result) (b : ReplyBody) (s : State) : (reply tag k r b s).gac = s.gac := rfl
@[simp] theorem reply_day (tag : Nat) (k : RequestKind) (r : Result) (b : ReplyBody) (s : State) : (reply tag k r b s).day = s.day := rfl

@[simp] theorem joinRequest_pending (tag : Nat) (k : RequestKind) (s : State) : (joinRequest tag k s).pending = s.pending := rfl
@[simp] theorem joinRequest_out (tag : Nat) (k : RequestKind) (s : State) : (joinRequest tag k s).out = s.out := rfl
@[simp] theorem joinRequest_timer (tag : Nat) (k : RequestKind) (s : State) : (joinRequest tag k s).timer = s.timer := rfl
@[simp] theorem joinRequest_settings (tag : Nat) (k : RequestKind) (s : State) : (joinRequest tag k s).settings = s.settings := rfl
@[simp] theorem joinRequest_identity (tag : Nat) (k : RequestKind) (s : State) : (joinRequest tag k s).identity = s.identity := rfl
@[simp] theorem joinRequest_nv (tag : Nat) (k : RequestKind) (s : State) : (joinRequest tag k s).nv = s.nv := rfl
@[simp] theorem joinRequest_waiting (tag : Nat) (k : RequestKind) (s : State) : (joinRequest tag k s).waiting = s.waiting := rfl
@[simp] theorem joinRequest_pbk (tag : Nat) (k : RequestKind) (s : State) : (joinRequest tag k s).pbk = s.pbk := rfl
@[simp] theorem joinRequest_lrs (tag : Nat) (k : RequestKind) (s : State) : (joinRequest tag k s).lrs = s.lrs := rfl
@[simp] theorem joinRequest_tsu (tag : Nat) (k : RequestKind) (s : State) : (joinRequest tag k s).tsu = s.tsu := rfl
@[simp] theorem joinRequest_auz (tag : Nat) (k : RequestKind) (s : State) : (joinRequest tag k s).auz = s.auz := rfl
@[simp] theorem joinRequest_sjr (tag : Nat) (k : RequestKind) (s : State) : (joinRequest tag k s).sjr = s.sjr := rfl
@[simp] theorem joinRequest_ulc (tag : Nat) (k : RequestKind) (s : State) : (joinRequest tag k s).ulc = s.ulc := rfl
@[simp] theorem joinRequest_txe (tag : Nat) (k : RequestKind) (s : State) : (joinRequest tag k s).txe = s.txe := rfl
@[simp] theorem joinRequest_gac (tag : Nat) (k : RequestKind) (s : State) : (joinRequest tag k s).gac = s.gac := rfl
@[simp] theorem joinRequest_day (tag : Nat) (k : RequestKind) (s : State) : (joinRequest tag k s).day = s.day := rfl

@[simp] theorem queueWork_pending (w : Work) (s : State) : (queueWork w s).pending = s.pending := rfl
@[simp] theorem queueWork_out (w : Work) (s : State) : (queueWork w s).out = s.out := rfl
@[simp] theorem queueWork_timer (w : Work) (s : State) : (queueWork w s).timer = s.timer := rfl
@[simp] theorem queueWork_settings (w : Work) (s : State) : (queueWork w s).settings = s.settings := rfl
@[simp] theorem queueWork_identity (w : Work) (s : State) : (queueWork w s).identity = s.identity := rfl
@[simp] theorem queueWork_nv (w : Work) (s : State) : (queueWork w s).nv = s.nv := rfl
@[simp] theorem queueWork_waiting (w : Work) (s : State) : (queueWork w s).waiting = s.waiting ++ [w] := rfl
@[simp] theorem queueWork_pbk (w : Work) (s : State) : (queueWork w s).pbk = s.pbk := rfl
@[simp] theorem queueWork_lrs (w : Work) (s : State) : (queueWork w s).lrs = s.lrs := rfl
@[simp] theorem queueWork_tsu (w : Work) (s : State) : (queueWork w s).tsu = s.tsu := rfl
@[simp] theorem queueWork_auz (w : Work) (s : State) : (queueWork w s).auz = s.auz := rfl
@[simp] theorem queueWork_sjr (w : Work) (s : State) : (queueWork w s).sjr = s.sjr := rfl
@[simp] theorem queueWork_ulc (w : Work) (s : State) : (queueWork w s).ulc = s.ulc := rfl
@[simp] theorem queueWork_txe (w : Work) (s : State) : (queueWork w s).txe = s.txe := rfl
@[simp] theorem queueWork_gac (w : Work) (s : State) : (queueWork w s).gac = s.gac := rfl
@[simp] theorem queueWork_day (w : Work) (s : State) : (queueWork w s).day = s.day := rfl
@[simp] theorem queueWork_hlk (w : Work) (s : State) : (queueWork w s).hlk = s.hlk := rfl

@[simp] theorem putItem_pending (i : Item) (s : State) : (putItem i s).pending = s.pending := rfl
@[simp] theorem putItem_out (i : Item) (s : State) : (putItem i s).out = s.out := rfl
@[simp] theorem putItem_timer (i : Item) (s : State) : (putItem i s).timer = s.timer := rfl
@[simp] theorem putItem_settings (i : Item) (s : State) : (putItem i s).settings = s.settings := rfl
@[simp] theorem putItem_identity (i : Item) (s : State) : (putItem i s).identity = s.identity := rfl
@[simp] theorem putItem_nv (i : Item) (s : State) : (putItem i s).nv = s.nv := rfl
@[simp] theorem putItem_waiting (i : Item) (s : State) : (putItem i s).waiting = s.waiting := rfl
@[simp] theorem putItem_lrs (i : Item) (s : State) : (putItem i s).lrs = s.lrs := rfl
@[simp] theorem putItem_tsu (i : Item) (s : State) : (putItem i s).tsu = s.tsu := rfl
@[simp] theorem putItem_auz (i : Item) (s : State) : (putItem i s).auz = s.auz := rfl
@[simp] theorem putItem_sjr (i : Item) (s : State) : (putItem i s).sjr = s.sjr := rfl
@[simp] theorem putItem_ulc (i : Item) (s : State) : (putItem i s).ulc = s.ulc := rfl
@[simp] theorem putItem_txe (i : Item) (s : State) : (putItem i s).txe = s.txe := rfl
@[simp] theorem putItem_gac (i : Item) (s : State) : (putItem i s).gac = s.gac := rfl
@[simp] theorem putItem_day (i : Item) (s : State) : (putItem i s).day = s.day := rfl
@[simp] theorem putItem_hlk (i : Item) (s : State) : (putItem i s).hlk = s.hlk := rfl

@[simp] theorem dropItem_pending (c : Nat) (s : State) : (dropItem c s).pending = s.pending := rfl
@[simp] theorem dropItem_out (c : Nat) (s : State) : (dropItem c s).out = s.out := rfl
@[simp] theorem dropItem_timer (c : Nat) (s : State) : (dropItem c s).timer = s.timer := rfl
@[simp] theorem dropItem_settings (c : Nat) (s : State) : (dropItem c s).settings = s.settings := rfl
@[simp] theorem dropItem_identity (c : Nat) (s : State) : (dropItem c s).identity = s.identity := rfl
@[simp] theorem dropItem_nv (c : Nat) (s : State) : (dropItem c s).nv = s.nv := rfl
@[simp] theorem dropItem_waiting (c : Nat) (s : State) : (dropItem c s).waiting = s.waiting := rfl
@[simp] theorem dropItem_lrs (c : Nat) (s : State) : (dropItem c s).lrs = s.lrs := rfl
@[simp] theorem dropItem_tsu (c : Nat) (s : State) : (dropItem c s).tsu = s.tsu := rfl
@[simp] theorem dropItem_auz (c : Nat) (s : State) : (dropItem c s).auz = s.auz := rfl
@[simp] theorem dropItem_sjr (c : Nat) (s : State) : (dropItem c s).sjr = s.sjr := rfl
@[simp] theorem dropItem_ulc (c : Nat) (s : State) : (dropItem c s).ulc = s.ulc := rfl
@[simp] theorem dropItem_txe (c : Nat) (s : State) : (dropItem c s).txe = s.txe := rfl
@[simp] theorem dropItem_gac (c : Nat) (s : State) : (dropItem c s).gac = s.gac := rfl
@[simp] theorem dropItem_day (c : Nat) (s : State) : (dropItem c s).day = s.day := rfl
@[simp] theorem dropItem_hlk (c : Nat) (s : State) : (dropItem c s).hlk = s.hlk := rfl

@[simp] theorem putSlot_pending (i : Nat) (x : Option Slot) (s : State) : (putSlot i x s).pending = s.pending := rfl
@[simp] theorem putSlot_out (i : Nat) (x : Option Slot) (s : State) : (putSlot i x s).out = s.out := rfl
@[simp] theorem putSlot_timer (i : Nat) (x : Option Slot) (s : State) : (putSlot i x s).timer = s.timer := rfl
@[simp] theorem putSlot_settings (i : Nat) (x : Option Slot) (s : State) : (putSlot i x s).settings = s.settings := rfl
@[simp] theorem putSlot_identity (i : Nat) (x : Option Slot) (s : State) : (putSlot i x s).identity = s.identity := rfl
@[simp] theorem putSlot_nv (i : Nat) (x : Option Slot) (s : State) : (putSlot i x s).nv = s.nv := rfl
@[simp] theorem putSlot_waiting (i : Nat) (x : Option Slot) (s : State) : (putSlot i x s).waiting = s.waiting := rfl
@[simp] theorem putSlot_lrs (i : Nat) (x : Option Slot) (s : State) : (putSlot i x s).lrs = s.lrs := rfl
@[simp] theorem putSlot_tsu (i : Nat) (x : Option Slot) (s : State) : (putSlot i x s).tsu = s.tsu := rfl
@[simp] theorem putSlot_auz (i : Nat) (x : Option Slot) (s : State) : (putSlot i x s).auz = s.auz := rfl
@[simp] theorem putSlot_sjr (i : Nat) (x : Option Slot) (s : State) : (putSlot i x s).sjr = s.sjr := rfl
@[simp] theorem putSlot_ulc (i : Nat) (x : Option Slot) (s : State) : (putSlot i x s).ulc = s.ulc := rfl
@[simp] theorem putSlot_txe (i : Nat) (x : Option Slot) (s : State) : (putSlot i x s).txe = s.txe := rfl
@[simp] theorem putSlot_gac (i : Nat) (x : Option Slot) (s : State) : (putSlot i x s).gac = s.gac := rfl
@[simp] theorem putSlot_day (i : Nat) (x : Option Slot) (s : State) : (putSlot i x s).day = s.day := rfl
@[simp] theorem putSlot_hlk (i : Nat) (x : Option Slot) (s : State) : (putSlot i x s).hlk = s.hlk := rfl

@[simp] theorem putLabel_pending (l : Label) (s : State) : (putLabel l s).pending = s.pending := rfl
@[simp] theorem putLabel_out (l : Label) (s : State) : (putLabel l s).out = s.out := rfl
@[simp] theorem putLabel_timer (l : Label) (s : State) : (putLabel l s).timer = s.timer := rfl
@[simp] theorem putLabel_settings (l : Label) (s : State) : (putLabel l s).settings = s.settings := rfl
@[simp] theorem putLabel_identity (l : Label) (s : State) : (putLabel l s).identity = s.identity := rfl
@[simp] theorem putLabel_nv (l : Label) (s : State) : (putLabel l s).nv = s.nv := rfl
@[simp] theorem putLabel_waiting (l : Label) (s : State) : (putLabel l s).waiting = s.waiting := rfl
@[simp] theorem putLabel_pbk (l : Label) (s : State) : (putLabel l s).pbk = s.pbk := rfl
@[simp] theorem putLabel_tsu (l : Label) (s : State) : (putLabel l s).tsu = s.tsu := rfl
@[simp] theorem putLabel_auz (l : Label) (s : State) : (putLabel l s).auz = s.auz := rfl
@[simp] theorem putLabel_sjr (l : Label) (s : State) : (putLabel l s).sjr = s.sjr := rfl
@[simp] theorem putLabel_ulc (l : Label) (s : State) : (putLabel l s).ulc = s.ulc := rfl
@[simp] theorem putLabel_txe (l : Label) (s : State) : (putLabel l s).txe = s.txe := rfl
@[simp] theorem putLabel_gac (l : Label) (s : State) : (putLabel l s).gac = s.gac := rfl
@[simp] theorem putLabel_day (l : Label) (s : State) : (putLabel l s).day = s.day := rfl
@[simp] theorem putLabel_hlk (l : Label) (s : State) : (putLabel l s).hlk = s.hlk := rfl

@[simp] theorem putPlace_pending (t : Nat) (p : Place) (s : State) : (putPlace t p s).pending = s.pending := rfl
@[simp] theorem putPlace_out (t : Nat) (p : Place) (s : State) : (putPlace t p s).out = s.out := rfl
@[simp] theorem putPlace_timer (t : Nat) (p : Place) (s : State) : (putPlace t p s).timer = s.timer := rfl
@[simp] theorem putPlace_settings (t : Nat) (p : Place) (s : State) : (putPlace t p s).settings = s.settings := rfl
@[simp] theorem putPlace_identity (t : Nat) (p : Place) (s : State) : (putPlace t p s).identity = s.identity := rfl
@[simp] theorem putPlace_nv (t : Nat) (p : Place) (s : State) : (putPlace t p s).nv = s.nv := rfl
@[simp] theorem putPlace_waiting (t : Nat) (p : Place) (s : State) : (putPlace t p s).waiting = s.waiting := rfl
@[simp] theorem putPlace_pbk (t : Nat) (p : Place) (s : State) : (putPlace t p s).pbk = s.pbk := rfl
@[simp] theorem putPlace_lrs (t : Nat) (p : Place) (s : State) : (putPlace t p s).lrs = s.lrs := rfl
@[simp] theorem putPlace_auz (t : Nat) (p : Place) (s : State) : (putPlace t p s).auz = s.auz := rfl
@[simp] theorem putPlace_sjr (t : Nat) (p : Place) (s : State) : (putPlace t p s).sjr = s.sjr := rfl
@[simp] theorem putPlace_ulc (t : Nat) (p : Place) (s : State) : (putPlace t p s).ulc = s.ulc := rfl
@[simp] theorem putPlace_txe (t : Nat) (p : Place) (s : State) : (putPlace t p s).txe = s.txe := rfl
@[simp] theorem putPlace_gac (t : Nat) (p : Place) (s : State) : (putPlace t p s).gac = s.gac := rfl
@[simp] theorem putPlace_day (t : Nat) (p : Place) (s : State) : (putPlace t p s).day = s.day := rfl
@[simp] theorem putPlace_hlk (t : Nat) (p : Place) (s : State) : (putPlace t p s).hlk = s.hlk := rfl

@[simp] theorem putPath_pending (p : Path) (r : PathRec) (s : State) : (putPath p r s).pending = s.pending := rfl
@[simp] theorem putPath_out (p : Path) (r : PathRec) (s : State) : (putPath p r s).out = s.out := rfl
@[simp] theorem putPath_timer (p : Path) (r : PathRec) (s : State) : (putPath p r s).timer = s.timer := rfl
@[simp] theorem putPath_settings (p : Path) (r : PathRec) (s : State) : (putPath p r s).settings = s.settings := rfl
@[simp] theorem putPath_identity (p : Path) (r : PathRec) (s : State) : (putPath p r s).identity = s.identity := rfl
@[simp] theorem putPath_nv (p : Path) (r : PathRec) (s : State) : (putPath p r s).nv = s.nv := rfl
@[simp] theorem putPath_waiting (p : Path) (r : PathRec) (s : State) : (putPath p r s).waiting = s.waiting := rfl
@[simp] theorem putPath_pbk (p : Path) (r : PathRec) (s : State) : (putPath p r s).pbk = s.pbk := rfl
@[simp] theorem putPath_lrs (p : Path) (r : PathRec) (s : State) : (putPath p r s).lrs = s.lrs := rfl
@[simp] theorem putPath_tsu (p : Path) (r : PathRec) (s : State) : (putPath p r s).tsu = s.tsu := rfl
@[simp] theorem putPath_auz (p : Path) (r : PathRec) (s : State) : (putPath p r s).auz = s.auz := rfl
@[simp] theorem putPath_sjr (p : Path) (r : PathRec) (s : State) : (putPath p r s).sjr = s.sjr := rfl
@[simp] theorem putPath_ulc (p : Path) (r : PathRec) (s : State) : (putPath p r s).ulc = s.ulc.setPath p r := rfl
@[simp] theorem putPath_txe (p : Path) (r : PathRec) (s : State) : (putPath p r s).txe = s.txe := rfl
@[simp] theorem putPath_gac (p : Path) (r : PathRec) (s : State) : (putPath p r s).gac = s.gac := rfl
@[simp] theorem putPath_day (p : Path) (r : PathRec) (s : State) : (putPath p r s).day = s.day := rfl
@[simp] theorem putPath_hlk (p : Path) (r : PathRec) (s : State) : (putPath p r s).hlk = s.hlk := rfl

@[simp] theorem putBatch_pending (b : Option Batch) (s : State) : (putBatch b s).pending = s.pending := rfl
@[simp] theorem putBatch_out (b : Option Batch) (s : State) : (putBatch b s).out = s.out := rfl
@[simp] theorem putBatch_timer (b : Option Batch) (s : State) : (putBatch b s).timer = s.timer := rfl
@[simp] theorem putBatch_settings (b : Option Batch) (s : State) : (putBatch b s).settings = s.settings := rfl
@[simp] theorem putBatch_identity (b : Option Batch) (s : State) : (putBatch b s).identity = s.identity := rfl
@[simp] theorem putBatch_nv (b : Option Batch) (s : State) : (putBatch b s).nv = s.nv := rfl
@[simp] theorem putBatch_waiting (b : Option Batch) (s : State) : (putBatch b s).waiting = s.waiting := rfl
@[simp] theorem putBatch_pbk (b : Option Batch) (s : State) : (putBatch b s).pbk = s.pbk := rfl
@[simp] theorem putBatch_lrs (b : Option Batch) (s : State) : (putBatch b s).lrs = s.lrs := rfl
@[simp] theorem putBatch_tsu (b : Option Batch) (s : State) : (putBatch b s).tsu = s.tsu := rfl
@[simp] theorem putBatch_auz (b : Option Batch) (s : State) : (putBatch b s).auz = s.auz := rfl
@[simp] theorem putBatch_sjr (b : Option Batch) (s : State) : (putBatch b s).sjr = s.sjr := rfl
@[simp] theorem putBatch_ulc (b : Option Batch) (s : State) : (putBatch b s).ulc = s.ulc := rfl
@[simp] theorem putBatch_gac (b : Option Batch) (s : State) : (putBatch b s).gac = s.gac := rfl
@[simp] theorem putBatch_day (b : Option Batch) (s : State) : (putBatch b s).day = s.day := rfl
@[simp] theorem putBatch_hlk (b : Option Batch) (s : State) : (putBatch b s).hlk = s.hlk := rfl

@[simp] theorem putFile_pending (f : Option FileRequest) (s : State) : (putFile f s).pending = s.pending := rfl
@[simp] theorem putFile_out (f : Option FileRequest) (s : State) : (putFile f s).out = s.out := rfl
@[simp] theorem putFile_timer (f : Option FileRequest) (s : State) : (putFile f s).timer = s.timer := rfl
@[simp] theorem putFile_settings (f : Option FileRequest) (s : State) : (putFile f s).settings = s.settings := rfl
@[simp] theorem putFile_identity (f : Option FileRequest) (s : State) : (putFile f s).identity = s.identity := rfl
@[simp] theorem putFile_nv (f : Option FileRequest) (s : State) : (putFile f s).nv = s.nv := rfl
@[simp] theorem putFile_waiting (f : Option FileRequest) (s : State) : (putFile f s).waiting = s.waiting := rfl
@[simp] theorem putFile_pbk (f : Option FileRequest) (s : State) : (putFile f s).pbk = s.pbk := rfl
@[simp] theorem putFile_lrs (f : Option FileRequest) (s : State) : (putFile f s).lrs = s.lrs := rfl
@[simp] theorem putFile_tsu (f : Option FileRequest) (s : State) : (putFile f s).tsu = s.tsu := rfl
@[simp] theorem putFile_auz (f : Option FileRequest) (s : State) : (putFile f s).auz = s.auz := rfl
@[simp] theorem putFile_sjr (f : Option FileRequest) (s : State) : (putFile f s).sjr = s.sjr := rfl
@[simp] theorem putFile_ulc (f : Option FileRequest) (s : State) : (putFile f s).ulc = s.ulc := rfl
@[simp] theorem putFile_gac (f : Option FileRequest) (s : State) : (putFile f s).gac = s.gac := rfl
@[simp] theorem putFile_day (f : Option FileRequest) (s : State) : (putFile f s).day = s.day := rfl
@[simp] theorem putFile_hlk (f : Option FileRequest) (s : State) : (putFile f s).hlk = s.hlk := rfl

@[simp] theorem putSession_pending (i : Nat) (e : Option Session) (s : State) : (putSession i e s).pending = s.pending := rfl
@[simp] theorem putSession_out (i : Nat) (e : Option Session) (s : State) : (putSession i e s).out = s.out := rfl
@[simp] theorem putSession_timer (i : Nat) (e : Option Session) (s : State) : (putSession i e s).timer = s.timer := rfl
@[simp] theorem putSession_settings (i : Nat) (e : Option Session) (s : State) : (putSession i e s).settings = s.settings := rfl
@[simp] theorem putSession_identity (i : Nat) (e : Option Session) (s : State) : (putSession i e s).identity = s.identity := rfl
@[simp] theorem putSession_nv (i : Nat) (e : Option Session) (s : State) : (putSession i e s).nv = s.nv := rfl
@[simp] theorem putSession_waiting (i : Nat) (e : Option Session) (s : State) : (putSession i e s).waiting = s.waiting := rfl
@[simp] theorem putSession_pbk (i : Nat) (e : Option Session) (s : State) : (putSession i e s).pbk = s.pbk := rfl
@[simp] theorem putSession_lrs (i : Nat) (e : Option Session) (s : State) : (putSession i e s).lrs = s.lrs := rfl
@[simp] theorem putSession_tsu (i : Nat) (e : Option Session) (s : State) : (putSession i e s).tsu = s.tsu := rfl
@[simp] theorem putSession_auz (i : Nat) (e : Option Session) (s : State) : (putSession i e s).auz = s.auz := rfl
@[simp] theorem putSession_sjr (i : Nat) (e : Option Session) (s : State) : (putSession i e s).sjr = s.sjr := rfl
@[simp] theorem putSession_ulc (i : Nat) (e : Option Session) (s : State) : (putSession i e s).ulc = s.ulc := rfl
@[simp] theorem putSession_txe (i : Nat) (e : Option Session) (s : State) : (putSession i e s).txe = s.txe := rfl
@[simp] theorem putSession_day (i : Nat) (e : Option Session) (s : State) : (putSession i e s).day = s.day := rfl
@[simp] theorem putSession_hlk (i : Nat) (e : Option Session) (s : State) : (putSession i e s).hlk = s.hlk := rfl

@[simp] theorem offerAppend_pending (a : Append) (s : State) : (offerAppend a s).pending = s.pending := rfl
@[simp] theorem offerAppend_out (a : Append) (s : State) : (offerAppend a s).out = s.out := rfl
@[simp] theorem offerAppend_timer (a : Append) (s : State) : (offerAppend a s).timer = s.timer := rfl
@[simp] theorem offerAppend_settings (a : Append) (s : State) : (offerAppend a s).settings = s.settings := rfl
@[simp] theorem offerAppend_identity (a : Append) (s : State) : (offerAppend a s).identity = s.identity := rfl
@[simp] theorem offerAppend_nv (a : Append) (s : State) : (offerAppend a s).nv = s.nv := rfl
@[simp] theorem offerAppend_waiting (a : Append) (s : State) : (offerAppend a s).waiting = s.waiting := rfl
@[simp] theorem offerAppend_pbk (a : Append) (s : State) : (offerAppend a s).pbk = s.pbk := rfl
@[simp] theorem offerAppend_lrs (a : Append) (s : State) : (offerAppend a s).lrs = s.lrs := rfl
@[simp] theorem offerAppend_tsu (a : Append) (s : State) : (offerAppend a s).tsu = s.tsu := rfl
@[simp] theorem offerAppend_auz (a : Append) (s : State) : (offerAppend a s).auz = s.auz := rfl
@[simp] theorem offerAppend_ulc (a : Append) (s : State) : (offerAppend a s).ulc = s.ulc := rfl
@[simp] theorem offerAppend_txe (a : Append) (s : State) : (offerAppend a s).txe = s.txe := rfl
@[simp] theorem offerAppend_gac (a : Append) (s : State) : (offerAppend a s).gac = s.gac := rfl
@[simp] theorem offerAppend_day (a : Append) (s : State) : (offerAppend a s).day = s.day := rfl
@[simp] theorem offerAppend_hlk (a : Append) (s : State) : (offerAppend a s).hlk = s.hlk := rfl

@[simp] theorem addClaim_pending (till n : Nat) (s : State) : (addClaim till n s).pending = s.pending := rfl
@[simp] theorem addClaim_out (till n : Nat) (s : State) : (addClaim till n s).out = s.out := rfl
@[simp] theorem addClaim_timer (till n : Nat) (s : State) : (addClaim till n s).timer = s.timer := rfl
@[simp] theorem addClaim_settings (till n : Nat) (s : State) : (addClaim till n s).settings = s.settings := rfl
@[simp] theorem addClaim_identity (till n : Nat) (s : State) : (addClaim till n s).identity = s.identity := rfl
@[simp] theorem addClaim_nv (till n : Nat) (s : State) : (addClaim till n s).nv = s.nv := rfl
@[simp] theorem addClaim_waiting (till n : Nat) (s : State) : (addClaim till n s).waiting = s.waiting := rfl
@[simp] theorem addClaim_pbk (till n : Nat) (s : State) : (addClaim till n s).pbk = s.pbk := rfl
@[simp] theorem addClaim_lrs (till n : Nat) (s : State) : (addClaim till n s).lrs = s.lrs := rfl
@[simp] theorem addClaim_tsu (till n : Nat) (s : State) : (addClaim till n s).tsu = s.tsu := rfl
@[simp] theorem addClaim_auz (till n : Nat) (s : State) : (addClaim till n s).auz = s.auz := rfl
@[simp] theorem addClaim_ulc (till n : Nat) (s : State) : (addClaim till n s).ulc = s.ulc := rfl
@[simp] theorem addClaim_txe (till n : Nat) (s : State) : (addClaim till n s).txe = s.txe := rfl
@[simp] theorem addClaim_gac (till n : Nat) (s : State) : (addClaim till n s).gac = s.gac := rfl
@[simp] theorem addClaim_day (till n : Nat) (s : State) : (addClaim till n s).day = s.day := rfl
@[simp] theorem addClaim_hlk (till n : Nat) (s : State) : (addClaim till n s).hlk = s.hlk := rfl

@[simp] theorem dropClaim_pending (till : Nat) (s : State) : (dropClaim till s).pending = s.pending := rfl
@[simp] theorem dropClaim_out (till : Nat) (s : State) : (dropClaim till s).out = s.out := rfl
@[simp] theorem dropClaim_timer (till : Nat) (s : State) : (dropClaim till s).timer = s.timer := rfl
@[simp] theorem dropClaim_settings (till : Nat) (s : State) : (dropClaim till s).settings = s.settings := rfl
@[simp] theorem dropClaim_identity (till : Nat) (s : State) : (dropClaim till s).identity = s.identity := rfl
@[simp] theorem dropClaim_nv (till : Nat) (s : State) : (dropClaim till s).nv = s.nv := rfl
@[simp] theorem dropClaim_waiting (till : Nat) (s : State) : (dropClaim till s).waiting = s.waiting := rfl
@[simp] theorem dropClaim_pbk (till : Nat) (s : State) : (dropClaim till s).pbk = s.pbk := rfl
@[simp] theorem dropClaim_lrs (till : Nat) (s : State) : (dropClaim till s).lrs = s.lrs := rfl
@[simp] theorem dropClaim_tsu (till : Nat) (s : State) : (dropClaim till s).tsu = s.tsu := rfl
@[simp] theorem dropClaim_auz (till : Nat) (s : State) : (dropClaim till s).auz = s.auz := rfl
@[simp] theorem dropClaim_ulc (till : Nat) (s : State) : (dropClaim till s).ulc = s.ulc := rfl
@[simp] theorem dropClaim_txe (till : Nat) (s : State) : (dropClaim till s).txe = s.txe := rfl
@[simp] theorem dropClaim_gac (till : Nat) (s : State) : (dropClaim till s).gac = s.gac := rfl
@[simp] theorem dropClaim_day (till : Nat) (s : State) : (dropClaim till s).day = s.day := rfl
@[simp] theorem dropClaim_hlk (till : Nat) (s : State) : (dropClaim till s).hlk = s.hlk := rfl

@[simp] theorem takeNumber_taken (s : State) : (takeNumber s).pbk.taken = nextChange s := rfl
@[simp] theorem takeNumber_counter (s : State) : (takeNumber s).pbk.counter = s.pbk.counter := rfl
@[simp] theorem takeNumber_items (s : State) : (takeNumber s).pbk.items = s.pbk.items := rfl
@[simp] theorem takeNumber_slots (s : State) : (takeNumber s).pbk.slots = s.pbk.slots := rfl
@[simp] theorem takeNumber_queue (s : State) : (takeNumber s).pbk.queue = s.pbk.queue := rfl
@[simp] theorem takeNumber_nv (s : State) : (takeNumber s).nv = s.nv := rfl

end Sys2Proof.Laws
end

