-- ==== Sys2Proof/Laws/Runs.lean ====
section
/-! SUPPORT. Each shared operation of Machine/Ops.lean is a run of moves. -/

namespace Sys2Proof.Laws

open Sys2Proof.Machine Sys2Proof.Safety

variable {ρ : Reach} {d : Area → Bool} {ν : View}

@[simp ↓] theorem State_when_runs (c : Bool) (f : State → State) (s : State) (_hf : Runs ρ ν (view (f s))) (h : Runs ρ ν (view s)) :
    Runs ρ ν (view (State.when c f s)) := by
  unfold State.when; split <;> assumption
@[simp ↓] theorem emit_runs (o : Output) (s : State) (h : Runs ρ ν (view s)) :
    Runs ρ ν (view (emit o s)) := h.tail (.emit o)
@[simp ↓] theorem joinNotice_runs (b : NoticeBody) (s : State) (h : Runs ρ ν (view s)) :
    Runs ρ ν (view (joinNotice b s)) := by
  unfold joinNotice
  split
  · rename_i hr
    exact h.tail (.notice _ (of_decide_eq_true hr))
  · exact h
@[simp ↓] theorem notify_runs (b : NoticeBody) (s : State) (h : Runs ρ ν (view s)) :
    Runs ρ ν (view (notify b s)) := by
  unfold notify
  first
  | ((try dsimp only) <;> (repeat' split) <;> first | with_reducible exact h | simp (maxDischargeDepth := 40) [*])
  | exact h
@[simp ↓] theorem reply_runs (tag : Nat) (k : RequestKind) (r : Result) (b : ReplyBody) (s : State) (h : Runs ρ ν (view s)) :
    Runs ρ ν (view (reply tag k r b s)) := h.tail (.reply _)
@[simp ↓] theorem replyNow_runs (tag : Nat) (k : RequestKind) (r : Result) (s : State) (h : Runs ρ ν (view s)) :
    Runs ρ ν (view (replyNow tag k r s)) := h.tail (.reply _)
@[simp ↓] theorem sendReply_runs (r : Reply) (rest : List Reply) (s : State) (hr : s.hlk.replies = r :: rest) (h : Runs ρ ν (view s)) :
    Runs ρ ν (view (sendReply r rest s)) := h.tail (.sendReply r rest hr)
@[simp ↓] theorem sendNotice_runs (n : Notice) (s : State) (h : Runs ρ ν (view s)) :
    Runs ρ ν (view (sendNotice n s)) := h.tail (.emit _)
@[simp ↓] theorem hostPump_runs (s : State) (h : Runs ρ ν (view s)) :
    Runs ρ ν (view (hostPump s)) := by
  unfold hostPump
  split
  · exact h
  · split
    · rename_i r rest hr
      refine sendReply_runs _ _ s ?_ h
      split at hr <;> simp_all
    · split <;> simp [h]
@[simp ↓] theorem frameError_runs (s : State) (h : Runs ρ ν (view s)) :
    Runs ρ ν (view (frameError s)) := by
  unfold frameError
  first
  | ((try dsimp only) <;> (repeat' split) <;> first | with_reducible exact h | simp (maxDischargeDepth := 40) [*])
  | exact h
@[simp ↓] theorem tillError_runs (s : State) (h : Runs ρ ν (view s)) :
    Runs ρ ν (view (tillError s)) := by
  unfold tillError
  first
  | ((try dsimp only) <;> (repeat' split) <;> first | with_reducible exact h | simp (maxDischargeDepth := 40) [*])
  | exact h
@[simp ↓] theorem radioError_runs (s : State) (h : Runs ρ ν (view s)) :
    Runs ρ ν (view (radioError s)) := by
  unfold radioError
  first
  | ((try dsimp only) <;> (repeat' split) <;> first | with_reducible exact h | simp (maxDischargeDepth := 40) [*])
  | exact h
@[simp ↓] theorem linkError_runs (s : State) (h : Runs ρ ν (view s)) :
    Runs ρ ν (view (linkError s)) := by
  unfold linkError
  first
  | ((try dsimp only) <;> (repeat' split) <;> first | with_reducible exact h | simp (maxDischargeDepth := 40) [*])
  | exact h
@[simp ↓] theorem routeError_runs (s : State) (h : Runs ρ ν (view s)) :
    Runs ρ ν (view (routeError s)) := by
  unfold routeError
  first
  | ((try dsimp only) <;> (repeat' split) <;> first | with_reducible exact h | simp (maxDischargeDepth := 40) [*])
  | exact h
@[simp ↓] theorem advanceClock_runs (ms : Nat) (s : State) (h : Runs (.outer d) ν (view s)) :
    Runs (.outer d) ν (view (advanceClock ms s)) := h.tail (.time _ _)
@[simp ↓] theorem eventsFallDue_runs (ms : Nat) (s : State) (h : Runs (.outer d) ν (view s)) :
    Runs (.outer d) ν (view (eventsFallDue ms s)) := by unfold eventsFallDue; simpa
@[simp ↓] theorem advanceTo_runs (t : Nat) (s : State) (h : Runs (.outer d) ν (view s)) :
    Runs (.outer d) ν (view (advanceTo t s)) := by
  unfold advanceTo
  split
  · exact h
  · exact (eventsFallDue_runs _ _ h).tail (.time t _)
@[simp ↓] theorem startSilence_runs (s : State) (h : Runs ρ ν (view s)) :
    Runs ρ ν (view (startSilence s)) := by
  unfold startSilence
  first
  | ((try dsimp only) <;> (repeat' split) <;> first | with_reducible exact h | simp (maxDischargeDepth := 40) [*])
  | exact h
@[simp ↓] theorem restartSilence_runs (s : State) (h : Runs ρ ν (view s)) :
    Runs ρ ν (view (restartSilence s)) := startSilence_runs s h
@[simp ↓] theorem endStandalone_runs (s : State) (h : Runs ρ ν (view s)) :
    Runs ρ ν (view (endStandalone s)) := by
  unfold endStandalone
  first
  | ((try dsimp only) <;> (repeat' split) <;> first | with_reducible exact h | simp (maxDischargeDepth := 40) [*])
  | exact h
@[simp ↓] theorem putLabel_runs (l : Label) (s : State) (hlabels : d .labels = true) (h : Runs (.outer d) ν (view s)) :
    Runs (.outer d) ν (view (putLabel l s)) := h.tail (.label hlabels l)
@[simp ↓] theorem queueWork_runs (w : Work) (s : State) (h : Runs ρ ν (view s)) :
    Runs ρ ν (view (queueWork w s)) := by
  unfold queueWork
  first
  | ((try dsimp only) <;> (repeat' split) <;> first | with_reducible exact h | simp (maxDischargeDepth := 40) [*])
  | exact h
@[simp ↓] theorem startWrite_runs (w : NvWrite) (s : State) (hw : isSetting w = false) (h : Runs ρ ν (view s)) :
    Runs ρ ν (view (startWrite w s)) := by
  unfold startWrite
  split
  · exact h
  · exact h.tail (.write w hw)
@[simp ↓] theorem queueWrite_runs (o : QueueOp) (s : State) (h : Runs ρ ν (view s)) :
    Runs ρ ν (view (queueWrite o s)) := by
  unfold queueWrite
  split
  · exact h
  · exact h.tail (.queueWrite o)

end Sys2Proof.Laws
end

