-- ==== Sys2Proof/Laws/RunsGuest.lean ====
section
/-! SUPPORT. Each operation of Machine/GuestOps.lean is a run of moves. -/

namespace Sys2Proof.Laws

open Sys2Proof.Machine Sys2Proof.Safety

variable {ρ : Reach} {d : Area → Bool} {ν : View}

/-- A fold of runs is a run. -/
theorem foldl_runs {α : Type} (f : State → α → State) (hf : ∀ a t, Runs ρ ν (view t) → Runs ρ ν (view (f t a)))
    (l : List α) (s : State) (h : Runs ρ ν (view s)) : Runs ρ ν (view (l.foldl f s)) := by
  induction l generalizing s with
  | nil => exact h
  | cons a l ih => exact ih _ (hf a s h)

@[simp ↓] theorem putSession_runs (i : Nat) (e : Option Session) (s : State) (h : Runs ρ ν (view s)) :
    Runs ρ ν (view (putSession i e s)) := by
  unfold putSession
  first
  | ((try dsimp only) <;> (repeat' split) <;> first | with_reducible exact h | simp (maxDischargeDepth := 40) [*])
  | exact h
@[simp ↓] theorem countDrops_runs (n : Nat) (s : State) (h : Runs ρ ν (view s)) :
    Runs ρ ν (view (countDrops n s)) := by
  unfold countDrops
  first
  | ((try dsimp only) <;> (repeat' split) <;> first | with_reducible exact h | simp (maxDischargeDepth := 40) [*])
  | exact h
@[simp ↓] theorem endSession_runs (i : Nat) (r : EndReason) (s : State) (hr : r.spends = false) (h : Runs ρ ν (view s)) :
    Runs ρ ν (view (endSession i r s)) := by
  unfold endSession
  split
  · exact h
  · rw [if_neg (by simp [hr])]; simp [h]
theorem endSession_outer (i : Nat) (r : EndReason) (s : State) (h : Runs (.outer d) ν (view s)) :
    Runs (.outer d) ν (view (endSession i r s)) := by
  unfold endSession
  split
  · exact h
  · refine emit_runs _ _ (putSession_runs _ _ _ ?_)
    split
    · exact h.tail (.spent _)
    · exact h
@[simp ↓] theorem endAllSessions_runs (r : EndReason) (s : State) (hr : r.spends = false) (h : Runs ρ ν (view s)) :
    Runs ρ ν (view (endAllSessions r s)) := foldl_runs _ (fun _ t ht => endSession_runs _ r t hr ht) _ _ h
@[simp ↓] theorem endAllSessions_close (s : State) (h : Runs ρ ν (view s)) :
    Runs ρ ν (view (endAllSessions .close s)) := endAllSessions_runs _ s rfl h
@[simp ↓] theorem refreshAllTokens_runs (s : State) (h : Runs ρ ν (view s)) :
    Runs ρ ν (view (refreshAllTokens s)) := by
  unfold refreshAllTokens
  first
  | ((try dsimp only) <;> (repeat' split) <;> first | with_reducible exact h | simp (maxDischargeDepth := 40) [*])
  | exact h
@[simp ↓] theorem emptyGuestQueue_runs (s : State) (h : Runs ρ ν (view s)) :
    Runs ρ ν (view (emptyGuestQueue s)) := countDrops_runs _ _ (h.tail (.leaveClass .guest [] (List.nil_sublist _)))
@[simp ↓] theorem rematchGuestQueue_runs (s : State) (h : Runs ρ ν (view s)) :
    Runs ρ ν (view (rematchGuestQueue s)) := countDrops_runs _ _ (h.tail (.leaveClass .guest _ (List.filter_sublist)))
@[simp ↓] theorem enterService_runs (old new : Service) (s : State) (h : Runs ρ ν (view s)) :
    Runs ρ ν (view (enterService old new s)) := by
  unfold enterService
  first
  | ((try dsimp only) <;> (repeat' split) <;> first | with_reducible exact h | simp (maxDischargeDepth := 40) [*])
  | exact h
@[simp ↓] theorem guestDecide_runs (s : State) (h : Runs ρ ν (view s)) :
    Runs ρ ν (view (guestDecide s)) := by
  unfold guestDecide
  first
  | ((try dsimp only) <;> (repeat' split) <;> first | with_reducible exact h | simp (maxDischargeDepth := 40) [*])
  | exact h
@[simp ↓] theorem countIsolation_runs (s : State) (h : Runs ρ ν (view s)) :
    Runs ρ ν (view (countIsolation s)) := by
  unfold countIsolation
  first
  | ((try dsimp only) <;> (repeat' split) <;> first | with_reducible exact h | simp (maxDischargeDepth := 40) [*])
  | exact h
@[simp ↓] theorem endIfSpent_runs (i : Nat) (s : State) (h : Runs (.outer d) ν (view s)) :
    Runs (.outer d) ν (view (endIfSpent i s)) := by
  unfold endIfSpent
  (repeat' split) <;> first | exact h | exact endSession_outer _ _ _ h
@[simp ↓] theorem judgeGuestFrame_runs (i : Nat) (e : Session) (a : Addr) (dest : Nat) (payload : List Byte) (s : State) (h : Runs (.outer d) ν (view s)) :
    Runs (.outer d) ν (view (judgeGuestFrame i e a dest payload s)) := by
  unfold judgeGuestFrame
  dsimp only
  (repeat' split) <;> first | exact h | simp (maxDischargeDepth := 40) [h] | skip
  rename_i hq
  refine endIfSpent_runs _ _ (putSession_runs _ _ _ ?_)
  exact (putSession_runs i _ _ h).tail (.joinClass .guest _ (by intro n hn; cases hn; exact hq) nofun)
@[simp ↓] theorem guestFrameOut_runs (a : Addr) (dest : Nat) (payload : List Byte) (s : State) (h : Runs (.outer d) ν (view s)) :
    Runs (.outer d) ν (view (guestFrameOut a dest payload s)) := by
  unfold guestFrameOut
  first
  | ((try dsimp only) <;> (repeat' split) <;> first | with_reducible exact h | simp (maxDischargeDepth := 40) [*])
  | exact h
@[simp ↓] theorem guestFrameIn_runs (a : Addr) (payload : List Byte) (s : State) (h : Runs (.outer d) ν (view s)) :
    Runs (.outer d) ν (view (guestFrameIn a payload s)) := by
  unfold guestFrameIn
  first
  | ((try dsimp only) <;> (repeat' split) <;> first | with_reducible exact h | simp (maxDischargeDepth := 40) [*])
  | exact h
@[simp ↓] theorem joinAnswer_runs (a : Addr) (s : State) (h : Runs ρ ν (view s)) :
    Runs ρ ν (view (joinAnswer a s)) := by
  unfold joinAnswer
  first
  | ((try dsimp only) <;> (repeat' split) <;> first | with_reducible exact h | simp (maxDischargeDepth := 40) [*])
  | exact h

end Sys2Proof.Laws
end

