-- ==== Sys2Proof/Laws/RunsJournal.lean ====
section
/-! SUPPORT. Each operation of Machine/JournalOps.lean is a run of moves. -/

namespace Sys2Proof.Laws

open Sys2Proof.Machine Sys2Proof.Safety

variable {ρ : Reach} {d : Area → Bool} {ν : View}

@[simp ↓] theorem addClaim_runs (till n : Nat) (s : State) (h : Runs (.outer d) ν (view s)) :
    Runs (.outer d) ν (view (addClaim till n s)) := h.tail (.claims _ (List.length_modify ..))
@[simp ↓] theorem dropClaim_runs (till : Nat) (s : State) (h : Runs (.outer d) ν (view s)) :
    Runs (.outer d) ν (view (dropClaim till s)) := h.tail (.claims _ (List.length_modify ..))
@[simp ↓] theorem offerAppend_runs (a : Append) (s : State) (h : Runs ρ ν (view s)) :
    Runs ρ ν (view (offerAppend a s)) := by
  unfold offerAppend
  first
  | ((try dsimp only) <;> (repeat' split) <;> first | with_reducible exact h | simp (maxDischargeDepth := 40) [*])
  | exact h
@[simp ↓] theorem compareLevel_runs (s : State) (h : Runs ρ ν (view s)) :
    Runs ρ ν (view (compareLevel s)) := by
  unfold compareLevel
  first
  | ((try dsimp only) <;> (repeat' split) <;> first | with_reducible exact h | simp (maxDischargeDepth := 40) [*])
  | exact h
@[simp ↓] theorem recomputeOccupancy_runs (s : State) (h : Runs ρ ν (view s)) :
    Runs ρ ν (view (recomputeOccupancy s)) := by
  unfold recomputeOccupancy
  first
  | ((try dsimp only) <;> (repeat' split) <;> first | with_reducible exact h | simp (maxDischargeDepth := 40) [*])
  | exact h
@[simp ↓] theorem beginAppend_runs (a : Append) (rest : List Append) (s : State) (hc : ¬ Config.max32 ≤ s.sjr.counter)
    (h : Runs ρ ν (view s)) : Runs ρ ν (view (beginAppend a rest s)) :=
  h.tail (.takeAppend ⟨a, s.sjr.counter + 1, s.clock0⟩ (by dsimp only; omega))
@[simp ↓] theorem recordAppend_runs (w : Writing) (s : State) (hjournal : d .journal = true) (hw : s.sjr.writing = some w)
    (h : Runs (.outer d) ν (view s)) : Runs (.outer d) ν (view (recordAppend w s)) := by
  unfold recordAppend State.when
  split
  · exact (dropClaim_runs w.append.till s h).tail (.append hjournal w hw)
  · exact h.tail (.append hjournal w hw)
@[simp ↓] theorem markSent_runs (seq batch : Nat) (s : State) (h : Runs ρ ν (view s)) :
    Runs ρ ν (view (markSent seq batch s)) := h.tail (.markSent seq batch)
@[simp ↓] theorem unsendBatch_runs (batch : Nat) (s : State) (h : Runs ρ ν (view s)) :
    Runs ρ ν (view (unsendBatch batch s)) := h.tail (.unsend batch)
@[simp ↓] theorem dropRecords_runs (named : List Nat) (s : State) (hjournal : d .journal = true) (h : Runs (.outer d) ν (view s)) :
    Runs (.outer d) ν (view (dropRecords named s)) := h.tail (.drop hjournal named)

end Sys2Proof.Laws
end

