-- ==== Sys2Proof/Laws/RunsTransfer.lean ====
section
/-! SUPPORT. Each operation of Machine/TransferOps.lean is a run of moves. -/

namespace Sys2Proof.Laws

open Sys2Proof.Machine Sys2Proof.Safety

variable {ρ : Reach} {d : Area → Bool} {ν : View}

@[simp ↓] theorem putBatch_runs (b : Option Batch) (s : State) (h : Runs ρ ν (view s)) :
    Runs ρ ν (view (putBatch b s)) := by
  unfold putBatch
  first
  | ((try dsimp only) <;> (repeat' split) <;> first | with_reducible exact h | simp (maxDischargeDepth := 40) [*])
  | exact h
@[simp ↓] theorem putFile_runs (f : Option FileRequest) (s : State) (h : Runs ρ ν (view s)) :
    Runs ρ ν (view (putFile f s)) := by
  unfold putFile
  first
  | ((try dsimp only) <;> (repeat' split) <;> first | with_reducible exact h | simp (maxDischargeDepth := 40) [*])
  | exact h
@[simp ↓] theorem withdrawBatch_runs (n : Nat) (s : State) (h : Runs ρ ν (view s)) :
    Runs ρ ν (view (withdrawBatch n s)) := h.tail (.leaveClass .journal _ List.filter_sublist)
@[simp ↓] theorem withdrawFileRequest_runs (s : State) (h : Runs ρ ν (view s)) :
    Runs ρ ν (view (withdrawFileRequest s)) := h.tail (.leaveClass .price _ List.filter_sublist)
@[simp ↓] theorem abortBatch_runs (s : State) (h : Runs ρ ν (view s)) :
    Runs ρ ν (view (abortBatch s)) := by
  unfold abortBatch
  first
  | ((try dsimp only) <;> (repeat' split) <;> first | with_reducible exact h | simp (maxDischargeDepth := 40) [*])
  | exact h
@[simp ↓] theorem acceptBatch_runs (s : State) (h : Runs ρ ν (view s)) :
    Runs ρ ν (view (acceptBatch s)) := by
  unfold acceptBatch
  first
  | ((try dsimp only) <;> (repeat' split) <;> first | with_reducible exact h | simp (maxDischargeDepth := 40) [*])
  | exact h
@[simp ↓] theorem endRun_runs (upload download : PhaseResult) (s : State) (h : Runs ρ ν (view s)) :
    Runs ρ ν (view (endRun upload download s)) := by
  unfold endRun
  first
  | ((try dsimp only) <;> (repeat' split) <;> first | with_reducible exact h | simp (maxDischargeDepth := 40) [*])
  | exact h
@[simp ↓] theorem startRun_runs (cause : StartCause) (s : State) (h : Runs ρ ν (view s)) :
    Runs ρ ν (view (startRun cause s)) := by
  unfold startRun
  first
  | ((try dsimp only) <;> (repeat' split) <;> first | with_reducible exact h | simp (maxDischargeDepth := 40) [*])
  | exact h
@[simp ↓] theorem abortNow_runs (s : State) (h : Runs ρ ν (view s)) :
    Runs ρ ν (view (abortNow s)) := by
  unfold abortNow
  first
  | ((try dsimp only) <;> (repeat' split) <;> first | with_reducible exact h | simp (maxDischargeDepth := 40) [*])
  | exact h
@[simp ↓] theorem settleAbort_runs (s : State) (h : Runs ρ ν (view s)) :
    Runs ρ ν (view (settleAbort s)) := by
  unfold settleAbort
  split
  · exact abortNow_runs _ h
  · exact h
@[simp ↓] theorem abortRun_runs (s : State) (h : Runs ρ ν (view s)) :
    Runs ρ ν (view (abortRun s)) := settleAbort_runs _ h
@[simp ↓] theorem beginDownload_runs (upload : PhaseResult) (s : State) (h : Runs ρ ν (view s)) :
    Runs ρ ν (view (beginDownload upload s)) := by
  unfold beginDownload
  first
  | ((try dsimp only) <;> (repeat' split) <;> first | with_reducible exact h | simp (maxDischargeDepth := 40) [*])
  | exact h
@[simp ↓] theorem failUpload_runs (owner : BatchOwner) (s : State) (h : Runs ρ ν (view s)) :
    Runs ρ ν (view (failUpload owner s)) := by
  unfold failUpload
  first
  | ((try dsimp only) <;> (repeat' split) <;> first | with_reducible exact h | simp (maxDischargeDepth := 40) [*])
  | exact h
@[simp ↓] theorem batchBusy_runs (s : State) (h : Runs ρ ν (view s)) :
    Runs ρ ν (view (batchBusy s)) := by
  unfold batchBusy
  first
  | ((try dsimp only) <;> (repeat' split) <;> first | with_reducible exact h | simp (maxDischargeDepth := 40) [*])
  | exact h
@[simp ↓] theorem fileRequestBusy_runs (s : State) (h : Runs ρ ν (view s)) :
    Runs ρ ν (view (fileRequestBusy s)) := by
  unfold fileRequestBusy
  first
  | ((try dsimp only) <;> (repeat' split) <;> first | with_reducible exact h | simp (maxDischargeDepth := 40) [*])
  | exact h
@[simp ↓] theorem transferSessionEnd_runs (n : Nat) (s : State) (h : Runs ρ ν (view s)) :
    Runs ρ ν (view (transferSessionEnd n s)) := by
  unfold transferSessionEnd
  first
  | ((try dsimp only) <;> (repeat' split) <;> first | with_reducible exact h | simp (maxDischargeDepth := 40) [*])
  | exact h
@[simp ↓] theorem journalFrameSent_runs (batch seq session : Nat) (s : State) (h : Runs ρ ν (view s)) :
    Runs ρ ν (view (journalFrameSent batch seq session s)) := by
  unfold journalFrameSent
  first
  | ((try dsimp only) <;> (repeat' split) <;> first | with_reducible exact h | simp (maxDischargeDepth := 40) [*])
  | exact h
@[simp ↓] theorem fileRequestSent_runs (session : Nat) (s : State) (h : Runs ρ ν (view s)) :
    Runs ρ ν (view (fileRequestSent session s)) := by
  unfold fileRequestSent
  first
  | ((try dsimp only) <;> (repeat' split) <;> first | with_reducible exact h | simp (maxDischargeDepth := 40) [*])
  | exact h
@[simp ↓] theorem formBatch_runs (owner : BatchOwner) (s : State) (h : Runs ρ ν (view s)) :
    Runs ρ ν (view (formBatch owner s)) := by
  unfold formBatch
  first
  | ((try dsimp only) <;> (repeat' split) <;> first | with_reducible exact h | simp (maxDischargeDepth := 40) [*])
  | exact h
@[simp ↓] theorem resumeBatch_runs (s : State) (h : Runs ρ ν (view s)) :
    Runs ρ ν (view (resumeBatch s)) := by
  unfold resumeBatch
  first
  | ((try dsimp only) <;> (repeat' split) <;> first | with_reducible exact h | simp (maxDischargeDepth := 40) [*])
  | exact h
@[simp ↓] theorem offerMember_runs (s : State) (h : Runs ρ ν (view s)) :
    Runs ρ ν (view (offerMember s)) := by
  unfold offerMember
  (repeat' split) <;> first | exact h | skip
  rename_i hq
  exact h.tail (.joinClass .journal _ (by intro n hn; cases hn; exact hq) nofun)
@[simp ↓] theorem offerMembers_runs (n : Nat) (s : State) (h : Runs ρ ν (view s)) :
    Runs ρ ν (view (offerMembers n s)) := by
  induction n generalizing s with
  | zero => exact h
  | succ n ih => exact ih _ (offerMember_runs s h)
@[simp ↓] theorem settleBatch_runs (s : State) (h : Runs ρ ν (view s)) :
    Runs ρ ν (view (settleBatch s)) := by
  unfold settleBatch
  first
  | ((try dsimp only) <;> (repeat' split) <;> first | with_reducible exact h | simp (maxDischargeDepth := 40) [*])
  | exact h
@[simp ↓] theorem formNext_runs (s : State) (h : Runs ρ ν (view s)) :
    Runs ρ ν (view (formNext s)) := by
  unfold formNext
  first
  | ((try dsimp only) <;> (repeat' split) <;> first | with_reducible exact h | simp (maxDischargeDepth := 40) [*])
  | exact h
@[simp ↓] theorem offerFileRequest_runs (s : State) (h : Runs ρ ν (view s)) :
    Runs ρ ν (view (offerFileRequest s)) := by
  unfold offerFileRequest
  (repeat' split) <;> first | exact h | skip
  rename_i hq
  exact h.tail (.joinClass .price _ (by intro n hn; cases hn; exact hq.2.2.2) nofun)
@[simp ↓] theorem countLatePiece_runs (s : State) (h : Runs ρ ν (view s)) :
    Runs ρ ν (view (countLatePiece s)) := by
  unfold countLatePiece
  first
  | ((try dsimp only) <;> (repeat' split) <;> first | with_reducible exact h | simp (maxDischargeDepth := 40) [*])
  | exact h
@[simp ↓] theorem countLateAck_runs (s : State) (h : Runs ρ ν (view s)) :
    Runs ρ ν (view (countLateAck s)) := by
  unfold countLateAck
  first
  | ((try dsimp only) <;> (repeat' split) <;> first | with_reducible exact h | simp (maxDischargeDepth := 40) [*])
  | exact h
@[simp ↓] theorem takePiece_runs (f : FileRequest) (last : Bool) (changes : List PieceChange) (s : State) (h : Runs ρ ν (view s)) :
    Runs ρ ν (view (takePiece f last changes s)) := by
  unfold takePiece
  first
  | ((try dsimp only) <;> (repeat' split) <;> first | with_reducible exact h | simp (maxDischargeDepth := 40) [*])
  | exact h
@[simp ↓] theorem nightAnswer_runs (accepted : Bool) (s : State) (h : Runs ρ ν (view s)) :
    Runs ρ ν (view (nightAnswer accepted s)) := by
  unfold nightAnswer
  first
  | ((try dsimp only) <;> (repeat' split) <;> first | with_reducible exact h | simp (maxDischargeDepth := 40) [*])
  | exact h
@[simp ↓] theorem finishPiece_runs (f : FileRequest) (s : State) (h : Runs ρ ν (view s)) :
    Runs ρ ν (view (finishPiece f s)) := by
  unfold finishPiece
  first
  | ((try dsimp only) <;> (repeat' split) <;> first | with_reducible exact h | simp (maxDischargeDepth := 40) [*])
  | exact h
@[simp ↓] theorem removalTold_runs (r : Removal) (n : Nat) (s : State) (h : Runs ρ ν (view s)) :
    Runs ρ ν (view (removalTold r n s)) := by
  unfold removalTold
  first
  | ((try dsimp only) <;> (repeat' split) <;> first | with_reducible exact h | simp (maxDischargeDepth := 40) [*])
  | exact h
@[simp ↓] theorem takeRemoval_runs (r : Removal) (s : State) (h : Runs ρ ν (view s)) :
    Runs ρ ν (view (takeRemoval r s)) := by
  unfold takeRemoval
  first
  | ((try dsimp only) <;> (repeat' split) <;> first | with_reducible exact h | simp (maxDischargeDepth := 40) [*])
  | exact h
@[simp ↓] theorem askRemoval_runs (r : Removal) (s : State) (h : Runs ρ ν (view s)) :
    Runs ρ ν (view (askRemoval r s)) := by
  unfold askRemoval
  first
  | ((try dsimp only) <;> (repeat' split) <;> first | with_reducible exact h | simp (maxDischargeDepth := 40) [*])
  | exact h
@[simp ↓] theorem nextRemovals_runs (n : Nat) (s : State) (h : Runs ρ ν (view s)) :
    Runs ρ ν (view (nextRemovals n s)) := by
  induction n generalizing s with
  | zero => exact h
  | succ n ih =>
    unfold nextRemovals
    split
    · exact ih _ (takeRemoval_runs _ _ h)
    · exact h
@[simp ↓] theorem dropMembers_runs (named : List Nat) (s : State) (h : Runs ρ ν (view s)) :
    Runs ρ ν (view (dropMembers named s)) := putBatch_runs _ _ h
@[simp ↓] theorem removalDone_runs (w : RemovalWrite) (s : State) (hjournal : d .journal = true) (h : Runs (.outer d) ν (view s)) :
    Runs (.outer d) ν (view (removalDone w s)) := by
  unfold removalDone
  first
  | ((try dsimp only) <;> (repeat' split) <;> first | with_reducible exact h | simp (maxDischargeDepth := 40) [*])
  | exact h

end Sys2Proof.Laws
end

