-- ==== Sys2Proof/Laws/RunsTill.lean ====
section
/-! SUPPORT. Each operation of Machine/TillOps.lean is a run of moves. -/

namespace Sys2Proof.Laws

open Sys2Proof.Machine Sys2Proof.Safety

variable {ρ : Reach} {d : Area → Bool} {ν : View}

@[simp ↓] theorem putPlace_runs (t : Nat) (p : Place) (s : State) (h : Runs ρ ν (view s)) :
    Runs ρ ν (view (putPlace t p s)) := by
  unfold putPlace
  first
  | ((try dsimp only) <;> (repeat' split) <;> first | with_reducible exact h | simp (maxDischargeDepth := 40) [*])
  | exact h
@[simp ↓] theorem sendTill_runs (t : Nat) (a : Addr) (k : TillKind) (r : Result) (b : TillBody) (s : State) (h : Runs ρ ν (view s)) :
    Runs ρ ν (view (sendTill t a k r b s)) := by
  unfold sendTill
  first
  | ((try dsimp only) <;> (repeat' split) <;> first | with_reducible exact h | simp (maxDischargeDepth := 40) [*])
  | exact h
@[simp ↓] theorem freeTill_runs (t : Nat) (s : State) (h : Runs ρ ν (view s)) :
    Runs ρ ν (view (freeTill t s)) := by
  unfold freeTill
  first
  | ((try dsimp only) <;> (repeat' split) <;> first | with_reducible exact h | simp (maxDischargeDepth := 40) [*])
  | exact h
@[simp ↓] theorem removeEntry_runs (t : Nat) (s : State) (h : Runs ρ ν (view s)) :
    Runs ρ ν (view (removeEntry t s)) := by
  unfold removeEntry
  first
  | ((try dsimp only) <;> (repeat' split) <;> first | with_reducible exact h | simp (maxDischargeDepth := 40) [*])
  | exact h
@[simp ↓] theorem startAppend_runs (t : Nat) (body : RecordBody) (given : Int) (s : State) (h : Runs ρ ν (view s)) :
    Runs ρ ν (view (startAppend t body given s)) := by
  unfold startAppend
  first
  | ((try dsimp only) <;> (repeat' split) <;> first | with_reducible exact h | simp (maxDischargeDepth := 40) [*])
  | exact h
@[simp ↓] theorem startVoid_runs (t : Nat) (r : VoidReason) (s : State) (h : Runs ρ ν (view s)) :
    Runs ρ ν (view (startVoid t r s)) := by
  unfold startVoid
  first
  | ((try dsimp only) <;> (repeat' split) <;> first | with_reducible exact h | simp (maxDischargeDepth := 40) [*])
  | exact h
@[simp ↓] theorem closeIfDue_runs (t : Nat) (s : State) (h : Runs ρ ν (view s)) :
    Runs ρ ν (view (closeIfDue t s)) := by
  unfold closeIfDue
  first
  | ((try dsimp only) <;> (repeat' split) <;> first | with_reducible exact h | simp (maxDischargeDepth := 40) [*])
  | exact h
@[simp ↓] theorem clearBusy_runs (t : Nat) (s : State) (h : Runs ρ ν (view s)) :
    Runs ρ ν (view (clearBusy t s)) := by
  unfold clearBusy
  first
  | ((try dsimp only) <;> (repeat' split) <;> first | with_reducible exact h | simp (maxDischargeDepth := 40) [*])
  | exact h
@[simp ↓] theorem closeBaskets_runs (s : State) (h : Runs ρ ν (view s)) :
    Runs ρ ν (view (closeBaskets s)) := foldl_runs _ (fun t u hu => closeIfDue_runs t u hu) _ _ h
@[simp ↓] theorem closeIdle_runs (t : Nat) (s : State) (h : Runs ρ ν (view s)) :
    Runs ρ ν (view (closeIdle t s)) := by
  unfold closeIdle
  first
  | ((try dsimp only) <;> (repeat' split) <;> first | with_reducible exact h | simp (maxDischargeDepth := 40) [*])
  | exact h
@[simp ↓] theorem closeIdlePlaces_runs (s : State) (h : Runs ρ ν (view s)) :
    Runs ρ ν (view (closeIdlePlaces s)) := foldl_runs _ (fun t u hu => closeIdle_runs t u hu) _ _ h
@[simp ↓] theorem answerTill_runs (t : Nat) (k : TillKind) (r : Result) (b : TillBody) (s : State) (h : Runs ρ ν (view s)) :
    Runs ρ ν (view (answerTill t k r b s)) := by
  unfold answerTill
  first
  | ((try dsimp only) <;> (repeat' split) <;> first | with_reducible exact h | simp (maxDischargeDepth := 40) [*])
  | exact h
@[simp ↓] theorem touchPlace_runs (hd : TillHead) (s : State) (h : Runs ρ ν (view s)) :
    Runs ρ ν (view (touchPlace hd s)) := by
  unfold touchPlace
  first
  | ((try dsimp only) <;> (repeat' split) <;> first | with_reducible exact h | simp (maxDischargeDepth := 40) [*])
  | exact h
@[simp ↓] theorem tillFrame_runs (hd : TillHead) (k : TillKind) (own : State → State) (s : State) (hown : ∀ t, Runs ρ ν (view t) → Runs ρ ν (view (own t))) (h : Runs ρ ν (view s)) :
    Runs ρ ν (view (tillFrame hd k own s)) := by
  unfold tillFrame
  split
  · exact sendTill_runs _ _ _ _ _ _ (touchPlace_runs _ _ h)
  · exact hown _ (touchPlace_runs _ _ h)
@[simp ↓] theorem unknownTillKind_runs (hd : TillHead) (kind : Nat) (s : State) (h : Runs ρ ν (view s)) :
    Runs ρ ν (view (unknownTillKind hd kind s)) := tillFrame_runs _ _ _ _ (fun _ ht => answerTill_runs _ _ _ _ _ ht) h

end Sys2Proof.Laws
end

