-- ==== Sys2Proof/Laws/RunsDay.lean ====
section
/-! SUPPORT. Each operation of Machine/DayOps.lean is a run of moves. -/

namespace Sys2Proof.Laws

open Sys2Proof.Machine Sys2Proof.Safety

variable {ρ : Reach} {d : Area → Bool} {ν : View}

@[simp ↓] theorem dropFloorWork_runs (s : State) (h : Runs ρ ν (view s)) :
    Runs ρ ν (view (dropFloorWork s)) := by
  unfold dropFloorWork
  first
  | ((try dsimp only) <;> (repeat' split) <;> first | with_reducible exact h | simp (maxDischargeDepth := 40) [*])
  | exact h
@[simp ↓] theorem abandonTransmission_runs (s : State) (h : Runs ρ ν (view s)) :
    Runs ρ ν (view (abandonTransmission s)) := by
  unfold abandonTransmission
  first
  | ((try dsimp only) <;> (repeat' split) <;> first | with_reducible exact h | simp (maxDischargeDepth := 40) [*])
  | exact h
@[simp ↓] theorem sleepRadio_runs (s : State) (h : Runs ρ ν (view s)) :
    Runs ρ ν (view (sleepRadio s)) := by
  unfold sleepRadio
  first
  | ((try dsimp only) <;> (repeat' split) <;> first | with_reducible exact h | simp (maxDischargeDepth := 40) [*])
  | exact h
@[simp ↓] theorem settleRadio_runs (s : State) (h : Runs ρ ν (view s)) :
    Runs ρ ν (view (settleRadio s)) := by
  unfold settleRadio
  first
  | ((try dsimp only) <;> (repeat' split) <;> first | with_reducible exact h | simp (maxDischargeDepth := 40) [*])
  | exact h
@[simp ↓] theorem refreshEdge_runs (old new : StoreState) (s : State) (h : Runs ρ ν (view s)) :
    Runs ρ ν (view (refreshEdge old new s)) := by
  unfold refreshEdge
  first
  | ((try dsimp only) <;> (repeat' split) <;> first | with_reducible exact h | simp (maxDischargeDepth := 40) [*])
  | exact h
@[simp ↓] theorem setStore_runs (new : StoreState) (cause : Option StateCause) (s : State) (h : Runs ρ ν (view s)) :
    Runs ρ ν (view (setStore new cause s)) := by
  unfold setStore
  first
  | ((try dsimp only) <;> (repeat' split) <;> first | with_reducible exact h | simp (maxDischargeDepth := 40) [*])
  | exact h
@[simp ↓] theorem startQuietDelay_runs (s : State) (h : Runs ρ ν (view s)) :
    Runs ρ ν (view (startQuietDelay s)) := by
  unfold startQuietDelay
  first
  | ((try dsimp only) <;> (repeat' split) <;> first | with_reducible exact h | simp (maxDischargeDepth := 40) [*])
  | exact h
@[simp ↓] theorem enterOpening_runs (cause : Option StateCause) (s : State) (h : Runs ρ ν (view s)) :
    Runs ρ ν (view (enterOpening cause s)) := by
  unfold enterOpening
  first
  | ((try dsimp only) <;> (repeat' split) <;> first | with_reducible exact h | simp (maxDischargeDepth := 40) [*])
  | exact h
@[simp ↓] theorem enterOpen_runs (cause : Option StateCause) (s : State) (h : Runs ρ ν (view s)) :
    Runs ρ ν (view (enterOpen cause s)) := by
  unfold enterOpen
  first
  | ((try dsimp only) <;> (repeat' split) <;> first | with_reducible exact h | simp (maxDischargeDepth := 40) [*])
  | exact h
@[simp ↓] theorem nightEffects_runs (run : Bool) (s : State) (h : Runs ρ ν (view s)) :
    Runs ρ ν (view (nightEffects run s)) := by
  unfold nightEffects
  dsimp only
  generalize hx : closeIdlePlaces { s with tsu := { s.tsu with grace := none } } = x
  have h1 : Runs ρ ν (view x) := by rw [← hx]; exact closeIdlePlaces_runs _ h
  have h2 : Runs ρ ν (view { x with gac := { x.gac with spent := [] } }) := h1.tail .clearSpent
  simp (maxDischargeDepth := 40) [h2]
@[simp ↓] theorem enterNight_runs (s : State) (h : Runs ρ ν (view s)) :
    Runs ρ ν (view (enterNight s)) := by
  unfold enterNight
  first
  | ((try dsimp only) <;> (repeat' split) <;> first | with_reducible exact h | simp (maxDischargeDepth := 40) [*])
  | exact h
@[simp ↓] theorem testTillsDone_runs (s : State) (h : Runs ρ ν (view s)) :
    Runs ρ ν (view (testTillsDone s)) := by
  unfold testTillsDone
  first
  | ((try dsimp only) <;> (repeat' split) <;> first | with_reducible exact h | simp (maxDischargeDepth := 40) [*])
  | exact h
@[simp ↓] theorem startGrace_runs (s : State) (h : Runs ρ ν (view s)) :
    Runs ρ ν (view (startGrace s)) := by
  unfold startGrace
  first
  | ((try dsimp only) <;> (repeat' split) <;> first | with_reducible exact h | simp (maxDischargeDepth := 40) [*])
  | exact h
@[simp ↓] theorem enterClosing_runs (cause : Option StateCause) (s : State) (h : Runs ρ ν (view s)) :
    Runs ρ ν (view (enterClosing cause s)) := by
  unfold enterClosing
  first
  | ((try dsimp only) <;> (repeat' split) <;> first | with_reducible exact h | simp (maxDischargeDepth := 40) [*])
  | exact h
@[simp ↓] theorem reportLine_runs (l : SiteLine) (s : State) (h : Runs ρ ν (view s)) :
    Runs ρ ν (view (reportLine l s)) := by
  unfold reportLine
  first
  | ((try dsimp only) <;> (repeat' split) <;> first | with_reducible exact h | simp (maxDischargeDepth := 40) [*])
  | exact h
@[simp ↓] theorem reportLines_runs (s : State) (h : Runs ρ ν (view s)) :
    Runs ρ ν (view (reportLines s)) := foldl_runs _ (fun l u hu => by
    split
    · exact hu
    · exact reportLine_runs l u hu) _ _ h
@[simp ↓] theorem wake_runs (c : WakeCause) (s : State) (h : Runs ρ ν (view s)) :
    Runs ρ ν (view (wake c s)) := by
  unfold wake
  first
  | ((try dsimp only) <;> (repeat' split) <;> first | with_reducible exact h | simp (maxDischargeDepth := 40) [*])
  | exact h
@[simp ↓] theorem enterQuiet_runs (s : State) (h : Runs ρ ν (view s)) :
    Runs ρ ν (view (enterQuiet s)) := by
  unfold enterQuiet
  first
  | ((try dsimp only) <;> (repeat' split) <;> first | with_reducible exact h | simp (maxDischargeDepth := 40) [*])
  | exact h
@[simp ↓] theorem testQuiet_runs (s : State) (h : Runs ρ ν (view s)) :
    Runs ρ ν (view (testQuiet s)) := by
  unfold testQuiet
  first
  | ((try dsimp only) <;> (repeat' split) <;> first | with_reducible exact h | simp (maxDischargeDepth := 40) [*])
  | exact h
@[simp ↓] theorem scheduleEvent_runs (e : ScheduleEvent) (s : State) (h : Runs ρ ν (view s)) :
    Runs ρ ν (view (scheduleEvent e s)) := by
  unfold scheduleEvent
  first
  | ((try dsimp only) <;> (repeat' split) <;> first | with_reducible exact h | simp (maxDischargeDepth := 40) [*])
  | exact h
@[simp ↓] theorem afterTimeSet_runs (old : Option Nat) (new : Nat) (s : State) (h : Runs ρ ν (view s)) :
    Runs ρ ν (view (afterTimeSet old new s)) := by
  unfold afterTimeSet
  split
  · (repeat' split) <;> first | exact h | simp (maxDischargeDepth := 40) [h]
  · split
    · exact foldl_runs _ (fun e u hu => scheduleEvent_runs e u hu) _ _ h
    · exact h
@[simp ↓] theorem timeSet_runs (v : Nat) (src : ClockSource) (s : State) (h : Runs (.outer d) ν (view s)) :
    Runs (.outer d) ν (view (timeSet v src s)) := by
  unfold timeSet
  exact afterTimeSet_runs _ _ _ (notify_runs _ _ (h.tail (.time _ _)))
@[simp ↓] theorem claimEvent_runs (e : ScheduleEvent) (s : State) (h : Runs (.outer d) ν (view s)) :
    Runs (.outer d) ν (view (claimEvent e s)) := by unfold claimEvent; simpa
@[simp ↓] theorem takeScheduleEvent_runs (e : ScheduleEvent) (s : State) (h : Runs (.outer d) ν (view s)) :
    Runs (.outer d) ν (view (takeScheduleEvent e s)) := by
  unfold takeScheduleEvent
  first
  | ((try dsimp only) <;> (repeat' split) <;> first | with_reducible exact h | simp (maxDischargeDepth := 40) [*])
  | exact h

end Sys2Proof.Laws
end

