-- ==== Sys2Proof/Laws/RunsAuth.lean ====
section
/-! SUPPORT. Each operation of Machine/AuthOps.lean is a run of moves. -/

namespace Sys2Proof.Laws

open Sys2Proof.Machine Sys2Proof.Safety

variable {ρ : Reach} {d : Area → Bool} {ν : View}

@[simp ↓] theorem approvePlace_runs (t : Nat) (tender : Tender) (code : Option (List Byte)) (s : State) (h : Runs ρ ν (view s)) :
    Runs ρ ν (view (approvePlace t tender code s)) := by
  unfold approvePlace
  first
  | ((try dsimp only) <;> (repeat' split) <;> first | with_reducible exact h | simp (maxDischargeDepth := 40) [*])
  | exact h
@[simp ↓] theorem declineAuthorizing_runs (t : Nat) (r : DeclineReason) (s : State) (h : Runs ρ ν (view s)) :
    Runs ρ ν (view (declineAuthorizing t r s)) := by
  unfold declineAuthorizing
  first
  | ((try dsimp only) <;> (repeat' split) <;> first | with_reducible exact h | simp (maxDischargeDepth := 40) [*])
  | exact h
@[simp ↓] theorem declinePlace_runs (t : Nat) (r : DeclineReason) (s : State) (h : Runs (.outer d) ν (view s)) :
    Runs (.outer d) ν (view (declinePlace t r s)) := by
  unfold declinePlace
  first
  | ((try dsimp only) <;> (repeat' split) <;> first | with_reducible exact h | simp (maxDischargeDepth := 40) [*])
  | exact h
@[simp ↓] theorem reportOutcome_runs (t : Nat) (o : AuthOutcome) (s : State) (h : Runs (.outer d) ν (view s)) :
    Runs (.outer d) ν (view (reportOutcome t o s)) := by
  unfold reportOutcome
  first
  | ((try dsimp only) <;> (repeat' split) <;> first | with_reducible exact h | simp (maxDischargeDepth := 40) [*])
  | exact h
@[simp ↓] theorem putEntry_runs (e : AuthEntry) (s : State) (h : Runs ρ ν (view s)) :
    Runs ρ ν (view (putEntry e s)) := by
  unfold putEntry
  first
  | ((try dsimp only) <;> (repeat' split) <;> first | with_reducible exact h | simp (maxDischargeDepth := 40) [*])
  | exact h
@[simp ↓] theorem withdrawAuth_runs (trace : Nat) (s : State) (h : Runs ρ ν (view s)) :
    Runs ρ ν (view (withdrawAuth trace s)) := by
  unfold withdrawAuth
  split
  · exact guestDecide_runs _ (h.tail (.leaveClass .auth _ List.filter_sublist))
  · exact h
@[simp ↓] theorem decideEntry_runs (e : AuthEntry) (o : AuthOutcome) (s : State) (h : Runs ρ ν (view s)) :
    Runs ρ ν (view (decideEntry e o s)) := by
  unfold decideEntry
  first
  | ((try dsimp only) <;> (repeat' split) <;> first | with_reducible exact h | simp (maxDischargeDepth := 40) [*])
  | exact h
@[simp ↓] theorem markExposure_runs (amount : Nat) (o : AuthOutcome) (byExposure : Bool) (s : State) (h : Runs ρ ν (view s)) :
    Runs ρ ν (view (markExposure amount o byExposure s)) := by
  unfold markExposure
  first
  | ((try dsimp only) <;> (repeat' split) <;> first | with_reducible exact h | simp (maxDischargeDepth := 40) [*])
  | exact h
@[simp ↓] theorem fallbackEntry_runs (e : AuthEntry) (s : State) (h : Runs ρ ν (view s)) :
    Runs ρ ν (view (fallbackEntry e s)) := by
  unfold fallbackEntry
  first
  | ((try dsimp only) <;> (repeat' split) <;> first | with_reducible exact h | simp (maxDischargeDepth := 40) [*])
  | exact h
@[simp ↓] theorem fallback_runs (e : AuthEntry) (s : State) (h : Runs (.outer d) ν (view s)) :
    Runs (.outer d) ν (view (fallback e s)) := by
  unfold fallback
  first
  | ((try dsimp only) <;> (repeat' split) <;> first | with_reducible exact h | simp (maxDischargeDepth := 40) [*])
  | exact h
@[simp ↓] theorem fallbackAll_runs (traces : List Nat) (s : State) (h : Runs (.outer d) ν (view s)) :
    Runs (.outer d) ν (view (fallbackAll traces s)) := foldl_runs _ (fun t u hu => by
    split
    · exact fallback_runs _ _ hu
    · exact hu) _ _ h
@[simp ↓] theorem queueEntry_runs (e : AuthEntry) (s : State) (h : Runs ρ ν (view s)) :
    Runs ρ ν (view (queueEntry e s)) := by
  unfold queueEntry
  have h1 := putEntry_runs { e with state := .queued, expiry := some s.ulc.t1.counter, retryEnd := none } s h
  exact guestDecide_runs _ (h1.tail (.joinClass .auth _ (by intro n hn; cases hn) nofun))
@[simp ↓] theorem createEntry_runs (t trace amount : Nat) (card : CardRef) (s : State) (h : Runs ρ ν (view s)) :
    Runs ρ ν (view (createEntry t trace amount card s)) := by
  unfold createEntry
  first
  | ((try dsimp only) <;> (repeat' split) <;> first | with_reducible exact h | simp (maxDischargeDepth := 40) [*])
  | exact h
@[simp ↓] theorem testQueued_runs (s : State) (h : Runs (.outer d) ν (view s)) :
    Runs (.outer d) ν (view (testQueued s)) := by
  unfold testQueued
  first
  | ((try dsimp only) <;> (repeat' split) <;> first | with_reducible exact h | simp (maxDischargeDepth := 40) [*])
  | exact h
@[simp ↓] theorem authSessionEnd_runs (n : Nat) (s : State) (h : Runs (.outer d) ν (view s)) :
    Runs (.outer d) ν (view (authSessionEnd n s)) := by
  unfold authSessionEnd
  first
  | ((try dsimp only) <;> (repeat' split) <;> first | with_reducible exact h | simp (maxDischargeDepth := 40) [*])
  | exact h
@[simp ↓] theorem authFrameSent_runs (trace session : Nat) (s : State) (h : Runs ρ ν (view s)) :
    Runs ρ ν (view (authFrameSent trace session s)) := by
  unfold authFrameSent
  first
  | ((try dsimp only) <;> (repeat' split) <;> first | with_reducible exact h | simp (maxDischargeDepth := 40) [*])
  | exact h
@[simp ↓] theorem lateOutcome_runs (trace : Nat) (o : AuthOutcome) (p : Path) (s : State) (h : Runs ρ ν (view s)) :
    Runs ρ ν (view (lateOutcome trace o p s)) := by
  unfold lateOutcome
  first
  | ((try dsimp only) <;> (repeat' split) <;> first | with_reducible exact h | simp (maxDischargeDepth := 40) [*])
  | exact h
@[simp ↓] theorem decisiveReply_runs (trace : Nat) (o : AuthOutcome) (p : Path) (s : State) (h : Runs (.outer d) ν (view s)) :
    Runs (.outer d) ν (view (decisiveReply trace o p s)) := by
  unfold decisiveReply
  first
  | ((try dsimp only) <;> (repeat' split) <;> first | with_reducible exact h | simp (maxDischargeDepth := 40) [*])
  | exact h
@[simp ↓] theorem busyReply_runs (trace : Nat) (s : State) (h : Runs (.outer d) ν (view s)) :
    Runs (.outer d) ν (view (busyReply trace s)) := by
  unfold busyReply
  first
  | ((try dsimp only) <;> (repeat' split) <;> first | with_reducible exact h | simp (maxDischargeDepth := 40) [*])
  | exact h
@[simp ↓] theorem cashRecorded_runs (t : Nat) (a : Append) (total : Int) (seq : Nat) (s : State) (h : Runs ρ ν (view s)) :
    Runs ρ ν (view (cashRecorded t a total seq s)) := by
  unfold cashRecorded
  first
  | ((try dsimp only) <;> (repeat' split) <;> first | with_reducible exact h | simp (maxDischargeDepth := 40) [*])
  | exact h
@[simp ↓] theorem cardRecorded_runs (t : Nat) (total : Int) (tender : Tender) (code : Option (List Byte)) (seq : Nat) (s : State) (h : Runs ρ ν (view s)) :
    Runs ρ ν (view (cardRecorded t total tender code seq s)) := by
  unfold cardRecorded
  first
  | ((try dsimp only) <;> (repeat' split) <;> first | with_reducible exact h | simp (maxDischargeDepth := 40) [*])
  | exact h
@[simp ↓] theorem traceRecorded_runs (t amount : Nat) (card : CardRef) (seq : Nat) (s : State) (h : Runs (.outer d) ν (view s)) :
    Runs (.outer d) ν (view (traceRecorded t amount card seq s)) := by
  unfold traceRecorded
  first
  | ((try dsimp only) <;> (repeat' split) <;> first | with_reducible exact h | simp (maxDischargeDepth := 40) [*])
  | exact h
@[simp ↓] theorem voidAnswered_runs (t : Nat) (r : VoidReason) (seq : Option Nat) (s : State) (h : Runs ρ ν (view s)) :
    Runs ρ ν (view (voidAnswered t r seq s)) := by
  unfold voidAnswered
  first
  | ((try dsimp only) <;> (repeat' split) <;> first | with_reducible exact h | simp (maxDischargeDepth := 40) [*])
  | exact h
@[simp ↓] theorem appendAnswered_runs (a : Append) (seq : Nat) (s : State) (h : Runs (.outer d) ν (view s)) :
    Runs (.outer d) ν (view (appendAnswered a seq s)) := by
  unfold appendAnswered
  first
  | ((try dsimp only) <;> (repeat' split) <;> first | with_reducible exact h | simp (maxDischargeDepth := 40) [*])
  | exact h
@[simp ↓] theorem notRecorded_runs (a : Append) (s : State) (h : Runs ρ ν (view s)) :
    Runs ρ ν (view (notRecorded a s)) := by
  unfold notRecorded
  first
  | ((try dsimp only) <;> (repeat' split) <;> first | with_reducible exact h | simp (maxDischargeDepth := 40) [*])
  | exact h
@[simp ↓] theorem appendDone_runs (w : Writing) (s : State) (hjournal : d .journal = true) (hw : s.sjr.writing = some w) (h : Runs (.outer d) ν (view s)) :
    Runs (.outer d) ν (view (appendDone w s)) := by
  unfold appendDone
  first
  | ((try dsimp only) <;> (repeat' split) <;> first | with_reducible exact h | simp (maxDischargeDepth := 40) [*])
  | exact h
@[simp ↓] theorem takeAppend_runs (s : State) (h : Runs ρ ν (view s)) :
    Runs ρ ν (view (takeAppend s)) := by
  unfold takeAppend
  split
  · split
    · split
      · exact h
      · rename_i hs
        exact beginAppend_runs _ _ _ (by simp at hs; omega) h
    · simp (maxDischargeDepth := 40) [*]
  · exact h
@[simp ↓] theorem writerPump_runs (n : Nat) (s : State) (h : Runs ρ ν (view s)) :
    Runs ρ ν (view (writerPump n s)) := by
  induction n generalizing s with
  | zero => exact h
  | succ n ih => exact ih _ (takeAppend_runs s h)

end Sys2Proof.Laws
end

