-- ==== Sys2Proof/Laws/RunsUplink.lean ====
section
/-! SUPPORT. Each operation of Machine/UplinkOps.lean is a run of moves. -/

namespace Sys2Proof.Laws

open Sys2Proof.Machine Sys2Proof.Safety

variable {ρ : Reach} {d : Area → Bool} {ν : View}

theorem putPath_same (p : Path) (r : PathRec) (s : State) (hr : r.credits = (s.ulc.path p).credits)
    (h : Runs ρ ν (view s)) : Runs ρ ν (view (putPath p r s)) := by
  have e : view (putPath p r s) = view s := by
    cases p <;> simp_all [view, putPath, Ulc.setPath, Ulc.path]
  rw [e]; exact h

theorem credits_view (p : Path) (s : State) : (view s).credits p = (s.ulc.path p).credits := by cases p <;> rfl

theorem classQ_view (c : Machine.Class) (s : State) : (view s).classQ c = s.ulc.queue c := by cases c <;> rfl

theorem view_putQueue (c : Machine.Class) (q : List UpFrame) (s : State) :
    view { s with ulc := s.ulc.putQueue c q } = (view s).putClassQ c q := by cases c <;> rfl

@[simp] theorem putQueue_path (u : Ulc) (c : Machine.Class) (q : List UpFrame) (p : Path) :
    (u.putQueue c q).path p = u.path p := by cases c <;> cases p <;> rfl

@[simp] theorem putQueue_waits (u : Ulc) (c : Machine.Class) (q : List UpFrame) : (u.putQueue c q).waits = u.waits := by
  cases c <;> rfl

@[simp] theorem setPath_waits (u : Ulc) (p : Path) (r : PathRec) : (u.setPath p r).waits = u.waits := by
  cases p <;> rfl

theorem downPath_credits (r : PathRec) : (downPath r).credits = none := rfl

@[simp ↓] theorem transmit_runs (p : Path) (f : UpFrame) (s : State) (h : Runs ρ ν (view s)) :
    Runs ρ ν (view (transmit p f s)) := emit_runs _ _ (putPath_same _ _ _ rfl h)
@[simp ↓] theorem frameSent_runs (f : UpFrame) (session : Nat) (s : State) (hw : f.wantsReply = false) (h : Runs ρ ν (view s)) :
    Runs ρ ν (view (frameSent f session s)) := by
  unfold frameSent
  split
  · exact guestDecide_runs _ (authFrameSent_runs _ _ _ h)
  · exact journalFrameSent_runs _ _ _ _ h
  · exact fileRequestSent_runs _ _ h
  · cases hw
  · exact h
@[simp ↓] theorem takeFrame_runs (p : Path) (c : Credits) (k : Machine.Class) (s : State) (hc : (s.ulc.path p).credits = some c) (hq : classQualifies s p c k = true) (h : Runs ρ ν (view s)) :
    Runs ρ ν (view (takeFrame p c k s)) := by
  unfold takeFrame
  unfold classQualifies at hq
  split
  · exact h
  · rename_i f rest hf
    simp only [hf, Bool.and_eq_true] at hq
    have hcv : (view s).credits p = some c := by rw [credits_view]; exact hc
    have hs : rest.Sublist ((view s).classQ k) := by rw [classQ_view, hf]; exact List.sublist_cons_self ..
    by_cases hw : f.wantsReply = true
    · obtain ⟨n, d, pl, rfl⟩ : ∃ n d pl, f = .office n d true pl := by
        cases f <;> simp_all [UpFrame.wantsReply]
      have h1 := h.tail (.joinWaits (v := view s) k (.office n d true pl)
        { forward := n, session := (s.ulc.path p).session.getD 0, expiry := s.ulc.t4.counter }
        (by rw [classQ_view, hf]; exact List.mem_cons_self ..) rfl (by
          rintro rfl; exact (by simpa [UpFrame.wantsReply] using hq.2 : s.ulc.waits.length < Config.officeWaits)))
      have h2 := h1.tail (.leaveClass k rest (by cases k <;> exact hs))
      have h3 := h2.tail (.spend p c s.settings k (by cases k <;> cases p <;> exact hcv) hq.1.2)
      have h4 := h3.tail (.emit (.uplink p (.office n d true pl)))
      cases k <;> cases p <;> exact h4
    · have h2 := h.tail (.leaveClass k rest hs)
      have h3 := h2.tail (.spend p c s.settings k (by cases k <;> cases p <;> exact hcv) hq.1.2)
      refine frameSent_runs f _ _ (by simpa using hw) (transmit_runs _ _ _ ?_)
      cases k <;> cases p <;> exact h3
@[simp ↓] theorem arbitrate_runs (p : Path) (s : State) (h : Runs ρ ν (view s)) :
    Runs ρ ν (view (arbitrate p s)) := by
  unfold arbitrate
  split
  · exact h
  · rename_i c hc
    split
    · rename_i k hk
      exact takeFrame_runs p c k s hc (List.find?_some hk) h
    · exact h
@[simp ↓] theorem pump_runs (p : Path) (s : State) (h : Runs ρ ν (view s)) :
    Runs ρ ν (view (pump p s)) := by
  unfold pump
  dsimp only
  split
  · exact h
  · split
    · exact transmit_runs _ _ _ (putPath_same _ _ _ rfl h)
    · split
      · exact arbitrate_runs _ _ h
      · exact h
@[simp ↓] theorem pumpPaths_runs (s : State) (h : Runs ρ ν (view s)) :
    Runs ρ ν (view (pumpPaths s)) := by
  unfold pumpPaths
  first
  | ((try dsimp only) <;> (repeat' split) <;> first | with_reducible exact h | simp (maxDischargeDepth := 40) [*])
  | exact h
@[simp ↓] theorem greet_runs (p : Path) (s : State) (h : Runs ρ ν (view s)) :
    Runs ρ ν (view (greet p s)) := putPath_same _ _ _ rfl h
@[simp ↓] theorem endWaits_runs (c : TimeoutCause) (p : OfficeWait → Bool) (s : State) (h : Runs ρ ν (view s)) :
    Runs ρ ν (view (endWaits c p s)) :=
  foldl_runs _ (fun _ _ hu => notify_runs _ _ hu) _ _ (h.tail (.leaveWaits _ List.filter_sublist))
@[simp ↓] theorem officeSessionEnd_runs (n : Nat) (s : State) (h : Runs ρ ν (view s)) :
    Runs ρ ν (view (officeSessionEnd n s)) := endWaits_runs _ _ _ h
@[simp ↓] theorem endPathSession_runs (p : Path) (s : State) (h : Runs (.outer d) ν (view s)) :
    Runs (.outer d) ν (view (endPathSession p s)) := by
  unfold endPathSession
  split
  · exact h
  · rename_i n hn
    dsimp only
    have h1 : Runs (.outer d) ν (view (putPath p { s.ulc.path p with credits := none } s)) := by
      rw [view_putPath]; exact h.tail (.noCredits p)
    generalize hx : officeSessionEnd n (transferSessionEnd n (authSessionEnd n
      (putPath p { s.ulc.path p with credits := none } s))) = x
    have h2 : Runs (.outer d) ν (view x) := by
      rw [← hx]; exact officeSessionEnd_runs _ _ (transferSessionEnd_runs _ _ (authSessionEnd_runs _ _ h1))
    split
    · exact greet_runs _ _ (putPath_same _ _ _ rfl h2)
    · rw [view_putPath]; exact h2.tail (.noCredits p)
@[simp ↓] theorem pathChanged_runs (s : State) (h : Runs (.outer d) ν (view s)) :
    Runs (.outer d) ν (view (pathChanged s)) := by
  unfold pathChanged
  first
  | ((try dsimp only) <;> (repeat' split) <;> first | with_reducible exact h | simp (maxDischargeDepth := 40) [*])
  | exact h
@[simp ↓] theorem leavePath_runs (p : Option Path) (s : State) (h : Runs (.outer d) ν (view s)) :
    Runs (.outer d) ν (view (leavePath p s)) := by
  unfold leavePath
  first
  | ((try dsimp only) <;> (repeat' split) <;> first | with_reducible exact h | simp (maxDischargeDepth := 40) [*])
  | exact h
@[simp ↓] theorem rechoose_runs (cause : PathCause) (s : State) (h : Runs (.outer d) ν (view s)) :
    Runs (.outer d) ν (view (rechoose cause s)) := by
  unfold rechoose
  first
  | ((try dsimp only) <;> (repeat' split) <;> first | with_reducible exact h | simp (maxDischargeDepth := 40) [*])
  | exact h
@[simp ↓] theorem sendProbe_runs (p : Path) (s : State) (h : Runs ρ ν (view s)) :
    Runs ρ ν (view (sendProbe p s)) := putPath_same _ _ _ rfl h
@[simp ↓] theorem probeMissed_runs (p : Path) (number : Nat) (s : State) (h : Runs (.outer d) ν (view s)) :
    Runs (.outer d) ν (view (probeMissed p number s)) := by
  unfold probeMissed
  dsimp only
  split
  · exact putPath_same _ _ _ rfl h
  · exact rechoose_runs _ _ (endPathSession_runs _ _ (putPath_same _ _ _ rfl h))
@[simp ↓] theorem probeDue_runs (p : Path) (s : State) (h : Runs (.outer d) ν (view s)) :
    Runs (.outer d) ν (view (probeDue p s)) := by
  unfold probeDue
  first
  | ((try dsimp only) <;> (repeat' split) <;> first | with_reducible exact h | simp (maxDischargeDepth := 40) [*])
  | exact h
@[simp ↓] theorem openSession_runs (p : Path) (g : Grants) (s : State) (h : Runs (.outer d) ν (view s)) :
    Runs (.outer d) ν (view (openSession p g s)) := by
  unfold openSession
  refine rechoose_runs _ _ (sendProbe_runs _ _ ?_)
  have h1 : ∀ r : PathRec, r.credits = some (openCredits g) →
      Runs (.outer d) ν (view (putPath p r { s with ulc := { s.ulc with sessions := nextIn 1 Config.max32 s.ulc.sessions } })) := by
    intro r hr
    rw [view_putPath, hr]
    exact h.tail (.openCredits p g)
  exact State_when_runs _ _ _ (linkError_runs _ (h1 _ rfl)) (h1 _ rfl)
@[simp ↓] theorem probeAnswered_runs (p : Path) (x : Probe) (s : State) (h : Runs (.outer d) ν (view s)) :
    Runs (.outer d) ν (view (probeAnswered p x s)) := by
  unfold probeAnswered
  dsimp only
  generalize (if qualityScoped s.settings p = true then _ else _ : Nat × Bool) = q
  split
  · exact putPath_same _ _ _ rfl h
  · exact rechoose_runs _ _ (putPath_same _ _ _ rfl h)
@[simp ↓] theorem carrierUp_runs (p : Path) (s : State) (h : Runs ρ ν (view s)) :
    Runs ρ ν (view (carrierUp p s)) := by
  unfold carrierUp
  dsimp only
  split
  · exact greet_runs _ _ (putPath_same _ _ _ rfl h)
  · exact putPath_same _ _ _ rfl h
@[simp ↓] theorem carrierDown_runs (p : Path) (s : State) (h : Runs (.outer d) ν (view s)) :
    Runs (.outer d) ν (view (carrierDown p s)) := by
  unfold carrierDown
  dsimp only
  split
  · exact rechoose_runs _ _ (endPathSession_runs _ _ (putPath_same _ _ _ rfl h))
  · rw [view_putPath]
    have h1 : Runs (.outer d) ν (view (putPath p { s.ulc.path p with carrier := false, tx := none, control := [] } s)) :=
      putPath_same _ _ _ rfl h
    exact h1.tail (.noCredits p)
@[simp ↓] theorem inbound_runs (p : Path) (f : State → State) (s : State) (hf : ∀ t, Runs ρ ν (view t) → Runs ρ ν (view (f t))) (h : Runs ρ ν (view s)) :
    Runs ρ ν (view (inbound p f s)) := by
  unfold inbound
  first
  | ((try dsimp only) <;> (repeat' split) <;> first | with_reducible exact h | simp (maxDischargeDepth := 40) [*])
  | exact h
@[simp ↓] theorem handOver_runs (f : State → State) (s : State) (hf : ∀ t, Runs ρ ν (view t) → Runs ρ ν (view (f t))) (h : Runs ρ ν (view s)) :
    Runs ρ ν (view (handOver f s)) := hf _ (wake_runs _ _ h)
@[simp ↓] theorem routeReply_runs (p : Path) (fits : Bool) (f : State → State) (s : State) (hf : ∀ t, Runs ρ ν (view t) → Runs ρ ν (view (f t))) (h : Runs ρ ν (view s)) :
    Runs ρ ν (view (routeReply p fits f s)) := by
  unfold routeReply
  refine inbound_runs _ _ _ (fun t ht => ?_) h
  split
  · exact handOver_runs f t hf ht
  · exact routeError_runs _ ht
@[simp ↓] theorem routeMessage_runs (p : Path) (fits : Bool) (f : State → State) (s : State) (hf : ∀ t, Runs ρ ν (view t) → Runs ρ ν (view (f t))) (h : Runs ρ ν (view s)) :
    Runs ρ ν (view (routeMessage p fits f s)) := by
  unfold routeMessage
  refine inbound_runs _ _ _ (fun t ht => ?_) h
  split
  · split
    · exact handOver_runs f t hf ht
    · exact routeError_runs _ ht
  · exact ht
@[simp ↓] theorem takeCredit_runs (p : Path) (target count : Nat) (s : State) (h : Runs (.outer d) ν (view s)) :
    Runs (.outer d) ν (view (takeCredit p target count s)) := by
  unfold takeCredit
  split
  · exact h
  · rename_i c hc
    have hv : (view s).credits p = some c := by rw [credits_view]; exact hc
    dsimp only
    have h1 : ∀ x, (∃ k n, x = c.put k ((c.get k).giveBack n)) ∨ (∃ n, x = { c with shared := c.shared.giveBack n }) →
        Runs (.outer d) ν (view (putPath p { s.ulc.path p with credits := some x } s)) := by
      intro x hx
      rw [view_putPath]
      rcases hx with ⟨k, n, rfl⟩ | ⟨n, rfl⟩
      · exact h.tail (.giveBack p c k n hv)
      · exact h.tail (.giveShared p c n hv)
    refine State_when_runs _ _ _ (routeError_runs _ (h1 _ ?_)) (h1 _ ?_) <;>
    · split
      · exact Or.inl ⟨_, _, rfl⟩
      · exact Or.inr ⟨_, rfl⟩
@[simp ↓] theorem joinOffice_runs (n dest : Nat) (w : Bool) (payload : List Byte) (s : State) (hq : s.ulc.officeQ.length < 32) (h : Runs ρ ν (view s)) :
    Runs ρ ν (view (joinOffice n dest w payload s)) := h.tail (.joinClass .office _ (by intro m hm; cases hm; exact hq) fun _ => rfl)
@[simp ↓] theorem officeInbound_runs (n : Nat) (late : Bool) (p : Path) (payload : List Byte) (s : State) (h : Runs ρ ν (view s)) :
    Runs ρ ν (view (officeInbound n late p payload s)) := by
  unfold officeInbound
  first
  | ((try dsimp only) <;> (repeat' split) <;> first | with_reducible exact h | simp (maxDischargeDepth := 40) [*])
  | exact h
@[simp ↓] theorem officeReply_runs (p : Path) (n : Nat) (payload : List Byte) (s : State) (h : Runs ρ ν (view s)) :
    Runs ρ ν (view (officeReply p n payload s)) := officeInbound_runs _ _ _ _ _ (h.tail (.leaveWaits _ List.eraseP_sublist))

end Sys2Proof.Laws
end

