-- ==== Sys2Proof/Laws/RunsExpiry.lean ====
section
/-! SUPPORT. Each operation of Machine/ExpiryOps.lean is a run of moves. -/

namespace Sys2Proof.Laws

open Sys2Proof.Machine Sys2Proof.Safety

variable {d : Area → Bool} {ν : View}

theorem countTick_runs (c : TimeoutClass) (s : State) (h : Runs (.outer d) ν (view s)) :
    Runs (.outer d) ν (view (countTick c s)) := by
  unfold countTick
  dsimp only
  cases c
  · exact h.tail (.ticks (_, s.ulc.t2, s.ulc.t3, s.ulc.t4))
  · exact h.tail (.ticks (s.ulc.t1, _, s.ulc.t3, s.ulc.t4))
  · exact h.tail (.ticks (s.ulc.t1, s.ulc.t2, _, s.ulc.t4))
  · exact h.tail (.ticks (s.ulc.t1, s.ulc.t2, s.ulc.t3, _))

theorem expireEntries_runs (s : State) (h : Runs (.outer d) ν (view s)) :
    Runs (.outer d) ν (view (expireEntries s)) := fallbackAll_runs _ _ h

theorem expireHello_runs (p : Path) (s : State) (h : Runs (.outer d) ν (view s)) :
    Runs (.outer d) ν (view (expireHello p s)) := by
  unfold expireHello
  dsimp only
  split
  · exact greet_runs _ _ h
  · exact h

theorem missNumber_runs (p : Path) (number : Nat) (s : State) (h : Runs (.outer d) ν (view s)) :
    Runs (.outer d) ν (view (missNumber p number s)) := by
  unfold missNumber
  split
  · exact probeMissed_runs _ _ _ h
  · exact h

theorem expireProbes_runs (p : Path) (s : State) (h : Runs (.outer d) ν (view s)) :
    Runs (.outer d) ν (view (expireProbes p s)) := foldl_runs _ (fun _ _ hu => missNumber_runs _ _ _ hu) _ _ h

theorem expireBatch_runs (s : State) (h : Runs (.outer d) ν (view s)) :
    Runs (.outer d) ν (view (expireBatch s)) := by
  unfold expireBatch
  split
  · exact batchBusy_runs _ h
  · exact h

theorem expireFile_runs (s : State) (h : Runs (.outer d) ν (view s)) :
    Runs (.outer d) ν (view (expireFile s)) := by
  unfold expireFile
  split
  · exact fileRequestBusy_runs _ h
  · exact h

theorem expireDue_runs (c : TimeoutClass) (s : State) (h : Runs (.outer d) ν (view s)) :
    Runs (.outer d) ν (view (expireDue c s)) := by
  cases c
  · exact expireEntries_runs _ h
  · exact expireProbes_runs _ _ (expireProbes_runs _ _ (expireHello_runs _ _ (expireHello_runs _ _ h)))
  · exact expireFile_runs _ (expireBatch_runs _ h)
  · exact endWaits_runs _ _ _ h

/-- A tick changes the state by moves alone: time, the counter, and what its expiries do. -/
@[simp ↓] theorem tickClass_runs (c : TimeoutClass) (s : State) (h : Runs (.outer d) ν (view s)) :
    Runs (.outer d) ν (view (tickClass c s)) := by
  unfold tickClass
  split
  · exact expireDue_runs _ _ (countTick_runs _ _ (advanceTo_runs _ _ h))
  · exact h

@[simp ↓] theorem tickIfDue_runs (c : TimeoutClass) (s : State) (h : Runs (.outer d) ν (view s)) :
    Runs (.outer d) ν (view (tickIfDue c s)) := State_when_runs _ _ _ (tickClass_runs _ _ h) h

theorem tickTimes_runs (c : TimeoutClass) (n : Nat) (s : State) (h : Runs (.outer d) ν (view s)) :
    Runs (.outer d) ν (view (tickTimes c n s)) := by
  induction n generalizing s with
  | zero => exact h
  | succ n ih => exact ih _ (tickClass_runs _ _ h)

@[simp ↓] theorem bringOn_runs (c : TimeoutClass) (e : Option Tick) (s : State) (h : Runs (.outer d) ν (view s)) :
    Runs (.outer d) ν (view (bringOn c e s)) := by
  unfold bringOn
  split
  · exact tickTimes_runs _ _ _ (expireDue_runs _ _ h)
  · exact h

end Sys2Proof.Laws
end

