-- ==== Sys2Proof/Laws/RunsPrice.lean ====
section
/-! SUPPORT. Each operation of Machine/PriceOps.lean is a run of moves. -/

namespace Sys2Proof.Laws

open Sys2Proof.Machine Sys2Proof.Safety

variable {ρ : Reach} {d : Area → Bool} {ν : View}

@[simp ↓] theorem putItem_runs (i : Item) (s : State) (hprices : d .prices = true) (h : Runs (.outer d) ν (view s)) :
    Runs (.outer d) ν (view (putItem i s)) := h.tail (.item hprices i)
@[simp ↓] theorem dropItem_runs (c : Nat) (s : State) (hprices : d .prices = true) (h : Runs (.outer d) ν (view s)) :
    Runs (.outer d) ν (view (dropItem c s)) := h.tail (.dropItem hprices c)
@[simp ↓] theorem adjustBound_runs (c : Nat) (f : Nat → Nat) (s : State) (hprices : d .prices = true) (h : Runs (.outer d) ν (view s)) :
    Runs (.outer d) ν (view (adjustBound c f s)) := by
  unfold adjustBound
  first
  | ((try dsimp only) <;> (repeat' split) <;> first | with_reducible exact h | simp (maxDischargeDepth := 40) [*])
  | exact h
@[simp ↓] theorem putSlot_runs (i : Nat) (x : Option Slot) (s : State) (h : Runs ρ ν (view s)) :
    Runs ρ ν (view (putSlot i x s)) := by
  unfold putSlot
  first
  | ((try dsimp only) <;> (repeat' split) <;> first | with_reducible exact h | simp (maxDischargeDepth := 40) [*])
  | exact h
@[simp ↓] theorem offerPrice_runs (f : UpFrame) (s : State) (hw : f.wantsReply = false) (h : Runs ρ ν (view s)) :
    Runs ρ ν (view (offerPrice f s)) := by
  unfold offerPrice
  split
  · rename_i hq
    exact h.tail (.joinClass .price _ (by intro n hn; cases hn; exact hq) (by simp [hw]))
  · exact h
@[simp ↓] theorem offerConfirm_runs (a b c d e) (s : State) (h : Runs ρ ν (view s)) :
    Runs ρ ν (view (offerPrice (.changeConfirm a b c d e) s)) := offerPrice_runs _ s rfl h
@[simp ↓] theorem offerRefused_runs (a b c) (s : State) (h : Runs ρ ν (view s)) :
    Runs ρ ν (view (offerPrice (.changeRefused a b c) s)) := offerPrice_runs _ s rfl h
@[simp ↓] theorem checkEffect_runs (c : Nat) (s : State) (h : Runs ρ ν (view s)) :
    Runs ρ ν (view (checkEffect c s)) := by
  unfold checkEffect
  (repeat' split) <;> first | with_reducible exact h | skip
  exact startWrite_runs _ _ rfl (putSlot_runs _ _ _ h)
@[simp ↓] theorem effectDone_runs (c : Nat) (s : State) (hprices : d .prices = true) (h : Runs (.outer d) ν (view s)) :
    Runs (.outer d) ν (view (effectDone c s)) := by
  unfold effectDone
  split
  · exact h
  · split
    · exact h
    · rename_i i _ _ x _
      dsimp only
      have h1 : Runs (.outer d) ν (view (match findItem s c with
          | some e => putItem { e with price := x.price, pending := none } s
          | none => s)) := by
        split
        · exact putItem_runs _ _ hprices h
        · exact h
      have h2 := notify_runs (.changeDone x.number c x.price x.confirmed x.unreachable) _ (putSlot_runs i none _ h1)
      exact State_when_runs _ _ _ (offerConfirm_runs _ _ _ _ _ _ h2) h2
@[simp ↓] theorem updateSlot_runs (c : Nat) (f : Slot → Slot) (s : State) (h : Runs ρ ν (view s)) :
    Runs ρ ν (view (updateSlot c f s)) := by
  unfold updateSlot
  first
  | ((try dsimp only) <;> (repeat' split) <;> first | with_reducible exact h | simp (maxDischargeDepth := 40) [*])
  | exact h
@[simp ↓] theorem joinOutstanding_runs (c label : Nat) (s : State) (h : Runs ρ ν (view s)) :
    Runs ρ ν (view (joinOutstanding c label s)) := by
  unfold joinOutstanding
  first
  | ((try dsimp only) <;> (repeat' split) <;> first | with_reducible exact h | simp (maxDischargeDepth := 40) [*])
  | exact h
@[simp ↓] theorem leaveOutstanding_runs (c label : Nat) (confirmed unreachable : Nat) (s : State) (h : Runs ρ ν (view s)) :
    Runs ρ ν (view (leaveOutstanding c label confirmed unreachable s)) := by
  unfold leaveOutstanding
  first
  | ((try dsimp only) <;> (repeat' split) <;> first | with_reducible exact h | simp (maxDischargeDepth := 40) [*])
  | exact h
@[simp ↓] theorem reportAck_runs (item : Option Nat) (label price : Nat) (s : State) (h : Runs ρ ν (view s)) :
    Runs ρ ν (view (reportAck item label price s)) := by
  unfold reportAck
  first
  | ((try dsimp only) <;> (repeat' split) <;> first | with_reducible exact h | simp (maxDischargeDepth := 40) [*])
  | exact h
@[simp ↓] theorem answerChange_runs (src : ChangeSource) (item price : Nat) (o : ChangeOutcome) (s : State) (h : Runs ρ ν (view s)) :
    Runs ρ ν (view (answerChange src item price o s)) := by
  unfold answerChange
  first
  | ((try dsimp only) <;> (repeat' split) <;> first | with_reducible exact h | simp (maxDischargeDepth := 40) [*])
  | exact h
@[simp ↓] theorem issueChange_runs (c : Change) (i : Nat) (s : State) (h : Runs ρ ν (view s)) :
    Runs ρ ν (view (issueChange c i s)) := startWrite_runs _ _ rfl (putSlot_runs _ _ _ h)
@[simp ↓] theorem reviseChange_runs (c : Change) (s : State) (h : Runs ρ ν (view s)) :
    Runs ρ ν (view (reviseChange c s)) := startWrite_runs _ _ rfl h
@[simp ↓] theorem enqueueChange_runs (c : Change) (s : State) (h : Runs ρ ν (view s)) :
    Runs ρ ν (view (enqueueChange c s)) := by
  unfold enqueueChange
  first
  | ((try dsimp only) <;> (repeat' split) <;> first | with_reducible exact h | simp (maxDischargeDepth := 40) [*])
  | exact h
@[simp ↓] theorem routeTo_runs (r : Route) (c : Change) (s : State) (h : Runs ρ ν (view s)) :
    Runs ρ ν (view (routeTo r c s)) := by
  unfold routeTo
  first
  | ((try dsimp only) <;> (repeat' split) <;> first | with_reducible exact h | simp (maxDischargeDepth := 40) [*])
  | exact h
@[simp ↓] theorem takeChange_runs (c : Change) (s : State) (h : Runs ρ ν (view s)) :
    Runs ρ ν (view (takeChange c s)) := by
  unfold takeChange
  first
  | ((try dsimp only) <;> (repeat' split) <;> first | with_reducible exact h | simp (maxDischargeDepth := 40) [*])
  | exact h
@[simp ↓] theorem pendingApplied_runs (w : PendingWrite) (s : State) (hprices : d .prices = true) (h : Runs (.outer d) ν (view s)) :
    Runs (.outer d) ν (view (pendingApplied w s)) := updateSlot_runs _ _ _ (putItem_runs _ _ hprices (h.tail (.change hprices _)))
@[simp ↓] theorem pendingDone_runs (w : PendingWrite) (s : State) (hprices : d .prices = true) (h : Runs (.outer d) ν (view s)) :
    Runs (.outer d) ν (view (pendingDone w s)) := by
  unfold pendingDone
  first
  | ((try dsimp only) <;> (repeat' split) <;> first | with_reducible exact h | simp (maxDischargeDepth := 40) [*])
  | exact h
@[simp ↓] theorem answerQueue_runs (a : QueueAnswer) (s : State) (h : Runs ρ ν (view s)) :
    Runs ρ ν (view (answerQueue a s)) := by
  unfold answerQueue
  first
  | ((try dsimp only) <;> (repeat' split) <;> first | with_reducible exact h | simp (maxDischargeDepth := 40) [*])
  | exact h
@[simp ↓] theorem queueDone_runs (s : State) (hprices : d .prices = true) (h : Runs (.outer d) ν (view s)) :
    Runs (.outer d) ν (view (queueDone s)) := by
  unfold queueDone
  split
  · exact h
  · rename_i o rest _
    exact answerQueue_runs _ _ (h.tail (.queueOp hprices o.action _))
@[simp ↓] theorem issueFromQueue_runs (q : QueueEntry) (add : Bool) (s : State) (h : Runs ρ ν (view s)) :
    Runs ρ ν (view (issueFromQueue q add s)) := by
  unfold issueFromQueue
  first
  | ((try dsimp only) <;> (repeat' split) <;> first | with_reducible exact h | simp (maxDischargeDepth := 40) [*])
  | exact h
@[simp ↓] theorem admitHead_runs (q : QueueEntry) (s : State) (h : Runs ρ ν (view s)) :
    Runs ρ ν (view (admitHead q s)) := by
  unfold admitHead
  first
  | ((try dsimp only) <;> (repeat' split) <;> first | with_reducible exact h | simp (maxDischargeDepth := 40) [*])
  | exact h
@[simp ↓] theorem tryAdmission_runs (s : State) (h : Runs ρ ν (view s)) :
    Runs ρ ν (view (tryAdmission s)) := by
  unfold tryAdmission
  first
  | ((try dsimp only) <;> (repeat' split) <;> first | with_reducible exact h | simp (maxDischargeDepth := 40) [*])
  | exact h
@[simp ↓] theorem takeItemAdd_runs (tag item price : Nat) (openPrice : Bool) (s : State) (h : Runs ρ ν (view s)) :
    Runs ρ ν (view (takeItemAdd tag item price openPrice s)) := by
  unfold takeItemAdd
  (repeat' split) <;> first | exact reply_runs _ _ _ _ _ h | exact startWrite_runs _ _ rfl h
@[simp ↓] theorem takeItemRemove_runs (tag item : Nat) (s : State) (h : Runs ρ ν (view s)) :
    Runs ρ ν (view (takeItemRemove tag item s)) := by
  unfold takeItemRemove
  (repeat' split) <;> first | exact reply_runs _ _ _ _ _ h | exact startWrite_runs _ _ rfl h
@[simp ↓] theorem itemRemoved_runs (tag item : Nat) (s : State) (hprices : d .prices = true) (h : Runs (.outer d) ν (view s)) :
    Runs (.outer d) ν (view (itemRemoved tag item s)) := by
  unfold itemRemoved
  first
  | ((try dsimp only) <;> (repeat' split) <;> first | with_reducible exact h | simp (maxDischargeDepth := 40) [*])
  | exact h
@[simp ↓] theorem takeItemGet_runs (tag item : Nat) (s : State) (h : Runs ρ ν (view s)) :
    Runs ρ ν (view (takeItemGet tag item s)) := by
  unfold takeItemGet
  first
  | ((try dsimp only) <;> (repeat' split) <;> first | with_reducible exact h | simp (maxDischargeDepth := 40) [*])
  | exact h

end Sys2Proof.Laws
end

