-- ==== Sys2Proof/Laws/RunsLabel.lean ====
section
/-! SUPPORT. Each operation of Machine/LabelOps.lean is a run of moves. -/

namespace Sys2Proof.Laws

open Sys2Proof.Machine Sys2Proof.Safety

variable {ρ : Reach} {d : Area → Bool} {ν : View}

theorem label_mem (s : State) (id : Nat) (h : (s.label id).state ≠ .unbound) : s.label id ∈ s.lrs.labels := by
  unfold State.label at *
  cases hf : s.lrs.labels.find? fun l => l.id == id with
  | none => simp [hf, blankLabel] at h
  | some l => simpa [hf] using List.mem_of_find?_eq_some hf

@[simp ↓] theorem takeBind_runs (tag label item : Nat) (s : State) (h : Runs ρ ν (view s)) :
    Runs ρ ν (view (takeBind tag label item s)) := by
  unfold takeBind
  (repeat' split) <;> first | exact reply_runs _ _ _ _ _ h | exact startWrite_runs _ _ rfl h
@[simp ↓] theorem bindDone_runs (tag label item : Nat) (s : State) (hlabels : d .labels = true) (hprices : d .prices = true) (h : Runs (.outer d) ν (view s)) :
    Runs (.outer d) ν (view (bindDone tag label item s)) := by
  unfold bindDone
  first
  | ((try dsimp only) <;> (repeat' split) <;> first | with_reducible exact h | simp (maxDischargeDepth := 40) [*])
  | exact h
@[simp ↓] theorem markUnbound_runs (label : Nat) (s : State) (h : Runs ρ ν (view s)) :
    Runs ρ ν (view (markUnbound label s)) := by
  unfold markUnbound
  first
  | ((try dsimp only) <;> (repeat' split) <;> first | with_reducible exact h | simp (maxDischargeDepth := 40) [*])
  | exact h
@[simp ↓] theorem takeUnbind_runs (tag label : Nat) (s : State) (h : Runs ρ ν (view s)) :
    Runs ρ ν (view (takeUnbind tag label s)) := by
  unfold takeUnbind
  (repeat' split) <;> first
    | exact reply_runs _ _ _ _ _ h
    | exact startWrite_runs _ _ rfl (markUnbound_runs _ _ h)
@[simp ↓] theorem unbindDone_runs (tag label item : Nat) (s : State) (hlabels : d .labels = true) (hprices : d .prices = true) (h : Runs (.outer d) ν (view s)) :
    Runs (.outer d) ν (view (unbindDone tag label item s)) := by
  unfold unbindDone
  first
  | ((try dsimp only) <;> (repeat' split) <;> first | with_reducible exact h | simp (maxDischargeDepth := 40) [*])
  | exact h
@[simp ↓] theorem takeRetry_runs (tag label : Nat) (s : State) (h : Runs ρ ν (view s)) :
    Runs ρ ν (view (takeRetry tag label s)) := by
  unfold takeRetry
  (repeat' split) <;> first | exact reply_runs _ _ _ _ _ h | exact startWrite_runs _ _ rfl h
@[simp ↓] theorem retryDone_runs (tag label : Nat) (s : State) (hlabels : d .labels = true) (h : Runs (.outer d) ν (view s)) :
    Runs (.outer d) ν (view (retryDone tag label s)) := by
  unfold retryDone
  have h1 := putLabel_runs { s.label label with state := .active, failed := 0 } s hlabels h
  dsimp only
  split
  · exact reply_runs _ _ _ _ _ (joinOutstanding_runs _ _ _ h1)
  · exact reply_runs _ _ _ _ _ h1
@[simp ↓] theorem passLabel_runs (id : Nat) (s : State) (h : Runs ρ ν (view s)) :
    Runs ρ ν (view (passLabel id s)) := by
  unfold passLabel
  first
  | ((try dsimp only) <;> (repeat' split) <;> first | with_reducible exact h | simp (maxDischargeDepth := 40) [*])
  | exact h
@[simp ↓] theorem sendPrice_runs (t : Transmission) (s : State) (h : Runs ρ ν (view s)) :
    Runs ρ ν (view (sendPrice t s)) := by
  unfold sendPrice
  first
  | ((try dsimp only) <;> (repeat' split) <;> first | with_reducible exact h | simp (maxDischargeDepth := 40) [*])
  | exact h
@[simp ↓] theorem takeFloor_runs (label : Nat) (s : State) (h : Runs ρ ν (view s)) :
    Runs ρ ν (view (takeFloor label s)) := by
  unfold takeFloor
  (repeat' split) <;> first | with_reducible exact h | skip
  · exact startWrite_runs _ _ rfl h
  · exact sendPrice_runs _ _ h
@[simp ↓] theorem beginTransmission_runs (label price : Nat) (k : TxKind) (s : State) (h : Runs ρ ν (view s)) :
    Runs ρ ν (view (beginTransmission label price k s)) := h
@[simp ↓] theorem floorDone_runs (label price : Nat) (s : State) (hlabels : d .labels = true) (h : Runs (.outer d) ν (view s)) :
    Runs (.outer d) ν (view (floorDone label price s)) := by
  unfold floorDone
  have h1 := putLabel_runs { s.label label with floor := some price } s hlabels h
  dsimp only
  (repeat' split) <;> first | exact h1 | exact sendPrice_runs _ _ h1
@[simp ↓] theorem endTransmission_runs (t : Transmission) (s : State) (h : Runs ρ ν (view s)) :
    Runs ρ ν (view (endTransmission t s)) := by
  unfold endTransmission
  dsimp only
  split
  · exact passLabel_runs _ _ h
  · exact h
@[simp ↓] theorem takeFailure_runs (label : Nat) (s : State) (h : Runs ρ ν (view s)) :
    Runs ρ ν (view (takeFailure label s)) := by
  unfold takeFailure
  dsimp only
  split
  · exact h
  · rename_i hu
    have hm : s.label label ∈ s.lrs.labels := label_mem s label hu
    have h1 : Runs ρ ν (view (putLabel { s.label label with failed := satAdd 15 (s.label label).failed 1 } s)) := by
      have h2 := h.tail (.failed (v := view s) (s.label label) (satAdd 15 (s.label label).failed 1) hm)
      have e : ¬ ({ s.label label with failed := satAdd 15 (s.label label).failed 1 } : Label) =
          blankLabel (s.label label).id := by
        intro he
        exact hu (by have := congrArg Label.state he; exact this)
      unfold putLabel
      rw [if_neg e]
      exact h2
    split
    · exact startWrite_runs _ _ rfl h1
    · exact h1
@[simp ↓] theorem unreachableDone_runs (label : Nat) (s : State) (hlabels : d .labels = true) (h : Runs (.outer d) ν (view s)) :
    Runs (.outer d) ν (view (unreachableDone label s)) := by
  unfold unreachableDone
  have h1 := putLabel_runs { s.label label with state := .unreachable } s hlabels h
  dsimp only
  split
  · exact h1
  · exact notify_runs _ _ (leaveOutstanding_runs _ _ _ _ _ h1)
@[simp ↓] theorem sendBeacon_runs (s : State) (h : Runs ρ ν (view s)) :
    Runs ρ ν (view (sendBeacon s)) := by
  unfold sendBeacon
  have h1 := emit_runs .beacon s h
  dsimp only
  split
  · exact h1
  · exact h1
@[simp ↓] theorem radioAwake_runs (s : State) (h : Runs ρ ν (view s)) :
    Runs ρ ν (view (radioAwake s)) := by
  unfold radioAwake
  first
  | ((try dsimp only) <;> (repeat' split) <;> first | with_reducible exact h | simp (maxDischargeDepth := 40) [*])
  | exact h
@[simp ↓] theorem abandonForPriority_runs (s : State) (h : Runs ρ ν (view s)) :
    Runs ρ ν (view (abandonForPriority s)) := by
  unfold abandonForPriority
  first
  | ((try dsimp only) <;> (repeat' split) <;> first | with_reducible exact h | simp (maxDischargeDepth := 40) [*])
  | exact h
@[simp ↓] theorem startWaitingBurst_runs (s : State) (h : Runs ρ ν (view s)) :
    Runs ρ ν (view (startWaitingBurst s)) := by
  unfold startWaitingBurst
  first
  | ((try dsimp only) <;> (repeat' split) <;> first | with_reducible exact h | simp (maxDischargeDepth := 40) [*])
  | exact h
@[simp ↓] theorem endBurst_runs (s : State) (h : Runs ρ ν (view s)) :
    Runs ρ ν (view (endBurst s)) := by
  unfold endBurst
  first
  | ((try dsimp only) <;> (repeat' split) <;> first | with_reducible exact h | simp (maxDischargeDepth := 40) [*])
  | exact h
@[simp ↓] theorem chooseRefresh_runs (b : Burst) (s : State) (h : Runs ρ ν (view s)) :
    Runs ρ ν (view (chooseRefresh b s)) := by
  unfold chooseRefresh
  dsimp only
  have h1 : Runs ρ ν (view { s with lrs := { s.lrs with
      cursor := (refreshSearch s b.attempted).2.1, cycles := (refreshSearch s b.attempted).2.2 } }) := h
  (repeat' split) <;> first | with_reducible exact h | exact endBurst_runs _ h | exact endBurst_runs _ h1 |
    exact beginTransmission_runs _ _ _ _ h1
@[simp ↓] theorem chooseNext_runs (s : State) (h : Runs ρ ν (view s)) :
    Runs ρ ν (view (chooseNext s)) := by
  unfold chooseNext
  first
  | ((try dsimp only) <;> (repeat' split) <;> first | with_reducible exact h | simp (maxDischargeDepth := 40) [*])
  | exact h
@[simp ↓] theorem radioStep_runs (s : State) (h : Runs ρ ν (view s)) :
    Runs ρ ν (view (radioStep s)) := by
  unfold radioStep
  first
  | ((try dsimp only) <;> (repeat' split) <;> first | with_reducible exact h | simp (maxDischargeDepth := 40) [*])
  | exact h
@[simp ↓] theorem takeAckFrame_runs (label number price battery : Nat) (margin : Int) (s : State) (h : Runs ρ ν (view s)) :
    Runs ρ ν (view (takeAckFrame label number price battery margin s)) := by
  unfold takeAckFrame
  dsimp only
  refine queueWork_runs _ _ ?_
  (repeat' split) <;> first | with_reducible exact h | exact endTransmission_runs _ _ h
@[simp ↓] theorem takeAck_runs (a : AckReport) (s : State) (h : Runs ρ ν (view s)) :
    Runs ρ ν (view (takeAck a s)) := startWrite_runs _ _ rfl h
@[simp ↓] theorem healthWatch_runs (a : AckReport) (item : Option Nat) (s : State) (hlabels : d .labels = true) (h : Runs (.outer d) ν (view s)) :
    Runs (.outer d) ν (view (healthWatch a item s)) := by
  unfold healthWatch
  first
  | ((try dsimp only) <;> (repeat' split) <;> first | with_reducible exact h | simp (maxDischargeDepth := 40) [*])
  | exact h
@[simp ↓] theorem ackDone_runs (a : AckReport) (full : Bool) (s : State) (hlabels : d .labels = true) (h : Runs (.outer d) ν (view s)) :
    Runs (.outer d) ν (view (ackDone a full s)) := by
  unfold ackDone
  first
  | ((try dsimp only) <;> (repeat' split) <;> first | with_reducible exact h | simp (maxDischargeDepth := 40) [*])
  | exact h
@[simp ↓] theorem clearHealth_runs (target : Option Nat) (s : State) (hlabels : d .labels = true) (h : Runs (.outer d) ν (view s)) :
    Runs (.outer d) ν (view (clearHealth target s)) := by
  unfold clearHealth
  split
  · exact putLabel_runs _ _ hlabels h
  · exact foldl_runs _ (fun id u hu => putLabel_runs _ _ hlabels hu) _ _ h

end Sys2Proof.Laws
end

