-- ==== Sys2Proof/Laws/RunsWork.lean ====
section
/-! SUPPORT. Each operation of Machine/WorkOps.lean is a run of moves. -/

namespace Sys2Proof.Laws

open Sys2Proof.Machine Sys2Proof.Safety

variable {ρ : Reach} {d : Area → Bool} {ν : View}

/-- A ready event shares no key with the writes under way. -/
theorem firstReady_free (s : State) (busy : List Key) (l : List Work) (w : Work) (rest : List Work)
    (h : firstReady s busy l = some (w, rest)) : keysMeet (w.keys s) busy = false := by
  induction l generalizing busy rest with
  | nil => cases h
  | cons x xs ih =>
    unfold firstReady at h
    dsimp only at h
    split at h
    · rename_i hm
      cases hr : firstReady s (busy ++ x.keys s) xs with
      | none => simp [hr] at h
      | some r =>
        obtain ⟨a, b⟩ := r
        simp [hr] at h
        obtain ⟨rfl, rfl⟩ := h
        have := ih _ _ hr
        simp only [keysMeet, List.any_eq_false, List.contains_eq_mem, List.mem_append, decide_eq_true_eq] at this ⊢
        intro k hk hb
        exact this k hk (Or.inl hb)
    · rename_i hm
      cases h
      simpa using hm

theorem setting_group_free (s : State) (id : Nat) (h : keysMeet [settingKey id] (writeKeys s) = false) :
    settingGroup id ∉ settingGroups s.nv := by
  intro hm
  obtain ⟨w, hw, hg⟩ := List.mem_filterMap.1 hm
  have : settingKey id ∈ writeKeys s := by
    unfold writeKeys
    refine List.mem_append_left _ (List.mem_flatMap.2 ⟨w, hw, ?_⟩)
    cases w <;> simp_all [settingWriteGroup, NvWrite.keys, settingKey]
  simp [keysMeet, this] at h

@[simp ↓] theorem addLine_runs (t : Nat) (l : BasketLine) (s : State) (h : Runs ρ ν (view s)) :
    Runs ρ ν (view (addLine t l s)) := by
  unfold addLine
  first
  | ((try dsimp only) <;> (repeat' split) <;> first | with_reducible exact h | simp (maxDischargeDepth := 40) [*])
  | exact h
@[simp ↓] theorem takeLineAdd_runs (t item : Nat) (qty : Int) (keyed : Option Nat) (s : State) (h : Runs ρ ν (view s)) :
    Runs ρ ν (view (takeLineAdd t item qty keyed s)) := by
  unfold takeLineAdd
  dsimp only
  (repeat' split) <;> first | exact answerTill_runs _ _ _ _ _ h | exact addLine_runs _ _ _ h
@[simp ↓] theorem settingRefused_runs (src : SettingSource) (r : Result) (s : State) (h : Runs ρ ν (view s)) :
    Runs ρ ν (view (settingRefused src r s)) := by
  unfold settingRefused
  first
  | ((try dsimp only) <;> (repeat' split) <;> first | with_reducible exact h | simp (maxDischargeDepth := 40) [*])
  | exact h
@[simp ↓] theorem settingSame_runs (id : Nat) (v : SettingValue) (src : SettingSource) (s : State) (h : Runs ρ ν (view s)) :
    Runs ρ ν (view (settingSame id v src s)) := by
  unfold settingSame
  first
  | ((try dsimp only) <;> (repeat' split) <;> first | with_reducible exact h | simp (maxDischargeDepth := 40) [*])
  | exact h
@[simp ↓] theorem takeSetting_runs (id : Nat) (v : SettingValue) (src : SettingSource) (s : State) (hg : settingGroup id ∉ settingGroups s.nv) (h : Runs ρ ν (view s)) :
    Runs ρ ν (view (takeSetting id v src s)) := by
  unfold takeSetting
  (repeat' split) <;> first | exact settingRefused_runs _ _ _ h | exact settingSame_runs _ _ _ _ h | skip
  rename_i t ht _ hx _
  unfold startWrite
  split
  · exact h
  · exact h.tail (.writeSetting id v src t ht (by simpa [view] using hx) hg)
@[simp ↓] theorem refreshBySetting_runs (old : Settings) (s : State) (h : Runs ρ ν (view s)) :
    Runs ρ ν (view (refreshBySetting old s)) := by
  unfold refreshBySetting
  first
  | ((try dsimp only) <;> (repeat' split) <;> first | with_reducible exact h | simp (maxDischargeDepth := 40) [*])
  | exact h
@[simp ↓] theorem settingEffect_runs (t : SettingTarget) (old : Settings) (s : State) (h : Runs (.outer d) ν (view s)) :
    Runs (.outer d) ν (view (settingEffect t old s)) := by
  unfold settingEffect
  first
  | ((try dsimp only) <;> (repeat' split) <;> first | with_reducible exact h | simp (maxDischargeDepth := 40) [*])
  | exact h
@[simp ↓] theorem settingAnswered_runs (id : Nat) (old v : SettingValue) (src : SettingSource) (s : State) (h : Runs ρ ν (view s)) :
    Runs ρ ν (view (settingAnswered id old v src s)) := by
  unfold settingAnswered
  first
  | ((try dsimp only) <;> (repeat' split) <;> first | with_reducible exact h | simp (maxDischargeDepth := 40) [*])
  | exact h
/-- What a completed setting write does to the view, from the state in which the write is no longer under way. -/
theorem settingDone_runs (id : Nat) (x : SettingValue) (src : SettingSource) (s : State)
    (h : ∀ t, settingTarget id = some t → Runs (.outer d) ν { view s with settings := putValue s.settings t x })
    (h0 : settingTarget id = none → Runs (.outer d) ν (view s)) :
    Runs (.outer d) ν (view (settingDone id x src s)) := by
  unfold settingDone
  split
  · rename_i ht; exact h0 ht
  · rename_i t ht
    refine settingAnswered_runs _ _ _ _ _ ?_
    unfold writeSetting
    have h1 := h t ht
    refine settingEffect_runs _ _ _ ?_
    cases hc : (t == .num .rate || t == .num .depth)
    · exact h1
    · have e : view { s.when true refreshAllTokens with settings := putValue (s.when true refreshAllTokens).settings t x } =
          { view s with settings := putValue s.settings t x } := by
        simp [State.when, refreshAllTokens, view]
      rw [e]; exact h1
@[simp ↓] theorem takeWork_runs (w : Work) (s : State) (hk : keysMeet (w.keys s) (writeKeys s) = false) (h : Runs ρ ν (view s)) :
    Runs ρ ν (view (takeWork w s)) := by
  unfold takeWork
  split <;> first
    | exact takeSetting_runs _ _ _ _ (setting_group_free _ _ hk) h
    | simp [h]
@[simp ↓] theorem takeReady_runs (s : State) (h : Runs ρ ν (view s)) :
    Runs ρ ν (view (takeReady s)) := by
  unfold takeReady
  split
  · rename_i w rest hf
    have hk := firstReady_free s _ _ _ _ hf
    exact takeWork_runs w _ (by cases w <;> exact hk) h
  · exact h
@[simp ↓] theorem drain_runs (n : Nat) (s : State) (h : Runs ρ ν (view s)) :
    Runs ρ ν (view (drain n s)) := by
  induction n generalizing s with
  | zero => exact h
  | succ n ih => exact ih _ (takeReady_runs s h)
@[simp ↓] theorem drainAll_runs (s : State) (h : Runs ρ ν (view s)) :
    Runs ρ ν (view (drainAll s)) := drain_runs _ _ h

end Sys2Proof.Laws
end

