-- ==== Sys2Proof/Laws/RunsReact.lean ====
section
/-! SUPPORT. Each operation of Machine/ReactOps.lean is a run of moves: whatever follows a command is a run of inner moves. -/

namespace Sys2Proof.Laws

open Sys2Proof.Machine Sys2Proof.Safety

variable {ρ : Reach} {d : Area → Bool} {ν : View}

@[simp ↓] theorem feedOne_runs (s : State) (h : Runs ρ ν (view s)) :
    Runs ρ ν (view (feedOne s)) := by
  unfold feedOne
  first
  | ((try dsimp only) <;> (repeat' split) <;> first | with_reducible exact h | simp (maxDischargeDepth := 40) [*])
  | exact h
@[simp ↓] theorem feed_runs (n : Nat) (s : State) (h : Runs ρ ν (view s)) :
    Runs ρ ν (view (feed n s)) := by
  induction n generalizing s with
  | zero => exact h
  | succ n ih => exact ih _ (feedOne_runs s h)
@[simp ↓] theorem feedAll_runs (s : State) (h : Runs ρ ν (view s)) :
    Runs ρ ν (view (feedAll s)) := by
  unfold feedAll
  first
  | ((try dsimp only) <;> (repeat' split) <;> first | with_reducible exact h | simp (maxDischargeDepth := 40) [*])
  | exact h
@[simp ↓] theorem batchStep_runs (s : State) (h : Runs ρ ν (view s)) :
    Runs ρ ν (view (batchStep s)) := by
  unfold batchStep
  first
  | ((try dsimp only) <;> (repeat' split) <;> first | with_reducible exact h | simp (maxDischargeDepth := 40) [*])
  | exact h
@[simp ↓] theorem transferStep_runs (s : State) (h : Runs ρ ν (view s)) :
    Runs ρ ν (view (transferStep s)) :=
  offerFileRequest_runs _ (settleAbort_runs _ (feedAll_runs _ (batchStep_runs _ (batchStep_runs _ (settleAbort_runs _ h)))))
@[simp ↓] theorem journalStep_runs (s : State) (h : Runs ρ ν (view s)) :
    Runs ρ ν (view (journalStep s)) := by
  unfold journalStep
  first
  | ((try dsimp only) <;> (repeat' split) <;> first | with_reducible exact h | simp (maxDischargeDepth := 40) [*])
  | exact h
@[simp ↓] theorem reactRunning_runs (s : State) (h : Runs ρ ν (view s)) :
    Runs ρ ν (view (reactRunning s)) := by
  unfold reactRunning
  first
  | ((try dsimp only) <;> (repeat' split) <;> first | with_reducible exact h | simp (maxDischargeDepth := 40) [*])
  | exact h
@[simp ↓] theorem react_runs (s : State) (h : Runs ρ ν (view s)) :
    Runs ρ ν (view (react s)) := by
  unfold react
  first
  | ((try dsimp only) <;> (repeat' split) <;> first | with_reducible exact h | simp (maxDischargeDepth := 40) [*])
  | exact h
@[simp ↓] theorem finish_runs (s : State) (h : Runs ρ ν (view s)) :
    Runs ρ ν (view (finish s)) := by
  unfold finish
  first
  | ((try dsimp only) <;> (repeat' split) <;> first | with_reducible exact h | simp (maxDischargeDepth := 40) [*])
  | exact h

end Sys2Proof.Laws
end

