-- ==== Sys2Proof/Laws/RunsStart.lean ====
section
/-! SUPPORT. Each operation of Machine/StartOps.lean is a run of moves. -/

namespace Sys2Proof.Laws

open Sys2Proof.Machine Sys2Proof.Safety

variable {ρ : Reach} {d : Area → Bool} {ν : View}

theorem view_fresh (c : ResetCause) (s : State) : view (freshState c s) = (view s).fresh c := by
  simp [view, View.fresh, freshState, freshPbk, freshLrs, freshTsu, freshSjr, freshUlc, freshGac, freshDay, freshHlk,
    freshPath, resetPath]

@[simp ↓] theorem freshState_runs (cause : ResetCause) (s : State) (hresets : d .resets = true) (h : Runs (.outer d) ν (view s)) :
    Runs (.outer d) ν (view (freshState cause s)) := by rw [view_fresh]; exact h.tail (.fresh hresets cause)
@[simp ↓] theorem rebuildSlots_runs (s : State) (hs : s.pbk.slots.length = Config.slotCount) (h : Runs ρ ν (view s)) :
    Runs ρ ν (view (rebuildSlots s)) := by
  unfold rebuildSlots
  refine foldl_runs _ (fun x u hu => checkEffect_runs _ _ hu) _ _ ?_
  have e := view_pbk s { s.pbk with
    slots := (((rebuiltSlots s).map some) ++ List.replicate Config.slotCount none).take Config.slotCount } rfl rfl rfl
    (by simp [hs]) rfl
  exact e ▸ h
@[simp ↓] theorem enterChosen_runs (st : StoreState) (s : State) (h : Runs ρ ν (view s)) :
    Runs ρ ν (view (enterChosen st s)) := by
  unfold enterChosen
  first
  | ((try dsimp only) <;> (repeat' split) <;> first | with_reducible exact h | simp (maxDischargeDepth := 40) [*])
  | exact h
@[simp ↓] theorem releaseNotices_runs (b : NoticeBody) (s : State) (h : Runs ρ ν (view s)) :
    Runs ρ ν (view (releaseNotices b s)) := by
  unfold releaseNotices
  exact foldl_runs _ (fun n u hu => joinNotice_runs _ _ hu) _ _ (joinNotice_runs _ _ h)
@[simp ↓] theorem greetPaths_runs (s : State) (h : Runs ρ ν (view s)) :
    Runs ρ ν (view (greetPaths s)) := by
  unfold greetPaths
  have h1 : Runs ρ ν (view (if s.ulc.primary.carrier then greet .primary s else s)) := by
    split
    · exact greet_runs _ _ h
    · exact h
  generalize hx : (if s.ulc.primary.carrier then greet .primary s else s) = x at h1
  dsimp only
  split
  · exact greet_runs _ _ h1
  · exact h1
@[simp ↓] theorem startUp_runs (cause : ResetCause) (s : State) (hresets : d .resets = true) (h : Runs (.outer d) ν (view s)) :
    Runs (.outer d) ν (view (startUp cause s)) := by
  unfold startUp
  have h1 : Runs (.outer d) ν (view (rebuildSlots (freshState cause s))) :=
    rebuildSlots_runs _ (by simp [freshState, freshPbk]) (freshState_runs _ _ hresets h)
  dsimp only
  refine finish_runs _ (startSilence_runs _ (greetPaths_runs _ (settleRadio_runs _ (guestDecide_runs _ ?_))))
  exact releaseNotices_runs _ _ (emit_runs _ _ (enterChosen_runs _ _ h1))
@[simp ↓] theorem cutWrites_runs (s : State) (hwrites : d .writes = true) (h : Runs (.outer d) ν (view s)) :
    Runs (.outer d) ν (view (cutWrites s)) := h.tail (.cut hwrites)
@[simp ↓] theorem holdAsserted_runs (s : State) (hresets : d .resets = true) (hwrites : d .writes = true) (h : Runs (.outer d) ν (view s)) :
    Runs (.outer d) ν (view (holdAsserted s)) := by
  unfold holdAsserted
  dsimp only
  split
  · exact h.tail (.stops hresets (s.day.powered, true, s.day.resetLine, s.day.stopped) (s.day.clock, s.day.clockMs))
  · refine cutWrites_runs _ hwrites ?_
    exact h.tail (.stops hresets (s.day.powered, true, s.day.resetLine, _) (s.day.clock, s.day.clockMs))
@[simp ↓] theorem restartIfFree_runs (s : State) (hresets : d .resets = true) (h : Runs (.outer d) ν (view s)) :
    Runs (.outer d) ν (view (restartIfFree s)) := by
  unfold restartIfFree
  first
  | ((try dsimp only) <;> (repeat' split) <;> first | with_reducible exact h | simp (maxDischargeDepth := 40) [*])
  | exact h
@[simp ↓] theorem holdReleased_runs (s : State) (hresets : d .resets = true) (h : Runs (.outer d) ν (view s)) :
    Runs (.outer d) ν (view (holdReleased s)) := by
  unfold holdReleased
  split
  · exact restartIfFree_runs _ hresets
      (h.tail (.stops hresets (s.day.powered, false, s.day.resetLine, s.day.stopped) (s.day.clock, s.day.clockMs)))
  · exact h
@[simp ↓] theorem resetAsserted_runs (s : State) (hresets : d .resets = true) (hwrites : d .writes = true) (h : Runs (.outer d) ν (view s)) :
    Runs (.outer d) ν (view (resetAsserted s)) := by
  unfold resetAsserted
  dsimp only
  split
  · refine cutWrites_runs _ hwrites ?_
    exact h.tail (.stops hresets (s.day.powered, s.day.holdLine, true, _) (s.day.clock, s.day.clockMs))
  · exact h.tail (.stops hresets (s.day.powered, s.day.holdLine, true, s.day.stopped) (s.day.clock, s.day.clockMs))
@[simp ↓] theorem resetReleased_runs (s : State) (hresets : d .resets = true) (h : Runs (.outer d) ν (view s)) :
    Runs (.outer d) ν (view (resetReleased s)) := by
  unfold resetReleased
  split
  · exact restartIfFree_runs _ hresets
      (h.tail (.stops hresets (s.day.powered, s.day.holdLine, false, s.day.stopped) (s.day.clock, s.day.clockMs)))
  · exact h
@[simp ↓] theorem powerApplied_runs (s : State) (hresets : d .resets = true) (hwrites : d .writes = true) (h : Runs (.outer d) ν (view s)) :
    Runs (.outer d) ν (view (powerApplied s)) := by
  unfold powerApplied
  refine restartIfFree_runs _ hresets (cutWrites_runs _ hwrites ?_)
  exact h.tail (.stops hresets (true, s.day.holdLine, s.day.resetLine, some .powerOn) (none, 0))
@[simp ↓] theorem powerLost_runs (s : State) (hresets : d .resets = true) (hwrites : d .writes = true) (h : Runs (.outer d) ν (view s)) :
    Runs (.outer d) ν (view (powerLost s)) := by
  unfold powerLost
  refine cutWrites_runs _ hwrites ?_
  exact h.tail (.stops hresets (false, s.day.holdLine, s.day.resetLine, none) (none, 0))

end Sys2Proof.Laws
end

