-- ==== Sys2Proof/Laws/RunsHost.lean ====
section
/-! SUPPORT. Each operation of Machine/HostOps.lean is a run of moves, and what a request may do. -/

namespace Sys2Proof.Laws

open Sys2Proof.Machine Sys2Proof.Safety

variable {ρ : Reach} {d : Area → Bool} {ν : View}

@[simp ↓] theorem beginRequest_runs (s : State) (h : Runs ρ ν (view s)) :
    Runs ρ ν (view (beginRequest s)) := by
  unfold beginRequest
  first
  | ((try dsimp only) <;> (repeat' split) <;> first | with_reducible exact h | simp (maxDischargeDepth := 40) [*])
  | exact h
@[simp ↓] theorem joinRequest_runs (tag : Nat) (k : RequestKind) (s : State) (hq : s.hlk.requests.length < 8) (h : Runs (.outer d) ν (view s)) :
    Runs (.outer d) ν (view (joinRequest tag k s)) := h.tail (.joinRequest _ hq)
@[simp ↓] theorem handRequest_runs (hd : HostHead) (k : RequestKind) (own : State → State) (s : State) (hown : ∀ t, Runs (.outer d) ν (view t) → Runs (.outer d) ν (view (own t))) (h : Runs (.outer d) ν (view s)) :
    Runs (.outer d) ν (view (handRequest hd k own s)) := by
  unfold handRequest
  first
  | ((try dsimp only) <;> (repeat' split) <;> first | with_reducible exact h | simp (maxDischargeDepth := 40) [*])
  | exact h
@[simp ↓] theorem decideRequest_runs (hd : HostHead) (k : RequestKind) (own : State → State) (s : State) (hown : ∀ t, Runs (.outer d) ν (view t) → Runs (.outer d) ν (view (own t))) (h : Runs (.outer d) ν (view s)) :
    Runs (.outer d) ν (view (decideRequest hd k own s)) := by
  unfold decideRequest
  split
  · exact replyNow_runs _ _ _ _ h
  · split
    · exact replyNow_runs _ _ _ _ h
    · rename_i hq
      exact handRequest_runs _ _ _ _ hown (joinRequest_runs _ _ _ (Nat.lt_of_not_le hq) h)
@[simp ↓] theorem takeRequest_runs (hd : HostHead) (k : RequestKind) (own : State → State) (s : State) (hown : ∀ t, Runs (.outer d) ν (view t) → Runs (.outer d) ν (view (own t))) (h : Runs (.outer d) ν (view s)) :
    Runs (.outer d) ν (view (takeRequest hd k own s)) := by
  unfold takeRequest
  split
  · exact frameError_runs _ h
  · exact decideRequest_runs _ _ _ _ hown (beginRequest_runs _ h)
/-- The outcome of a command is a next state that a run of moves reaches. -/
def Reaches (d : Area → Bool) (s : State) (o : Out) : Prop := ∃ t, o = .next t ∧ Runs (.outer d) (view s) (view t)

theorem event_reaches (f : State → State) (s : State) (hf : Runs (.outer d) (view s) (view (f s))) :
    Reaches d s (event f s) := by
  refine ⟨_, rfl, ?_⟩
  split
  · exact finish_runs _ hf
  · exact .refl

theorem request_reaches (h : HostHead) (k : RequestKind) (own : State → State) (s : State)
    (hown : ∀ t, Runs (.outer d) (view s) (view t) → Runs (.outer d) (view s) (view (own t))) :
    Reaches d s (request h k own s) :=
  event_reaches _ _ (takeRequest_runs h k own s hown .refl)

theorem statusRequest_reaches (h : HostHead) (k : RequestKind) (body : State → ReplyBody) (s : State) :
    Reaches d s (statusRequest h k body s) := by
  unfold statusRequest
  split
  · refine ⟨_, rfl, ?_⟩
    have h1 : Runs (.outer d) (view s) (view (takeRequest h k (fun u => reply h.tag k .ok (body u) u) s)) :=
      takeRequest_runs h k _ s (fun t ht => reply_runs _ _ _ _ _ ht) .refl
    split
    · exact finish_runs _ h1
    · exact hostPump_runs _ h1
  · exact ⟨_, rfl, .refl⟩

end Sys2Proof.Laws
end

