-- ==== Sys2Proof/Laws/RunsAnswers.lean ====
section
/-! SUPPORT. The answers and effects defined beside the meanings are runs of moves. -/

namespace Sys2Proof.Laws

open Sys2Proof.Machine Sys2Proof.Safety

variable {ρ : Reach} {d : Area → Bool} {ν : View}

theorem takeWrite_split (p : NvWrite → Bool) (l : List NvWrite) (w : NvWrite) (rest : List NvWrite)
    (h : takeWrite p l = some (w, rest)) : p w = true ∧ ∃ a b, l = a ++ w :: b ∧ rest = a ++ b := by
  induction l generalizing rest with
  | nil => cases h
  | cons x xs ih =>
    unfold takeWrite at h
    split at h
    · rename_i hp
      cases h
      exact ⟨hp, [], xs, rfl, rfl⟩
    · cases hr : takeWrite p xs with
      | none => simp [hr] at h
      | some r =>
        obtain ⟨a, b⟩ := r
        simp [hr] at h
        obtain ⟨rfl, rfl⟩ := h
        obtain ⟨hp, a', b', h1, h2⟩ := ih _ hr
        exact ⟨hp, x :: a', b', by rw [h1]; rfl, by rw [h2]; rfl⟩

/-- A completion other than a setting's: the write leaves, and what it made durable follows. -/
theorem completeWrite_runs (p : NvWrite → Bool) (f : NvWrite → State → State) (s : State)
    (hwrites : d .writes = true) (hf : ∀ w t, p w = true → Runs (.outer d) ν (view t) → Runs (.outer d) ν (view (f w t)))
    (h : Runs (.outer d) ν (view s)) : Runs (.outer d) ν (view (completeWrite p f s)) := by
  unfold completeWrite
  split
  · rename_i w rest hw
    obtain ⟨hp, a, b, h1, h2⟩ := takeWrite_split _ _ _ _ hw
    refine hf w _ hp (h.tail (.dropWrites hwrites rest ?_))
    show rest.Sublist s.nv
    rw [h1, h2]
    exact List.Sublist.append_left (List.sublist_cons_self ..) _
  · exact h

@[simp ↓] theorem answerLabelGet_runs (tag label : Nat) (s : State) (h : Runs ρ ν (view s)) :
    Runs ρ ν (view (answerLabelGet tag label s)) := by
  unfold answerLabelGet
  first
  | ((try dsimp only) <;> (repeat' split) <;> first | with_reducible exact h | simp (maxDischargeDepth := 40) [*])
  | exact h
@[simp ↓] theorem answerBurstNow_runs (tag : Nat) (s : State) (h : Runs ρ ν (view s)) :
    Runs ρ ν (view (answerBurstNow tag s)) := by
  unfold answerBurstNow
  (repeat' split) <;> first | exact reply_runs _ _ _ _ _ h | exact reply_runs _ _ _ _ _ (sendBeacon_runs _ h)
@[simp ↓] theorem answerHealthClear_runs (tag : Nat) (target : Option Nat) (s : State) (hlabels : d .labels = true) (h : Runs (.outer d) ν (view s)) :
    Runs (.outer d) ν (view (answerHealthClear tag target s)) := by
  unfold answerHealthClear
  first
  | ((try dsimp only) <;> (repeat' split) <;> first | with_reducible exact h | simp (maxDischargeDepth := 40) [*])
  | exact h
@[simp ↓] theorem closeWindow_runs (s : State) (h : Runs (.outer d) ν (view s)) :
    Runs (.outer d) ν (view (closeWindow s)) := by
  unfold closeWindow
  first
  | ((try dsimp only) <;> (repeat' split) <;> first | with_reducible exact h | simp (maxDischargeDepth := 40) [*])
  | exact h
@[simp ↓] theorem openWindow_runs (s : State) (h : Runs ρ ν (view s)) :
    Runs ρ ν (view (openWindow s)) := by
  unfold openWindow
  first
  | ((try dsimp only) <;> (repeat' split) <;> first | with_reducible exact h | simp (maxDischargeDepth := 40) [*])
  | exact h
@[simp ↓] theorem answerHello_runs (store : StoreState) (hd : TillHead) (s : State) (h : Runs ρ ν (view s)) :
    Runs ρ ν (view (answerHello store hd s)) := by
  unfold answerHello
  dsimp only
  (repeat' split) <;> first
    | exact sendTill_runs _ _ _ _ _ _ h
    | exact sendTill_runs _ _ _ _ _ _ (putPlace_runs _ _ _ h)
    | exact answerTill_runs _ _ _ _ _ h
@[simp ↓] theorem helloFrameTaken_runs (hd : TillHead) (s : State) (h : Runs ρ ν (view s)) :
    Runs ρ ν (view (helloFrameTaken hd s)) := by
  unfold helloFrameTaken
  (repeat' split) <;> first
    | exact sendTill_runs _ _ _ _ _ _ h
    | exact sendTill_runs _ _ _ _ _ _ (touchPlace_runs _ _ h)
    | exact answerHello_runs _ _ _ (wake_runs _ _ (touchPlace_runs _ _ h))
@[simp ↓] theorem ifFits_runs (hd : TillHead) (k : TillKind) (own : State → State) (s : State) (hown : ∀ t, Runs ρ ν (view t) → Runs ρ ν (view (own t))) (h : Runs ρ ν (view s)) :
    Runs ρ ν (view (ifFits hd k own s)) := by
  unfold ifFits
  split
  · exact hown _ h
  · exact answerTill_runs _ _ _ _ _ h
@[simp ↓] theorem answerPoll_runs (hd : TillHead) (s : State) (h : Runs ρ ν (view s)) :
    Runs ρ ν (view (answerPoll hd s)) := by
  unfold answerPoll
  first
  | ((try dsimp only) <;> (repeat' split) <;> first | with_reducible exact h | simp (maxDischargeDepth := 40) [*])
  | exact h
@[simp ↓] theorem answerBye_runs (hd : TillHead) (s : State) (h : Runs ρ ν (view s)) :
    Runs ρ ν (view (answerBye hd s)) := by
  unfold answerBye
  first
  | ((try dsimp only) <;> (repeat' split) <;> first | with_reducible exact h | simp (maxDischargeDepth := 40) [*])
  | exact h
@[simp ↓] theorem answerSaleOpen_runs (hd : TillHead) (s : State) (h : Runs ρ ν (view s)) :
    Runs ρ ν (view (answerSaleOpen hd s)) := by
  unfold answerSaleOpen
  first
  | ((try dsimp only) <;> (repeat' split) <;> first | with_reducible exact h | simp (maxDischargeDepth := 40) [*])
  | exact h
@[simp ↓] theorem inBasket_runs (hd : TillHead) (k : TillKind) (own : State → State) (s : State) (hown : ∀ t, Runs ρ ν (view t) → Runs ρ ν (view (own t))) (h : Runs ρ ν (view s)) :
    Runs ρ ν (view (inBasket hd k own s)) := by
  unfold inBasket
  (repeat' split) <;> first | exact answerTill_runs _ _ _ _ _ h | exact hown _ h
@[simp ↓] theorem setBusy_runs (t : Nat) (s : State) (h : Runs ρ ν (view s)) :
    Runs ρ ν (view (setBusy t s)) := by
  unfold setBusy
  first
  | ((try dsimp only) <;> (repeat' split) <;> first | with_reducible exact h | simp (maxDischargeDepth := 40) [*])
  | exact h
@[simp ↓] theorem answerLineVoid_runs (hd : TillHead) (n : Nat) (s : State) (h : Runs ρ ν (view s)) :
    Runs ρ ν (view (answerLineVoid hd n s)) := by
  unfold answerLineVoid
  first
  | ((try dsimp only) <;> (repeat' split) <;> first | with_reducible exact h | simp (maxDischargeDepth := 40) [*])
  | exact h
@[simp ↓] theorem answerSaleCancel_runs (hd : TillHead) (s : State) (h : Runs ρ ν (view s)) :
    Runs ρ ν (view (answerSaleCancel hd s)) := by
  unfold answerSaleCancel
  first
  | ((try dsimp only) <;> (repeat' split) <;> first | with_reducible exact h | simp (maxDischargeDepth := 40) [*])
  | exact h
@[simp ↓] theorem answerTenderCash_runs (hd : TillHead) (given : Nat) (s : State) (h : Runs (.outer d) ν (view s)) :
    Runs (.outer d) ν (view (answerTenderCash hd given s)) := by
  unfold answerTenderCash
  dsimp only
  (repeat' split) <;> first
    | exact answerTill_runs _ _ _ _ _ h
    | exact startAppend_runs _ _ _ _ (addClaim_runs _ _ _ h)
@[simp ↓] theorem answerTenderCard_runs (hd : TillHead) (card : CardRef) (s : State) (h : Runs (.outer d) ν (view s)) :
    Runs (.outer d) ν (view (answerTenderCard hd card s)) := by
  unfold answerTenderCard
  dsimp only
  (repeat' split) <;> first
    | exact answerTill_runs _ _ _ _ _ h
    | exact startAppend_runs _ _ _ _ (addClaim_runs _ _ _ h)
@[simp ↓] theorem tillLost_runs (t : Nat) (s : State) (h : Runs ρ ν (view s)) :
    Runs ρ ν (view (tillLost t s)) := by
  unfold tillLost
  first
  | ((try dsimp only) <;> (repeat' split) <;> first | with_reducible exact h | simp (maxDischargeDepth := 40) [*])
  | exact h
@[simp ↓] theorem tillSilent_runs (till : Nat) (s : State) (h : Runs (.outer d) ν (view s)) :
    Runs (.outer d) ν (view (tillSilent till s)) := by
  unfold tillSilent
  dsimp only
  split
  · exact tillLost_runs _ _ (advanceTo_runs _ _ h)
  · exact h
@[simp ↓] theorem answerAuthRelease_runs (tag till : Nat) (s : State) (h : Runs (.outer d) ν (view s)) :
    Runs (.outer d) ν (view (answerAuthRelease tag till s)) := by
  unfold answerAuthRelease
  first
  | ((try dsimp only) <;> (repeat' split) <;> first | with_reducible exact h | simp (maxDischargeDepth := 40) [*])
  | exact h
@[simp ↓] theorem retryDelayEnd_runs (till : Nat) (s : State) (h : Runs (.outer d) ν (view s)) :
    Runs (.outer d) ν (view (retryDelayEnd till s)) := by
  unfold retryDelayEnd
  (repeat' split) <;> first | with_reducible exact h | skip
  rename_i x _ _
  have h1 := advanceTo_runs x s h
  dsimp only
  split
  · exact queueEntry_runs _ _ h1
  · exact fallback_runs _ _ h1
@[simp ↓] theorem answerJournalRead_runs (tag fromSeq count : Nat) (s : State) (h : Runs ρ ν (view s)) :
    Runs ρ ν (view (answerJournalRead tag fromSeq count s)) := by
  unfold answerJournalRead
  first
  | ((try dsimp only) <;> (repeat' split) <;> first | with_reducible exact h | simp (maxDischargeDepth := 40) [*])
  | exact h
@[simp ↓] theorem setWire_runs (p : Path) (b : Bool) (s : State) (h : Runs (.outer d) ν (view s)) :
    Runs (.outer d) ν (view (setWire p b s)) := by
  unfold setWire
  split
  · exact h.tail (.carriers (b, s.ulc.carrierBackup))
  · exact h.tail (.carriers (s.ulc.carrierPrimary, b))
@[simp ↓] theorem helloAnswer_runs (p : Path) (f : State → State) (s : State) (hf : ∀ t, Runs ρ ν (view t) → Runs ρ ν (view (f t))) (h : Runs ρ ν (view s)) :
    Runs ρ ν (view (helloAnswer p f s)) := by
  unfold helloAnswer
  (repeat' split) <;> first | with_reducible exact h | exact linkError_runs _ h | exact hf _ h
@[simp ↓] theorem noteRefusal_runs (p : Path) (reason : Nat) (s : State) (h : Runs ρ ν (view s)) :
    Runs ρ ν (view (noteRefusal p reason s)) := by
  unfold noteRefusal
  split
  · exact linkError_runs _ h
  · exact putPath_same _ _ _ rfl h
@[simp ↓] theorem takeProbeReply_runs (p : Path) (number : Nat) (s : State) (h : Runs (.outer d) ν (view s)) :
    Runs (.outer d) ν (view (takeProbeReply p number s)) := by
  unfold takeProbeReply
  first
  | ((try dsimp only) <;> (repeat' split) <;> first | with_reducible exact h | simp (maxDischargeDepth := 40) [*])
  | exact h
@[simp ↓] theorem answerNightRerun_runs (tag : Nat) (s : State) (h : Runs ρ ν (view s)) :
    Runs ρ ν (view (answerNightRerun tag s)) := by
  unfold answerNightRerun
  first
  | ((try dsimp only) <;> (repeat' split) <;> first | with_reducible exact h | simp (maxDischargeDepth := 40) [*])
  | exact h
@[simp ↓] theorem markAccepted_runs (s : State) (h : Runs ρ ν (view s)) :
    Runs ρ ν (view (markAccepted s)) := putBatch_runs _ _ h
@[simp ↓] theorem takeAccepted_runs (batch first last : Nat) (s : State) (h : Runs ρ ν (view s)) :
    Runs ρ ν (view (takeAccepted batch first last s)) := by
  unfold takeAccepted
  dsimp only
  (repeat' split) <;> first
    | exact askRemoval_runs _ _ (markAccepted_runs _ h)
    | exact askRemoval_runs _ _ (countLateAck_runs _ h)
@[simp ↓] theorem takeBatchBusy_runs (batch : Nat) (s : State) (h : Runs ρ ν (view s)) :
    Runs ρ ν (view (takeBatchBusy batch s)) := by
  unfold takeBatchBusy
  first
  | ((try dsimp only) <;> (repeat' split) <;> first | with_reducible exact h | simp (maxDischargeDepth := 40) [*])
  | exact h
@[simp ↓] theorem takePieceReply_runs (number : Nat) (last : Bool) (changes : List PieceChange) (s : State) (h : Runs ρ ν (view s)) :
    Runs ρ ν (view (takePieceReply number last changes s)) := by
  unfold takePieceReply
  first
  | ((try dsimp only) <;> (repeat' split) <;> first | with_reducible exact h | simp (maxDischargeDepth := 40) [*])
  | exact h
@[simp ↓] theorem takeNoFile_runs (number : Nat) (s : State) (h : Runs ρ ν (view s)) :
    Runs ρ ν (view (takeNoFile number s)) := by
  unfold takeNoFile
  first
  | ((try dsimp only) <;> (repeat' split) <;> first | with_reducible exact h | simp (maxDischargeDepth := 40) [*])
  | exact h
@[simp ↓] theorem takeFileBusy_runs (number : Nat) (s : State) (h : Runs ρ ν (view s)) :
    Runs ρ ν (view (takeFileBusy number s)) := by
  unfold takeFileBusy
  first
  | ((try dsimp only) <;> (repeat' split) <;> first | with_reducible exact h | simp (maxDischargeDepth := 40) [*])
  | exact h
@[simp ↓] theorem takeNightControl_runs (s : State) (h : Runs ρ ν (view s)) :
    Runs ρ ν (view (takeNightControl s)) := by
  unfold takeNightControl
  first
  | ((try dsimp only) <;> (repeat' split) <;> first | with_reducible exact h | simp (maxDischargeDepth := 40) [*])
  | exact h
@[simp ↓] theorem guestPort_runs (f : State → State) (s : State) (hf : ∀ t, Runs ρ ν (view t) → Runs ρ ν (view (f t))) (h : Runs ρ ν (view s)) :
    Runs ρ ν (view (guestPort f s)) := by
  unfold guestPort
  split
  · exact h
  · exact hf _ h
@[simp ↓] theorem answerGuestEnd_runs (tag : Nat) (target : Option Addr) (s : State) (h : Runs ρ ν (view s)) :
    Runs ρ ν (view (answerGuestEnd tag target s)) := by
  unfold answerGuestEnd
  (repeat' split) <;> first
    | exact reply_runs _ _ _ _ _ h
    | exact reply_runs _ _ _ _ _ (endSession_runs _ _ _ rfl h)
    | exact endAllSessions_runs _ _ rfl (reply_runs _ _ _ _ _ h)
    | exact reply_runs _ _ _ _ _ (endAllSessions_runs _ _ rfl h)
@[simp ↓] theorem answerGuestList_runs (tag start : Nat) (s : State) (h : Runs ρ ν (view s)) :
    Runs ρ ν (view (answerGuestList tag start s)) := by
  unfold answerGuestList
  first
  | ((try dsimp only) <;> (repeat' split) <;> first | with_reducible exact h | simp (maxDischargeDepth := 40) [*])
  | exact h
@[simp ↓] theorem answerTimeSet_runs (tag value : Nat) (s : State) (h : Runs (.outer d) ν (view s)) :
    Runs (.outer d) ν (view (answerTimeSet tag value s)) := by
  unfold answerTimeSet
  first
  | ((try dsimp only) <;> (repeat' split) <;> first | with_reducible exact h | simp (maxDischargeDepth := 40) [*])
  | exact h
@[simp ↓] theorem answerMove_runs (tag : Nat) (k : RequestKind) (from_ : StoreState) (f : State → State) (s : State) (hf : ∀ t, Runs ρ ν (view t) → Runs ρ ν (view (f t))) (h : Runs ρ ν (view s)) :
    Runs ρ ν (view (answerMove tag k from_ f s)) := by
  unfold answerMove
  split
  · exact reply_runs _ _ _ _ _ (hf _ h)
  · exact reply_runs _ _ _ _ _ h
@[simp ↓] theorem setLine_runs (l : SiteLine) (v : Bool) (s : State) (h : Runs (.outer d) ν (view s)) :
    Runs (.outer d) ν (view (setLine l v s)) := h.tail (.lines _)
@[simp ↓] theorem lineChanged_runs (l : SiteLine) (s : State) (h : Runs ρ ν (view s)) :
    Runs ρ ν (view (lineChanged l s)) := by
  unfold lineChanged
  first
  | ((try dsimp only) <;> (repeat' split) <;> first | with_reducible exact h | simp (maxDischargeDepth := 40) [*])
  | exact h
@[simp ↓] theorem answerSettingGet_runs (tag id : Nat) (s : State) (h : Runs ρ ν (view s)) :
    Runs ρ ν (view (answerSettingGet tag id s)) := by
  unfold answerSettingGet
  first
  | ((try dsimp only) <;> (repeat' split) <;> first | with_reducible exact h | simp (maxDischargeDepth := 40) [*])
  | exact h
@[simp ↓] theorem answerLock_runs (tag : Nat) (s : State) (h : Runs (.outer d) ν (view s)) :
    Runs (.outer d) ν (view (answerLock tag s)) := reply_runs _ _ _ _ _ (h.tail .lock)
@[simp ↓] theorem answerBranchSet_runs (tag number : Nat) (s : State) (h : Runs ρ ν (view s)) :
    Runs ρ ν (view (answerBranchSet tag number s)) := by
  unfold answerBranchSet
  (repeat' split) <;> first | exact reply_runs _ _ _ _ _ h | exact startWrite_runs _ _ rfl h
@[simp ↓] theorem answerReset_runs (tag : Nat) (s : State) (h : Runs ρ ν (view s)) :
    Runs ρ ν (view (answerReset tag s)) := by
  unfold answerReset
  first
  | ((try dsimp only) <;> (repeat' split) <;> first | with_reducible exact h | simp (maxDischargeDepth := 40) [*])
  | exact h
@[simp ↓] theorem answerForward_runs (tag dest : Nat) (w : Bool) (payload : List Byte) (s : State) (h : Runs (.outer d) ν (view s)) :
    Runs (.outer d) ν (view (answerForward tag dest w payload s)) := by
  unfold answerForward
  split
  · exact reply_runs _ _ _ _ _ h
  · split
    · rename_i hr
      refine reply_runs _ _ _ _ _ (joinOffice_runs _ _ _ _ _ ?_ h)
      unfold forwardResult at hr
      (repeat' split at hr) <;> first | assumption | cases hr
    · exact reply_runs _ _ _ _ _ h
@[simp ↓] theorem takeUnknown_runs (tag kind : Nat) (s : State) (h : Runs ρ ν (view s)) :
    Runs ρ ν (view (takeUnknown tag kind s)) := by
  unfold takeUnknown
  first
  | ((try dsimp only) <;> (repeat' split) <;> first | with_reducible exact h | simp (maxDischargeDepth := 40) [*])
  | exact h
@[simp ↓] theorem takeNoticeAck_runs (tag number : Nat) (s : State) (h : Runs (.outer d) ν (view s)) :
    Runs (.outer d) ν (view (takeNoticeAck tag number s)) := by
  unfold takeNoticeAck
  (repeat' split) <;> first | with_reducible exact h | exact frameError_runs _ h | skip
  exact h.tail .acknowledge
@[simp ↓] theorem failedCheck_runs (port : Port) (s : State) (h : Runs ρ ν (view s)) :
    Runs ρ ν (view (failedCheck port s)) := by
  unfold failedCheck
  first
  | ((try dsimp only) <;> (repeat' split) <;> first | with_reducible exact h | simp (maxDischargeDepth := 40) [*])
  | exact h
@[simp ↓] theorem takeBadFrame_runs (f : BadFrame) (s : State) (h : Runs ρ ν (view s)) :
    Runs ρ ν (view (takeBadFrame f s)) := by
  cases f
  · exact failedCheck_runs _ _ h
  · exact unknownTillKind_runs _ _ _ h
@[simp ↓] theorem hostTxEnded_runs (s : State) (h : Runs ρ ν (view s)) :
    Runs ρ ν (view (hostTxEnded s)) := by
  unfold hostTxEnded
  first
  | ((try dsimp only) <;> (repeat' split) <;> first | with_reducible exact h | simp (maxDischargeDepth := 40) [*])
  | exact h
@[simp ↓] theorem resendDue_runs (s : State) (h : Runs (.outer d) ν (view s)) :
    Runs (.outer d) ν (view (resendDue s)) := by
  unfold resendDue
  split
  · rename_i x _; exact advanceTo_runs x _ h
  · exact h
@[simp ↓] theorem dropFrame_runs (s : State) (h : Runs ρ ν (view s)) :
    Runs ρ ν (view (dropFrame s)) := frameError_runs _ h
@[simp ↓] theorem byteTimeout_runs (s : State) (h : Runs (.outer d) ν (view s)) :
    Runs (.outer d) ν (view (byteTimeout s)) := by
  unfold byteTimeout
  split
  · exact h
  · exact dropFrame_runs _ (advanceTo_runs _ _ h)
@[simp ↓] theorem setStandalone_runs (s : State) (h : Runs ρ ν (view s)) :
    Runs ρ ν (view (setStandalone s)) := h
@[simp ↓] theorem enterStandalone_runs (s : State) (h : Runs (.outer d) ν (view s)) :
    Runs (.outer d) ν (view (enterStandalone s)) := by
  unfold enterStandalone
  split
  · rename_i x _
    have h1 := advanceTo_runs x s h
    exact State_when_runs _ _ _ h1 h1
  · exact h
@[simp ↓] theorem branchDone_runs (tag number : Nat) (s : State) (hsettings : d .settings = true) (h : Runs (.outer d) ν (view s)) :
    Runs (.outer d) ν (view (branchDone tag number s)) := by
  unfold branchDone
  exact testQueued_runs _ (reply_runs _ _ _ _ _ (h.tail (.branch hsettings number)))

end Sys2Proof.Laws
end

