-- ==== Sys2Proof/Laws/Commands.lean ====
section
/-! SUPPORT. Every command is answered with a next state that a run of moves reaches. -/

namespace Sys2Proof.Laws

open Sys2Proof.Machine Sys2Proof.Safety

variable {d : Area → Bool}

theorem execItemAdd_reaches (h : HostHead) (item price : Nat) (openPrice : Bool) (s : State) :
    Reaches d s (execItemAdd h item price openPrice s) := request_reaches _ _ _ _ (fun _ ht => by simp (maxDischargeDepth := 40) [*])
theorem execItemRemove_reaches (h : HostHead) (item : Nat) (s : State) :
    Reaches d s (execItemRemove h item s) := request_reaches _ _ _ _ (fun _ ht => by simp (maxDischargeDepth := 40) [*])
theorem execItemGet_reaches (h : HostHead) (item : Nat) (s : State) :
    Reaches d s (execItemGet h item s) := request_reaches _ _ _ _ (fun _ ht => by simp (maxDischargeDepth := 40) [*])
theorem execPriceSet_reaches (h : HostHead) (item price : Nat) (urgent : Bool) (s : State) :
    Reaches d s (execPriceSet h item price urgent s) := request_reaches _ _ _ _ (fun _ ht => by simp (maxDischargeDepth := 40) [*])
theorem execChangeStatus_reaches (h : HostHead) (s : State) :
    Reaches d s (execChangeStatus h s) := statusRequest_reaches _ _ _ _
theorem execItemAddWriteDone_reaches (item : Nat) (s : State) (hprices : d .prices = true) (hwrites : d .writes = true) :
    Reaches d s (execItemAddWriteDone item s) := by
  unfold execItemAddWriteDone
  refine event_reaches _ _ (completeWrite_runs _ _ _ hwrites (fun w _ hw ht => ?_) .refl)
  cases w <;> first | (cases hw; done) | skip
  exact reply_runs _ _ _ _ _ (putItem_runs _ _ hprices ht)
theorem execItemRemoveWriteDone_reaches (item : Nat) (s : State) (hprices : d .prices = true) (hwrites : d .writes = true) :
    Reaches d s (execItemRemoveWriteDone item s) := by
  unfold execItemRemoveWriteDone
  refine event_reaches _ _ ?_
  have h : Runs (.outer d) (view s) (view s) := .refl
  split
  · refine completeWrite_runs _ _ _ hwrites (fun w _ hw ht => ?_) h
    cases w <;> first | (cases hw; done) | exact itemRemoved_runs _ _ _ hprices ht
  · split
    · exact queueDone_runs _ hprices h
    · exact h
theorem execPendingWriteDone_reaches (item : Nat) (s : State) (hprices : d .prices = true) (hwrites : d .writes = true) :
    Reaches d s (execPendingWriteDone item s) := by
  unfold execPendingWriteDone
  refine event_reaches _ _ (completeWrite_runs _ _ _ hwrites (fun w _ hw ht => ?_) .refl)
  cases w <;> first | (cases hw; done) | skip
  exact pendingDone_runs _ _ hprices ht
theorem execQueueWriteDone_reaches (s : State) (hprices : d .prices = true) :
    Reaches d s (execQueueWriteDone s) := by
  unfold execQueueWriteDone
  refine event_reaches _ _ ?_
  have h : Runs (.outer d) (view s) (view s) := .refl
  try dsimp only
  (repeat' split) <;> first | with_reducible exact h | simp (maxDischargeDepth := 40) [*]
theorem execEffectWriteDone_reaches (item : Nat) (s : State) (hprices : d .prices = true) (hwrites : d .writes = true) :
    Reaches d s (execEffectWriteDone item s) := by
  unfold execEffectWriteDone
  refine event_reaches _ _ (completeWrite_runs _ _ _ hwrites (fun w _ hw ht => ?_) .refl)
  cases w <;> first | (cases hw; done) | skip
  exact effectDone_runs _ _ hprices ht
theorem execPriceChange_reaches (p : Path) (item price : Nat) (urgent : Bool) (s : State) :
    Reaches d s (execPriceChange p item price urgent s) := event_reaches _ _ (routeMessage_runs _ _ _ _ (fun _ ht => queueWork_runs _ _ ht) .refl)
theorem execLabelBind_reaches (h : HostHead) (label item : Nat) (s : State) :
    Reaches d s (execLabelBind h label item s) := request_reaches _ _ _ _ (fun _ ht => by simp (maxDischargeDepth := 40) [*])
theorem execLabelUnbind_reaches (h : HostHead) (label : Nat) (s : State) :
    Reaches d s (execLabelUnbind h label s) := request_reaches _ _ _ _ (fun _ ht => by simp (maxDischargeDepth := 40) [*])
theorem execLabelRetry_reaches (h : HostHead) (label : Nat) (s : State) :
    Reaches d s (execLabelRetry h label s) := request_reaches _ _ _ _ (fun _ ht => by simp (maxDischargeDepth := 40) [*])
theorem execLabelGet_reaches (h : HostHead) (label : Nat) (s : State) :
    Reaches d s (execLabelGet h label s) := request_reaches _ _ _ _ (fun _ ht => by simp (maxDischargeDepth := 40) [*])
theorem execBurstNow_reaches (h : HostHead) (s : State) :
    Reaches d s (execBurstNow h s) := request_reaches _ _ _ _ (fun _ ht => by simp (maxDischargeDepth := 40) [*])
theorem execHealthClear_reaches (h : HostHead) (target : Option Nat) (s : State) (hlabels : d .labels = true) :
    Reaches d s (execHealthClear h target s) := request_reaches _ _ _ _ (fun _ ht => by simp (maxDischargeDepth := 40) [*])
theorem execRadioStatus_reaches (h : HostHead) (s : State) :
    Reaches d s (execRadioStatus h s) := statusRequest_reaches _ _ _ _
theorem execLabelAcknowledgement_reaches (label number price battery : Nat) (margin : Int) (s : State) :
    Reaches d s (execLabelAcknowledgement label number price battery margin s) := by
  unfold execLabelAcknowledgement
  refine event_reaches _ _ ?_
  have h : Runs (.outer d) (view s) (view s) := .refl
  try dsimp only
  (repeat' split) <;> first | with_reducible exact h | simp (maxDischargeDepth := 40) [*]
theorem execAckWindowClose_reaches (s : State) :
    Reaches d s (execAckWindowClose s) := by
  unfold execAckWindowClose
  refine event_reaches _ _ ?_
  have h : Runs (.outer d) (view s) (view s) := .refl
  try dsimp only
  (repeat' split) <;> first | with_reducible exact h | simp (maxDischargeDepth := 40) [*]
theorem execBeacon_reaches (s : State) :
    Reaches d s (execBeacon s) := by
  unfold execBeacon
  refine event_reaches _ _ ?_
  have h : Runs (.outer d) (view s) (view s) := .refl
  try dsimp only
  (repeat' split) <;> first | with_reducible exact h | simp (maxDischargeDepth := 40) [*]
theorem execFloorWriteDone_reaches (label : Nat) (s : State) (hlabels : d .labels = true) (hwrites : d .writes = true) :
    Reaches d s (execFloorWriteDone label s) := by
  unfold execFloorWriteDone
  refine event_reaches _ _ (completeWrite_runs _ _ _ hwrites (fun w _ hw ht => ?_) .refl)
  cases w <;> first | (cases hw; done) | skip
  exact floorDone_runs _ _ _ hlabels ht
theorem execPriceFrameEnd_reaches (s : State) :
    Reaches d s (execPriceFrameEnd s) := by
  unfold execPriceFrameEnd
  refine event_reaches _ _ ?_
  have h : Runs (.outer d) (view s) (view s) := .refl
  try dsimp only
  (repeat' split) <;> first | with_reducible exact h | simp (maxDischargeDepth := 40) [*]
theorem execSettleEnd_reaches (s : State) :
    Reaches d s (execSettleEnd s) := by
  unfold execSettleEnd
  refine event_reaches _ _ ?_
  have h : Runs (.outer d) (view s) (view s) := .refl
  try dsimp only
  (repeat' split) <;> first | with_reducible exact h | simp (maxDischargeDepth := 40) [*]
theorem execLabelBindWriteDone_reaches (label : Nat) (s : State) (hlabels : d .labels = true) (hprices : d .prices = true) (hwrites : d .writes = true) :
    Reaches d s (execLabelBindWriteDone label s) := by
  unfold execLabelBindWriteDone
  refine event_reaches _ _ (completeWrite_runs _ _ _ hwrites (fun w _ hw ht => ?_) .refl)
  cases w <;> first | (cases hw; done) | skip
  exact bindDone_runs _ _ _ _ hlabels hprices ht
theorem execLabelUnbindWriteDone_reaches (label : Nat) (s : State) (hlabels : d .labels = true) (hprices : d .prices = true) (hwrites : d .writes = true) :
    Reaches d s (execLabelUnbindWriteDone label s) := by
  unfold execLabelUnbindWriteDone
  refine event_reaches _ _ (completeWrite_runs _ _ _ hwrites (fun w _ hw ht => ?_) .refl)
  cases w <;> first | (cases hw; done) | skip
  exact unbindDone_runs _ _ _ _ hlabels hprices ht
theorem execLabelRetryWriteDone_reaches (label : Nat) (s : State) (hlabels : d .labels = true) (hwrites : d .writes = true) :
    Reaches d s (execLabelRetryWriteDone label s) := by
  unfold execLabelRetryWriteDone
  refine event_reaches _ _ (completeWrite_runs _ _ _ hwrites (fun w _ hw ht => ?_) .refl)
  cases w <;> first | (cases hw; done) | skip
  exact retryDone_runs _ _ _ hlabels ht
theorem execAckWriteDone_reaches (label : Nat) (s : State) (hlabels : d .labels = true) (hwrites : d .writes = true) :
    Reaches d s (execAckWriteDone label s) := by
  unfold execAckWriteDone
  refine event_reaches _ _ (completeWrite_runs _ _ _ hwrites (fun w _ hw ht => ?_) .refl)
  cases w <;> first | (cases hw; done) | skip
  exact ackDone_runs _ _ _ hlabels ht
theorem execUnreachableWriteDone_reaches (label : Nat) (s : State) (hlabels : d .labels = true) (hwrites : d .writes = true) :
    Reaches d s (execUnreachableWriteDone label s) := by
  unfold execUnreachableWriteDone
  refine event_reaches _ _ (completeWrite_runs _ _ _ hwrites (fun w _ hw ht => ?_) .refl)
  cases w <;> first | (cases hw; done) | skip
  exact unreachableDone_runs _ _ hlabels ht
theorem execHello_reaches (h : TillHead) (s : State) :
    Reaches d s (execHello h s) := by
  unfold execHello
  refine event_reaches _ _ ?_
  have h : Runs (.outer d) (view s) (view s) := .refl
  try dsimp only
  (repeat' split) <;> first | with_reducible exact h | simp (maxDischargeDepth := 40) [*]
theorem execPoll_reaches (h : TillHead) (s : State) :
    Reaches d s (execPoll h s) := by
  unfold execPoll
  exact event_reaches _ _ (tillFrame_runs _ _ _ _ (fun _ ht => ifFits_runs _ _ _ _ (fun _ hu => answerPoll_runs _ _ hu) ht) .refl)
theorem execBye_reaches (h : TillHead) (s : State) :
    Reaches d s (execBye h s) := by
  unfold execBye
  exact event_reaches _ _ (tillFrame_runs _ _ _ _ (fun _ ht => ifFits_runs _ _ _ _ (fun _ hu => answerBye_runs _ _ hu) ht) .refl)
theorem execSaleOpen_reaches (h : TillHead) (s : State) :
    Reaches d s (execSaleOpen h s) := by
  unfold execSaleOpen
  exact event_reaches _ _ (tillFrame_runs _ _ _ _ (fun _ ht => ifFits_runs _ _ _ _ (fun _ hu => answerSaleOpen_runs _ _ hu) ht) .refl)
theorem execLineAdd_reaches (h : TillHead) (item : Nat) (qty : Int) (keyed : Option Nat) (s : State) :
    Reaches d s (execLineAdd h item qty keyed s) := by
  unfold execLineAdd
  exact event_reaches _ _ (tillFrame_runs _ _ _ _ (fun _ ht => inBasket_runs _ _ _ _ (fun _ hu => queueWork_runs _ _ (setBusy_runs _ _ hu)) ht) .refl)
theorem execLineVoid_reaches (h : TillHead) (line : Nat) (s : State) :
    Reaches d s (execLineVoid h line s) := by
  unfold execLineVoid
  exact event_reaches _ _ (tillFrame_runs _ _ _ _ (fun _ ht => inBasket_runs _ _ _ _ (fun _ hu => answerLineVoid_runs _ _ _ hu) ht) .refl)
theorem execSaleCancel_reaches (h : TillHead) (s : State) :
    Reaches d s (execSaleCancel h s) := by
  unfold execSaleCancel
  exact event_reaches _ _ (tillFrame_runs _ _ _ _ (fun _ ht => ifFits_runs _ _ _ _ (fun _ hu => answerSaleCancel_runs _ _ hu) ht) .refl)
theorem execTenderCash_reaches (h : TillHead) (given : Nat) (s : State) :
    Reaches d s (execTenderCash h given s) := by
  unfold execTenderCash
  exact event_reaches _ _ (tillFrame_runs _ _ _ _ (fun _ ht => inBasket_runs _ _ _ _ (fun _ hu => answerTenderCash_runs _ _ _ hu) ht) .refl)
theorem execTenderCard_reaches (h : TillHead) (card : CardRef) (s : State) :
    Reaches d s (execTenderCard h card s) := by
  unfold execTenderCard
  exact event_reaches _ _ (tillFrame_runs _ _ _ _ (fun _ ht => inBasket_runs _ _ _ _ (fun _ hu => answerTenderCard_runs _ _ _ hu) ht) .refl)
theorem execTillSilenceExpiry_reaches (till : Nat) (s : State) :
    Reaches d s (execTillSilenceExpiry till s) := event_reaches _ _ (tillSilent_runs _ _ .refl)
theorem execClosingGraceEnd_reaches (s : State) :
    Reaches d s (execClosingGraceEnd s) := by
  unfold execClosingGraceEnd
  refine event_reaches _ _ ?_
  have h : Runs (.outer d) (view s) (view s) := .refl
  try dsimp only
  (repeat' split) <;> first | with_reducible exact h | simp (maxDischargeDepth := 40) [*]
theorem execTillStatus_reaches (h : HostHead) (s : State) :
    Reaches d s (execTillStatus h s) := statusRequest_reaches _ _ _ _
theorem execAuthRelease_reaches (h : HostHead) (till : Nat) (s : State) :
    Reaches d s (execAuthRelease h till s) := request_reaches _ _ _ _ (fun _ ht => by simp (maxDischargeDepth := 40) [*])
theorem execAuthStatus_reaches (h : HostHead) (s : State) :
    Reaches d s (execAuthStatus h s) := statusRequest_reaches _ _ _ _
theorem execAuthWaitExpiry_reaches (till : Nat) (s : State) :
    Reaches d s (execAuthWaitExpiry till s) := event_reaches _ _ (bringOn_runs _ _ _ .refl)
theorem execAuthReplyExpiry_reaches (till : Nat) (s : State) :
    Reaches d s (execAuthReplyExpiry till s) := event_reaches _ _ (bringOn_runs _ _ _ .refl)
theorem execAuthRetryDelayEnd_reaches (till : Nat) (s : State) :
    Reaches d s (execAuthRetryDelayEnd till s) := event_reaches _ _ (retryDelayEnd_runs _ _ .refl)
theorem execAuthApproved_reaches (p : Path) (trace : Nat) (code : List Byte) (s : State) :
    Reaches d s (execAuthApproved p trace code s) := event_reaches _ _ (routeReply_runs _ _ _ _ (fun _ ht => decisiveReply_runs _ _ _ _ ht) .refl)
theorem execAuthDeclined_reaches (p : Path) (trace reason : Nat) (s : State) :
    Reaches d s (execAuthDeclined p trace reason s) := event_reaches _ _ (routeReply_runs _ _ _ _ (fun _ ht => decisiveReply_runs _ _ _ _ ht) .refl)
theorem execAuthBusy_reaches (p : Path) (trace : Nat) (s : State) :
    Reaches d s (execAuthBusy p trace s) := event_reaches _ _ (routeReply_runs _ _ _ _ (fun _ ht => busyReply_runs _ _ ht) .refl)
theorem execJournalRead_reaches (h : HostHead) (fromSeq count : Nat) (s : State) :
    Reaches d s (execJournalRead h fromSeq count s) := request_reaches _ _ _ _ (fun _ ht => by simp (maxDischargeDepth := 40) [*])
theorem execJournalInfo_reaches (h : HostHead) (s : State) :
    Reaches d s (execJournalInfo h s) := statusRequest_reaches _ _ _ _
theorem execJournalAppendDone_reaches (s : State) (hjournal : d .journal = true) :
    Reaches d s (execJournalAppendDone s) := by
  unfold execJournalAppendDone
  refine event_reaches _ _ ?_
  have h : Runs (.outer d) (view s) (view s) := .refl
  try dsimp only
  (repeat' split) <;> first | with_reducible exact h | simp (maxDischargeDepth := 40) [*]
theorem execJournalRemovalDone_reaches (s : State) (hjournal : d .journal = true) :
    Reaches d s (execJournalRemovalDone s) := by
  unfold execJournalRemovalDone
  refine event_reaches _ _ ?_
  have h : Runs (.outer d) (view s) (view s) := .refl
  try dsimp only
  (repeat' split) <;> first | with_reducible exact h | simp (maxDischargeDepth := 40) [*]
theorem execUplinkStatus_reaches (h : HostHead) (s : State) :
    Reaches d s (execUplinkStatus h s) := statusRequest_reaches _ _ _ _
theorem execCarrierPresent_reaches (p : Path) (s : State) :
    Reaches d s (execCarrierPresent p s) := by
  unfold execCarrierPresent
  refine ⟨_, rfl, ?_⟩
  have h1 := setWire_runs p true s (ν := view s) (d := d) .refl
  split
  · exact finish_runs _ (carrierUp_runs _ _ h1)
  · exact h1
theorem execCarrierAbsent_reaches (p : Path) (s : State) :
    Reaches d s (execCarrierAbsent p s) := by
  unfold execCarrierAbsent
  refine ⟨_, rfl, ?_⟩
  have h1 := setWire_runs p false s (ν := view s) (d := d) .refl
  split
  · exact finish_runs _ (carrierDown_runs _ _ h1)
  · exact h1
theorem execHelloAccept_reaches (p : Path) (g : Grants) (s : State) :
    Reaches d s (execHelloAccept p g s) := event_reaches _ _ (helloAnswer_runs _ _ _ (fun _ ht => openSession_runs _ _ _ ht) .refl)
theorem execHelloRefused_reaches (p : Path) (reason : Nat) (s : State) :
    Reaches d s (execHelloRefused p reason s) := event_reaches _ _ (helloAnswer_runs _ _ _ (fun _ ht => noteRefusal_runs _ _ _ ht) .refl)
theorem execHelloExpiry_reaches (p : Path) (s : State) :
    Reaches d s (execHelloExpiry p s) := event_reaches _ _ (bringOn_runs _ _ _ .refl)
theorem execProbeDue_reaches (p : Path) (s : State) :
    Reaches d s (execProbeDue p s) := by
  unfold execProbeDue
  refine event_reaches _ _ ?_
  have h : Runs (.outer d) (view s) (view s) := .refl
  try dsimp only
  (repeat' split) <;> first | with_reducible exact h | simp (maxDischargeDepth := 40) [*]
theorem execProbeReply_reaches (p : Path) (number : Nat) (s : State) :
    Reaches d s (execProbeReply p number s) := event_reaches _ _ (inbound_runs _ _ _ (fun _ ht => takeProbeReply_runs _ _ _ ht) .refl)
theorem execProbeExpiry_reaches (p : Path) (number : Nat) (s : State) :
    Reaches d s (execProbeExpiry p number s) := event_reaches _ _ (bringOn_runs _ _ _ .refl)
theorem execCredit_reaches (p : Path) (target count : Nat) (s : State) :
    Reaches d s (execCredit p target count s) := event_reaches _ _ (inbound_runs _ _ _ (fun _ ht => by
    split
    · exact routeError_runs _ ht
    · exact takeCredit_runs _ _ _ _ ht) .refl)
theorem execUplinkTxEnd_reaches (p : Path) (s : State) :
    Reaches d s (execUplinkTxEnd p s) := event_reaches _ _ (putPath_same _ _ _ rfl .refl)
theorem execTimeoutTick_reaches (c : TimeoutClass) (s : State) :
    Reaches d s (execTimeoutTick c s) := event_reaches _ _ (tickClass_runs _ _ .refl)
theorem execOfficeReply_reaches (p : Path) (forward : Nat) (payload : List Byte) (s : State) :
    Reaches d s (execOfficeReply p forward payload s) := event_reaches _ _ (routeReply_runs _ _ _ _ (fun _ ht => officeReply_runs _ _ _ _ ht) .refl)
theorem execOfficeReplyExpiry_reaches (forward : Nat) (s : State) :
    Reaches d s (execOfficeReplyExpiry forward s) := event_reaches _ _ (bringOn_runs _ _ _ .refl)
theorem execUnroutedUplinkFrame_reaches (p : Path) (_kind : Nat) (s : State) :
    Reaches d s (execUnroutedUplinkFrame p _kind s) := event_reaches _ _ (inbound_runs _ _ _ (fun _ ht => by
    split
    · exact routeError_runs _ ht
    · exact ht) .refl)
theorem execNightRerun_reaches (h : HostHead) (s : State) :
    Reaches d s (execNightRerun h s) := request_reaches _ _ _ _ (fun _ ht => by simp (maxDischargeDepth := 40) [*])
theorem execTransferStatus_reaches (h : HostHead) (s : State) :
    Reaches d s (execTransferStatus h s) := statusRequest_reaches _ _ _ _
theorem execBatchAckAccepted_reaches (p : Path) (batch first last : Nat) (s : State) :
    Reaches d s (execBatchAckAccepted p batch first last s) := event_reaches _ _ (routeReply_runs _ _ _ _ (fun _ ht => takeAccepted_runs _ _ _ _ ht) .refl)
theorem execBatchAckBusy_reaches (p : Path) (batch : Nat) (s : State) :
    Reaches d s (execBatchAckBusy p batch s) := event_reaches _ _ (routeReply_runs _ _ _ _ (fun _ ht => takeBatchBusy_runs _ _ ht) .refl)
theorem execBatchExpiry_reaches (s : State) :
    Reaches d s (execBatchExpiry s) := event_reaches _ _ (bringOn_runs _ _ _ .refl)
theorem execBatchRetryDelayEnd_reaches (s : State) :
    Reaches d s (execBatchRetryDelayEnd s) := by
  unfold execBatchRetryDelayEnd
  refine event_reaches _ _ ?_
  have h : Runs (.outer d) (view s) (view s) := .refl
  try dsimp only
  (repeat' split) <;> first | with_reducible exact h | simp (maxDischargeDepth := 40) [*]
theorem execTricklePauseEnd_reaches (s : State) :
    Reaches d s (execTricklePauseEnd s) := by
  unfold execTricklePauseEnd
  refine event_reaches _ _ ?_
  have h : Runs (.outer d) (view s) (view s) := .refl
  try dsimp only
  (repeat' split) <;> first | with_reducible exact h | simp (maxDischargeDepth := 40) [*]
theorem execPiece_reaches (p : Path) (number : Nat) (last : Bool) (changes : List PieceChange) (s : State) :
    Reaches d s (execPiece p number last changes s) := event_reaches _ _ (inbound_runs _ _ _ (fun _ ht => by
    split
    · exact linkError_runs _ ht
    · exact handOver_runs _ _ (fun _ hu => takePieceReply_runs _ _ _ _ hu) ht) .refl)
theorem execNoFile_reaches (p : Path) (number : Nat) (s : State) :
    Reaches d s (execNoFile p number s) := event_reaches _ _ (routeReply_runs _ _ _ _ (fun _ ht => takeNoFile_runs _ _ ht) .refl)
theorem execFileBusy_reaches (p : Path) (number : Nat) (s : State) :
    Reaches d s (execFileBusy p number s) := event_reaches _ _ (routeReply_runs _ _ _ _ (fun _ ht => takeFileBusy_runs _ _ ht) .refl)
theorem execFileRequestExpiry_reaches (s : State) :
    Reaches d s (execFileRequestExpiry s) := event_reaches _ _ (bringOn_runs _ _ _ .refl)
theorem execFileRetryDelayEnd_reaches (s : State) :
    Reaches d s (execFileRetryDelayEnd s) := by
  unfold execFileRetryDelayEnd
  refine event_reaches _ _ ?_
  have h : Runs (.outer d) (view s) (view s) := .refl
  try dsimp only
  (repeat' split) <;> first | with_reducible exact h | simp (maxDischargeDepth := 40) [*]
theorem execNightControl_reaches (p : Path) (command : Nat) (s : State) :
    Reaches d s (execNightControl p command s) := event_reaches _ _ (routeMessage_runs _ _ _ _ (fun _ ht => takeNightControl_runs _ ht) .refl)
theorem execGuestEnd_reaches (h : HostHead) (target : Option Addr) (s : State) :
    Reaches d s (execGuestEnd h target s) := request_reaches _ _ _ _ (fun _ ht => by simp (maxDischargeDepth := 40) [*])
theorem execGuestList_reaches (h : HostHead) (start : Nat) (s : State) :
    Reaches d s (execGuestList h start s) := request_reaches _ _ _ _ (fun _ ht => by simp (maxDischargeDepth := 40) [*])
theorem execJoin_reaches (a : Addr) (s : State) :
    Reaches d s (execJoin a s) := event_reaches _ _ (guestPort_runs _ _ (fun _ ht => joinAnswer_runs _ _ ht) .refl)
theorem execLeave_reaches (a : Addr) (s : State) :
    Reaches d s (execLeave a s) := event_reaches _ _ (guestPort_runs _ _ (fun _ ht => by
    split
    · exact endSession_runs _ _ _ rfl ht
    · exact ht) .refl)
theorem execGuestData_reaches (a : Addr) (dest : Nat) (payload : List Byte) (s : State) :
    Reaches d s (execGuestData a dest payload s) := event_reaches _ _ (guestPort_runs _ _ (fun _ ht => guestFrameOut_runs _ _ _ _ ht) .refl)
theorem execGuestTimeExpiry_reaches (entry : Nat) (s : State) :
    Reaches d s (execGuestTimeExpiry entry s) := by
  unfold execGuestTimeExpiry
  refine event_reaches _ _ ?_
  split
  · exact endSession_outer _ _ _ (advanceTo_runs _ _ .refl)
  · exact .refl
theorem execGuestReply_reaches (p : Path) (a : Addr) (payload : List Byte) (s : State) :
    Reaches d s (execGuestReply p a payload s) := event_reaches _ _ (routeReply_runs _ _ _ _ (fun _ ht => guestFrameIn_runs _ _ _ ht) .refl)
theorem execTimeSet_reaches (h : HostHead) (value : Nat) (s : State) :
    Reaches d s (execTimeSet h value s) := request_reaches _ _ _ _ (fun _ ht => by simp (maxDischargeDepth := 40) [*])
theorem execHeadOfficeTimeSet_reaches (p : Path) (value : Nat) (s : State) :
    Reaches d s (execHeadOfficeTimeSet p value s) := event_reaches _ _ (routeMessage_runs _ _ _ _ (fun _ ht => timeSet_runs _ _ _ ht) .refl)
theorem execOpenPrepare_reaches (h : HostHead) (s : State) :
    Reaches d s (execOpenPrepare h s) := request_reaches _ _ _ _ (fun _ ht => answerMove_runs _ _ _ _ _ (fun _ hu => enterOpening_runs _ _ hu) ht)
theorem execOpenStore_reaches (h : HostHead) (s : State) :
    Reaches d s (execOpenStore h s) := request_reaches _ _ _ _ (fun _ ht => answerMove_runs _ _ _ _ _ (fun _ hu => enterOpen_runs _ _ hu) ht)
theorem execCloseStore_reaches (h : HostHead) (s : State) :
    Reaches d s (execCloseStore h s) := request_reaches _ _ _ _ (fun _ ht => answerMove_runs _ _ _ _ _ (fun _ hu => enterClosing_runs _ _ hu) ht)
theorem execStoreStatus_reaches (h : HostHead) (s : State) :
    Reaches d s (execStoreStatus h s) := statusRequest_reaches _ _ _ _
theorem execOpenLeadEvent_reaches (s : State) :
    Reaches d s (execOpenLeadEvent s) := event_reaches _ _ (takeScheduleEvent_runs _ _ .refl)
theorem execOpenEvent_reaches (s : State) :
    Reaches d s (execOpenEvent s) := event_reaches _ _ (takeScheduleEvent_runs _ _ .refl)
theorem execCloseEvent_reaches (s : State) :
    Reaches d s (execCloseEvent s) := event_reaches _ _ (takeScheduleEvent_runs _ _ .refl)
theorem execQuietDelayExpiry_reaches (s : State) :
    Reaches d s (execQuietDelayExpiry s) := by
  unfold execQuietDelayExpiry
  refine event_reaches _ _ ?_
  have h : Runs (.outer d) (view s) (view s) := .refl
  try dsimp only
  (repeat' split) <;> first | with_reducible exact h | simp (maxDischargeDepth := 40) [*]
theorem execSiteLineChange_reaches (l : SiteLine) (v : Bool) (s : State) :
    Reaches d s (execSiteLineChange l v s) := by
  unfold execSiteLineChange
  split
  · exact ⟨_, rfl, .refl⟩
  · refine ⟨_, rfl, ?_⟩
    have h1 := setLine_runs l v s (ν := view s) (d := d) .refl
    split
    · exact finish_runs _ (lineChanged_runs _ _ h1)
    · exact h1
theorem execSettingSet_reaches (h : HostHead) (id : Nat) (value : SettingValue) (s : State) :
    Reaches d s (execSettingSet h id value s) := request_reaches _ _ _ _ (fun _ ht => by simp (maxDischargeDepth := 40) [*])
theorem execSettingGet_reaches (h : HostHead) (id : Nat) (s : State) :
    Reaches d s (execSettingGet h id s) := request_reaches _ _ _ _ (fun _ ht => by simp (maxDischargeDepth := 40) [*])
theorem execLock_reaches (h : HostHead) (s : State) :
    Reaches d s (execLock h s) := request_reaches _ _ _ _ (fun _ ht => by simp (maxDischargeDepth := 40) [*])
theorem execIdentify_reaches (h : HostHead) (s : State) :
    Reaches d s (execIdentify h s) := statusRequest_reaches _ _ _ _
theorem execBranchSet_reaches (h : HostHead) (number : Nat) (s : State) :
    Reaches d s (execBranchSet h number s) := request_reaches _ _ _ _ (fun _ ht => by simp (maxDischargeDepth := 40) [*])
theorem execStatus_reaches (h : HostHead) (s : State) :
    Reaches d s (execStatus h s) := statusRequest_reaches _ _ _ _
theorem execReset_reaches (h : HostHead) (s : State) :
    Reaches d s (execReset h s) := request_reaches _ _ _ _ (fun _ ht => by simp (maxDischargeDepth := 40) [*])
theorem execForward_reaches (h : HostHead) (dest : Nat) (w : Bool) (payload : List Byte) (s : State) :
    Reaches d s (execForward h dest w payload s) := request_reaches _ _ _ _ (fun _ ht => by simp (maxDischargeDepth := 40) [*])
theorem execUnknownRequest_reaches (tag kind : Nat) (s : State) :
    Reaches d s (execUnknownRequest tag kind s) := by
  unfold execUnknownRequest
  refine event_reaches _ _ ?_
  have h : Runs (.outer d) (view s) (view s) := .refl
  try dsimp only
  (repeat' split) <;> first | with_reducible exact h | simp (maxDischargeDepth := 40) [*]
theorem execNoticeAck_reaches (tag number : Nat) (s : State) :
    Reaches d s (execNoticeAck tag number s) := event_reaches _ _ (takeNoticeAck_runs _ _ _ .refl)
theorem execHostByteTimeout_reaches (s : State) :
    Reaches d s (execHostByteTimeout s) := event_reaches _ _ (byteTimeout_runs _ .refl)
theorem execBadFrame_reaches (f : BadFrame) (s : State) :
    Reaches d s (execBadFrame f s) := event_reaches _ _ (takeBadFrame_runs _ _ .refl)
theorem execHostTxEnd_reaches (s : State) :
    Reaches d s (execHostTxEnd s) := event_reaches _ _ (hostTxEnded_runs _ .refl)
theorem execNoticeResendExpiry_reaches (s : State) :
    Reaches d s (execNoticeResendExpiry s) := event_reaches _ _ (resendDue_runs _ .refl)
theorem execSilenceExpiry_reaches (s : State) :
    Reaches d s (execSilenceExpiry s) := event_reaches _ _ (enterStandalone_runs _ .refl)
theorem execSettings_reaches (p : Path) (id : Nat) (value : SettingValue) (s : State) :
    Reaches d s (execSettings p id value s) := event_reaches _ _ (routeMessage_runs _ _ _ _ (fun _ ht => queueWork_runs _ _ ht) .refl)
theorem execSettingWriteDone_reaches (id : Nat) (s : State) (hsettings : d .settings = true) (hwrites : d .writes = true) :
    Reaches d s (execSettingWriteDone id s) := by
  unfold execSettingWriteDone
  refine event_reaches _ _ ?_
  unfold completeWrite
  split
  · rename_i w rest hw
    obtain ⟨hp, a, b, h1, h2⟩ := takeWrite_split _ _ _ _ hw
    cases w <;> first | (cases hp; done) | skip
    rename_i i x src
    subst h2
    refine settingDone_runs _ _ _ _ (fun t ht => ?_) (fun _ => ?_)
    · exact Runs.refl.tail (.settingDone hsettings hwrites i x src t a b h1 ht)
    · refine Runs.refl.tail (.dropWrites hwrites (a ++ b) ?_)
      show (a ++ b).Sublist s.nv
      rw [h1]
      exact List.Sublist.append_left (List.sublist_cons_self ..) _
  · exact .refl
theorem execBranchSetWriteDone_reaches (s : State) (hsettings : d .settings = true) (hwrites : d .writes = true) :
    Reaches d s (execBranchSetWriteDone s) := by
  unfold execBranchSetWriteDone
  refine event_reaches _ _ (completeWrite_runs _ _ _ hwrites (fun w _ hw ht => ?_) .refl)
  cases w <;> first | (cases hw; done) | skip
  exact branchDone_runs _ _ _ hsettings ht
theorem execHoldAssert_reaches (s : State) (hresets : d .resets = true) (hwrites : d .writes = true) :
    Reaches d s (execHoldAssert s) := ⟨_, rfl, holdAsserted_runs _ hresets hwrites .refl⟩
theorem execHoldExit_reaches (s : State) (hresets : d .resets = true) :
    Reaches d s (execHoldExit s) := ⟨_, rfl, holdReleased_runs _ hresets .refl⟩
theorem execResetLineAssert_reaches (s : State) (hresets : d .resets = true) (hwrites : d .writes = true) :
    Reaches d s (execResetLineAssert s) := ⟨_, rfl, resetAsserted_runs _ hresets hwrites .refl⟩
theorem execResetLineRelease_reaches (s : State) (hresets : d .resets = true) :
    Reaches d s (execResetLineRelease s) := ⟨_, rfl, resetReleased_runs _ hresets .refl⟩
theorem execPowerOn_reaches (s : State) (hresets : d .resets = true) (hwrites : d .writes = true) :
    Reaches d s (execPowerOn s) := ⟨_, rfl, powerApplied_runs _ hresets hwrites .refl⟩
theorem execHostReset_reaches (s : State) (hresets : d .resets = true) :
    Reaches d s (execHostReset s) := by
  unfold execHostReset
  refine ⟨_, rfl, ?_⟩
  split
  · exact startUp_runs _ _ hresets .refl
  · exact .refl
theorem execPowerLoss_reaches (s : State) (hresets : d .resets = true) (hwrites : d .writes = true) :
    Reaches d s (execPowerLoss s) := ⟨_, rfl, powerLost_runs _ hresets hwrites .refl⟩

/-- Every command is answered with a next state, which a run of moves within the command's areas reaches. -/
theorem exec_reaches (c : Instr) (s : State) : Reaches (areas c) s (exec c s) := by
  cases c
  · exact execItemAdd_reaches _ _ _ _ _
  · exact execItemRemove_reaches _ _ _
  · exact execItemGet_reaches _ _ _
  · exact execPriceSet_reaches _ _ _ _ _
  · exact execChangeStatus_reaches _ _
  · exact execLabelBind_reaches _ _ _ _
  · exact execLabelUnbind_reaches _ _ _
  · exact execLabelRetry_reaches _ _ _
  · exact execLabelGet_reaches _ _ _
  · exact execBurstNow_reaches _ _
  · exact execHealthClear_reaches _ _ _ rfl
  · exact execRadioStatus_reaches _ _
  · exact execTillStatus_reaches _ _
  · exact execAuthRelease_reaches _ _ _
  · exact execAuthStatus_reaches _ _
  · exact execJournalRead_reaches _ _ _ _
  · exact execJournalInfo_reaches _ _
  · exact execUplinkStatus_reaches _ _
  · exact execNightRerun_reaches _ _
  · exact execTransferStatus_reaches _ _
  · exact execGuestEnd_reaches _ _ _
  · exact execGuestList_reaches _ _ _
  · exact execTimeSet_reaches _ _ _
  · exact execOpenPrepare_reaches _ _
  · exact execOpenStore_reaches _ _
  · exact execCloseStore_reaches _ _
  · exact execStoreStatus_reaches _ _
  · exact execSettingSet_reaches _ _ _ _
  · exact execSettingGet_reaches _ _ _
  · exact execLock_reaches _ _
  · exact execIdentify_reaches _ _
  · exact execBranchSet_reaches _ _ _
  · exact execStatus_reaches _ _
  · exact execReset_reaches _ _
  · exact execForward_reaches _ _ _ _ _
  · exact execNoticeAck_reaches _ _ _
  · exact execHostByteTimeout_reaches _
  · exact execBadFrame_reaches _ _
  · exact execHostTxEnd_reaches _
  · exact execNoticeResendExpiry_reaches _
  · exact execSilenceExpiry_reaches _
  · exact execHello_reaches _ _
  · exact execPoll_reaches _ _
  · exact execBye_reaches _ _
  · exact execSaleOpen_reaches _ _
  · exact execLineAdd_reaches _ _ _ _ _
  · exact execLineVoid_reaches _ _ _
  · exact execSaleCancel_reaches _ _
  · exact execTenderCash_reaches _ _ _
  · exact execTenderCard_reaches _ _ _
  · exact execTillSilenceExpiry_reaches _ _
  · exact execClosingGraceEnd_reaches _
  · exact execLabelAcknowledgement_reaches _ _ _ _ _ _
  · exact execAckWindowClose_reaches _
  · exact execBeacon_reaches _
  · exact execFloorWriteDone_reaches _ _ rfl rfl
  · exact execPriceFrameEnd_reaches _
  · exact execSettleEnd_reaches _
  · exact execLabelBindWriteDone_reaches _ _ rfl rfl rfl
  · exact execLabelUnbindWriteDone_reaches _ _ rfl rfl rfl
  · exact execLabelRetryWriteDone_reaches _ _ rfl rfl
  · exact execAckWriteDone_reaches _ _ rfl rfl
  · exact execUnreachableWriteDone_reaches _ _ rfl rfl
  · exact execItemAddWriteDone_reaches _ _ rfl rfl
  · exact execItemRemoveWriteDone_reaches _ _ rfl rfl
  · exact execPendingWriteDone_reaches _ _ rfl rfl
  · exact execQueueWriteDone_reaches _ rfl
  · exact execEffectWriteDone_reaches _ _ rfl rfl
  · exact execJournalAppendDone_reaches _ rfl
  · exact execJournalRemovalDone_reaches _ rfl
  · exact execAuthWaitExpiry_reaches _ _
  · exact execAuthReplyExpiry_reaches _ _
  · exact execAuthRetryDelayEnd_reaches _ _
  · exact execCarrierPresent_reaches _ _
  · exact execCarrierAbsent_reaches _ _
  · exact execHelloAccept_reaches _ _ _
  · exact execHelloRefused_reaches _ _ _
  · exact execHelloExpiry_reaches _ _
  · exact execProbeDue_reaches _ _
  · exact execProbeReply_reaches _ _ _
  · exact execProbeExpiry_reaches _ _ _
  · exact execCredit_reaches _ _ _ _
  · exact execUplinkTxEnd_reaches _ _
  · exact execTimeoutTick_reaches _ _
  · exact execAuthApproved_reaches _ _ _ _
  · exact execAuthDeclined_reaches _ _ _ _
  · exact execAuthBusy_reaches _ _ _
  · exact execBatchAckAccepted_reaches _ _ _ _ _
  · exact execBatchAckBusy_reaches _ _ _
  · exact execBatchExpiry_reaches _
  · exact execBatchRetryDelayEnd_reaches _
  · exact execTricklePauseEnd_reaches _
  · exact execPiece_reaches _ _ _ _ _
  · exact execNoFile_reaches _ _ _
  · exact execFileBusy_reaches _ _ _
  · exact execFileRequestExpiry_reaches _
  · exact execFileRetryDelayEnd_reaches _
  · exact execOfficeReply_reaches _ _ _ _
  · exact execOfficeReplyExpiry_reaches _ _
  · exact execGuestReply_reaches _ _ _ _
  · exact execPriceChange_reaches _ _ _ _ _
  · exact execSettings_reaches _ _ _ _
  · exact execHeadOfficeTimeSet_reaches _ _ _
  · exact execNightControl_reaches _ _ _
  · exact execSettingWriteDone_reaches _ _ rfl rfl
  · exact execBranchSetWriteDone_reaches _ rfl rfl
  · exact execJoin_reaches _ _
  · exact execLeave_reaches _ _
  · exact execGuestData_reaches _ _ _ _
  · exact execGuestTimeExpiry_reaches _ _
  · exact execOpenLeadEvent_reaches _
  · exact execOpenEvent_reaches _
  · exact execCloseEvent_reaches _
  · exact execQuietDelayExpiry_reaches _
  · exact execSiteLineChange_reaches _ _ _
  · exact execHoldAssert_reaches _ rfl rfl
  · exact execHoldExit_reaches _ rfl
  · exact execResetLineAssert_reaches _ rfl rfl
  · exact execResetLineRelease_reaches _ rfl
  · exact execPowerOn_reaches _ rfl rfl
  · exact execHostReset_reaches _ rfl
  · exact execPowerLoss_reaches _ rfl rfl
  · exact execUnknownRequest_reaches _ _ _
  · exact execUnroutedUplinkFrame_reaches _ 0 _

end Sys2Proof.Laws
end

