-- ==== Sys2Proof/WellFormed.lean ====
section
/-! DEFINITION. Which commands can come from outside: every field within the bytes its frame gives it (chapter 11), and every number of a place, an entry or a class within those the part has. A meaning is given to every command all the same. -/

namespace Sys2Proof

/-- A number that a field of some bytes can carry (R196). -/
def inBytes (k n : Nat) : Bool := decide (n < 256 ^ k)

/-- A signed number that a field of some bytes can carry in two's complement (R196). -/
def inSigned (k : Nat) (v : Int) : Bool := decide (-(2 ^ (8 * k - 1) : Int) ≤ v) && decide (v < 2 ^ (8 * k - 1))

/-- A request's tag is one byte (11.3). -/
def HostHead.wf (h : HostHead) : Bool := inBytes 1 h.tag

/-- A till frame's number is one byte (11.4). -/
def TillHead.wf (t : TillHead) : Bool := inBytes 1 t.till

/-- A frame of no other row: a till frame's kind is one byte and names no till request (11.4). -/
def BadFrame.wf : BadFrame → Bool
  | .check _ => true
  | .tillKind h kind => h.wf && inBytes 1 kind && (kind == 0 || decide (9 < kind))

/-- A destination window's base and limit are four bytes each (11.3). -/
def Window.wf (w : Window) : Bool := inBytes 4 w.base && inBytes 4 w.limit

/-- A setting's value: four bytes, signed or unsigned, or a window (11.3). -/
def SettingValue.wf : SettingValue → Bool
  | .num v => decide (-(2 ^ 31 : Int) ≤ v) && decide (v < 2 ^ 32)
  | .window w => w.wf
  | .malformed => true

/-- A change of a piece: item and price of four bytes each (11.6). -/
def PieceChange.wf (c : PieceChange) : Bool := inBytes 4 c.item && inBytes 4 c.price

/-- The grants of a HELLO ACCEPT, one byte each (11.6). -/
def Grants.wf (g : Grants) : Bool :=
  inBytes 1 g.auth && inBytes 1 g.price && inBytes 1 g.journal && inBytes 1 g.office && inBytes 1 g.guest &&
  inBytes 1 g.shared

/-- A guest or uplink payload is at most what its two-byte length field counts (R197). -/
def payloadFits (l : List Byte) : Bool := decide (l.length < 65536)

/-- A price an optional field carries (11.1). -/
def optionFits : Option Nat → Bool
  | some n => inBytes 4 n
  | none => true

/-- A label the table has (R24). -/
def tableLabel (n : Nat) : Bool := decide (n ≤ Config.maxLabel)
/-- An item the book can hold (R1). -/
def bookItem (n : Nat) : Bool := n != 0 && decide (n ≤ Config.maxCode)
/-- A till place the part has (R49). -/
def placeNumber (n : Nat) : Bool := decide (n < Config.tillCount)

/-- The kinds of uplink frame the part receives (11.6). -/
def receivedKinds : List Nat := [2, 3, 5, 6, 11, 12, 13, 21, 22, 31, 32, 33, 36, 41, 51, 60, 61, 62]

/-- Whether every field of a command fits. -/
def Instr.wf : Instr → Bool
  | .itemAdd h item price _ => h.wf && inBytes 4 item && inBytes 4 price
  | .itemRemove h item | .itemGet h item => h.wf && inBytes 4 item
  | .priceSet h item price _ => h.wf && inBytes 4 item && inBytes 4 price
  | .labelBind h label item => h.wf && inBytes 2 label && inBytes 4 item
  | .labelUnbind h label | .labelRetry h label | .labelGet h label => h.wf && inBytes 2 label
  | .healthClear h target => h.wf && (match target with | some n => inBytes 2 n | none => true)
  | .authRelease h till => h.wf && inBytes 1 till
  | .journalRead h fromSeq count => h.wf && inBytes 4 fromSeq && inBytes 1 count
  | .guestList h start => h.wf && inBytes 1 start
  | .timeSet h value => h.wf && inBytes 4 value
  | .settingSet h id value => h.wf && inBytes 2 id && value.wf
  | .settingGet h id => h.wf && inBytes 2 id
  | .branchSet h number => h.wf && inBytes 2 number
  | .forward h dest _ payload => h.wf && inBytes 4 dest && decide (payload.length ≤ 1019)
  | .changeStatus h | .burstNow h | .radioStatus h | .tillStatus h | .authStatus h | .journalInfo h | .uplinkStatus h
  | .nightRerun h | .transferStatus h | .guestEnd h _ | .openPrepare h | .openStore h | .closeStore h | .storeStatus h
  | .lock h | .identify h | .status h | .reset h => h.wf
  | .noticeAck tag number => inBytes 1 tag && inBytes 2 number
  | .hello t | .poll t | .bye t | .saleOpen t | .saleCancel t | .tenderCard t _ => t.wf
  | .lineAdd t item qty keyed => t.wf && inBytes 4 item && inSigned 2 qty && optionFits keyed
  | .lineVoid t line => t.wf && inBytes 1 line
  | .tenderCash t given => t.wf && inBytes 4 given
  | .tillSilenceExpiry till | .authWaitExpiry till | .authReplyExpiry till | .authRetryDelayEnd till => placeNumber till
  | .labelAcknowledgement label number price battery margin =>
    inBytes 2 label && inBytes 1 number && inBytes 4 price && inBytes 1 battery && inSigned 1 margin
  | .floorWriteDone label | .labelBindWriteDone label | .labelUnbindWriteDone label | .labelRetryWriteDone label
  | .ackWriteDone label | .unreachableWriteDone label => tableLabel label
  | .itemAddWriteDone item | .itemRemoveWriteDone item | .pendingWriteDone item | .effectWriteDone item => bookItem item
  | .helloAccept _ g => g.wf
  | .helloRefused _ reason => inBytes 1 reason
  | .probeReply _ number | .probeExpiry _ number => inBytes 1 number
  | .credit _ target count => inBytes 1 target && inBytes 1 count
  | .authApproved _ trace code => inBytes 4 trace && payloadFits code
  | .authDeclined _ trace reason => inBytes 4 trace && inBytes 1 reason
  | .authBusy _ trace => inBytes 4 trace
  | .batchAckAccepted _ batch first last => inBytes 1 batch && inBytes 4 first && inBytes 4 last
  | .batchAckBusy _ batch => inBytes 1 batch
  | .piece _ number _ changes => inBytes 2 number && decide (changes.length < 256) && changes.all (·.wf)
  | .noFile _ number | .fileBusy _ number => inBytes 2 number
  | .officeReply _ n payload => inBytes 2 n && payloadFits payload
  | .officeReplyExpiry n => n != 0 && inBytes 2 n
  | .guestReply _ _ payload => payloadFits payload
  | .priceChange _ item price _ => inBytes 4 item && inBytes 4 price
  | .settings _ id value => inBytes 2 id && value.wf
  | .headOfficeTimeSet _ value => inBytes 4 value
  | .nightControl _ command => inBytes 1 command
  | .settingWriteDone id => inBytes 2 id
  | .guestData _ dest payload => inBytes 4 dest && payloadFits payload
  | .guestTimeExpiry entry => decide (entry < Config.sessionCount)
  | .unknownRequest tag kind => inBytes 1 tag && inBytes 1 kind && (kind == 0 || decide (35 < kind)) && kind != 255
  | .unroutedUplinkFrame _ kind => inBytes 1 kind && !receivedKinds.contains kind
  | .badFrame f => f.wf
  | .hostByteTimeout | .hostTxEnd | .noticeResendExpiry | .silenceExpiry | .closingGraceEnd
  | .ackWindowClose | .beacon | .priceFrameEnd | .settleEnd | .queueWriteDone | .journalAppendDone
  | .journalRemovalDone | .carrierPresent _ | .carrierAbsent _ | .helloExpiry _ | .probeDue _ | .uplinkTxEnd _
  | .timeoutTick _ | .batchExpiry | .batchRetryDelayEnd | .tricklePauseEnd | .fileRequestExpiry | .fileRetryDelayEnd
  | .branchSetWriteDone | .join _ | .leave _ | .openLeadEvent | .openEvent | .closeEvent | .quietDelayExpiry
  | .siteLineChange _ _ | .holdAssert | .holdExit | .resetLineAssert | .resetLineRelease | .powerOn | .hostReset
  | .powerLoss => true

/-! ## The numbers a command carries -/

/-- The numbers of a setting's value that are written unsigned: those of a window. -/
def SettingValue.numbers : SettingValue → List Nat
  | .window w => [w.base, w.limit]
  | _ => []
/-- The numbers of a change. -/
def PieceChange.numbers (c : PieceChange) : List Nat := [c.item, c.price]
/-- The numbers of the grants. -/
def Grants.numbers (g : Grants) : List Nat := [g.auth, g.price, g.journal, g.office, g.guest, g.shared]

/-- The unsigned numbers a command carries. -/
def Instr.numbers : Instr → List Nat
  | .itemAdd a0 a1 a2 _ => [a0.tag, a1, a2]
  | .itemRemove a0 a1 => [a0.tag, a1]
  | .itemGet a0 a1 => [a0.tag, a1]
  | .priceSet a0 a1 a2 _ => [a0.tag, a1, a2]
  | .changeStatus a0 => [a0.tag]
  | .labelBind a0 a1 a2 => [a0.tag, a1, a2]
  | .labelUnbind a0 a1 => [a0.tag, a1]
  | .labelRetry a0 a1 => [a0.tag, a1]
  | .labelGet a0 a1 => [a0.tag, a1]
  | .burstNow a0 => [a0.tag]
  | .healthClear a0 a1 => [a0.tag] ++ a1.toList
  | .radioStatus a0 => [a0.tag]
  | .tillStatus a0 => [a0.tag]
  | .authRelease a0 a1 => [a0.tag, a1]
  | .authStatus a0 => [a0.tag]
  | .journalRead a0 a1 a2 => [a0.tag, a1, a2]
  | .journalInfo a0 => [a0.tag]
  | .uplinkStatus a0 => [a0.tag]
  | .nightRerun a0 => [a0.tag]
  | .transferStatus a0 => [a0.tag]
  | .guestEnd a0 _ => [a0.tag]
  | .guestList a0 a1 => [a0.tag, a1]
  | .timeSet a0 a1 => [a0.tag, a1]
  | .openPrepare a0 => [a0.tag]
  | .openStore a0 => [a0.tag]
  | .closeStore a0 => [a0.tag]
  | .storeStatus a0 => [a0.tag]
  | .settingSet a0 a1 a2 => [a0.tag, a1] ++ a2.numbers
  | .settingGet a0 a1 => [a0.tag, a1]
  | .lock a0 => [a0.tag]
  | .identify a0 => [a0.tag]
  | .branchSet a0 a1 => [a0.tag, a1]
  | .status a0 => [a0.tag]
  | .reset a0 => [a0.tag]
  | .forward a0 a1 _ _ => [a0.tag, a1]
  | .noticeAck a0 a1 => [a0, a1]
  | .hello a0 => [a0.till]
  | .poll a0 => [a0.till]
  | .bye a0 => [a0.till]
  | .saleOpen a0 => [a0.till]
  | .lineAdd a0 a1 _ a3 => [a0.till, a1] ++ a3.toList
  | .lineVoid a0 a1 => [a0.till, a1]
  | .saleCancel a0 => [a0.till]
  | .tenderCash a0 a1 => [a0.till, a1]
  | .tenderCard a0 _ => [a0.till]
  | .tillSilenceExpiry a0 => [a0]
  | .labelAcknowledgement a0 a1 a2 a3 _ => [a0, a1, a2, a3]
  | .floorWriteDone a0 => [a0]
  | .labelBindWriteDone a0 => [a0]
  | .labelUnbindWriteDone a0 => [a0]
  | .labelRetryWriteDone a0 => [a0]
  | .ackWriteDone a0 => [a0]
  | .unreachableWriteDone a0 => [a0]
  | .itemAddWriteDone a0 => [a0]
  | .itemRemoveWriteDone a0 => [a0]
  | .pendingWriteDone a0 => [a0]
  | .effectWriteDone a0 => [a0]
  | .authWaitExpiry a0 => [a0]
  | .authReplyExpiry a0 => [a0]
  | .authRetryDelayEnd a0 => [a0]
  | .helloAccept _ a1 => a1.numbers
  | .helloRefused _ a1 => [a1]
  | .probeReply _ a1 => [a1]
  | .probeExpiry _ a1 => [a1]
  | .credit _ a1 a2 => [a1, a2]
  | .authApproved _ a1 _ => [a1]
  | .authDeclined _ a1 a2 => [a1, a2]
  | .authBusy _ a1 => [a1]
  | .batchAckAccepted _ a1 a2 a3 => [a1, a2, a3]
  | .batchAckBusy _ a1 => [a1]
  | .piece _ a1 _ a3 => [a1] ++ a3.flatMap PieceChange.numbers
  | .noFile _ a1 => [a1]
  | .fileBusy _ a1 => [a1]
  | .officeReply _ a1 _ => [a1]
  | .officeReplyExpiry a0 => [a0]
  | .priceChange _ a1 a2 _ => [a1, a2]
  | .settings _ a1 a2 => [a1] ++ a2.numbers
  | .headOfficeTimeSet _ a1 => [a1]
  | .nightControl _ a1 => [a1]
  | .settingWriteDone a0 => [a0]
  | .guestData _ a1 _ => [a1]
  | .guestTimeExpiry a0 => [a0]
  | .unknownRequest a0 a1 => [a0, a1]
  | .unroutedUplinkFrame _ a1 => [a1]
  | .badFrame (.tillKind a0 a1) => [a0.till, a1]
  | _ => []

end Sys2Proof
end

