-- ==== Sys2Proof/Laws/PerInstr.lean ====
section
/-! SUPPORT. One fact of every command as syntax: a well-formed command carries no number beyond four bytes (R196). -/

namespace Sys2Proof.Laws.Fits

/-- Every number of a well-formed command fits in four bytes. -/
def Statement (i : Instr) : Prop := i.wf = true → ∀ n ∈ i.numbers, n < 4294967296

theorem fits_option (o : Option Nat) (h : optionFits o = true) : ∀ n ∈ o.toList, n < 4294967296 := by
  cases o <;> simp_all [optionFits, inBytes]

theorem fits_value (v : SettingValue) (h : v.wf = true) : ∀ n ∈ v.numbers, n < 4294967296 := by
  cases v <;> simp_all [SettingValue.wf, SettingValue.numbers, Window.wf, inBytes]

theorem fits_changes (l : List PieceChange) (h : ∀ c ∈ l, PieceChange.wf c = true) :
    ∀ n ∈ l.flatMap PieceChange.numbers, n < 4294967296 := by
  intro n hn
  obtain ⟨c, hc, hn⟩ := List.mem_flatMap.1 hn
  have := h c hc
  simp only [PieceChange.wf, inBytes, Bool.and_eq_true, decide_eq_true_eq, PieceChange.numbers, List.mem_cons,
    List.not_mem_nil, or_false] at this hn
  omega

/-- Every command at once. -/
theorem fits (i : Instr) : Statement i := by
  intro h n hn
  cases i
  case healthClear a t =>
    cases t <;> simp [Instr.wf, Instr.numbers, HostHead.wf, inBytes] at h hn <;> omega
  case badFrame f =>
    cases f <;> simp [Instr.wf, Instr.numbers, BadFrame.wf, TillHead.wf, inBytes] at h hn
    omega
  case settingSet a b v =>
    simp only [Instr.wf, HostHead.wf, inBytes, Bool.and_eq_true, decide_eq_true_eq] at h
    rcases List.mem_append.1 hn with hn | hn
    · simp at hn; omega
    · exact fits_value v h.2 n hn
  case settings a b v =>
    simp only [Instr.wf, inBytes, Bool.and_eq_true, decide_eq_true_eq] at h
    rcases List.mem_append.1 hn with hn | hn
    · simp at hn; omega
    · exact fits_value v h.2 n hn
  case lineAdd a b c d =>
    simp only [Instr.wf, TillHead.wf, inBytes, Bool.and_eq_true, decide_eq_true_eq] at h
    rcases List.mem_append.1 hn with hn | hn
    · simp at hn; omega
    · exact fits_option d h.2 n hn
  case piece a b c d =>
    simp only [Instr.wf, inBytes, Bool.and_eq_true, decide_eq_true_eq, List.all_eq_true] at h
    rcases List.mem_append.1 hn with hn | hn
    · simp at hn; omega
    · exact fits_changes d h.2 n hn
  all_goals
    simp only [Instr.wf, Instr.numbers, HostHead.wf, TillHead.wf, Grants.wf, Grants.numbers, inBytes, placeNumber,
      tableLabel, bookItem, Bool.and_eq_true, decide_eq_true_eq, List.mem_cons, List.not_mem_nil, or_false] at h hn
    try simp only [Config.tillCount, Config.maxLabel, Config.maxCode, Config.sessionCount] at h
    try omega

theorem itemAdd (h : HostHead) (item : Nat) (price : Nat) (openPrice : Bool) : Statement (.itemAdd h item price openPrice) := fits _
theorem itemRemove (h : HostHead) (item : Nat) : Statement (.itemRemove h item) := fits _
theorem itemGet (h : HostHead) (item : Nat) : Statement (.itemGet h item) := fits _
theorem priceSet (h : HostHead) (item : Nat) (price : Nat) (urgent : Bool) : Statement (.priceSet h item price urgent) := fits _
theorem changeStatus (h : HostHead) : Statement (.changeStatus h) := fits _
theorem labelBind (h : HostHead) (label : Nat) (item : Nat) : Statement (.labelBind h label item) := fits _
theorem labelUnbind (h : HostHead) (label : Nat) : Statement (.labelUnbind h label) := fits _
theorem labelRetry (h : HostHead) (label : Nat) : Statement (.labelRetry h label) := fits _
theorem labelGet (h : HostHead) (label : Nat) : Statement (.labelGet h label) := fits _
theorem burstNow (h : HostHead) : Statement (.burstNow h) := fits _
theorem healthClear (h : HostHead) (target : Option Nat) : Statement (.healthClear h target) := fits _
theorem radioStatus (h : HostHead) : Statement (.radioStatus h) := fits _
theorem tillStatus (h : HostHead) : Statement (.tillStatus h) := fits _
theorem authRelease (h : HostHead) (till : Nat) : Statement (.authRelease h till) := fits _
theorem authStatus (h : HostHead) : Statement (.authStatus h) := fits _
theorem journalRead (h : HostHead) (fromSeq : Nat) (count : Nat) : Statement (.journalRead h fromSeq count) := fits _
theorem journalInfo (h : HostHead) : Statement (.journalInfo h) := fits _
theorem uplinkStatus (h : HostHead) : Statement (.uplinkStatus h) := fits _
theorem nightRerun (h : HostHead) : Statement (.nightRerun h) := fits _
theorem transferStatus (h : HostHead) : Statement (.transferStatus h) := fits _
theorem guestEnd (h : HostHead) (target : Option Addr) : Statement (.guestEnd h target) := fits _
theorem guestList (h : HostHead) (start : Nat) : Statement (.guestList h start) := fits _
theorem timeSet (h : HostHead) (value : Nat) : Statement (.timeSet h value) := fits _
theorem openPrepare (h : HostHead) : Statement (.openPrepare h) := fits _
theorem openStore (h : HostHead) : Statement (.openStore h) := fits _
theorem closeStore (h : HostHead) : Statement (.closeStore h) := fits _
theorem storeStatus (h : HostHead) : Statement (.storeStatus h) := fits _
theorem settingSet (h : HostHead) (id : Nat) (value : SettingValue) : Statement (.settingSet h id value) := fits _
theorem settingGet (h : HostHead) (id : Nat) : Statement (.settingGet h id) := fits _
theorem lock (h : HostHead) : Statement (.lock h) := fits _
theorem identify (h : HostHead) : Statement (.identify h) := fits _
theorem branchSet (h : HostHead) (number : Nat) : Statement (.branchSet h number) := fits _
theorem status (h : HostHead) : Statement (.status h) := fits _
theorem reset (h : HostHead) : Statement (.reset h) := fits _
theorem forward (h : HostHead) (dest : Nat) (replyWanted : Bool) (payload : List Byte) : Statement (.forward h dest replyWanted payload) := fits _
theorem noticeAck (tag : Nat) (number : Nat) : Statement (.noticeAck tag number) := fits _
theorem hostByteTimeout : Statement (.hostByteTimeout) := fits _
theorem badFrame (f : BadFrame) : Statement (.badFrame f) := fits _
theorem hostTxEnd : Statement (.hostTxEnd) := fits _
theorem noticeResendExpiry : Statement (.noticeResendExpiry) := fits _
theorem silenceExpiry : Statement (.silenceExpiry) := fits _
theorem hello (t : TillHead) : Statement (.hello t) := fits _
theorem poll (t : TillHead) : Statement (.poll t) := fits _
theorem bye (t : TillHead) : Statement (.bye t) := fits _
theorem saleOpen (t : TillHead) : Statement (.saleOpen t) := fits _
theorem lineAdd (t : TillHead) (item : Nat) (qty : Int) (keyed : Option Nat) : Statement (.lineAdd t item qty keyed) := fits _
theorem lineVoid (t : TillHead) (line : Nat) : Statement (.lineVoid t line) := fits _
theorem saleCancel (t : TillHead) : Statement (.saleCancel t) := fits _
theorem tenderCash (t : TillHead) (given : Nat) : Statement (.tenderCash t given) := fits _
theorem tenderCard (t : TillHead) (card : CardRef) : Statement (.tenderCard t card) := fits _
theorem tillSilenceExpiry (till : Nat) : Statement (.tillSilenceExpiry till) := fits _
theorem closingGraceEnd : Statement (.closingGraceEnd) := fits _
theorem labelAcknowledgement (label : Nat) (number : Nat) (price : Nat) (battery : Nat) (margin : Int) : Statement (.labelAcknowledgement label number price battery margin) := fits _
theorem ackWindowClose : Statement (.ackWindowClose) := fits _
theorem beacon : Statement (.beacon) := fits _
theorem floorWriteDone (label : Nat) : Statement (.floorWriteDone label) := fits _
theorem priceFrameEnd : Statement (.priceFrameEnd) := fits _
theorem settleEnd : Statement (.settleEnd) := fits _
theorem labelBindWriteDone (label : Nat) : Statement (.labelBindWriteDone label) := fits _
theorem labelUnbindWriteDone (label : Nat) : Statement (.labelUnbindWriteDone label) := fits _
theorem labelRetryWriteDone (label : Nat) : Statement (.labelRetryWriteDone label) := fits _
theorem ackWriteDone (label : Nat) : Statement (.ackWriteDone label) := fits _
theorem unreachableWriteDone (label : Nat) : Statement (.unreachableWriteDone label) := fits _
theorem itemAddWriteDone (item : Nat) : Statement (.itemAddWriteDone item) := fits _
theorem itemRemoveWriteDone (item : Nat) : Statement (.itemRemoveWriteDone item) := fits _
theorem pendingWriteDone (item : Nat) : Statement (.pendingWriteDone item) := fits _
theorem queueWriteDone : Statement (.queueWriteDone) := fits _
theorem effectWriteDone (item : Nat) : Statement (.effectWriteDone item) := fits _
theorem journalAppendDone : Statement (.journalAppendDone) := fits _
theorem journalRemovalDone : Statement (.journalRemovalDone) := fits _
theorem authWaitExpiry (till : Nat) : Statement (.authWaitExpiry till) := fits _
theorem authReplyExpiry (till : Nat) : Statement (.authReplyExpiry till) := fits _
theorem authRetryDelayEnd (till : Nat) : Statement (.authRetryDelayEnd till) := fits _
theorem carrierPresent (p : Path) : Statement (.carrierPresent p) := fits _
theorem carrierAbsent (p : Path) : Statement (.carrierAbsent p) := fits _
theorem helloAccept (p : Path) (g : Grants) : Statement (.helloAccept p g) := fits _
theorem helloRefused (p : Path) (reason : Nat) : Statement (.helloRefused p reason) := fits _
theorem helloExpiry (p : Path) : Statement (.helloExpiry p) := fits _
theorem probeDue (p : Path) : Statement (.probeDue p) := fits _
theorem probeReply (p : Path) (number : Nat) : Statement (.probeReply p number) := fits _
theorem probeExpiry (p : Path) (number : Nat) : Statement (.probeExpiry p number) := fits _
theorem credit (p : Path) (target : Nat) (count : Nat) : Statement (.credit p target count) := fits _
theorem uplinkTxEnd (p : Path) : Statement (.uplinkTxEnd p) := fits _
theorem timeoutTick (c : TimeoutClass) : Statement (.timeoutTick c) := fits _
theorem authApproved (p : Path) (trace : Nat) (code : List Byte) : Statement (.authApproved p trace code) := fits _
theorem authDeclined (p : Path) (trace : Nat) (reason : Nat) : Statement (.authDeclined p trace reason) := fits _
theorem authBusy (p : Path) (trace : Nat) : Statement (.authBusy p trace) := fits _
theorem batchAckAccepted (p : Path) (batch : Nat) (first : Nat) (last : Nat) : Statement (.batchAckAccepted p batch first last) := fits _
theorem batchAckBusy (p : Path) (batch : Nat) : Statement (.batchAckBusy p batch) := fits _
theorem batchExpiry : Statement (.batchExpiry) := fits _
theorem batchRetryDelayEnd : Statement (.batchRetryDelayEnd) := fits _
theorem tricklePauseEnd : Statement (.tricklePauseEnd) := fits _
theorem piece (p : Path) (number : Nat) (last : Bool) (changes : List PieceChange) : Statement (.piece p number last changes) := fits _
theorem noFile (p : Path) (number : Nat) : Statement (.noFile p number) := fits _
theorem fileBusy (p : Path) (number : Nat) : Statement (.fileBusy p number) := fits _
theorem fileRequestExpiry : Statement (.fileRequestExpiry) := fits _
theorem fileRetryDelayEnd : Statement (.fileRetryDelayEnd) := fits _
theorem officeReply (p : Path) (forward : Nat) (payload : List Byte) : Statement (.officeReply p forward payload) := fits _
theorem officeReplyExpiry (forward : Nat) : Statement (.officeReplyExpiry forward) := fits _
theorem guestReply (p : Path) (addr : Addr) (payload : List Byte) : Statement (.guestReply p addr payload) := fits _
theorem priceChange (p : Path) (item : Nat) (price : Nat) (urgent : Bool) : Statement (.priceChange p item price urgent) := fits _
theorem settings (p : Path) (id : Nat) (value : SettingValue) : Statement (.settings p id value) := fits _
theorem headOfficeTimeSet (p : Path) (value : Nat) : Statement (.headOfficeTimeSet p value) := fits _
theorem nightControl (p : Path) (command : Nat) : Statement (.nightControl p command) := fits _
theorem settingWriteDone (id : Nat) : Statement (.settingWriteDone id) := fits _
theorem branchSetWriteDone : Statement (.branchSetWriteDone) := fits _
theorem join (addr : Addr) : Statement (.join addr) := fits _
theorem leave (addr : Addr) : Statement (.leave addr) := fits _
theorem guestData (addr : Addr) (dest : Nat) (payload : List Byte) : Statement (.guestData addr dest payload) := fits _
theorem guestTimeExpiry (entry : Nat) : Statement (.guestTimeExpiry entry) := fits _
theorem openLeadEvent : Statement (.openLeadEvent) := fits _
theorem openEvent : Statement (.openEvent) := fits _
theorem closeEvent : Statement (.closeEvent) := fits _
theorem quietDelayExpiry : Statement (.quietDelayExpiry) := fits _
theorem siteLineChange (line : SiteLine) (present : Bool) : Statement (.siteLineChange line present) := fits _
theorem holdAssert : Statement (.holdAssert) := fits _
theorem holdExit : Statement (.holdExit) := fits _
theorem resetLineAssert : Statement (.resetLineAssert) := fits _
theorem resetLineRelease : Statement (.resetLineRelease) := fits _
theorem powerOn : Statement (.powerOn) := fits _
theorem hostReset : Statement (.hostReset) := fits _
theorem powerLoss : Statement (.powerLoss) := fits _
theorem unknownRequest (tag : Nat) (kind : Nat) : Statement (.unknownRequest tag kind) := fits _
theorem unroutedUplinkFrame (p : Path) (kind : Nat) : Statement (.unroutedUplinkFrame p kind) := fits _

end Sys2Proof.Laws.Fits
end

