-- ==== Sys2Proof/Laws/Ports.lean ====
section
/-! SUPPORT. What bytes at a port can do: they are read in any number of stretches alike, and they change nothing but the commands that wait and the host line's receiver, with the time of its last byte. -/

namespace Sys2Proof.Laws

open Sys2Proof.Machine

/-- Bytes of the host line come to the same in one stretch or in two. -/
theorem hostBytes_append (l m : List Byte) (r : HostRx) :
    hostBytes r (l ++ m) =
      ((hostBytes (hostBytes r l).1 m).1, (hostBytes r l).2 ++ (hostBytes (hostBytes r l).1 m).2) := by
  induction l generalizing r with
  | nil => simp [hostBytes]
  | cons b l ih => simp [hostBytes, ih]

/-- Bytes at a port change the waiting commands and the receiver alone. -/
theorem receive_keeps (s : State) (p : Port) (l : List Byte) :
    { s.receive p l with
      pending := s.pending, hlk := { (s.receive p l).hlk with rx := s.hlk.rx, rxAt := s.hlk.rxAt } } = s := by
  unfold State.receive receiveHost takeBytes dropOverdue
  (repeat' split) <;> rfl

/-- A frame in time leaves the receiver and the commands as they are. -/
theorem dropOverdue_inTime (s : State) (h : byteGapPassed s = false) : dropOverdue s = s := by simp [dropOverdue, h]

/-- The commands that waited stay ahead of those the bytes spell, while the frame being received is in time. -/
theorem pending_receive (s : State) (p : Port) (l : List Byte) (h : byteGapPassed s = false) :
    s.pending <+: (s.receive p l).pending := by
  unfold State.receive receiveHost
  rw [dropOverdue_inTime s h]
  (repeat' split) <;> first | exact List.prefix_rfl | exact List.prefix_append _ _

/-- An overdue frame is counted in the place of its time-out, when that waits. -/
theorem gapCounted_waiting (a b : List Instr) (h : Instr.hostByteTimeout ∉ a) :
    gapCounted (a ++ .hostByteTimeout :: b) = a ++ .badFrame (.check .host) :: b := by
  have hc : (a ++ Instr.hostByteTimeout :: b).contains .hostByteTimeout = true := by simp
  rw [gapCounted, if_pos hc, List.replace_append_right]
  · simp
  · simpa using h

/-- Else behind everything that waits. -/
theorem gapCounted_none (l : List Instr) (h : Instr.hostByteTimeout ∉ l) :
    gapCounted l = l ++ [.badFrame (.check .host)] := by
  simp [gapCounted, h]

end Sys2Proof.Laws
end

