-- ==== Sys2Proof/Laws/Steps.lean ====
section
/-! SUPPORT. What holds of every run of moves, what the after-effects of a command keep, and how a property that every move keeps is kept by every step. -/

namespace Sys2Proof.Laws

open Sys2Proof.Machine Sys2Proof.Safety

variable {ρ : Reach} {d : Area → Bool} {v w : View}

/-- A property that every move keeps holds after a run. -/
theorem Runs.keeps (P : View → Prop) (hm : ∀ a b, P a → Move ρ a b → P b) (h : Runs ρ v w) (hv : P v) : P w := by
  induction h with
  | refl => exact hv
  | tail _ hb ih => exact hm _ _ ih hb

/-- A field that no move changes is the same after a run. -/
theorem Runs.same {α : Type} (f : View → α) (hm : ∀ a b, Move ρ a b → f b = f a) (h : Runs ρ v w) : f w = f v :=
  h.keeps (fun x => f x = f v) (fun a b ha hb => (hm a b hb).trans ha) rfl

theorem Move.widen (h : Move (.outer d) v w) : Move (.outer fun _ => true) v w := by
  cases h
  case writeSetting ht hx hg => exact .writeSetting _ _ _ _ (by assumption) (by assumption) (by assumption)
  all_goals constructor <;> first | assumption | rfl

theorem Runs.widen (h : Runs (.outer d) v w) : Runs (.outer fun _ => true) v w := by
  induction h with
  | refl => exact .refl
  | tail _ hb ih => exact ih.tail hb.widen

theorem Runs.trans {x : View} (h : Runs ρ v w) (h2 : Runs ρ w x) : Runs ρ v x := by
  induction h2 with
  | refl => exact h
  | tail _ hb ih => exact ih.tail hb

@[simp] theorem putCredits_eq (v : View) (p : Path) (c : Option Credits) : v.putCredits p c =
    { v with
      creditsPrimary := if p = .primary then c else v.creditsPrimary
      creditsBackup := if p = .backup then c else v.creditsBackup } := by cases p <;> rfl

@[simp] theorem putClassQ_eq (v : View) (k : Machine.Class) (q : List UpFrame) : v.putClassQ k q =
    { v with
      authQ := if k = .auth then q else v.authQ
      priceQ := if k = .price then q else v.priceQ
      journalQ := if k = .journal then q else v.journalQ
      officeQ := if k = .office then q else v.officeQ
      guestQ := if k = .guest then q else v.guestQ } := by cases k <;> rfl

theorem Runs.pending_same (h : Runs ρ v w) : w.pending = v.pending :=
  h.same (·.pending) fun a b hb => by cases hb <;> simp [View.fresh]

/-- What the after-effects of a command leave as it is. -/
structure AfterEffects (v w : View) : Prop where
  pending : w.pending = v.pending
  timer : w.timer = v.timer
  settings : w.settings = v.settings
  identity : w.identity = v.identity
  items : w.items = v.items
  queue : w.queue = v.queue
  changes : w.changes = v.changes
  slotCount : w.slotCount = v.slotCount
  placeCount : w.placeCount = v.placeCount
  sequence : w.sequence = v.sequence
  exposure : w.exposure = v.exposure
  claims : w.claims = v.claims
  carriers : w.carriers = v.carriers
  ticks : w.ticks = v.ticks
  sessionCount : w.sessionCount = v.sessionCount
  clock : w.clock = v.clock
  lines : w.lines = v.lines
  stops : w.stops = v.stops
  cause : w.cause = v.cause
  lock : w.lock = v.lock
  out : v.out <+: w.out
  nv : v.nv <+: w.nv
  ops : v.ops <+: w.ops
  notices : v.notices <+: w.notices

theorem Runs.afterEffects (h : Runs .inner v w) : AfterEffects v w := by
  constructor
  all_goals first
    | exact h.same _ fun a b hb => by cases hb <;> simp
    | skip
  · exact h.keeps (fun x => v.out <+: x.out)
      (fun a b ha hb => by cases hb <;> first | exact ha | exact ha.trans (List.prefix_append _ _) | simpa using ha)
      (List.prefix_refl _)
  · exact h.keeps (fun x => v.nv <+: x.nv)
      (fun a b ha hb => by cases hb <;> first | exact ha | exact ha.trans (List.prefix_append _ _) | simpa using ha)
      (List.prefix_refl _)
  · exact h.keeps (fun x => v.ops <+: x.ops)
      (fun a b ha hb => by cases hb <;> first | exact ha | exact ha.trans (List.prefix_append _ _) | simpa using ha)
      (List.prefix_refl _)
  · exact h.keeps (fun x => v.notices <+: x.notices)
      (fun a b ha hb => by cases hb <;> first | exact ha | exact ha.trans (List.prefix_append _ _) | simpa using ha)
      (List.prefix_refl _)

/-- A reply stays among those that wait, or has gone out. -/
theorem Runs.answered (r : Reply) (h : Runs .inner v w) (hv : r ∈ v.replies ∨ .host (.reply r) ∈ v.out) :
    r ∈ w.replies ∨ .host (.reply r) ∈ w.out := by
  refine h.keeps (fun x => r ∈ x.replies ∨ .host (.reply r) ∈ x.out) (fun a b ha hb => ?_) hv
  cases hb
  case sendReply q rest hq =>
    rcases ha with ha | ha
    · rw [hq] at ha
      rcases List.mem_cons.1 ha with rfl | ha
      · exact Or.inr (List.mem_append_right _ (List.mem_singleton.2 rfl))
      · exact Or.inl ha
    · exact Or.inr (List.mem_append_left _ ha)
  all_goals first
    | exact ha
    | exact ha.imp (fun x => x) (List.mem_append_left _)
    | exact ha.imp (List.mem_append_left _) (fun x => x)
    | simpa using ha

/-- The timer's tick moves time on and lets what has come due join the queue. -/
theorem tick_runs (s : State) :
    ∃ x, Runs (.outer d) (view s) x ∧ view (tick s) = { x with pending := (tick s).pending } := by
  unfold tick
  split
  · exact ⟨view (advanceTo (s.timer + 1) s), advanceTo_runs _ _ .refl, rfl⟩
  · split
    · exact ⟨view (advanceClock 1 s), advanceClock_runs _ _ .refl, rfl⟩
    · exact ⟨view s, .refl, rfl⟩

/-- A property of the view that does not look at the queue of commands and that every move keeps is kept by every step. -/
theorem step_keeps (P : View → Prop) (hp : ∀ a l, P a → P { a with pending := l })
    (hm : ∀ a b, P a → Move (.outer fun _ => true) a b → P b) (s t : State) (hs : P (view s)) (h : step s = .next t) :
    P (view t) := by
  unfold step at h
  split at h
  · cases h
    obtain ⟨x, hx, he⟩ := tick_runs (d := fun _ => true) s
    rw [he]
    exact hp _ _ (hx.keeps P hm hs)
  · rename_i c rest _
    obtain ⟨u, hu, hr⟩ := exec_reaches c { s with pending := rest }
    replace hr := hr.widen
    rw [hu] at h
    cases h
    exact hr.keeps P hm (hp _ rest hs)

end Sys2Proof.Laws
end

