-- ==== Sys2Proof/Laws/Requests.lean ====
section
/-! SUPPORT. What taking a valid request leaves as it is before the request is decided, and what an admitted request comes to. -/

namespace Sys2Proof.Laws

open Sys2Proof.Machine Sys2Proof.Safety

/-- The part of the state that neither a notice, nor a wake, nor a change of the guest service touches. -/
structure Kept where
  requests : List QueuedRequest
  replies : List Reply
  phase : ResetPhase
  lock : Bool
  nv : List NvWrite
  waiting : List Work
  pbk : Pbk
  labels : List Label
  settings : Settings
  identity : Identity
  tsu : Tsu
  auz : Auz
  timer : Nat

/-- That part of a state. -/
def kept (s : State) : Kept :=
  { requests := s.hlk.requests, replies := s.hlk.replies, phase := s.hlk.resetPhase, lock := s.hlk.lock, nv := s.nv
    waiting := s.waiting, pbk := s.pbk, labels := s.lrs.labels, settings := s.settings, identity := s.identity
    tsu := s.tsu, auz := s.auz, timer := s.timer }

theorem foldl_kept {α : Type} (f : State → α → State) (hf : ∀ a t, kept (f t a) = kept t) (l : List α) (s : State) :
    kept (l.foldl f s) = kept s := by
  induction l generalizing s with
  | nil => rfl
  | cons a l ih => exact (ih _).trans (hf a s)

@[simp] theorem emit_kept (o : Output) (s : State) :
    kept (emit o s) = kept s := rfl
@[simp] theorem joinNotice_kept (b : NoticeBody) (s : State) :
    kept (joinNotice b s) = kept s := by
  unfold joinNotice
  (repeat' split) <;> rfl
@[simp] theorem notify_kept (b : NoticeBody) (s : State) :
    kept (notify b s) = kept s := by
  unfold notify
  split
  · rfl
  · exact joinNotice_kept _ _
@[simp] theorem startSilence_kept (s : State) :
    kept (startSilence s) = kept s := by
  unfold startSilence
  (repeat' split) <;> rfl
@[simp] theorem restartSilence_kept (s : State) :
    kept (restartSilence s) = kept s := (startSilence_kept s : _)
@[simp] theorem endStandalone_kept (s : State) :
    kept (endStandalone s) = kept s := by
  unfold endStandalone
  split
  · rfl
  · exact notify_kept _ _
@[simp] theorem putSession_kept (i : Nat) (e : Option Session) (s : State) :
    kept (putSession i e s) = kept s := rfl
@[simp] theorem countDrops_kept (n : Nat) (s : State) :
    kept (countDrops n s) = kept s := rfl
@[simp] theorem endSession_kept (i : Nat) (r : EndReason) (s : State) :
    kept (endSession i r s) = kept s := by
  unfold endSession
  split
  · rfl
  · refine (emit_kept _ _).trans ((putSession_kept _ _ _).trans ?_)
    split <;> rfl
@[simp] theorem endAllSessions_kept (r : EndReason) (s : State) :
    kept (endAllSessions r s) = kept s := foldl_kept _ (fun _ t => endSession_kept _ r t) _ s
@[simp] theorem emptyGuestQueue_kept (s : State) :
    kept (emptyGuestQueue s) = kept s := countDrops_kept _ _
@[simp] theorem enterService_kept (old new : Service) (s : State) :
    kept (enterService old new s) = kept s := by
  unfold enterService
  have h1 : kept (s.when (old == .opened) emptyGuestQueue) = kept s := by
    unfold State.when; split <;> simp
  have h2 : kept ((s.when (old == .opened) emptyGuestQueue).when (new == .closed) (endAllSessions .close)) = kept s := by
    rw [← h1]; generalize s.when (old == .opened) emptyGuestQueue = x
    unfold State.when; split <;> simp
  exact h2
@[simp] theorem guestDecide_kept (s : State) :
    kept (guestDecide s) = kept s := by
  unfold guestDecide
  dsimp only
  split
  · rfl
  · exact (notify_kept _ _).trans (enterService_kept _ _ _)
@[simp] theorem unsendBatch_kept (batch : Nat) (s : State) :
    kept (unsendBatch batch s) = kept s := rfl
@[simp] theorem putBatch_kept (b : Option Batch) (s : State) :
    kept (putBatch b s) = kept s := rfl
@[simp] theorem putFile_kept (f : Option FileRequest) (s : State) :
    kept (putFile f s) = kept s := rfl
@[simp] theorem withdrawBatch_kept (n : Nat) (s : State) :
    kept (withdrawBatch n s) = kept s := rfl
@[simp] theorem withdrawFileRequest_kept (s : State) :
    kept (withdrawFileRequest s) = kept s := rfl
@[simp] theorem abortBatch_kept (s : State) :
    kept (abortBatch s) = kept s := by
  unfold abortBatch
  split <;> rfl
@[simp] theorem endRun_kept (upload download : PhaseResult) (s : State) :
    kept (endRun upload download s) = kept s := by
  unfold endRun
  extract_lets _ _ s1 s2 _ _ s3
  have h1 : kept s1 = kept s := rfl
  have h2 : kept s2 = kept s := (putFile_kept _ _).trans ((withdrawFileRequest_kept _).trans ((abortBatch_kept s1).trans h1))
  have h3 : kept s3 = kept s2 := rfl
  exact (notify_kept _ s3).trans (h3.trans h2)
@[simp] theorem abortNow_kept (s : State) :
    kept (abortNow s) = kept s := by
  unfold abortNow
  split
  · exact endRun_kept _ _ _
  · exact endRun_kept _ _ _
  · rfl
@[simp] theorem settleAbort_kept (s : State) :
    kept (settleAbort s) = kept s := by
  unfold settleAbort
  split
  · exact abortNow_kept _
  · rfl
@[simp] theorem abortRun_kept (s : State) :
    kept (abortRun s) = kept s := settleAbort_kept _
@[simp] theorem settleRadio_kept (s : State) :
    kept (settleRadio s) = kept s := rfl
@[simp] theorem refreshEdge_kept (old new : StoreState) (s : State) :
    kept (refreshEdge old new s) = kept s := by
  unfold refreshEdge
  (repeat' split) <;> rfl
@[simp] theorem setStore_kept (new : StoreState) (cause : Option StateCause) (s : State) :
    kept (setStore new cause s) = kept s := by
  unfold setStore
  have h1 := refreshEdge_kept s.day.store new { s with day := { s.day with store := new } }
  dsimp only
  split
  · exact (notify_kept _ _).trans h1
  · exact h1
@[simp] theorem startQuietDelay_kept (s : State) :
    kept (startQuietDelay s) = kept s := rfl
@[simp] theorem reportLine_kept (l : SiteLine) (s : State) :
    kept (reportLine l s) = kept s := by
  unfold reportLine
  have h1 := notify_kept (.site l (s.day.lines.get l) s.clock0 s.day.lines) s
  dsimp only
  split
  · exact h1
  · exact h1
@[simp] theorem reportLines_kept (s : State) :
    kept (reportLines s) = kept s := foldl_kept _ (fun l t => by split <;> simp) _ s
@[simp] theorem wake_kept (c : WakeCause) (s : State) :
    kept (wake c s) = kept s := by
  unfold wake
  split
  · rfl
  · dsimp only
    refine (reportLines_kept _).trans ?_
    have h1 := setStore_kept (wakeState s c) (some (.wake c)) { s with day := { s.day with power := .run, lastWake := some c } }
    have h2 := (startSilence_kept _).trans ((settleRadio_kept _).trans h1)
    split
    · refine (guestDecide_kept _).trans ((abortRun_kept _).trans ?_)
      exact h2
    · exact (guestDecide_kept _).trans ((startQuietDelay_kept _).trans h2)
@[simp] theorem beginRequest_kept (s : State) :
    kept (beginRequest s) = kept s := (wake_kept _ _).trans ((endStandalone_kept _).trans (restartSilence_kept s))

/-- An admitted request is handed to its owner, and what follows it follows. -/
theorem request_admitted (h : HostHead) (k : RequestKind) (own : State → State) (s : State) (ha : Admits s h) :
    request h k own s = .next (finish (own (admitted h k s))) := by
  obtain ⟨h1, h2, h3, h4, h5, h6, h7⟩ := ha
  have hk := beginRequest_kept s
  have e1 : (beginRequest s).hlk.requests = s.hlk.requests := congrArg Kept.requests hk
  have e2 : (beginRequest s).hlk.resetPhase = s.hlk.resetPhase := congrArg Kept.phase hk
  have b1 : badTag h.tag = false := by simp [badTag]; omega
  have b2 : tagInUse (beginRequest s) h.tag = false := by unfold tagInUse at *; rw [e1]; exact h4
  have b3 : ¬ Config.requestCapacity ≤ (beginRequest s).hlk.requests.length := by
    rw [e1]; exact Nat.not_le.2 h5
  have b4 : (joinRequest h.tag k (beginRequest s)).hlk.resetPhase = .none := e2.trans h6
  unfold request event takeRequest decideRequest handRequest
  rw [if_pos h1]
  simp only [b1, b2, b3, b4, h7, Bool.false_eq_true, if_false, if_true, ne_eq, not_true]
  rfl

end Sys2Proof.Laws
end

