-- ==== Sys2Proof/Laws/SessionEnd.lean ====
section
/-! SUPPORT. What the owners of a session's expiries do at its end leaves the credits of both paths as they are (R109). -/

namespace Sys2Proof.Laws

open Sys2Proof.Machine

/-- The credits of both paths. -/
def pathCredits (s : State) : Option Credits × Option Credits := (s.ulc.primary.credits, s.ulc.backup.credits)

/-- A run of steps that each keep the credits keeps them. -/
theorem foldl_credits {α : Type} (f : State → α → State) (hf : ∀ a t, pathCredits (f t a) = pathCredits t) (l : List α) (s : State) :
    pathCredits (l.foldl f s) = pathCredits s := by
  induction l generalizing s with
  | nil => rfl
  | cons a l ih => exact (ih _).trans (hf a s)
@[simp] theorem emit_credits (o : Output) (s : State) :
    pathCredits (emit o s) = pathCredits s := rfl
@[simp] theorem joinNotice_credits (b : NoticeBody) (s : State) :
    pathCredits (joinNotice b s) = pathCredits s := by
  unfold joinNotice
  (repeat' split) <;> rfl
@[simp] theorem notify_credits (b : NoticeBody) (s : State) :
    pathCredits (notify b s) = pathCredits s := by
  unfold notify
  split
  · rfl
  · exact joinNotice_credits _ _
@[simp] theorem putSession_credits (i : Nat) (e : Option Session) (s : State) :
    pathCredits (putSession i e s) = pathCredits s := rfl
@[simp] theorem countDrops_credits (n : Nat) (s : State) :
    pathCredits (countDrops n s) = pathCredits s := rfl
@[simp] theorem endSession_credits (i : Nat) (r : EndReason) (s : State) :
    pathCredits (endSession i r s) = pathCredits s := by
  unfold endSession
  split
  · rfl
  · refine (emit_credits _ _).trans ((putSession_credits _ _ _).trans ?_)
    split <;> rfl
@[simp] theorem endAllSessions_credits (r : EndReason) (s : State) :
    pathCredits (endAllSessions r s) = pathCredits s := foldl_credits _ (fun _ t => endSession_credits _ r t) _ s
@[simp] theorem emptyGuestQueue_credits (s : State) :
    pathCredits (emptyGuestQueue s) = pathCredits s := countDrops_credits _ _
@[simp] theorem enterService_credits (old new : Service) (s : State) :
    pathCredits (enterService old new s) = pathCredits s := by
  unfold enterService
  have h1 : pathCredits (s.when (old == .opened) emptyGuestQueue) = pathCredits s := by
    unfold State.when; split <;> simp
  have h2 : pathCredits ((s.when (old == .opened) emptyGuestQueue).when (new == .closed) (endAllSessions .close)) = pathCredits s := by
    rw [← h1]; generalize s.when (old == .opened) emptyGuestQueue = x
    unfold State.when; split <;> simp
  exact h2
@[simp] theorem guestDecide_credits (s : State) :
    pathCredits (guestDecide s) = pathCredits s := by
  unfold guestDecide
  dsimp only
  split
  · rfl
  · exact (notify_credits _ _).trans (enterService_credits _ _ _)
@[simp] theorem unsendBatch_credits (batch : Nat) (s : State) :
    pathCredits (unsendBatch batch s) = pathCredits s := rfl
@[simp] theorem putBatch_credits (b : Option Batch) (s : State) :
    pathCredits (putBatch b s) = pathCredits s := rfl
@[simp] theorem putFile_credits (f : Option FileRequest) (s : State) :
    pathCredits (putFile f s) = pathCredits s := rfl
@[simp] theorem withdrawBatch_credits (n : Nat) (s : State) :
    pathCredits (withdrawBatch n s) = pathCredits s := rfl
@[simp] theorem withdrawFileRequest_credits (s : State) :
    pathCredits (withdrawFileRequest s) = pathCredits s := rfl
@[simp] theorem abortBatch_credits (s : State) :
    pathCredits (abortBatch s) = pathCredits s := by
  unfold abortBatch
  split <;> rfl
@[simp] theorem endRun_credits (upload download : PhaseResult) (s : State) :
    pathCredits (endRun upload download s) = pathCredits s := by
  unfold endRun
  extract_lets _ _ s1 s2 _ _ s3
  have h1 : pathCredits s1 = pathCredits s := rfl
  have h2 : pathCredits s2 = pathCredits s := (putFile_credits _ _).trans ((withdrawFileRequest_credits _).trans ((abortBatch_credits s1).trans h1))
  have h3 : pathCredits s3 = pathCredits s2 := rfl
  exact (notify_credits _ s3).trans (h3.trans h2)
@[simp] theorem closeIfDue_credits (t : Nat) (s : State) : pathCredits (closeIfDue t s) = pathCredits s := by
  unfold closeIfDue; dsimp only; split <;> rfl
@[simp] theorem declinePlace_credits (t : Nat) (r : DeclineReason) (s : State) : pathCredits (declinePlace t r s) = pathCredits s := by
  unfold declinePlace; dsimp only
  split
  · unfold declineAuthorizing; dsimp only; exact (closeIfDue_credits _ _).trans rfl
  · rfl
  · rfl
@[simp] theorem reportOutcome_credits (t : Nat) (o : AuthOutcome) (s : State) : pathCredits (reportOutcome t o s) = pathCredits s := by
  unfold reportOutcome
  split
  · rfl
  · rfl
  · exact declinePlace_credits _ _ _
@[simp] theorem withdrawAuth_credits (t : Nat) (s : State) : pathCredits (withdrawAuth t s) = pathCredits s := by
  unfold withdrawAuth; split
  · exact (guestDecide_credits _).trans rfl
  · rfl
@[simp] theorem decideEntry_credits (e : AuthEntry) (o : AuthOutcome) (s : State) : pathCredits (decideEntry e o s) = pathCredits s := by
  unfold decideEntry; exact (withdrawAuth_credits _ _ : _)
@[simp] theorem markExposure_credits (a : Nat) (o : AuthOutcome) (b : Bool) (s : State) : pathCredits (markExposure a o b s) = pathCredits s := by
  unfold markExposure; (repeat' split)
  · rfl
  · rfl
  · exact (notify_credits _ _).trans rfl
  · rfl
@[simp] theorem fallback_credits (e : AuthEntry) (s : State) : pathCredits (fallback e s) = pathCredits s := by
  unfold fallback fallbackEntry; dsimp only
  exact (reportOutcome_credits _ _ _).trans ((decideEntry_credits _ _ _).trans (markExposure_credits _ _ _ _))
@[simp] theorem authSessionEnd_credits (n : Nat) (s : State) : pathCredits (authSessionEnd n s) = pathCredits s :=
  foldl_credits _ (fun t u => by split <;> simp) _ s
@[simp] theorem beginDownload_credits (u : PhaseResult) (s : State) : pathCredits (beginDownload u s) = pathCredits s := rfl
@[simp] theorem batchBusy_credits (s : State) : pathCredits (batchBusy s) = pathCredits s := by
  unfold batchBusy; (repeat' split) <;> try rfl
  unfold failUpload; split
  · exact (beginDownload_credits _ _).trans (abortBatch_credits _)
  · exact abortBatch_credits _
@[simp] theorem fileRequestBusy_credits (s : State) : pathCredits (fileRequestBusy s) = pathCredits s := by
  unfold fileRequestBusy; (repeat' split) <;> try rfl
  exact endRun_credits _ _ _
@[simp] theorem transferSessionEnd_credits (n : Nat) (s : State) : pathCredits (transferSessionEnd n s) = pathCredits s := by
  unfold transferSessionEnd; extract_lets s1
  have h1 : pathCredits s1 = pathCredits s := by
    show pathCredits (match s.txe.batch with | some b => _ | none => _) = _
    (repeat' split) <;> simp
  rw [← h1]
  (repeat' split) <;> simp
@[simp] theorem officeSessionEnd_credits (n : Nat) (s : State) : pathCredits (officeSessionEnd n s) = pathCredits s := by
  unfold officeSessionEnd endWaits; dsimp only
  exact (foldl_credits _ (fun w u => notify_credits _ _) _ _).trans rfl
/-- Equal credits of both paths are equal credits of each. -/
theorem credits_of_pathCredits (p : Path) (s t : State) (h : pathCredits s = pathCredits t) : (s.ulc.path p).credits = (t.ulc.path p).credits := by
  cases p
  · exact congrArg Prod.fst h
  · exact congrArg Prod.snd h
/-- What a session's end does to the owners of its expiries leaves the credits of every path as they are (R109). -/
theorem sessionEnd_credits (p : Path) (n : Nat) (s : State) :
    ((officeSessionEnd n (transferSessionEnd n (authSessionEnd n s))).ulc.path p).credits = (s.ulc.path p).credits :=
  credits_of_pathCredits p _ _ (by simp)

end Sys2Proof.Laws
end

