-- ==== Sys2Proof/Laws/Taking.lean ====
section
/-! SUPPORT. How a statement follows a command to its end: the event that is taken at once, the write that a completion names, and what stays of a reply, a frame or a write in the state a command answers with. -/

namespace Sys2Proof.Laws

open Sys2Proof.Machine Sys2Proof.Safety

/-! ## What stays -/

theorem finish_after (s : State) : AfterEffects (view s) (view (finish s)) := (finish_runs s .refl).afterEffects

theorem finish_answered (s : State) (r : Reply) (h : r ∈ s.hlk.replies ∨ .host (.reply r) ∈ s.out) :
    r ∈ (finish s).hlk.replies ∨ .host (.reply r) ∈ (finish s).out := (finish_runs s .refl).answered r h

theorem hostPump_answered (s : State) (r : Reply) (h : r ∈ s.hlk.replies ∨ .host (.reply r) ∈ s.out) :
    r ∈ (hostPump s).hlk.replies ∨ .host (.reply r) ∈ (hostPump s).out := (hostPump_runs s .refl).answered r h

/-- A reply just given is a reply given. -/
theorem answered_reply (tag : Nat) (k : RequestKind) (r : Result) (b : ReplyBody) (s : State) :
    Answered (reply tag k r b s) tag k r b := Or.inl (List.mem_append_right _ (List.mem_singleton.2 rfl))

theorem finish_reply (tag : Nat) (k : RequestKind) (r : Result) (b : ReplyBody) (s : State) :
    Answered (finish (reply tag k r b s)) tag k r b := finish_answered _ _ (answered_reply ..)

/-! ## What beginning a request leaves alone -/

theorem begin_runs (s : State) : Runs .inner (view s) (view (beginRequest s)) := beginRequest_runs s .refl

theorem begin_running (s : State) : (beginRequest s).running = s.running := by
  have h := (begin_runs s).afterEffects.stops
  simp only [view, Prod.mk.injEq] at h
  unfold State.running
  rw [h.1, h.2.2.2]

@[simp] theorem joinRequest_kept_day (tag : Nat) (k : RequestKind) (s : State) : (joinRequest tag k s).day = s.day := rfl

theorem admitted_running (h : HostHead) (k : RequestKind) (s : State) : (admitted h k s).running = s.running :=
  begin_running s

theorem admitted_waiting (h : HostHead) (k : RequestKind) (s : State) : (admitted h k s).waiting = s.waiting :=
  congrArg Kept.waiting (beginRequest_kept s)
theorem admitted_nv (h : HostHead) (k : RequestKind) (s : State) : (admitted h k s).nv = s.nv :=
  congrArg Kept.nv (beginRequest_kept s)
theorem admitted_pbk (h : HostHead) (k : RequestKind) (s : State) : (admitted h k s).pbk = s.pbk :=
  congrArg Kept.pbk (beginRequest_kept s)
theorem admitted_labels (h : HostHead) (k : RequestKind) (s : State) : (admitted h k s).lrs.labels = s.lrs.labels :=
  congrArg Kept.labels (beginRequest_kept s)
theorem admitted_settings (h : HostHead) (k : RequestKind) (s : State) : (admitted h k s).settings = s.settings :=
  congrArg Kept.settings (beginRequest_kept s)
theorem admitted_identity (h : HostHead) (k : RequestKind) (s : State) : (admitted h k s).identity = s.identity :=
  congrArg Kept.identity (beginRequest_kept s)
theorem admitted_auz (h : HostHead) (k : RequestKind) (s : State) : (admitted h k s).auz = s.auz :=
  congrArg Kept.auz (beginRequest_kept s)
theorem admitted_timer (h : HostHead) (k : RequestKind) (s : State) : (admitted h k s).timer = s.timer :=
  congrArg Kept.timer (beginRequest_kept s)
theorem admitted_lock (h : HostHead) (k : RequestKind) (s : State) : (admitted h k s).hlk.lock = s.hlk.lock :=
  congrArg Kept.lock (beginRequest_kept s)
theorem admitted_phase (h : HostHead) (k : RequestKind) (s : State) :
    (admitted h k s).hlk.resetPhase = s.hlk.resetPhase := congrArg Kept.phase (beginRequest_kept s)
theorem admitted_replies (h : HostHead) (k : RequestKind) (s : State) :
    (admitted h k s).hlk.replies = s.hlk.replies := congrArg Kept.replies (beginRequest_kept s)
theorem admitted_exposure (h : HostHead) (k : RequestKind) (s : State) :
    (admitted h k s).sjr.exposure = s.sjr.exposure := (begin_runs s).afterEffects.exposure
theorem admitted_writeKeys (h : HostHead) (k : RequestKind) (s : State) :
    writeKeys (admitted h k s) = writeKeys s := by
  unfold writeKeys; rw [admitted_nv, admitted_pbk]

/-- An admitted request: no write has been stopped. -/
theorem admits_writes {s : State} {h : HostHead} (ha : Admits s h) (k : RequestKind) :
    writesStopped (admitted h k s) = false := by
  unfold writesStopped; rw [admitted_phase, ha.noReset]; rfl

/-! ## Events taken at once -/

/-- An event whose keys are free is taken by the draining that follows it. -/
theorem drainAll_ready (w : Work) (s : State) (hw : s.waiting = []) (hk : keysMeet (w.keys s) (writeKeys s) = false) :
    drainAll (queueWork w s) = takeWork w s := by
  have hq : (queueWork w s).waiting = [w] := by simp [hw]
  have hkeys : w.keys (queueWork w s) = w.keys s := by cases w <;> rfl
  have hbusy : writeKeys (queueWork w s) = writeKeys s := rfl
  have hback : { queueWork w s with waiting := [] } = s := by cases s; simp only at hw; subst hw; rfl
  unfold drainAll
  rw [hq]
  show drain 0 (takeReady (queueWork w s)) = _
  unfold drain takeReady
  rw [hq]
  unfold firstReady
  rw [hkeys, hbusy]
  dsimp only
  rw [hk]
  show takeWork w { queueWork w s with waiting := [] } = _
  rw [hback]

/-- What follows such an event is an inner run from the state in which it has been taken. -/
theorem finish_taken (w : Work) (s : State) (hr : s.running = true) (hw : s.waiting = [])
    (hk : keysMeet (w.keys s) (writeKeys s) = false) :
    Runs .inner (view (takeWork w s)) (view (finish (queueWork w s))) := by
  have hrun : (queueWork w s).running = true := hr
  have e : finish (queueWork w s) = hostPump (reactRunning (queueWork w s)) := by
    unfold finish react; rw [if_pos hrun]
  rw [e]
  unfold reactRunning
  rw [drainAll_ready w s hw hk]
  dsimp only
  refine hostPump_runs _ (testQuiet_runs _ (settleBatch_runs _ (pumpPaths_runs _ (transferStep_runs _
    (pumpPaths_runs _ (transferStep_runs _ ?_))))))
  exact drainAll_runs _ (radioStep_runs _ (tryAdmission_runs _ (journalStep_runs _ .refl)))

/-- An admitted request that joins those that wait, with its keys free. -/
theorem request_taken (h : HostHead) (k : RequestKind) (w : Work) (s : State) (ha : Admits s h) (hw : s.waiting = [])
    (hk : keysMeet (w.keys (admitted h k s)) (writeKeys s) = false) :
    ∃ t, request h k (queueWork w) s = .next t ∧ Runs .inner (view (takeWork w (admitted h k s))) (view t) := by
  refine ⟨_, request_admitted h k _ s ha, finish_taken w _ ?_ ?_ ?_⟩
  · rw [admitted_running]; exact ha.running
  · rw [admitted_waiting]; exact hw
  · rw [admitted_writeKeys]; exact hk

/-- A reply that the taking of an event gives stays given. -/
theorem Runs.answeredBy {s t : State} {tag : Nat} {k : RequestKind} {r : Result} {b : ReplyBody}
    (h : Runs .inner (view s) (view t)) (hs : Answered s tag k r b) : Answered t tag k r b := h.answered _ hs

theorem Runs.writeStays {s t : State} {w : NvWrite} (h : Runs .inner (view s) (view t)) (hs : w ∈ s.nv) : w ∈ t.nv :=
  h.afterEffects.nv.subset hs

theorem startWrite_mem (w : NvWrite) (s : State) (h : writesStopped s = false) : w ∈ (startWrite w s).nv := by
  unfold startWrite; rw [if_neg (by rw [h]; decide)]
  exact List.mem_append_right _ (List.mem_singleton.2 rfl)

/-! ## Writes that a completion names -/

/-- The first write that a property holds of, when it holds of none before it. -/
theorem takeWrite_first (p : NvWrite → Bool) (w : NvWrite) (pre post : List NvWrite) (hp : ∀ x ∈ pre, p x = false)
    (hw : p w = true) : takeWrite p (pre ++ w :: post) = some (w, pre ++ post) := by
  induction pre with
  | nil => simp [takeWrite, hw]
  | cons a pre ih =>
    have h1 : p a = false := hp a List.mem_cons_self
    rw [List.cons_append, takeWrite, if_neg (by rw [h1]; decide), ih fun x hx => hp x (List.mem_cons_of_mem _ hx)]
    rfl

/-- A completion of the write it names. -/
theorem completeWrite_first (p : NvWrite → Bool) (f : NvWrite → State → State) (w : NvWrite) (pre post : List NvWrite)
    (s : State) (hs : s.nv = pre ++ w :: post) (hp : ∀ x ∈ pre, p x = false) (hw : p w = true) :
    completeWrite p f s = f w { s with nv := pre ++ post } := by
  unfold completeWrite
  rw [hs, takeWrite_first p w pre post hp hw]

/-- An event at a running part. -/
theorem event_running (f : State → State) (s : State) (h : s.running = true) : event f s = .next (finish (f s)) := by
  unfold event; rw [if_pos h]

end Sys2Proof.Laws
end

