-- ==== Sys2Proof/Machine/Payloads.lean ====
section
/-! DEFINITION. The payloads of replies, notices and till frames in bytes, by R196's rule for a payload whose layout chapter 11 does not give: the fields its owning rule lists, in the order listed. The sizes that R196's table does not give are the model's (log entry 36). -/

namespace Sys2Proof.Machine

/-! ## Fields -/

/-- A flag in a byte of its own (log entry 36). -/
def flagBytes (b : Bool) : List Byte := numberBytes 1 (flagBit b 0)

/-- Flags in one byte, the first in the lowest bit (log entry 36). -/
def flagsByte : List Bool → Nat
  | [] => 0
  | b :: bs => flagBit b 0 + 2 * flagsByte bs

/-- A list: its count in one byte, then its entries (log entry 36). -/
def listBytes {α : Type} (f : α → List Byte) (l : List α) : List Byte := numberBytes 1 l.length ++ l.flatMap f

/-- An optional number in `k` bytes after its presence byte. -/
def presentNumber (k : Nat) (n : Option Nat) : List Byte := optionalBytes k (numberBytes k) n

/-- An optional name after its presence byte. -/
def presentName {α : Type} (code : α → Nat) (x : Option α) : List Byte := optionalBytes 1 (fun y => numberBytes 1 (code y)) x

/-! ## Names, coded from 0 in the order their chapter lists them (R196) -/

/-- NIGHT_FILE, HOST_REQUEST, HEAD_OFFICE (R1). -/
def Origin.code (x : Origin) : Nat := x.ctorIdx
/-- UNBOUND, ACTIVE, UNREACHABLE (R24). -/
def LabelState.code (x : LabelState) : Nat := x.ctorIdx
/-- PRIORITY, REFRESH (2.2). -/
def TxKind.code (x : TxKind) : Nat := x.ctorIdx
/-- ASLEEP, SETTLING, AWAKE (R34). -/
def RadioState.code (x : RadioState) : Nat := x.ctorIdx
/-- FREE, IDLE, BASKET, AUTHORIZING, ORPHANED (R49). -/
def PlaceState.code (x : PlaceState) : Nat := x.ctorIdx
/-- BOOK, KEYED (R49). -/
def LineOrigin.code (x : LineOrigin) : Nat := x.ctorIdx
/-- QUEUED, SENT, RETRY_WAIT, DECIDED (R72). -/
def EntryState.code (x : EntryState) : Nat := x.ctorIdx
/-- APPROVED_ONLINE, APPROVED_OFFLINE, DECLINED (R72). -/
def AuthOutcome.code (x : AuthOutcome) : Nat := x.ctorIdx
/-- BELOW_50, 50, 75, 90, 100 (R101). -/
def Level.code (x : Level) : Nat := x.ctorIdx
/-- DOWN, HELLO_WAIT, UP (R107). -/
def PathState.code (x : PathState) : Nat := x.ctorIdx
/-- PRIMARY, BACKUP (R107). -/
def pathCode (x : Path) : Nat := x.ctorIdx
/-- CARRIER_LOST, PROBES_MISSED, DEGRADED, RECOVERED, PATH_UP (R113). -/
def PathCause.code (x : PathCause) : Nat := x.ctorIdx
/-- EXPIRED, SESSION_END (R124). -/
def TimeoutCause.code (x : TimeoutCause) : Nat := x.ctorIdx
/-- TRICKLE, NIGHT (R133). -/
def BatchOwner.code (x : BatchOwner) : Nat := x.ctorIdx
/-- SENDING, WAITING_ACK, RETRY_WAIT (R133). -/
def BatchState.code (x : BatchState) : Nat := x.ctorIdx
/-- WAITING_ROOM, QUEUED, SENT, FEEDING, RETRY_WAIT (R144). -/
def FileState.code (x : FileState) : Nat := x.ctorIdx
/-- NOT_STARTED, UPLOAD, DOWNLOAD, ENDED (R141). -/
def RunState.code (x : RunState) : Nat := x.ctorIdx
/-- NIGHT_ENTRY, HOST_RERUN, HEAD_OFFICE (R141). -/
def StartCause.code (x : StartCause) : Nat := x.ctorIdx
/-- OK, FAILED, ABORTED, SKIPPED (R141). -/
def PhaseResult.code (x : PhaseResult) : Nat := x.ctorIdx
/-- CLOSED, OPEN, SHED (R151). -/
def Service.code (x : Service) : Nat := x.ctorIdx
/-- NIGHT, OPENING, OPEN, CLOSING, QUIET (9.3). -/
def StoreState.code (x : StoreState) : Nat := x.ctorIdx
/-- RUN, QUIET, HOLD (chapter 9). -/
def PowerState.code (x : PowerState) : Nat := x.ctorIdx
/-- POWER_ON, RESET_LINE, RESET_LINE_QUIET, HOST_RESET, HOLD_EXIT (R177). -/
def ResetCause.code (x : ResetCause) : Nat := x.ctorIdx
/-- HOST_REQUEST, TILL_HELLO, HEAD_OFFICE, PATH_CHANGE, OPEN_LEAD, SITE_LINE (R175). -/
def WakeCause.code (x : WakeCause) : Nat := x.ctorIdx
/-- SCHEDULE, HOST, TILLS_DONE, CLOCK_SET, QUIET_ENTRY, WAKE (R171). -/
def StateCause.code (x : StateCause) : Nat := x.ctorIdx
/-- DOOR, MAINS, ALARM_SET, SPARE (R172). -/
def siteLineCode (x : SiteLine) : Nat := x.ctorIdx
/-- HOST, HEAD_OFFICE (R166). SETTING CHANGED, for whose source R190 lists HEAD_OFFICE alone, carries the same code, 1: DESIGN CHOICE
(log entry 65). -/
def ClockSource.code (x : ClockSource) : Nat := x.ctorIdx
/-- Open lead, open, close (R168). -/
def ScheduleEvent.code (x : ScheduleEvent) : Nat := x.ctorIdx
/-- NONE, a record's sequence or NOT_RECORDED, AWAITING_OUTCOME, APPROVED, DECLINED (R67). The outcome of a place lost in BASKET, to
which R67 gives no name, has the code of its row, 1: DESIGN CHOICE (log entry 65). -/
def LostOutcome.code (x : LostOutcome) : Nat := x.ctorIdx

/-! ## Parts that several payloads share -/

/-- The four site lines in one byte, DOOR in the lowest bit (R172; log entry 36). -/
def linesByte (v : LineValues) : List Byte := numberBytes 1 (flagsByte [v.door, v.mains, v.alarmSet, v.spare])

/-- The conditions of R151 that fail, in one byte, DISABLED in the lowest bit (R152, R162; log entry 36). -/
def failingByte (l : List GuestCondition) : List Byte :=
  numberBytes 1 (flagsByte ([GuestCondition.disabled, .mains, .path, .journal, .auth].map fun c => l.contains c))

/-- A record's sequence, or NOT_RECORDED: the result and the sequence (R50, R59, R67, R68). -/
def recordedBytes : Option Nat → List Byte
  | some n => numberBytes 1 Result.ok.code ++ numberBytes 4 n
  | none => numberBytes 1 Result.notRecorded.code ++ numberBytes 4 0

/-- An outcome: its name, the authorization code, the reason (R72, R85, R86). -/
def outcomeBytes (o : AuthOutcome) : List Byte :=
  numberBytes 1 o.code ++
  match o with
  | .approvedOnline code => codeBytes (some code) ++ numberBytes 1 0
  | .approvedOffline => codeBytes none ++ numberBytes 1 0
  | .declined r => codeBytes none ++ numberBytes 1 r.code

/-- The reply that a LATE OUTCOME notice carries: APPROVED as 0 with its code, or DECLINED as 1 with its reason (R82, R196). -/
def lateReplyBytes : AuthOutcome → List Byte
  | .declined r => numberBytes 1 1 ++ codeBytes none ++ numberBytes 1 r.code
  | .approvedOnline code => numberBytes 1 0 ++ codeBytes (some code) ++ numberBytes 1 0
  | .approvedOffline => numberBytes 1 0 ++ codeBytes none ++ numberBytes 1 0

/-- A place's last result: the result, the sequence, the reason (R49). -/
def lastResultBytes : LastResult → List Byte
  | .saleClosed n => numberBytes 1 Result.saleClosed.code ++ numberBytes 4 n ++ numberBytes 1 0
  | .declined r => numberBytes 1 Result.declined.code ++ numberBytes 4 0 ++ numberBytes 1 r.code

/-- The outcome of a TILL LOST notice: its name, the record, the trace sequence (R67). -/
def lostBytes (o : LostOutcome) : List Byte :=
  numberBytes 1 o.code ++
  match o with
  | .none => numberBytes 5 0 ++ numberBytes 4 0
  | .recorded n => recordedBytes n ++ numberBytes 4 0
  | .awaiting t => numberBytes 5 0 ++ numberBytes 4 t
  | .approved n t => recordedBytes (some n) ++ numberBytes 4 t
  | .declined n t => recordedBytes n ++ numberBytes 4 t

/-- The fields of the night run record (R141). -/
def runBytes (r : NightRun) : List Byte :=
  numberBytes 1 r.state.code ++ presentName StartCause.code r.cause ++ presentNumber 4 r.startTime ++
  presentNumber 4 r.endTime ++ presentName PhaseResult.code r.upload ++ presentName PhaseResult.code r.download ++
  numberBytes 4 r.uploaded ++ numberBytes 4 r.received ++ numberBytes 4 r.rejected

/-- Batch aborts, late acknowledgements, late pieces (R147, R150). -/
def transferCountBytes (c : TransferCounts) : List Byte :=
  numberBytes 4 c.aborts ++ numberBytes 4 c.lateAcks ++ numberBytes 4 c.latePieces

/-- The value of a setting, by its id: 4 bytes, 1 for the closed weekdays, 11 for a window (11.3). -/
def settingValueBytes (id : Nat) : SettingValue → List Byte
  | .num v => signedBytes (if settingTarget id = some (.num .closedWeekdays) then 1 else 4) v
  | .window w => windowBytes w
  | .malformed => []

/-! ## Replies -/

/-- An item entry (R1). -/
def itemBytes (i : Item) : List Byte :=
  numberBytes 4 i.code ++ numberBytes 4 i.price ++ flagBytes i.openPrice ++
  optionalBytes 8 (fun p : Pending =>
    numberBytes 4 p.price ++ numberBytes 1 p.origin.code ++ numberBytes 2 p.number ++ flagBytes p.urgent) i.pending ++
  numberBytes 2 i.bound

/-- ITEM GET (R4). -/
def itemReportBytes (r : ItemReport) : List Byte :=
  optionalBytes 20 itemBytes r.entry ++ presentNumber 4 r.charge ++ presentNumber 1 r.slot ++
  optionalBytes 6 (fun q : Nat × Nat => numberBytes 2 q.1 ++ numberBytes 4 q.2) r.queued

/-- One slot of CHANGE STATUS (R21). -/
def slotReportBytes (r : SlotReport) : List Byte :=
  numberBytes 1 r.index ++ numberBytes 2 r.number ++ numberBytes 4 r.item ++ numberBytes 4 r.price ++
  numberBytes 1 r.origin.code ++ flagBytes r.urgent ++ numberBytes 4 r.issueTime ++ numberBytes 2 r.outstanding ++
  numberBytes 2 r.confirmed ++ numberBytes 2 r.unreachable

/-- A change queue entry (R10). -/
def queueEntryBytes (q : QueueEntry) : List Byte :=
  numberBytes 4 q.item ++ numberBytes 4 q.price ++ numberBytes 1 q.origin.code ++ flagBytes q.add ++ flagBytes q.urgent

/-- CHANGE STATUS (R21). -/
def changeReportBytes (r : ChangeReport) : List Byte :=
  listBytes slotReportBytes r.slots ++ numberBytes 1 r.freeSlots ++ numberBytes 1 r.nonUrgent ++
  numberBytes 2 r.queueLength ++ numberBytes 2 r.urgentEntries ++ numberBytes 2 r.addEntries ++
  optionalBytes 11 queueEntryBytes r.head ++ flagBytes r.headWaits ++ numberBytes 2 r.counter ++ numberBytes 2 r.drops

/-- LABEL GET (R24, R28). -/
def labelReportBytes (r : LabelReport) : List Byte :=
  let l := r.entry
  numberBytes 1 l.state.code ++ orZero 4 l.item ++ presentNumber 4 l.confirmed ++ presentNumber 4 l.floor ++
  numberBytes 1 l.failed ++ presentNumber 1 l.battery ++ optionalBytes 1 (signedBytes 1) l.margin ++ flagBytes l.health ++
  orZero 4 l.lastAck ++ presentNumber 4 r.target ++
  optionalBytes 3 (fun o : Nat × Nat => numberBytes 1 o.1 ++ numberBytes 2 o.2) r.outstanding ++
  optionalBytes 2 (fun o : Nat × TxKind => numberBytes 1 o.1 ++ numberBytes 1 o.2.code) r.inFlight

/-- The transmission in flight, as RADIO STATUS gives it (R48). -/
def transmissionBytes (t : Transmission) : List Byte :=
  numberBytes 2 t.label ++ numberBytes 1 t.number ++ numberBytes 4 t.price ++ numberBytes 1 t.kind.code ++
  flagBytes t.unboundMark

/-- RADIO STATUS (R48). -/
def radioReportBytes (r : RadioReport) : List Byte :=
  numberBytes 1 r.radio.code ++ flagBytes r.night ++ signedBytes 1 r.period ++ signedBytes 1 r.length ++
  flagBytes r.refreshEnabled ++ flagBytes r.burstRunning ++ flagBytes r.burstWaiting ++ numberBytes 1 r.made ++
  numberBytes 1 r.attempted ++ optionalBytes 9 transmissionBytes r.inFlight ++ numberBytes 2 r.cursor ++
  numberBytes 4 r.cycles ++ numberBytes 2 r.active ++ numberBytes 2 r.unreachable ++ numberBytes 2 r.flagged ++
  numberBytes 2 r.errors

/-- One place of TILL STATUS (R71). -/
def placeReportBytes (r : PlaceReport) : List Byte :=
  numberBytes 1 r.state.code ++ optionalBytes 6 addressBytes r.addr ++ numberBytes 4 r.sinceFrame ++ flagBytes r.busy ++
  numberBytes 1 r.lines ++ signedBytes 4 r.total ++ orZero 4 r.trace ++ optionalBytes 6 lastResultBytes r.lastResult

/-- One entry of AUTH STATUS (R86). -/
def authReportBytes (r : AuthReport) : List Byte :=
  numberBytes 1 r.till ++ numberBytes 4 r.trace ++ numberBytes 4 r.amount ++ numberBytes 16 r.card.toNat ++
  presentNumber 4 r.session ++ numberBytes 1 r.attempts ++ numberBytes 1 r.state.code ++
  optionalBytes 11 outcomeBytes r.outcome

/-- AUTH STATUS (R86). -/
def authStatusBytes (r : AuthStatusReport) : List Byte :=
  listBytes authReportBytes r.entries ++ signedBytes 4 r.exposure ++ signedBytes 4 r.commitment ++ signedBytes 4 r.sum ++
  signedBytes 1 r.mode ++ signedBytes 4 r.floorLimit ++ signedBytes 4 r.exposureLimit ++ signedBytes 1 r.retryLimit ++
  flagBytes r.mark ++ numberBytes 4 r.online ++ numberBytes 4 r.hoDeclines ++ numberBytes 4 r.offline ++
  numberBytes 4 r.fallbackDeclines ++ numberBytes 4 r.late

/-- JOURNAL INFO (R104). Places claimed, 0..32 by R91, take one byte by the sizes of log entry 36. -/
def journalReportBytes (r : JournalReport) : List Byte :=
  numberBytes 2 r.held ++ numberBytes 1 r.claimed ++ numberBytes 2 r.free ++ numberBytes 2 r.tenths ++ orZero 4 r.oldest ++
  orZero 4 r.newest ++ numberBytes 4 r.counter ++ numberBytes 2 r.unsent ++ signedBytes 4 r.exposure ++
  numberBytes 1 r.level.code ++ flagBytes r.promoteReached ++ flagBytes r.shedReached ++ numberBytes 1 r.queued ++
  flagBytes r.writing

/-- One path of UPLINK STATUS (R132). -/
def pathReportBytes (r : PathReport) : List Byte :=
  numberBytes 1 r.state.code ++ flagBytes r.carrier ++ presentNumber 4 r.session ++ flagBytes r.degraded ++
  numberBytes 1 r.outCount ++ numberBytes 1 r.missed ++ numberBytes 1 r.probes ++ presentNumber 4 r.roundTrip ++
  presentNumber 1 r.refusal

/-- A line of credit counts: grant, held, in use (R132). -/
def creditBytes (c : CreditCount) : List Byte := numberBytes 1 c.grant ++ numberBytes 1 c.held ++ numberBytes 1 c.inUse

/-- The credits of a session, the classes in code order and the shared pool (R132). -/
def creditsBytes (c : Credits) : List Byte :=
  creditBytes c.auth ++ creditBytes c.price ++ creditBytes c.journal ++ creditBytes c.office ++ creditBytes c.guest ++
  creditBytes c.shared

/-- UPLINK STATUS (R132). -/
def uplinkReportBytes (r : UplinkReport) : List Byte :=
  pathReportBytes r.primary ++ pathReportBytes r.backup ++ presentName pathCode r.active ++ numberBytes 4 r.sessions ++
  optionalBytes 18 creditsBytes r.credits ++
  r.queues.flatMap (fun q => numberBytes 1 q.1 ++ flagBytes q.2) ++ numberBytes 1 r.waits ++
  r.ticks.flatMap (fun c => signedBytes 1 c.1 ++ numberBytes 4 c.2.toNat) ++ numberBytes 2 r.isolation ++
  numberBytes 2 r.linkErrors ++ numberBytes 2 r.routeErrors

/-- The batch of TRANSFER STATUS, with both times left as optional fields (R150; log entry 54). -/
def batchReportBytes (r : BatchReport) : List Byte :=
  numberBytes 1 r.number ++ numberBytes 1 r.owner.code ++ numberBytes 1 r.state.code ++ numberBytes 1 r.members ++
  orZero 4 r.first ++ orZero 4 r.last ++ numberBytes 1 r.framesSent ++ presentNumber 4 r.windowLeft ++
  presentNumber 4 r.delayLeft

/-- The file request of TRANSFER STATUS, with both times left as optional fields (R150; log entry 54). -/
def fileReportBytes (r : FileReport) : List Byte :=
  numberBytes 1 r.state.code ++ numberBytes 2 r.piece ++ presentNumber 4 r.windowLeft ++ presentNumber 4 r.delayLeft

/-- TRANSFER STATUS (R150). -/
def transferReportBytes (r : TransferReport) : List Byte :=
  optionalBytes 23 batchReportBytes r.batch ++ flagBytes r.trickleMaySend ++ presentNumber 4 r.pauseLeft ++
  optionalBytes 13 fileReportBytes r.file ++ numberBytes 2 r.pieceNumber ++ runBytes r.run ++ transferCountBytes r.counts

/-- One session of GUEST LIST (R162). A quota that four signed bytes do not hold is written modulo 2^32: DESIGN CHOICE (log entry 59). -/
def sessionReportBytes (r : SessionReport) : List Byte :=
  numberBytes 1 r.entry ++ addressBytes r.addr ++ numberBytes 4 r.admitted ++ numberBytes 4 r.seconds ++
  signedBytes 4 r.quota ++ numberBytes 4 r.tokens ++ numberBytes 4 r.bytesOut ++ numberBytes 4 r.bytesIn

/-- GUEST LIST (R162). -/
def guestReportBytes (r : GuestReport) : List Byte :=
  numberBytes 1 r.service.code ++ failingByte r.failing ++ numberBytes 1 r.admitted ++ numberBytes 2 r.spent ++
  numberBytes 4 r.drops ++ listBytes sessionReportBytes r.sessions ++ presentNumber 1 r.next

/-- STORE STATUS (R180). -/
def storeReportBytes (r : StoreReport) : List Byte :=
  orZero 4 r.clock ++ presentNumber 1 r.weekday ++ presentNumber 2 r.minute ++ optionalBytes 1 flagBytes r.trading ++
  numberBytes 1 r.store.code ++ numberBytes 1 r.power.code ++ numberBytes 1 r.cause.code ++
  optionalBytes 3 (fun e : ScheduleEvent × Nat => numberBytes 1 e.1.code ++ numberBytes 2 e.2) r.nextEvent ++
  presentNumber 4 r.graceLeft ++ linesByte r.lines ++ linesByte r.reported ++ numberBytes 1 (flagsByte r.quietConditions) ++
  presentNumber 4 r.quietLeft ++ presentName WakeCause.code r.lastWake

/-- STATUS (R193). -/
def linkReportBytes (r : LinkReport) : List Byte :=
  numberBytes 1 r.cause.code ++ numberBytes 1 r.store.code ++ numberBytes 1 r.power.code ++ presentNumber 4 r.standalone ++
  numberBytes 4 r.sinceRequest ++ signedBytes 2 r.silenceLimit ++ flagBytes r.lock ++ flagBytes r.overrun ++
  numberBytes 1 r.requests ++ numberBytes 1 r.notices ++ orZero 2 r.headNumber ++ numberBytes 2 r.frameErrors ++
  numberBytes 2 r.officeDrops ++ flagBytes r.branchSet

/-- The payload of a reply (R196); that of IDENTIFY and of JOURNAL READ as chapter 11 gives it. -/
def replyPayload : ReplyBody → List Byte
  | .empty => []
  | .changeNumber n => numberBytes 2 n
  | .item r => itemReportBytes r
  | .changes r => changeReportBytes r
  | .label r => labelReportBytes r
  | .radio r => radioReportBytes r
  | .tills places grace errors => places.flatMap placeReportBytes ++ presentNumber 4 grace ++ numberBytes 2 errors
  | .released o => outcomeBytes o
  | .auths r => authStatusBytes r
  | .records rs next newest => journalReadBytes rs next newest
  | .journal r => journalReportBytes r
  | .uplink r => uplinkReportBytes r
  | .transfer r => transferReportBytes r
  | .ended n => numberBytes 1 n
  | .guests r => guestReportBytes r
  | .store r => storeReportBytes r
  | .setting id v lockable locked => settingValueBytes id v ++ flagBytes lockable ++ flagBytes locked
  | .identity vendor part revision serial branch =>
    numberBytes 2 vendor ++ numberBytes 2 part ++ numberBytes 2 revision ++ numberBytes 4 serial ++ numberBytes 2 branch
  | .link r => linkReportBytes r
  | .forwardNumber n => numberBytes 2 n

/-! ## Notices -/

/-- The wake cause that a STATE notice with cause WAKE carries also (R171). -/
def StateCause.wakeCause : StateCause → Option WakeCause
  | .wake c => some c
  | _ => none

/-- The fields of JOURNAL LEVEL (R101). -/
def levelReportBytes (r : LevelReport) : List Byte :=
  numberBytes 1 r.level.code ++ numberBytes 2 r.held ++ numberBytes 1 r.claimed ++ numberBytes 2 r.free ++ orZero 4 r.oldest ++
  orZero 4 r.newest ++ numberBytes 2 r.unsent ++ signedBytes 4 r.exposure

/-- The fields of a notice, after its number and flags byte, in the order their rule lists them (11.3, R196). A till that is lost has
its address bound, so that TILL LOST's needs no presence byte (R49, R67). GUEST STATE always has the byte of failing conditions and the
count of sessions ended, zero and with no presence byte where R152 gives the change none: DESIGN CHOICE (log entry 36). -/
def noticeFields : NoticeBody → List Byte
  | .start cause clock store run records slots lines =>
    numberBytes 1 cause.code ++ presentNumber 4 clock ++ numberBytes 1 store.code ++ flagBytes run ++
    numberBytes 2 records ++ numberBytes 1 slots ++ linesByte lines
  | .state old new clock cause =>
    numberBytes 1 old.code ++ numberBytes 1 new.code ++ numberBytes 4 clock ++ numberBytes 1 cause.code ++
    presentName WakeCause.code cause.wakeCause
  | .site line value clock lines =>
    numberBytes 1 (siteLineCode line) ++ flagBytes value ++ numberBytes 4 clock ++ linesByte lines
  | .clockSet old new source => orZero 4 old ++ numberBytes 4 new ++ numberBytes 1 source.code
  | .changeDone number item price confirmed unreachable =>
    numberBytes 2 number ++ numberBytes 4 item ++ numberBytes 4 price ++ numberBytes 2 confirmed ++ numberBytes 2 unreachable
  | .labelLost label item failed confirmed floor =>
    numberBytes 2 label ++ numberBytes 4 item ++ numberBytes 1 failed ++ presentNumber 4 confirmed ++ presentNumber 4 floor
  | .labelHealth label item battery margin low bad =>
    numberBytes 2 label ++ orZero 4 item ++ numberBytes 1 battery ++ signedBytes 1 margin ++
    numberBytes 1 (flagsByte [low, bad])
  | .tillLost till addr lostIn lines total outcome =>
    numberBytes 1 till ++ addressBytes (addr.getD 0) ++ numberBytes 1 lostIn.code ++ numberBytes 1 lines ++
    signedBytes 4 total ++ lostBytes outcome
  | .lateOutcome trace o path => numberBytes 4 trace ++ lateReplyBytes o ++ numberBytes 1 (pathCode path)
  | .authLimit exposure commitment amount limit =>
    signedBytes 4 exposure ++ signedBytes 4 commitment ++ signedBytes 4 amount ++ signedBytes 4 limit
  | .journalLevel r => levelReportBytes r
  | .uplink old new cause session primary backup primaryDegraded backupDegraded =>
    presentName pathCode old ++ presentName pathCode new ++ numberBytes 1 cause.code ++ presentNumber 4 session ++
    numberBytes 1 primary.code ++ flagBytes primaryDegraded ++ numberBytes 1 backup.code ++ flagBytes backupDegraded
  | .forwardTimeout n cause => numberBytes 2 n ++ numberBytes 1 cause.code
  | .inbound n late path payload cut =>
    numberBytes 2 n ++ flagBytes late ++ numberBytes 1 (pathCode path) ++ payload ++ flagBytes cut
  | .nightReport run unsent queued counts =>
    runBytes run ++ numberBytes 2 unsent ++ numberBytes 2 queued ++ transferCountBytes counts
  | .guestState old new sessions failing ended =>
    numberBytes 1 old.code ++ numberBytes 1 new.code ++ numberBytes 1 sessions ++ failingByte failing ++ numberBytes 1 ended
  | .hostReturn seconds dropped lost => numberBytes 4 seconds ++ numberBytes 2 dropped ++ flagBytes lost
  | .settingChanged id old new source =>
    numberBytes 2 id ++ settingValueBytes id old ++ settingValueBytes id new ++ numberBytes 1 source.code

/-! ## Till frames -/

/-- The payload of a frame to a till (R52, R53, R56, R58, R59, R61 to R64, R68). -/
def tillPayload : TillBody → List Byte
  | .empty => []
  | .place state lines total => numberBytes 1 state.code ++ numberBytes 1 lines ++ signedBytes 4 total
  | .poll state lines total trace last =>
    numberBytes 1 state.code ++ numberBytes 1 lines ++ signedBytes 4 total ++ orZero 4 trace ++
    optionalBytes 6 lastResultBytes last
  | .line number price origin total =>
    numberBytes 1 number ++ numberBytes 4 price ++ numberBytes 1 origin.code ++ signedBytes 4 total
  | .total t => signedBytes 4 t
  | .cancelled n => recordedBytes n
  | .cash n total change => numberBytes 4 n ++ signedBytes 4 total ++ signedBytes 4 change
  | .trace n => numberBytes 4 n
  | .card n total tender code => numberBytes 4 n ++ signedBytes 4 total ++ numberBytes 1 tender.code ++ codeBytes code
  | .declined r trace => numberBytes 1 r.code ++ numberBytes 4 trace
  | .voided reason n => numberBytes 1 reason.code ++ recordedBytes n

/-! ## Every frame the part sends -/

/-- A frame of the host link as it goes out (11.3, R197). -/
def hostFrameBytes : HostFrame → List Byte
  | .reply r => replyFrame r (replyPayload r.body)
  | .notice n => noticeFrame n (noticeFields n.body)

/-- The bytes of a frame the part puts on a port (R197); none for the beacon, to which chapter 11 gives no bytes. -/
def portBytes : Output → Option (List Byte)
  | .host f => some (hostFrameBytes f)
  | .till t a k r b => some (tillFrameBytes t a k r (tillPayload b))
  | .beacon => none
  | .priceFrame label number price => some (priceFrameBytes label number price)
  | .joinAnswer a r => some (guestFrame a 3 r.code 0 (joinPayload r))
  | .sessionEnd a reason => some (guestFrame a 4 reason.code 0 [])
  | .endAll => some (guestFrame (BitVec.allOnes 48) 4 EndReason.reset.code 0 [])
  | .guestData a payload => some (guestFrame a 5 0 0 payload)
  | .uplink _ f => some (uplinkFrame f)

end Sys2Proof.Machine
end

