-- ==== Sys2Proof/Tests/Slice0.lean ====
section
/-! SUPPORT. Small tests: the terms that well-formedness refuses, one step of a few commands, and for every statement with hypotheses a concrete state and operands that meet them, clause by clause. -/

namespace Sys2Proof.Tests

open Sys2Proof Sys2Proof.Machine Sys2Proof.Safety

-- One test after another: side by side, their kernel evaluations take a thread each.
set_option Elab.async false

/-! ## Well-formedness and the table's words -/

def head : HostHead := { tag := 1, fits := true }
def wideHead : HostHead := { tag := 256, fits := true }
def tillHead : TillHead := { till := 1, addr := 11, fits := true }
def wideTill : TillHead := { till := 256, addr := 11, fits := true }
def wideWindow : Window := { valid := true, base := 4294967296, limit := 0, scope := .blocked, office := false, guest := false }
def longBytes : List Byte := List.replicate 1020 0

/-- Each check of the host requests refuses a term of its own. -/
theorem test_wf_refuses_host : ([
    .itemAdd wideHead 1 1 false, .itemAdd head 4294967296 1 false, .itemAdd head 1 4294967296 false,
    .itemRemove wideHead 1, .itemRemove head 4294967296, .itemGet wideHead 1, .itemGet head 4294967296,
    .priceSet wideHead 1 1 false, .priceSet head 4294967296 1 false, .priceSet head 1 4294967296 false,
    .labelBind wideHead 1 1, .labelBind head 65536 1, .labelBind head 1 4294967296, .labelUnbind wideHead 1,
    .labelUnbind head 65536, .labelRetry wideHead 1, .labelRetry head 65536, .labelGet wideHead 1, .labelGet head 65536,
    .healthClear wideHead none, .healthClear head (some 65536), .authRelease wideHead 1, .authRelease head 256,
    .journalRead wideHead 1 1, .journalRead head 4294967296 1, .journalRead head 1 256, .guestList wideHead 1,
    .guestList head 256, .timeSet wideHead 1, .timeSet head 4294967296, .settingSet wideHead 101 (.num 1),
    .settingSet head 65536 (.num 1), .settingSet head 101 (.num 4294967296), .settingSet head 101 (.num (-2147483649)),
    .settingSet head 600 (.window wideWindow),
    .settingSet head 600 (.window { wideWindow with base := 0, limit := 4294967296 }), .settingGet wideHead 101,
    .settingGet head 65536, .branchSet wideHead 1, .branchSet head 65536, .forward wideHead 1 false [],
    .forward head 4294967296 false [], .forward head 1 false longBytes] : List Instr).all (fun c => !c.wf) = true := by
  decide +kernel

theorem test_wf_refuses_heads : ([
    .changeStatus wideHead, .burstNow wideHead, .radioStatus wideHead, .tillStatus wideHead, .authStatus wideHead,
    .journalInfo wideHead, .uplinkStatus wideHead, .nightRerun wideHead, .transferStatus wideHead,
    .guestEnd wideHead none, .openPrepare wideHead, .openStore wideHead, .closeStore wideHead, .storeStatus wideHead,
    .lock wideHead, .identify wideHead, .status wideHead, .reset wideHead, .noticeAck 256 1, .noticeAck 0 65536,
    .hello wideTill, .poll wideTill, .bye wideTill, .saleOpen wideTill, .saleCancel wideTill, .tenderCard wideTill 0,
    .lineAdd wideTill 1 1 none, .lineAdd tillHead 4294967296 1 none, .lineAdd tillHead 1 32768 none,
    .lineAdd tillHead 1 (-32769) none, .lineAdd tillHead 1 1 (some 4294967296), .lineVoid wideTill 1,
    .lineVoid tillHead 256, .tenderCash wideTill 1, .tenderCash tillHead 4294967296, .unknownRequest 256 36,
    .unknownRequest 1 256, .unknownRequest 1 35, .unknownRequest 1 255] : List Instr).all (fun c => !c.wf) = true := by
  decide +kernel

theorem test_wf_refuses_events : ([
    .tillSilenceExpiry 16, .authWaitExpiry 16, .authReplyExpiry 16, .authRetryDelayEnd 16,
    .badFrame (.tillKind tillHead 9), .badFrame (.tillKind tillHead 256), .badFrame (.tillKind wideTill 10),
    .labelAcknowledgement 65536 1 1 1 0, .labelAcknowledgement 1 256 1 1 0, .labelAcknowledgement 1 1 4294967296 1 0,
    .labelAcknowledgement 1 1 1 256 0, .labelAcknowledgement 1 1 1 1 128, .labelAcknowledgement 1 1 1 1 (-129),
    .floorWriteDone 4096, .labelBindWriteDone 4096, .labelUnbindWriteDone 4096, .labelRetryWriteDone 4096,
    .ackWriteDone 4096, .unreachableWriteDone 4096, .itemAddWriteDone 0, .itemAddWriteDone 4294967296,
    .itemRemoveWriteDone 0, .pendingWriteDone 0, .effectWriteDone 0, .settingWriteDone 65536, .guestTimeExpiry 64,
    .guestData 1 4294967296 []] : List Instr).all (fun c => !c.wf) = true := by
  decide +kernel

theorem test_wf_refuses_uplink : ([
    .helloAccept .primary ⟨256, 0, 0, 0, 0, 0⟩, .helloAccept .primary ⟨0, 256, 0, 0, 0, 0⟩,
    .helloAccept .primary ⟨0, 0, 256, 0, 0, 0⟩, .helloAccept .primary ⟨0, 0, 0, 256, 0, 0⟩,
    .helloAccept .primary ⟨0, 0, 0, 0, 256, 0⟩, .helloAccept .primary ⟨0, 0, 0, 0, 0, 256⟩, .helloRefused .primary 256,
    .probeReply .primary 256, .probeExpiry .primary 256, .credit .primary 256 1, .credit .primary 0 256,
    .authApproved .primary 4294967296 [], .authDeclined .primary 4294967296 1, .authDeclined .primary 1 256,
    .authBusy .primary 4294967296, .batchAckAccepted .primary 256 1 1, .batchAckAccepted .primary 0 4294967296 1,
    .batchAckAccepted .primary 0 1 4294967296, .batchAckBusy .primary 256, .piece .primary 65536 false [],
    .piece .primary 0 false (List.replicate 256 ⟨1, 1, false, false⟩), .piece .primary 0 false [⟨4294967296, 1, false, false⟩],
    .piece .primary 0 false [⟨1, 4294967296, false, false⟩], .noFile .primary 65536, .fileBusy .primary 65536,
    .officeReply .primary 65536 [], .officeReplyExpiry 0, .officeReplyExpiry 65536, .priceChange .primary 4294967296 1 false,
    .priceChange .primary 1 4294967296 false, .settings .primary 65536 (.num 1), .settings .primary 101 (.num 4294967296),
    .headOfficeTimeSet .primary 4294967296, .nightControl .primary 256, .unroutedUplinkFrame .primary 256,
    .unroutedUplinkFrame .primary 62] : List Instr).all (fun c => !c.wf) = true := by
  decide +kernel

/-- A payload longer than a frame's length field can count is refused. -/
theorem test_wf_refuses_payload (l : List Byte) (h : 65536 ≤ l.length) (a : Addr) (n d : Nat) :
    (Instr.guestReply .primary a l).wf = false ∧ (Instr.guestData a d l).wf = false ∧
    (Instr.officeReply .primary n l).wf = false ∧ (Instr.authApproved .primary n l).wf = false := by
  have e : payloadFits l = false := decide_eq_false (Nat.not_lt.2 h)
  refine ⟨e, ?_, ?_, ?_⟩
  · show (inBytes 4 d && payloadFits l) = false; rw [e, Bool.and_false]
  · show (inBytes 2 n && payloadFits l) = false; rw [e, Bool.and_false]
  · show (inBytes 4 n && payloadFits l) = false; rw [e, Bool.and_false]

theorem test_wf_accepts : ([
    .itemAdd head 4294967295 4294967295 true, .labelGet head 65535, .healthClear head none, .forward head 0 true [],
    .settingSet head 305 (.num (-1)), .settingSet head 1 .malformed, .noticeAck 255 65535, .lineAdd tillHead 0 (-32768) none,
    .labelAcknowledgement 65535 255 0 255 (-128), .helloAccept .backup ⟨255, 255, 255, 255, 255, 255⟩,
    .unknownRequest 0 0, .unknownRequest 1 36, .unroutedUplinkFrame .backup 1, .powerOn] : List Instr).all (·.wf) = true := by
  decide +kernel

/-- The table gives its rows no bits, so no word spells a command (log entry 35). -/
theorem test_no_word_spells_a_command : decodeTableWord 0 0 = none ∧ decodeTableWord 32 305419896 = none := by decide

/-! ## One step of a few commands -/

/-- Whether a command is answered with a next state of which a property holds. -/
def ok (o : Out) (p : State → Bool) : Bool := match o with | .next t => p t | _ => false

/-- A branch in the middle of a day: three items, a slot, labels, tills in every state, a path UP, guests and a batch. -/
def shop : State :=
  { State.reset with
    timer := 1000
    identity := { State.reset.identity with branch := some 12 }
    pbk :=
      { items :=
          [ { code := 7, price := 250, openPrice := false, pending := none, bound := 2 },
            { code := 8, price := 100, openPrice := true, pending := none, bound := 0 },
            { code := 9, price := 80, openPrice := false, bound := 1
              pending := some { price := 70, origin := .hostRequest, number := 5, urgent := false } } ]
        queue := [{ item := 20, price := 5, origin := .nightFile, add := true, urgent := false }]
        counter := 5, taken := 5
        slots := [some
          { number := 5, item := 9, price := 70, origin := .hostRequest, urgent := false, outstanding := [6], issueTime := 0
            confirmed := 0, unreachable := 0, stage := .labelling }] ++ List.replicate 31 none
        drops := 0, ops := [] }
    lrs := { State.reset.lrs with
      radio := .awake, settleEnd := none, nextBeacon := some 5000
      labels :=
        [ { id := 3, state := .active, item := some 7, confirmed := some 250, floor := some 199, failed := 1, battery := some 90
            margin := some 10, health := true, lastAck := none },
          { id := 4, state := .unreachable, item := some 7, confirmed := some 240, floor := none, failed := 5, battery := none
            margin := none, health := false, lastAck := none },
          { id := 6, state := .active, item := some 9, confirmed := some 80, floor := none, failed := 0, battery := none
            margin := none, health := false, lastAck := none } ] }
    tsu := { State.reset.tsu with
      places :=
        [ { freePlace with state := .idle, addr := some 10 },
          { freePlace with
              state := .basket, addr := some 11
              basket :=
                [ { number := 1, item := 7, qty := 2, price := 199, origin := .book, voided := false },
                  { number := 2, item := 7, qty := 1, price := 199, origin := .book, voided := true } ] },
          { freePlace with state := .authorizing, addr := some 12, trace := some 5 },
          { freePlace with state := .orphaned, addr := some 13, trace := some 6 },
          { freePlace with state := .basket, addr := some 14, busy := true },
          { freePlace with state := .basket, addr := some 15 } ] ++ List.replicate 10 freePlace }
    auz := { State.reset.auz with
      entries :=
        [ { till := 2, trace := 5, amount := 100, card := 1, session := some 1, attempts := 1, state := .sent, outcome := none
            expiry := some 0, retryEnd := none },
          { till := 3, trace := 6, amount := 50, card := 1, session := none, attempts := 0, state := .queued, outcome := none
            expiry := some 0, retryEnd := none } ] }
    sjr := { State.reset.sjr with
      counter := 6
      records :=
        [ { seq := 5, till := 2, time := 0, body := .authTrace 100 1, sent := some 3 },
          { seq := 6, till := 3, time := 0, body := .authTrace 50 1, sent := none } ]
      unsent := 1
      claims := [0, 0, 2, 2] ++ List.replicate 12 0 }
    ulc := { State.reset.ulc with
      carrierPrimary := true
      active := some .primary
      sessions := 1
      primary := { resetPath with
        state := .up, carrier := true, session := some 1, nextProbe := some 9000
        probes := [{ number := 0, sentAt := 900, expiry := 0 }], probeNumber := 1
        credits := some
          { auth := { grant := 2, held := 1, inUse := 1 }, price := { grant := 1, held := 1, inUse := 0 }
            journal := { grant := 1, held := 0, inUse := 1 }, office := { grant := 0, held := 0, inUse := 0 }
            guest := { grant := 1, held := 1, inUse := 0 }, shared := { grant := 20, held := 19, inUse := 1 } } }
      waits := [{ forward := 9, session := 1, expiry := 0 }]
      lastForward := 9 }
    txe := { State.reset.txe with
      nextBatch := 4
      batch := some
        { number := 3, members := [5], owner := .trickle, state := .waitingAck, framesSent := 1, firstSent := some 500
          toOffer := [], lastSession := 1, expiry := some { tick := 0, session := 1 }, retryEnd := none
          accepted := false } }
    gac := { State.reset.gac with
      service := .opened
      sessions := some
        { addr := 20, admitted := 0, endsAt := 61000, quota := 1000, tokenBits := 8000, tokenTime := 1000, bytesOut := 0
          bytesIn := 0 } :: List.replicate 63 none
      spent := [21] }
    day := { State.reset.day with clock := some 50000, store := .opened, quietAt := none } }

/-- The same on hold by the reset line, and in QUIET. -/
def stopped : State := { shop with day := { shop.day with resetLine := true, stopped := some .resetLine } }
def asleep : State :=
  { shop with
    day := { shop.day with store := .quiet, power := .quiet }
    lrs := { shop.lrs with radio := .asleep } }

/-- The charge price of item 7 is its label's floor; with a branch open, a line takes it. -/
theorem test_line_takes_the_floor : ok (exec (.lineAdd tillHead 7 1 none) shop) (fun t =>
    t.out.contains (.till 1 11 .lineAdd .ok (.line 3 199 .book 597))) = true := by decide +kernel

theorem test_cash_tender_waits_for_its_record : ok (exec (.tenderCash tillHead 400) shop) (fun t =>
    (placeAt t 1).busy && t.sjr.claims == [0, 1, 2, 2] ++ List.replicate 12 0 && t.sjr.writing.isSome) = true := by
  decide +kernel

theorem test_sale_is_closed_when_durable : ok (exec (.tenderCash tillHead 400) shop) (fun t =>
    ok (exec .journalAppendDone t) fun u =>
      u.out.contains (.till 1 11 .tenderCash .saleClosed (.cash 7 398 2)) && (placeAt u 1).state == .idle &&
      u.sjr.exposure == 0 && u.sjr.claims == [0, 0, 2, 2] ++ List.replicate 12 0) = true := by decide +kernel

theorem test_approval_sells_offline_too : ok (exec (.authRelease head 2) shop) (fun t =>
    t.auz.fallbackDeclines + t.auz.offline == 1) = true := by decide +kernel

theorem test_reset_line_clears_and_keeps : ok (exec .resetLineAssert shop) (fun t => !t.running &&
    ok (exec .resetLineRelease t) fun u => u.running && u.day.cause == .resetLine && u.pbk.items == shop.pbk.items &&
      u.day.clock == some 50000 && u.sjr.unsent == 2) = true := by decide +kernel

theorem test_quiet_request_wakes : ok (exec (.status head) asleep) (fun t =>
    t.day.power == .run && t.lrs.radio == .settling) = true := by decide +kernel

theorem test_step_runs_the_queue : ok (step { shop with pending := [.lock head, .reset head] }) (fun t =>
    t.hlk.lock && t.pending == [.reset head]) = true := by decide +kernel

theorem test_batch_acknowledged : ok (exec (.batchAckAccepted .primary 3 5 5) shop) (fun t =>
    t.sjr.removing.isSome && ok (exec .journalRemovalDone t) fun u =>
      u.sjr.held == 1 && u.txe.batch.all (fun b => b.members != [5])) = true := by decide +kernel

/-- A head that has been taken and whose removal is being written waits for no slot (R21). -/
theorem test_head_leaving_waits_for_nothing :
    (let full := { shop with pbk := { shop.pbk with slots := List.replicate 32 shop.pbk.slots.head!, ops := [] } }
     headWaits full = true ∧
     headWaits { full with pbk := { full.pbk with ops := [{ action := .remove 20, answer := .nobody }] } } = false) := by
  decide +kernel

/-- The grace left is 0 once it has run out in CLOSING, and absent in another state (R180). -/
theorem test_grace_left :
    (closingLeft { shop with day := { shop.day with store := .closing } } = some 0 ∧ closingLeft shop = none ∧
      closingLeft { shop with tsu := { shop.tsu with grace := some 1500 }, day := { shop.day with store := .closing } } = some 500) ∧
    (lateReplyBytes (.declined (.headOffice 4))).head? = some 1 ∧ (lateReplyBytes (.approvedOnline [1])).head? = some 0 := by
  decide +kernel

/-! ## Witnesses: the hypotheses of every statement are met

One theorem for each statement that has hypotheses, its clauses in their order. -/

/-- A shop whose settings differ in one place. -/
def withSetting (n : SettingId) (v : Int) (s : State) : State :=
  { s with settings := { s.settings with vals := s.settings.vals.set n.ctorIdx v } }
def withWindow (w : Window) (s : State) : State :=
  { s with settings := { s.settings with windows := s.settings.windows.set 0 w } }
def everywhere (c : Scope) : Window :=
  { valid := true, base := 0, limit := 4294967295, scope := c, office := true, guest := true }
/-- A shop with one till place changed. -/
def withPlace (t : Nat) (p : Place) (s : State) : State := putPlace t p s
/-- A shop with one write under way. -/
def writing (w : NvWrite) : State := { shop with nv := [w] }

def bigItems : List Item := List.replicate 8192 { code := 1, price := 1, openPrice := false, pending := none, bound := 0 }
def bigQueue : List QueueEntry := List.replicate 8192 { item := 1, price := 1, origin := .hostRequest, add := false, urgent := false }

theorem ready_of (s : State) (ks : List Key) (e : (s.waiting.isEmpty && !keysMeet ks (writeKeys s)) = true) : Ready s ks := by
  simp only [Bool.and_eq_true, List.isEmpty_iff, Bool.not_eq_true'] at e
  exact ⟨e.1, e.2⟩

/-- Both ends of the tag's range are admitted, and the highest number of waiting requests. -/
theorem witness_admits : Admits shop head ∧ Admits shop { tag := 255, fits := true } ∧
    Admits { shop with hlk := { shop.hlk with requests := List.replicate 7 { tag := 9, kind := .status } } } head := by
  refine ⟨?_, ?_, ?_⟩ <;> constructor <;> decide +kernel

def full : State := { shop with hlk := { shop.hlk with requests := List.replicate 8 { tag := 9, kind := .status } } }

theorem witness_EmptyQueueIsOneMillisecond :
    (shop.pending = [] ∧ shop.running = true) ∧
    (stopped.pending = [] ∧ stopped.running = false ∧ clockCounts stopped = true) ∧
    (∃ s : State, s.pending = [] ∧ s.running = false ∧ clockCounts s = false) := by
  refine ⟨by decide +kernel, by decide +kernel, { shop with day := { shop.day with powered := false } }, by decide +kernel⟩

theorem witness_CommandsChangeOnlyTheirAreas :
    ok (exec .beacon shop) (fun _ => true) = true ∧ (∀ a, areas .beacon a = false) ∧ TablesKeyed shop := by
  refine ⟨by decide +kernel, fun a => by cases a <;> rfl, by constructor <;> decide +kernel⟩

theorem witness_StoppedPartTakesNothing : stopped.running = false ∧ areas .beacon .resets = false ∧
    (∀ l v, Instr.beacon ≠ .siteLineChange l v) ∧ (∀ p, Instr.beacon ≠ .carrierPresent p) ∧
    (∀ p, Instr.beacon ≠ .carrierAbsent p) := by
  refine ⟨by decide +kernel, rfl, ?_, ?_, ?_⟩ <;> intros <;> simp

theorem witness_ResetsKeepTheNvStore : TablesKeyed shop := by
  constructor <;> decide +kernel

def locked : State := { shop with hlk := { shop.hlk with lock := true } }

theorem witness_LockHoldsUntilAReset :
    (locked.hlk.lock = true ∧ ok (exec .resetLineAssert locked) (fun t =>
      t.hlk.lock && ok (exec .resetLineRelease t) fun u => !u.hlk.lock) = true) ∧
    Admits locked head ∧ Ready locked [settingKey 302] ∧ Ready shop [settingKey 101] ∧
    (settingTarget 302 = some (.num .floorLimit) ∧ lockable (.num .floorLimit) = true) ∧
    (settingTarget 600 = some (.window 0) ∧ settingTarget 615 = some (.window 15)) ∧
    (settingTarget 101 = some (.num .ackWindow) ∧ lockable (.num .ackWindow) = false) ∧
    settingTakes shop.settings (.num .ackWindow) (.num 9) = false ∧
    settingTakes shop.settings (.num .ackWindow) (.num 10) = true ∧
    heldValue shop.settings (.num .ackWindow) = .num 50 ∧ settingTakes shop.settings (.num .ackWindow) (.num 50) = true := by
  refine ⟨by decide +kernel, by constructor <;> decide +kernel, ready_of _ _ (by decide +kernel), ready_of _ _ (by decide +kernel), ?_⟩
  decide +kernel

/-- The invariants hold of the shop, whose next step goes on. -/
theorem witness_SettingsStaySound : SettingsSound shop ∧ ok (step shop) (fun _ => true) = true := by
  refine ⟨⟨by decide +kernel, by decide +kernel, fun n => by cases n <;> decide +kernel, by decide +kernel, fun i => ?_,
    fun id x src h => ?_, by decide +kernel⟩, by decide +kernel⟩
  · rcases Nat.lt_or_ge i 16 with h | h
    · revert h; revert i; decide +kernel
    · have e : shop.settings.window i = defaultWindow := by
        unfold Settings.window
        rw [List.getD_eq_getElem?_getD, List.getElem?_eq_none (by exact h)]; rfl
      rw [e]; decide +kernel
  · exact absurd h (by simp [shop, State.reset])
theorem witness_JournalFiguresStayExact : JournalFigures shop ∧ ok (step shop) (fun _ => true) = true := by
  refine ⟨⟨?_, ?_, ?_, fun w h => ?_⟩, ?_⟩
  case refine_4 => exact absurd h (by simp [shop, State.reset])
  all_goals decide +kernel
theorem witness_CreditsStayWithinTheirGrants : CreditsWithinGrant shop ∧ ok (step shop) (fun _ => true) = true := by
  refine ⟨fun p c h => ?_, by decide +kernel⟩
  cases p
  · have h2 := Option.some.inj h
    subst h2
    constructor <;> exact And.intro rfl (by decide)
  · exact absurd h (by simp [shop, State.reset, Ulc.path, resetPath])
theorem witness_CapacitiesAreKept : Capacities shop ∧ ok (step shop) (fun _ => true) = true := by
  refine ⟨?_, by decide +kernel⟩
  constructor
  case replies => intro k f h; cases k <;> exact absurd h (by simp [shop, State.reset, Ulc.queue])
  all_goals decide +kernel
theorem witness_TablesStayKeyed : TablesKeyed shop ∧ ok (step shop) (fun _ => true) = true := by
  refine ⟨⟨?_, ?_, ?_, ?_⟩, ?_⟩ <;> decide +kernel

/-! ### Host requests -/

theorem witness_RequestsTurnedAway :
    hostRequest (.status head) = some (head, .status) ∧ shop.running = true ∧
    (wideHead.tag = 256 ∧ ({ tag := 0, fits := true } : HostHead).tag = 0) ∧
    tagInUse full 9 = true ∧ tagInUse full 1 = false ∧ tagInUse full 255 = false ∧ full.hlk.requests.length = 8 ∧
    shop.hlk.requests.length < 8 ∧ shop.hlk.resetPhase = .none ∧ tagInUse shop 1 = false := by decide +kernel

theorem witness_StatusRequestsAnswered : Admits shop head ∧ Admits asleep { tag := 255, fits := true } := by
  constructor <;> constructor <;> decide +kernel

theorem witness_ReadingRequestsAnswered : Admits shop head ∧
    settingTarget 100 = none ∧ settingTarget 0 = none ∧ settingTarget 616 = none ∧
    (settingTarget 1002).isSome = true ∧ settingTarget 1003 = none := by
  refine ⟨by constructor <;> decide +kernel, by decide +kernel⟩

theorem witness_ItemGetDecided :
    (∀ i ∈ [0, 1, 7, 20, 21, 4294967295, 4294967296], Ready shop [.item i]) ∧ (findItem shop 7).isSome = true ∧ addWaits shop 20 = true ∧
    (findItem shop 21).isNone = true ∧ addWaits shop 21 = false ∧ findItem shop 1 = none ∧ findItem shop 4294967295 = none := by
  refine ⟨fun i h => ready_of _ _ ?_, by decide +kernel⟩
  revert i; decide +kernel

theorem witness_ItemAddDecided :
    (∀ i ∈ [0, 1, 7, 20, 4294967295], Ready shop [.item i]) ∧
    (findItem shop 7).isSome = true ∧ addWaits shop 20 = true ∧
    ((findItem shop 4294967295).isNone = true ∧ addWaits shop 4294967295 = false ∧ bookLoad shop = 4) := by
  refine ⟨fun i h => ready_of _ _ ?_, by decide +kernel⟩
  revert i; decide +kernel
/-- A full book: as many entries as it holds. -/
theorem witness_ItemAddDecided_full (l : List Item) (h : l = bigItems) (s : State)
    (hs : s = { State.reset with pbk := { State.reset.pbk with items := l } }) :
    findItem s 2 = none ∧ addWaits s 2 = false ∧ 8192 ≤ bookLoad s ∧ Admits s head ∧ Ready s [.item 2] := by
  have h1 : 8192 ≤ l.length := by rw [h]; exact Nat.le_of_eq List.length_replicate.symm
  have h2 : ∀ x ∈ l, x.code = 1 := fun x hx => by rw [h] at hx; rw [List.eq_of_mem_replicate hx]
  clear h
  subst hs
  refine ⟨List.find?_eq_none.2 fun x hx => ?_, rfl, Nat.le_trans h1 (Nat.le_refl _), ?_, rfl, rfl⟩
  · rw [h2 x hx]; decide
  · exact ⟨rfl, by decide, by decide, rfl, Nat.zero_lt_succ 7, rfl, rfl⟩

theorem witness_ItemRemoveDecided :
    (∀ i ∈ [0, 1, 7, 8, 9, 21, 4294967295, 4294967296], Ready shop [.item i]) ∧ findItem shop 1 = none ∧
    findItem shop 4294967295 = none ∧
    (findItem shop 9).any (fun e => e.pending.isSome) = true ∧
    (findItem shop 7).any (fun e => e.pending.isNone && decide (0 < e.bound)) = true ∧
    (findItem shop 8).any (fun e => e.pending.isNone && e.bound == 0) = true := by
  refine ⟨fun i h => ready_of _ _ ?_, by decide +kernel⟩
  revert i; decide +kernel

theorem witness_PriceSetDecided :
    (∀ i ∈ [0, 7, 9, 20, 21], Ready shop [.item i]) ∧
    ((findItem shop 21).isNone = true ∧ addWaits shop 21 = false) ∧ ((findItem shop 7).isSome = true ∧ addWaits shop 20 = true) ∧
    (slotOf shop 9).isSome = true ∧ (slotOf shop 7 = none ∧ addWaits shop 7 = false ∧ (freeSlot shop).isSome = true) ∧
    slotOf shop 20 = none ∧ (queueEntryOf shop 20).isSome = true ∧ queueEntryOf shop 7 = none ∧ queueCount shop = 1 := by
  refine ⟨fun i h => ready_of _ _ ?_, by decide +kernel⟩
  revert i; decide +kernel
/-- No slot free: an urgent change joins the queue; a full change queue: it does not. -/
theorem witness_PriceSetDecided_full (l : List QueueEntry) (h : l = bigQueue) (s : State)
    (hs : s = { shop with pbk := { shop.pbk with
      slots := List.replicate 32 (some
        { number := 5, item := 9, price := 70, origin := .hostRequest, urgent := false, outstanding := [6], issueTime := 0
          confirmed := 0, unreachable := 0, stage := .labelling })
      queue := l } }) :
    freeSlot s = none ∧ slotOf s 7 = none ∧ queueEntryOf s 7 = none ∧ 8192 ≤ queueCount s ∧ Admits s head ∧
    Ready s [.item 7] := by
  have h1 : 8192 ≤ l.length := by rw [h]; exact Nat.le_of_eq List.length_replicate.symm
  have h2 : ∀ x ∈ l, x.item = 1 := fun x hx => by rw [h] at hx; rw [List.eq_of_mem_replicate hx]
  clear h
  subst hs
  refine ⟨rfl, rfl, List.find?_eq_none.2 fun x hx => ?_, Nat.le_trans h1 (Nat.le_add_right _ _), ?_, rfl, rfl⟩
  · rw [h2 x hx]; decide
  · exact ⟨rfl, by decide, by decide, rfl, Nat.zero_lt_succ 7, rfl, rfl⟩

theorem witness_LabelRequestsDecided :
    (∀ ks ∈ [[Key.label 5, .item 7], [.label 4095, .item 21], (Work.unbind 1 3).keys shop, (Work.unbind 1 5).keys shop,
      [.label 4]], Ready shop ks) ∧
    ((shop.label 3).state ≠ .unbound ∧ (shop.label 5).state = .unbound ∧ (shop.label 4095).state = .unbound ∧
      (findItem shop 21).isNone = true ∧ (findItem shop 7).isSome = true) ∧
    ((shop.label 5).item = none ∧ (shop.label 3).item = some 7) ∧
    ((shop.label 3).state ≠ .unreachable ∧ (shop.label 4).state = .unreachable) := by
  refine ⟨fun ks h => ready_of _ _ ?_, by decide +kernel⟩
  revert ks; decide +kernel

theorem witness_SettingSetDecided :
    Ready shop [settingKey 901] ∧ Admits locked head ∧ settingTarget 907 = none ∧
    (settingTarget 901 = some (.num .openTime) ∧ settingTarget 803 = some (.num .sessionLimit) ∧ locked.hlk.lock = true ∧
      lockable (.num .sessionLimit) = true) ∧
    (settingTakes shop.settings (.num .openTime) (.num 1260) = false ∧
      settingTakes shop.settings (.num .openTime) (.num 1259) = true ∧
      settingTakes shop.settings (.num .openTime) (.num 480) = true ∧
      heldValue shop.settings (.num .openTime) = .num 480) := by
  refine ⟨ready_of _ _ (by decide +kernel), by constructor <;> decide +kernel, by decide +kernel⟩

theorem witness_BranchSetDecided :
    branchTaken shop = true ∧ branchTaken State.reset = false ∧ Admits State.reset head ∧
    branchTaken { State.reset with nv := [.branch 2 65535] } = true := by
  refine ⟨by decide +kernel, by decide +kernel, by constructor <;> decide +kernel, by decide +kernel⟩

theorem witness_BurstNowDecided : Admits asleep head ∧ (asleep.day.power = .quiet ∧ State.reset.lrs.radio ≠ .awake) ∧
    (shop.day.power ≠ .quiet ∧ shop.lrs.radio = .awake ∧ shop.lrs.burst = none ∧ shop.lrs.waitingBurst = none) ∧
    ({ shop with lrs := { shop.lrs with waitingBurst := some 8 } } : State).lrs.waitingBurst.isSome = true := by
  refine ⟨by constructor <;> decide +kernel, by decide +kernel⟩

theorem witness_HealthClearDecided : Admits shop head ∧ TablesKeyed shop ∧ (shop.label 3).health = true ∧
    (ok (exec (.healthClear head (some 4)) shop) fun t => (t.label 3).health) = true :=
  ⟨witness_admits.1, witness_ResetsKeepTheNvStore, by decide +kernel, by decide +kernel⟩

theorem witness_AuthReleaseDecided : entryOf shop 15 = none ∧ (entryOf shop 2).any (fun e => e.state != .decided) = true ∧
    (entryOf { shop with auz := { shop.auz with entries := shop.auz.entries.map fun e => { e with state := .decided } } } 3).any
      (fun e => e.state == .decided) = true := by decide +kernel

/-- The shop with the fallback limits set. -/
def limits : State := withSetting .fallbackMode 1 (withSetting .floorLimit 5000 (withSetting .exposureLimit 200 shop))

/-- A fallback that approves, one that the exposure check declines, and one that OFF declines; an entry whose frame waits; an
AUTHORIZING place inside and outside the closing grace, and an ORPHANED one. -/
theorem witness_AuthReleaseDecided_outcome :
    (fallbackDecision limits 200 = (.approvedOffline, false) ∧ fallbackDecision limits 201 = (.declined .unavailable, true) ∧
      fallbackDecision limits 5001 = (.declined .unavailable, false) ∧
      fallbackDecision shop 1 = (.declined .unavailable, false)) ∧
    (limits.auz.mark = false ∧ (markExposure 201 (.declined .unavailable) true limits).auz.mark = true ∧
      (markExposure 200 .approvedOffline false { limits with auz := { limits.auz with mark := true } }).auz.mark = false) ∧
    (({ shop with ulc := { shop.ulc with authQ := [.authRequest 6 50 1 12] } } : State).ulc.authQ.any (fun f => f.hasTrace 6) = true ∧
      shop.ulc.authQ.any (fun f => f.hasTrace 6) = false) ∧
    ((placeAt shop 3).state = .orphaned ∧ (placeAt shop 2).state = .authorizing ∧ shop.day.store ≠ .closing) ∧
    (let s : State := { shop with day := { shop.day with store := .closing } }
     s.day.store = .closing ∧ s.tsu.grace = none ∧ (placeAt s 2).busy = false ∧ (placeAt s 2).state = .authorizing ∧
     (reportOutcome 2 (.declined .unavailable) s).sjr.queue.length = 1 ∧
     (reportOutcome 2 (.declined .unavailable) { s with tsu := { s.tsu with grace := some 2000 } }).sjr.queue = []) := by
  decide +kernel

def night : State := { shop with day := { shop.day with store := .night } }

theorem witness_NightRerunDecided : Admits shop head ∧ Admits night head ∧
    (admitted head .nightRerun shop).day.store ≠ .night ∧ (admitted head .nightRerun night).day.store = .night ∧
    (admitted head .nightRerun night).txe.run.state = .notStarted ∧
    (admitted head .nightRerun { night with txe := { night.txe with run := { night.txe.run with state := .upload } } }).txe.run.state
      = .upload := by
  refine ⟨by constructor <;> decide +kernel, by constructor <;> decide +kernel, by decide +kernel⟩

theorem witness_GuestEndDecided : sessionOf (admitted head .guestEnd shop) 22 = none ∧
    sessionOf (admitted head .guestEnd shop) 20 = some 0 ∧ (sessionAt (admitted head .guestEnd shop) 0).isSome = true ∧
    (admitted head .guestEnd shop).gac.sessions.length = 64 := by decide +kernel

theorem witness_TimeSetTaken : (admitted head .timeSet shop).hlk.held = none ∧
    (admitted head .timeSet shop).hlk.notices.length < 32 ∧
    (shop.day.store ≠ .night ∧ night.day.store = .night ∧
      ([25199, 25200, 28799, 28800, 75599, 75600].map fun c => scheduleState night.settings (some c)) =
        [.night, .opening, .opening, .opened, .opened, .night]) ∧
    (night.settings.nat .openTime < night.settings.nat .closeTime ∧ night.settings.nat .closeTime < 1440) ∧
    ((afterTimeSet none 28800 night).day.store = .opened ∧ (afterTimeSet (some 25199) 25200 night).day.store = .opening ∧
      (afterTimeSet (some 25200) 28799 night).day.store = .night ∧ (afterTimeSet (some 0) 86400 night).day.store = .closing) := by
  decide +kernel

theorem witness_DayRequestsDecided :
    (admitted head .openPrepare night).day.store = .night ∧ (admitted head .openPrepare shop).day.store ≠ .night ∧
    (admitted head .openStore { shop with day := { shop.day with store := .opening } }).day.store = .opening ∧
    (admitted head .openStore shop).day.store ≠ .opening ∧ (admitted head .closeStore shop).day.store = .opened ∧
    tillsDone (admitted head .closeStore shop) = false ∧
    tillsDone { shop with tsu := State.reset.tsu } = true ∧ (admitted head .closeStore night).day.store ≠ .opened := by
  decide +kernel

/-- What entering a state comes to: a notice, refresh that becomes enabled, that was enabled before and that stays off; a grace of 0
and another; and CLOSING with a sale in hand and with none. -/
theorem witness_DayRequestsDecided_entry :
    (∀ (v : State) (cause : StateCause), ∃ entered : StoreState → State, ∀ new, entered new =
      notify (.state v.day.store new v.clock0 cause)
        { v with
          day := { v.day with store := new }
          lrs := { v.lrs with
            cursor :=
              if (∃ n, refreshSetting v.day.store = some n ∧ v.settings.on n = false) ∧
                (∃ n, refreshSetting new = some n ∧ v.settings.on n = true) then 0 else v.lrs.cursor } }) ∧
    (let s (n : Int) : State := withSetting .refreshNight n { night with lrs := { night.lrs with cursor := 9 } }
     ([s 1, s 0].map fun t => (enterOpening (some .host) t).lrs.cursor) = [0, 9]) ∧
    (shop.settings.nat .closingGrace ≠ 0 ∧ (withSetting .closingGrace 0 shop).settings.nat .closingGrace = 0 ∧
      tillsDone shop = false ∧ tillsDone { shop with tsu := State.reset.tsu } = true) ∧
    ((enterClosing (some .host) shop).tsu.grace = some 601000 ∧ (enterClosing (some .host) shop).sjr.queue = [] ∧
      (enterClosing (some .host) (withSetting .closingGrace 0 shop)).sjr.queue.map (·.till) = [1, 5]) ∧
    (let s : State := { shop with
       tsu := { State.reset.tsu with places := shop.tsu.places.take 1 ++ List.replicate 15 freePlace } }
     tillsDone s = true ∧
     (let t := enterClosing (some .host) s
      t.day.store = .night ∧ t.gac.spent = [] ∧ t.txe.run.state ≠ .notStarted ∧ (placeAt t 0).state = .free ∧
      t.out.contains (.till 0 10 .closed .closed .empty) = true ∧ t.day.quietAt = some 301000 ∧
      t.hlk.notices.map (·.body) = [firstStart.body, .state .opened .closing 50000 .host,
        .guestState .opened .closed 0 [] 1, .state .closing .night 50000 .tillsDone])) := by
  refine ⟨fun v cause => ⟨_, fun _ => rfl⟩, ?_⟩
  decide +kernel

theorem witness_LockAndResetTaken : Admits shop head ∧ Admits { shop with hlk := { shop.hlk with lock := true } } head := by
  constructor <;> constructor <;> decide +kernel

theorem witness_ForwardDecided :
    firstWindow (withWindow (everywhere .blocked) shop).settings.windows false 4294967295 = some (everywhere .blocked) ∧
    firstWindow shop.settings.windows false 0 = none ∧
    firstWindow (withWindow (everywhere .internal) shop).settings.windows false 0 = some (everywhere .internal) ∧
    (admitted head .forward shop).ulc.officeQ.length < 32 ∧
    32 ≤ (admitted head .forward { shop with ulc := { shop.ulc with
      officeQ := List.replicate 32 (.office 1 0 false []) } }).ulc.officeQ.length := by decide +kernel

/-! ### The host link and the tills -/

/-- A frame begun, its last byte at a time; the shop stands at 1,000 ms. -/
def begun (at' : Nat) : State := { shop with hlk := { shop.hlk with rx := { bytes := [0x7E], stray := false }, rxAt := at' } }

/-- The rest of a frame counts with it 20 ms after its last byte, and not 21 ms after. -/
theorem test_byte_gap :
    ((begun 980).receive .host [0, 0, 33]).hlk.rx.bytes.length = 4 ∧
    ((begun 979).receive .host (outerFrame [33, 1] [])).pending = [.badFrame (.check .host), .status { tag := 1, fits := true }] ∧
    ((begun 979).receive .host [1]).hlk.rx.bytes = [] ∧
    (ok (exec .hostByteTimeout (begun 979)) fun t => t.hlk.frameErrors == 1 && t.hlk.rx.bytes.isEmpty) = true := by decide +kernel

theorem witness_HostLinkEventsTaken : shop.running = true ∧ shop.hlk.notices = [firstStart] ∧
    (∀ n, shop.hlk.notices.head? = some n → n.number ≠ 2) ∧ shop.hlk.tx = some (.notice firstStart) ∧
    shop.hlk.ackWait = .waiting 500 ∧ (∀ x, ({ shop with hlk := { shop.hlk with ackWait := .due } } : State).hlk.ackWait ≠ .waiting x) ∧
    (shop.hlk.silenceAt = some 30000 ∧ shop.hlk.standalone = none) ∧
    (let s : State := { shop with hlk := { shop.hlk with standalone := some 0 } }
     s.hlk.silenceAt = some 30000 ∧ s.hlk.standalone.isSome = true) ∧
    (let s : State := { shop with hlk := { shop.hlk with tx := none, silenceAt := none } }
     s.hlk.tx = none ∧ s.hlk.silenceAt = none) ∧
    (shop.hlk.rx.bytes = [] ∧ (begun 979).hlk.rx.bytes ≠ [] ∧ (dueCommands (begun 979)).contains .hostByteTimeout = true ∧
      (dueCommands (begun 980)).contains .hostByteTimeout = false) := by
  refine ⟨by decide +kernel, rfl, fun n h => ?_, rfl, rfl, fun x h => (by cases h), ⟨rfl, rfl⟩, ⟨rfl, rfl⟩, ⟨rfl, rfl⟩, by decide +kernel⟩
  cases h; decide

/-- The shop whose transmitter is idle, with one reply waiting, or none. -/
def idle (replied : Bool) (w : AckWait) : State :=
  { shop with hlk := { shop.hlk with
      tx := none, ackWait := w
      replies := if replied then [{ tag := 1, kind := .reset, result := .ok, body := .empty, queued := false }] else []
      resetPhase := .asked } }

/-- A reply goes before a notice that is due, a notice goes when its time has run out and not while it waits, nothing but a notice goes
after RESET's reply; and a standalone part tells of whole seconds. -/
theorem witness_HostLinkEventsTaken_sending :
    ((idle true .due).hlk.tx = none ∧ writesStopped (idle true .due) = false ∧ shop.hlk.tx.isSome = true) ∧
    ([hostPump (idle true .due), hostPump (idle false .due), hostPump (idle false .unsent), hostPump (idle false (.waiting 1))].map
      fun t => (t.hlk.replies.length, t.hlk.tx == some (.notice firstStart), t.hlk.tx.isSome, t.hlk.resetPhase)) =
      [(0, false, true, .sending), (0, true, true, .asked), (0, true, true, .asked), (0, false, false, .asked)] ∧
    (let s : State := { idle true .due with hlk := { (idle true .due).hlk with resetPhase := .sent } }
     writesStopped s = true ∧ (hostPump s).hlk.tx = some (.notice firstStart)) ∧
    (let s (t : Nat) : State := { shop with timer := t, hlk := { shop.hlk with standalone := some 1000 } }
     [1000, 1999, 2000].map (fun t => (endStandalone (s t)).hlk.notices.getLast?.map (·.body)) =
       [some (.hostReturn 0 0 false), some (.hostReturn 0 0 false), some (.hostReturn 1 0 false)]) := by decide +kernel

theorem witness_NoticesJoinTheQueue : (shop.hlk.held = none ∧ shop.hlk.notices.length < 32) ∧
    (let s : State := { shop with hlk := { shop.hlk with notices := List.replicate 32 firstStart, lastNumber := 65535 } }
     s.hlk.held = none ∧ 32 ≤ s.hlk.notices.length) ∧
    (let s : State := { shop with hlk := { shop.hlk with notices := List.replicate 31 firstStart } }
     s.hlk.notices.length < 32) ∧
    ({ shop with hlk := { shop.hlk with held := some [] } } : State).hlk.held = some [] := by decide +kernel

def tillOf (t : Nat) (a : Addr) : TillHead := { till := t, addr := a, fits := true }

theorem witness_TillRequestsTurnedAway :
    (TillAdmits shop { tillHead with fits := true } ∧ TillAdmits shop (tillOf 0 10)) ∧
    tillRequestOf (.poll tillHead) = some (tillHead, .poll) ∧
    (∀ n ∈ [0, 10, 255], tillRequestOf (.badFrame (.tillKind tillHead n)) = some (tillHead, .other n)) ∧ shop.running = true ∧
    ((placeAt shop 15).state = .free ∧ (placeAt shop 0).addr ≠ some 99) ∧
    ((placeAt shop 3).state = .orphaned ∧ (placeAt shop 3).addr = some 13) ∧
    ((placeAt shop 4).state ≠ .free ∧ (placeAt shop 4).state ≠ .orphaned ∧ (placeAt shop 4).addr = some 14 ∧
      (placeAt shop 4).busy = true) ∧ (placeAt shop 1).state = .basket ∧ (placeAt shop 0).state ≠ .basket := by
  refine ⟨?_, by decide +kernel⟩
  constructor <;> constructor <;> decide +kernel

/-- One place alone is bound to the address 15, and none to 99. -/
theorem witness_TillRequestsTurnedAway_source : (placeAt shop 5).state = .basket ∧ (placeAt shop 5).addr = some 15 ∧
    (∀ j, j ≠ 5 → (placeAt shop j).addr = some 15 → (placeAt shop j).state = .free ∨ (placeAt shop j).state = .orphaned) ∧
    (∀ j, (placeAt shop j).addr = some 99 → (placeAt shop j).state = .free ∨ (placeAt shop j).state = .orphaned) := by
  have far : ∀ j, 16 ≤ j → (placeAt shop j).state = .free := fun j h => by
    unfold placeAt
    rw [List.getD_eq_getElem?_getD, List.getElem?_eq_none (by exact h)]; rfl
  have near : ∀ j, j < 16 → (j ≠ 5 → (placeAt shop j).addr ≠ some 15) ∧ (placeAt shop j).addr ≠ some 99 := by decide +kernel
  refine ⟨by decide +kernel, by decide +kernel, fun j h e => ?_, fun j e => ?_⟩ <;> rcases Nat.lt_or_ge j 16 with hj | hj
  · exact absurd e ((near j hj).1 h)
  · exact .inl (far j hj)
  · exact absurd e (near j hj).2
  · exact .inl (far j hj)

/-- A frame from a bound address counts as the last of its own place, whichever till it names and whatever its answer; one from an
ORPHANED or an unknown till counts as none. -/
theorem test_last_frame_of_the_address :
    (ok (exec (.poll (tillOf 0 15)) shop) fun t => t.out.contains (.till 0 15 .poll .notLoggedOn .empty) &&
      (placeAt t 5).lastFrame == 1000 && (placeAt t 0).lastFrame == 0) = true ∧
    (ok (exec (.poll (tillOf 16 15)) shop) fun t => t.out.contains (.till 16 15 .poll .range .empty) &&
      (placeAt t 5).lastFrame == 1000) = true ∧
    (ok (exec (.hello (tillOf 15 14)) shop) fun t => t.out.contains (.till 15 14 .hello .tillInUse .empty) &&
      (placeAt t 4).lastFrame == 1000 && (placeAt t 15).state == .free) = true ∧
    (touchPlace (tillOf 0 13) shop).tsu = shop.tsu ∧ (touchPlace (tillOf 0 99) shop).tsu = shop.tsu ∧
    (soundingPlace (tillOf 0 15) shop = some 5 ∧ soundingPlace (tillOf 5 15) shop = some 5) := by decide +kernel

/-- A till frame of a kind that names no request is answered RANGE with its kind, and counts as the till's last frame. -/
theorem test_undefined_till_kind :
    (shop.receive .till (outerFrame [1, 0, 0, 0, 0, 0, 11, 12, 0] [])).pending = [.badFrame (.tillKind tillHead 12)] ∧
    (ok (exec (.badFrame (.tillKind tillHead 12)) shop) fun t =>
      t.out.contains (.till 1 11 (.other 12) .range .empty) && (placeAt t 1).lastFrame == 1000 &&
      (placeAt t 1).basket == (placeAt shop 1).basket) = true ∧
    (ok (exec (.badFrame (.tillKind { tillHead with till := 0 } 0)) shop) fun t =>
      t.out.contains (.till 0 11 (.other 0) .notLoggedOn .empty)) = true := by decide +kernel

theorem witness_HelloDecided :
    (∃ k, k ≤ 15 ∧ k ≠ 15 ∧ (placeAt shop k).addr = some 10 ∧ (placeAt shop k).state ≠ .free) ∧
    ((placeAt shop 4).busy = true ∧ (placeAt shop 15).busy = false) ∧
    (night.day.store = .night ∧ asleep.day.store = .quiet) ∧ (shop.day.store ≠ .night ∧ shop.day.store ≠ .quiet) ∧
    (∀ k, k ≤ 15 → k ≠ 15 → (placeAt shop k).addr = some 99 → (placeAt shop k).state = .free) ∧
    (placeAt shop 15).state = .free ∧
    ((placeAt shop 0).state ≠ .free ∧ (placeAt shop 0).addr ≠ some 99) ∧
    ((placeAt shop 0).addr = some 10 ∧ (placeAt shop 0).state = .idle) ∧
    ((placeAt shop 1).addr = some 11 ∧ (placeAt shop 1).state = .basket) ∧
    ((placeAt shop 2).addr = some 12 ∧ (placeAt shop 2).state = .authorizing) ∧
    ((placeAt shop 3).addr = some 13 ∧ (placeAt shop 3).state = .orphaned) ∧
    (∀ t, t ≤ 3 → ∀ k, k ≤ 15 → k ≠ t → (placeAt shop k).addr = (placeAt shop t).addr → (placeAt shop k).state = .free) := by
  exact ⟨⟨0, by decide +kernel⟩, by decide +kernel⟩

theorem witness_ByeAndSaleOpenDecided : TillAdmits shop (tillOf 0 10) ∧ TillAdmits shop (tillOf 1 11) ∧
    TillAdmits shop (tillOf 2 12) ∧ (placeAt shop 0).state = .idle ∧ (placeAt shop 1).state = .basket ∧
    (placeAt shop 2).state = .authorizing ∧ shop.day.store = .opened ∧ night.day.store ≠ .opened := by
  refine ⟨?_, ?_, ?_, ?_⟩ <;> (try constructor) <;> decide +kernel

theorem witness_PollAndCancelDecided : TillAdmits shop (tillOf 5 15) ∧ (placeAt shop 5).basket = [] ∧
    (placeAt shop 5).state = .basket ∧ (placeAt shop 1).basket ≠ [] := by
  refine ⟨?_, ?_⟩ <;> constructor <;> decide +kernel

def line64 : List BasketLine := List.replicate 64 { number := 1, item := 7, qty := 1, price := 1, origin := .book, voided := false }

theorem witness_LinesDecided : TillAdmits shop tillHead ∧ (∀ i ∈ [0, 7, 8, 21], Ready shop [.item i]) ∧
    (linePrice shop 21 none = .error .unknownItem ∧ linePrice shop 7 none = .ok (199, .book)) ∧
    (placeAt shop 0).state ≠ .basket ∧ (placeAt shop 1).state = .basket ∧
    64 ≤ (placeAt (withPlace 1 { placeAt shop 1 with basket := line64 } shop) 1).basket.length ∧
    (placeAt shop 1).basket.length < 64 ∧ basketTotal (placeAt shop 1).basket = 398 ∧
    ((findItem shop 7).bind (chargePrice shop) = some 199) ∧ (findItem shop 8).any (·.openPrice) = true ∧
    findItem shop 21 = none ∧ shop.settings.on .keyedUnknown = false ∧
    (withSetting .keyedUnknown 0 shop).settings.on .keyedUnknown = true ∧
    (∀ l ∈ (placeAt shop 1).basket, l.number = 2 → l.voided = true) ∧
    (∃ l ∈ (placeAt shop 1).basket, l.number = 1 ∧ l.voided = false) := by
  exact ⟨by constructor <;> decide +kernel, fun i h => ready_of _ _ (by revert i; decide +kernel), ⟨rfl, rfl⟩, by decide +kernel⟩

/-- Totals at both ends of their range, one line more taking them out of it. -/
theorem witness_LinesDecided_total :
    (basketTotal [{ number := 1, item := 7, qty := 9, price := 9999999, origin := .book, voided := false }] + 1 * 10000008 = 99999999) ∧
    (basketTotal [{ number := 1, item := 7, qty := 9, price := 9999999, origin := .book, voided := false }] + 2 * 9999999 > 99999999) ∧
    (basketTotal [{ number := 1, item := 7, qty := -999, price := 9999999, origin := .book, voided := false }] < -99999999) := by
  decide +kernel

theorem witness_TendersDecided : claimGranted shop.sjr 1 = true ∧ claimGranted shop.sjr 2 = true ∧
    (let s : State := { shop with sjr := { shop.sjr with counter := 4294967290 } }
     claimGranted s.sjr 1 = true ∧ claimGranted s.sjr 2 = false ∧ TillAdmits s tillHead) ∧
    (let s : State := { shop with sjr := { shop.sjr with counter := 4294967295 } }
     claimGranted s.sjr 1 = false ∧ TillAdmits s tillHead) ∧
    (∃ l ∈ (placeAt shop 1).basket, l.voided = false) ∧ (∀ l ∈ (placeAt shop 5).basket, l.voided = true) ∧
    0 < basketTotal (placeAt shop 1).basket := by
  refine ⟨by decide +kernel, by decide +kernel, ⟨by decide +kernel, by decide +kernel, by constructor <;> decide +kernel⟩,
    ⟨by decide +kernel, by constructor <;> decide +kernel⟩, by decide +kernel⟩

theorem witness_ClaimsKeepTheReserve : shop.sjr.held + shop.sjr.claimed ≤ 32768 ∧ 1 < shop.sjr.claims.length ∧
    claimGranted shop.sjr 2 = true ∧
    (let s : State := { shop with sjr := { shop.sjr with claims := 32748 :: List.replicate 15 0 } }
     claimGranted s.sjr 2 = true ∧ claimGranted s.sjr 3 = false ∧ s.sjr.free = 18) := by decide +kernel

theorem witness_TillEventsTaken : (placeAt shop 4).busy = true ∧ (placeAt shop 15).state = .free ∧
    ((placeAt shop 0).busy = false ∧ (placeAt shop 0).state = .idle ∧ (placeAt shop 0).lastFrame < shop.timer) ∧
    (shop.timer ≤ (placeAt (withPlace 0 { placeAt shop 0 with lastFrame := 1000 } shop) 0).lastFrame ∧
      (placeAt (withPlace 0 { placeAt shop 0 with lastFrame := 999 } shop) 0).lastFrame < shop.timer) ∧
    ((placeAt shop 1).busy = false ∧ (placeAt shop 1).state = .basket) ∧
    ((placeAt shop 2).busy = false ∧ (placeAt shop 2).state = .authorizing ∧ (placeAt shop 2).trace = some 5) ∧
    shop.tsu.grace = none ∧
    (let s : State := { shop with tsu := { shop.tsu with grace := some 2000 }, day := { shop.day with store := .closing } }
     s.tsu.grace = some 2000 ∧ s.day.store = .closing ∧ (placeAt s 1).state = .basket ∧ (placeAt s 1).busy = false) := by
  decide +kernel

/-- An open basket at the end of the grace, one with a request in progress, and a place without one. -/
theorem witness_TillEventsTaken_grace :
    (let s : State := { shop with day := { shop.day with store := .closing } }
     (s.tsu.grace = none ∧ (placeAt s 1).state = .basket ∧ (placeAt s 1).busy = false) ∧
     ((placeAt s 4).busy = true ∧ closeIfDue 4 s = s) ∧ ((placeAt s 0).state ≠ .basket ∧ closeIfDue 0 s = s) ∧
     closeIfDue 1 { s with tsu := { s.tsu with grace := some 2000 } } = { s with tsu := { s.tsu with grace := some 2000 } } ∧
     (closeIfDue 1 s).sjr.queue.map (·.till) = [1]) := by decide +kernel

/-! ### The radio, writes and authorization -/

theorem witness_ChargePriceIsTheLowest : (shop.pbk.items.map fun i => chargePrice shop i) = [some 199, none, some 70] ∧
    (shop.pbk.items.map (·.openPrice)) = [false, true, false] := by decide +kernel

/-- A transmission to label 3 with number 1, in a phase. -/
def sending (p : TxPhase) (k : TxKind) : State :=
  { shop with lrs := { shop.lrs with
      inFlight := some { label := 3, number := 1, price := 250, kind := k, unboundMark := false, phase := p, windowMs := 50 } } }

theorem witness_RadioEventsTaken : shop.lrs.inFlight = none ∧ (sending .frame .priority).lrs.inFlight.isSome = true ∧
    (State.reset.lrs.radio ≠ .awake ∧ State.reset.lrs.radio = .settling ∧ State.reset.lrs.settleEnd = some 64 ∧
      State.reset.running = true) ∧
    (shop.running = true ∧ shop.lrs.radio = .awake ∧ shop.lrs.nextBeacon = some 5000 ∧ shop.lrs.radio ≠ .settling) ∧
    ((sending .floorWait .refresh).lrs.inFlight.any fun t => t.phase == .floorWait && t.kind == .refresh) = true ∧
    ((sending .frame .priority).lrs.inFlight.any fun t => t.label == 3 && t.number == 1 && t.phase == .frame) = true ∧
    ((sending (.window 1050) .priority).lrs.inFlight.any fun t => t.phase == .window 1050 && !t.unboundMark) = true := by
  decide +kernel

/-- A burst with some transmissions made and labels attempted; the slots empty, or as the shop has them. -/
def bursting (made : Nat) (attempted : List Nat) (cursor : Nat) (slots : Bool) : State :=
  { shop with
    pbk := if slots then shop.pbk else { shop.pbk with slots := List.replicate 32 none }
    lrs := { shop.lrs with cursor := cursor, burst := some { length := 4, made := made, attempted := attempted } } }
def picked (s : State) : Option (Nat × TxKind) := (chooseNext s).lrs.inFlight.map fun t => (t.label, t.kind)

/-- Failures on an UNBOUND, an UNREACHABLE and an ACTIVE label, below the attempt limit and at it; a floor absent, higher, equal; a
burst that is full, that has priority work, refreshes ahead of the cursor, behind it, and finds nothing. -/
theorem witness_RadioEventsTaken_choice :
    ((shop.label 5).state = .unbound ∧ (shop.label 4).state = .unreachable ∧ (shop.label 6).state = .active ∧
      min 15 ((shop.label 6).failed + 1) < shop.settings.nat .attemptLimit ∧
      (withSetting .attemptLimit 2 shop).settings.nat .attemptLimit ≤ min 15 ((shop.label 3).failed + 1) ∧
      writesStopped (withSetting .attemptLimit 2 shop) = false) ∧
    ((sending .floorWait .refresh).lrs.inFlight.any fun t =>
      t.phase == .floorWait && ((sending .floorWait .refresh).label t.label).floor.any fun f => decide (f ≤ t.price)) = true ∧
    ((shop.label 6).floor = none ∧ (shop.label 3).floor = some 199) ∧
    ((bursting 4 [] 0 true).lrs.burst.any fun b => decide (b.length ≤ b.made)) = true ∧
    priorityChoice (bursting 3 [] 0 true) [] = some (6, 70) ∧ priorityChoice (bursting 3 [6] 0 true) [6] = none ∧
    (refreshEnabled shop.settings .opened = true ∧ refreshEnabled shop.settings .quiet = false) ∧
    ([bursting 3 [] 6 true, bursting 3 [] 4 false, bursting 3 [] 7 false, bursting 3 [3, 4, 6] 0 false].map picked) =
      [some (6, .priority), some (4, .refresh), some (3, .refresh), none] ∧
    ((chooseNext (bursting 3 [] 7 false)).lrs.cycles = 1 ∧ (chooseNext (bursting 3 [3, 4, 6] 0 false)).lrs.cycles = 1 ∧
      (chooseNext (bursting 3 [] 4 false)).lrs.cycles = 0) := by decide +kernel

/-- The cursor past a label and past the last id; an acknowledgement of a bound label, of an UNBOUND one, and of a transmission marked
unbound. -/
theorem witness_RadioEventsTaken_writes :
    ([4094, 4095].map fun n => ((passLabel n shop).lrs.cursor, (passLabel n shop).lrs.cycles)) = [(4095, 0), (0, 1)] ∧
    (passLabel 4095 { shop with lrs := { shop.lrs with cycles := 4294967295 } }).lrs.cycles = 0 ∧ writesStopped shop = false ∧
    (let a (n : Nat) (u : Bool) : AckReport :=
       { label := n, price := 250, battery := 90, margin := 10, time := none, answersUnbound := u }
     [(takeAck (a 3 false) shop).nv, (takeAck (a 5 false) shop).nv, (takeAck (a 3 true) shop).nv] =
       [[.ack (a 3 false) true], [.ack (a 5 false) false], [.ack (a 3 true) false]]) := by decide +kernel

/-- Timed events at the millisecond they come due, and one before. -/
theorem test_timed_events_come_due :
    (let due (s : State) (at' : Nat) (c : Instr) : List Bool :=
       [at' - 1, at'].map fun n => (dueCommands { s with timer := n }).contains c
     [due shop 5000 .beacon, due (sending (.window 1050) .priority) 1050 .ackWindowClose, due State.reset 64 .settleEnd,
       due shop 500 .noticeResendExpiry, due shop 30000 .silenceExpiry, due shop 120000 (.tillSilenceExpiry 0),
       due { shop with tsu := { shop.tsu with grace := some 2000 } } 2000 .closingGraceEnd, due shop 9000 (.probeDue .primary),
       due shop 61000 (.guestTimeExpiry 0), due shop 1024 (.timeoutTick .t1)].all (· == [false, true])) = true ∧
    (dueCommands { shop with timer := 120000 }).contains (.tillSilenceExpiry 4) = false := by decide +kernel

/-- The shop with the effect write of item 9 under way and events waiting. -/
def awaiting (w : List Work) : State := { writing (.effect 9) with waiting := w }

/-- An event that a write holds, one behind it on the same item, and one whose keys are free; a REFRESH with priority work and
without, a PRIORITY, a burst that waits; and a radio that has nothing to choose. -/
theorem witness_AfterEffectsKeepTheRest : TablesKeyed shop ∧ shop.running = true ∧ stopped.running = false ∧
    (let s := awaiting [.itemGet 1 9, .itemGet 2 9, .itemGet 3 7]
     keysMeet ((Work.itemGet 1 9).keys s) (writeKeys s) = true ∧
     keysMeet ((Work.itemGet 2 9).keys s) (writeKeys s ++ [.item 9]) = true ∧
     keysMeet ((Work.itemGet 3 7).keys s) (writeKeys s ++ [.item 9, .item 9]) = false ∧
     takeReady s = takeWork (.itemGet 3 7) (awaiting [.itemGet 1 9, .itemGet 2 9]) ∧
     drainAll (awaiting [.itemGet 1 9, .itemGet 2 9]) = awaiting [.itemGet 1 9, .itemGet 2 9]) ∧
    ((shop.lrs.inFlight = none ∧ shop.lrs.burst = none ∧ shop.lrs.waitingBurst = none) ∧
      priorityChoice (sending .floorWait .refresh) [] = some (6, 70) ∧
      (abandonForPriority (sending .floorWait .refresh)).lrs.inFlight = none ∧
      abandonForPriority (sending .frame .priority) = sending .frame .priority ∧
      priorityChoice { sending .frame .refresh with pbk := State.reset.pbk } [] = none ∧
      State.reset.lrs.radio ≠ .awake ∧ (sending .frame .priority).lrs.inFlight.isSome = true ∧
      (let s : State := { shop with lrs := { shop.lrs with waitingBurst := some 8 } }
       s.lrs.inFlight = none ∧ s.lrs.waitingBurst = some 8 ∧
       (startWaitingBurst s).lrs.burst = some { length := 8, made := 0, attempted := [] })) := by
  refine ⟨witness_ResetsKeepTheNvStore, ?_⟩
  decide +kernel

/-- An event that meets a write waits for it, is taken when the write completes, and is judged by the state of that moment, the lock
with it. -/
theorem test_waits_for_the_write :
    (ok (exec (.itemGet head 9) (writing (.effect 9))) fun t => t.waiting == [.itemGet 1 9] &&
      ok (exec (.effectWriteDone 9) t) fun u => u.waiting == [] &&
        u.hlk.replies.any fun f => f.tag == 1 && f.result == .ok && f.body == .item
          { entry := some { code := 9, price := 70, openPrice := false, pending := none, bound := 1 }
            charge := some 70, slot := none, queued := none }) = true ∧
    (ok (exec (.settingSet head 302 (.num 7)) (writing (.setting 302 (.num 5) (.host 2)))) fun t =>
      t.waiting == [.setting 302 (.num 7) (.host 1)] &&
      ok (exec (.lock { head with tag := 3 }) t) fun l => ok (exec (.settingWriteDone 302) l) fun u => u.waiting == [] &&
        u.settings.num .floorLimit == 5 && u.hlk.replies.any fun f => f.tag == 1 && f.result == .locked) = true := by
  decide +kernel

/-- Writes of an item, of a label and of a setting under way: a request on the same one waits for it, and one that no write holds is
judged by the state of the moment it is taken. -/
theorem witness_WaitingRequestsJudged : writesStopped shop = false ∧
    keysMeet [.item 9] (writeKeys (writing (.effect 9))) = true ∧ keysMeet [.label 3] (writeKeys (writing (.floor 3 250))) = true ∧
    keysMeet [settingKey 302] (writeKeys (writing (.setting 302 (.num 5) (.host 2)))) = true ∧
    (takeWork (.itemRemove 1 8) shop).nv = [.itemRemove 1 8] ∧ (takeWork (.bind 1 5 7) shop).nv = [.bind 1 5 7] ∧
    (takeWork (.unbind 1 3) shop).nv = [.unbind 1 3 7] ∧ (takeWork (.retry 1 4) shop).nv = [.retry 1 4] := by decide +kernel

/-- A transmission that waits for its turn as its label's unbind is written, with a rebind ahead of it or not. -/
def unbinding (ahead : List Work) : State :=
  { sending .floorWait .priority with nv := [.unbind 1 3 7], waiting := ahead ++ [.floor 3] }

/-- An unbind recalls no transmission: it is marked, writes its floor and goes out, to the UNBOUND label and to the one bound again. -/
theorem test_unbind_recalls_nothing :
    (ok (exec (.labelUnbindWriteDone 3) (unbinding [])) fun t => (t.label 3).state == .unbound && t.nv.contains (.floor 3 250) &&
      ok (exec (.floorWriteDone 3) t) fun u => (u.label 3).floor == some 250 &&
        (u.lrs.inFlight.any fun x => x.label == 3 && x.unboundMark && x.phase == .frame)) = true ∧
    (ok (exec (.labelUnbindWriteDone 3) (unbinding [.bind 2 3 8])) fun t => t.nv.contains (.bind 2 3 8) && !t.nv.contains (.floor 3 250) &&
      ok (exec (.labelBindWriteDone 3) t) fun u => (u.label 3).item == some 8 && u.nv.contains (.floor 3 250) &&
        (u.lrs.inFlight.any fun x => x.unboundMark && x.phase == .floorWrite)) = true ∧
    ((shop.label 3).item = some 7 ∧ writesStopped shop = false ∧
      (takeUnbind 1 3 (sending .frame .refresh)).lrs.inFlight.any (·.unboundMark) = true ∧
      (takeUnbind 1 4 (sending .frame .refresh)).lrs.inFlight.any (·.unboundMark) = false) := by decide +kernel

theorem underWay_of (w : NvWrite) : UnderWay (writing w) w [] [] := ⟨rfl, rfl, fun _ h => absurd h (by simp)⟩

def ackOf (n : Nat) : AckReport := { label := n, price := 250, battery := 90, margin := 10, time := none, answersUnbound := false }

theorem witness_LabelWritesDone : (∀ w : NvWrite, UnderWay (writing w) w [] []) ∧ (shop.label 3).item = some 7 ∧
    (shop.label 4).item = some 7 ∧ (∀ t, shop.lrs.inFlight = some t → t.label ≠ 3 ∨ t.phase ≠ .floorWrite) ∧
    ((sending .floorWrite .refresh).lrs.inFlight.any fun t => t.label == 3 && t.phase == .floorWrite) = true ∧
    UnderWay { sending .floorWrite .refresh with nv := [.retry 1 4, .floor 3 250] } (.floor 3 250) [.retry 1 4] [] ∧
    (∀ x ∈ shop.nv, NvWrite.target x ≠ (4, 3)) := by
  refine ⟨underWay_of, by decide +kernel, by decide +kernel, fun t h => ?_, by decide +kernel, ⟨rfl, rfl, fun x hx => ?_⟩, fun x hx => ?_⟩
  · exact absurd h (by simp [shop, State.reset])
  · rw [List.mem_singleton] at hx; subst hx; decide
  · exact absurd hx (by simp [shop, State.reset])

/-- A slot with a set and an item with none; a set that is emptied, with a pending part under way and without; and the health figures
at the ends of their ranges, in a scope that takes the label in and in one that does not. -/
theorem witness_LabelWritesDone_set :
    (slotOf shop 7 = none ∧ slotOf shop 9 = some 0 ∧ (slotAt shop 0).any (fun x => x.outstanding == [6] && x.price == 70) = true ∧
      (findItem shop 7).isSome = true ∧ findItem shop 21 = none) ∧
    ((joinOutstanding 9 3 shop).pbk.slots.head?.join.any (fun x => x.outstanding == [3, 6]) = true ∧
      (leaveOutstanding 9 6 1 0 shop).nv = [.effect 9] ∧ (leaveOutstanding 9 5 1 0 shop).nv = [] ∧
      (reportAck (some 9) 6 70 shop).nv = [.effect 9] ∧ reportAck (some 9) 6 69 shop = shop) ∧
    (let w : NvWrite := .pending
       { item := 9, price := 60, origin := .hostRequest, urgent := true, create := false, revise := true, number := 6
         source := .host 1 }
     pendingUnderWay (writing w) 9 = true ∧ (leaveOutstanding 9 6 0 1 (writing w)).nv = [w] ∧ pendingUnderWay shop 9 = false) ∧
    (let told (scope battery : Nat) (margin : Int) : Bool :=
       (healthWatch { ackOf 6 with battery := battery, margin := margin } (some 9) (withSetting .healthScope scope shop)).hlk.notices.length
         == 2
     [told 1 31 10, told 1 32 (-25), told 1 32 (-26), told 1 32 35, told 1 32 36, told 0 31 10, told 2 31 10] =
       [true, false, true, false, true, false, false]) ∧
    ((shop.label 3).health = true ∧ healthWatch { ackOf 3 with battery := 0 } (some 7) shop = shop) := by decide +kernel

theorem witness_PriceWritesDone : (∀ w : NvWrite, UnderWay (writing w) w [] []) ∧
    queueEntryOf (writing (.itemRemove 1 7)) 7 = none ∧ (queueEntryOf (writing (.itemRemove 1 20)) 20).isSome = true ∧
    (slotOf (writing (.effect 9)) 9 = some 0 ∧ (slotAt (writing (.effect 9)) 0).isSome = true ∧
      (findItem (writing (.effect 9)) 9).isSome = true) ∧
    shop.pbk.ops = [] ∧ (findItem (writing (.itemRemove 1 20)) 20) = none ∧
    (let s : State := { shop with pbk := { shop.pbk with ops := [{ action := .remove 20, answer := .itemRemoved 1 }] } }
     s.running = true ∧ writesStopped s = false ∧ s.pbk.ops = [{ action := .remove 20, answer := .itemRemoved 1 }]) ∧
    (∀ x ∈ shop.nv, NvWrite.target x ≠ (0, 7)) := by
  refine ⟨underWay_of, ?_⟩
  decide +kernel

/-- The shop with some of its slots used by non-urgent changes, and one entry at the head of its change queue. -/
def queued (used : Nat) (q : QueueEntry) : State :=
  { shop with pbk := { shop.pbk with
      queue := [q]
      slots := List.replicate used (some
        { number := 5, item := 9, price := 70, origin := .hostRequest, urgent := false, outstanding := [6], issueTime := 0
          confirmed := 0, unreachable := 0, stage := .labelling }) ++ List.replicate (32 - used) none } }
def entry (item : Nat) (add urgent : Bool) : QueueEntry :=
  { item := item, price := 60, origin := .nightFile, add := add, urgent := urgent }

/-- The slot that a pending write is tied to; the three ways an entry enters the queue; the bounds of admission; and the numbers
given at the ends of their range. -/
theorem witness_PriceWritesDone_queue :
    (let w : NvWrite := .pending
       { item := 9, price := 60, origin := .hostRequest, urgent := true, create := false, revise := true, number := 6
         source := .host 1 }
     slotOf (writing w) 9 = some 0 ∧ (slotAt (writing w) 0).isSome = true) ∧
    (findItem shop 9).isSome = true ∧ findItem shop 21 = none ∧
    ((∀ x ∈ [entry 1 false true, entry 2 false false], x.item ≠ 3) ∧ (entry 1 false true).urgent = true ∧
      [entry 1 false true].find? (fun x => x.item == 1) = some (entry 1 false true)) ∧
    (keysMeet [.item 20] (writeKeys { shop with nv := [.effect 20] }) = true ∧ keysMeet [.item 20] (writeKeys shop) = false) ∧
    ((slotOf (queued 1 (entry 9 false false)) 9).isSome = true ∧ slotOf shop 20 = none ∧
      (findItem (queued 1 (entry 21 false false)) 21).isNone = true ∧ (findItem shop 7).isSome = true) ∧
    (freeSlot (queued 27 (entry 7 false false)) = some 27 ∧ nonUrgentCount (queued 27 (entry 7 false false)) = 27 ∧
      freeSlot (queued 28 (entry 7 false false)) = some 28 ∧ nonUrgentCount (queued 28 (entry 7 false true)) = 28 ∧
      freeSlot (queued 32 (entry 7 false true)) = none) ∧
    (writesStopped shop = false ∧ nextChange shop = 6 ∧
      nextChange { shop with pbk := { shop.pbk with taken := 65534 } } = 65535 ∧
      nextChange { shop with pbk := { shop.pbk with taken := 65535 } } = 1) := by decide +kernel

/-- The urgent head is admitted where the non-urgent one waits; an entry that enters joins its own part of the queue. -/
theorem test_admission_bounds :
    ((tryAdmission (queued 28 (entry 7 false true))).pbk.slots.countP (·.isSome)) = 29 ∧
    tryAdmission (queued 28 (entry 7 false false)) = queued 28 (entry 7 false false) ∧
    ((tryAdmission (queued 27 (entry 7 false false))).pbk.slots.countP (·.isSome)) = 28 ∧
    (applyQueue (.upsert (entry 3 false true)) [entry 1 false true, entry 2 false false]).map (·.item) = [1, 3, 2] := by
  decide +kernel

/-- A change of a source. -/
def changeOf (item price : Nat) (urgent add : Bool) (src : ChangeSource) : Change :=
  { item := item, price := price, origin := .headOffice, urgent := urgent, add := add, source := src }

/-- The refusals of head office's and the night file's changes, the three ways one that passes goes, and a PRICE queue with room and
without (a full book and a full change queue: ItemAddDecided and PriceSetDecided). -/
theorem witness_PriceWritesDone_change :
    (∀ (c : Change) (s : State), ∃ refused : Result → State,
      (∀ r, refused r = answerChange c.source c.item c.price (.refused r) s) ∧
      (∀ r tag, c.source = .host tag → refused r = reply tag .priceSet r .empty s) ∧
      (∀ r, c.source = .headOffice → refused r = offerPrice (.changeRefused c.item c.price r) s) ∧
      (∀ r, c.source = .nightFile → refused r = nightAnswer false s)) ∧
    ([(0, 5, false), (1, 10000000, false), (21, 5, false), (7, 5, true), (20, 5, true)].map fun x =>
      (takeChange (changeOf x.1 x.2.1 false x.2.2 .headOffice) shop).ulc.priceQ) =
      [[.changeRefused 0 5 .range], [.changeRefused 1 10000000 .range], [.changeRefused 21 5 .unknownItem],
       [.changeRefused 7 5 .exists_], [.changeRefused 20 5 .exists_]] ∧
    takeChange (changeOf 21 5 false false .nightFile) shop = nightAnswer false shop ∧
    ((takeChange (changeOf 9 5 true false .headOffice) shop).nv.length = 1 ∧
      ((takeChange (changeOf 7 5 true false .headOffice) shop).pbk.slots.countP (·.isSome)) = 2 ∧
      (takeChange (changeOf 7 5 false false .nightFile) shop).pbk.ops.length = 1 ∧
      (takeChange (changeOf 21 5 false true .nightFile) shop).pbk.ops.length = 1) ∧
    (let s (n : Nat) : State := { shop with ulc := { shop.ulc with priceQ := List.replicate n (.fileRequest 0 12) } }
     [31, 32].map (fun n => let t := offerPrice (.changeConfirm 7 5 1 0 0) (s n); (t.ulc.priceQ.length, t.pbk.drops)) =
       [(32, 0), (32, 1)]) := by
  refine ⟨fun c s => ⟨_, fun _ => rfl, fun r tag h => ?_, fun r h => ?_, fun r h => ?_⟩, by decide +kernel⟩ <;>
    simp only [answerChange, h]

/-- A journal append under way for till 1. -/
def appending (b : RecordBody) : State :=
  { shop with sjr := { shop.sjr with writing := some { append := { till := 1, body := b, given := 400 }, seq := 7, time := 50000 } } }

theorem witness_JournalWritesDone : shop.sjr.writing = none ∧ shop.sjr.removing = none ∧
    (appending (.sale 398 .cash none none false [])).running = true ∧
    ([RecordBody.sale 398 .cash none none false [], .sale 398 .cardOnline (some 5) none false [], .authTrace 398 1,
      .voidedBasket .cancelled 398 [], .voidedBasket .close 398 []].all fun b =>
        (appending b).sjr.writing.isSome && placeAt (appending b) 1 == placeAt shop 1 &&
        (placeAt (appending b) 1).state != .orphaned) = true ∧
    (let w : RemovalWrite := { req := { first := 5, last := 5, batch := some 3, counts := false }, named := [5] }
     ({ shop with sjr := { shop.sjr with removing := some w } } : State).sjr.removing = some w) := by
  decide +kernel

/-- The numbers left with a voided basket being written, and with another record. -/
theorem witness_ClaimsKeepTheReserve_numbers :
    (let s (b : RecordBody) (n : Nat) : State := { appending b with sjr := { (appending b).sjr with counter := n } }
     [claimGranted (s (.voidedBasket .cancelled 0 []) 4294967289).sjr 1,
       claimGranted (s (.voidedBasket .cancelled 0 []) 4294967290).sjr 1, claimGranted (s (.authTrace 1 1) 4294967290).sjr 1,
       claimGranted (s (.authTrace 1 1) 4294967291).sjr 1] = [true, false, true, false]) := by decide +kernel

/-- An append of each kind leaves its till's place, claim and entry as its rule has it. -/
theorem test_append_moves_the_till :
    (let go (t : Nat) (b : RecordBody) (p : State → Bool) : Bool :=
       let s := appending b
       ok (exec .journalAppendDone { s with sjr := { s.sjr with
         writing := s.sjr.writing.map fun w => { w with append := { w.append with till := t } } } }) p
     go 2 (.sale 100 .cardOffline (some 5) none false []) (fun t =>
       (placeAt t 2).lastResult == some (.saleClosed 7) && (entryOf t 2).isNone && t.sjr.claims[2]? == some 1) &&
     go 3 (.sale 50 .cardOffline (some 6) none true []) (fun t => (placeAt t 3).state == .free && (entryOf t 3).isNone) &&
     go 3 (.voidedBasket .declinedLost 50 []) (fun t => (placeAt t 3).state == .free && t.sjr.claims[3]? == some 2) &&
     go 1 (.voidedBasket .tillLost 398 []) (fun t => (placeAt t 1).state == .free && (placeAt t 1).lastResult.isNone) &&
     go 1 (.authTrace 398 9) (fun t => (placeAt t 1).state == .authorizing && (entryOf t 1).any (·.state == .sent))) = true ∧
    (queuingTest (appending (.authTrace 398 1)) = true ∧ (∀ y ∈ shop.auz.entries, y.till ≠ 1) ∧
      1 < shop.tsu.places.length) := by decide +kernel

/-- An append that fits and one that does not, by the places left and by the numbers left; the levels at the ends of their stretches,
and a level that is told of and one that is not. -/
theorem witness_JournalWritesDone_writer :
    (let s (b : RecordBody) (claimed : Nat) : State := { shop with sjr := { shop.sjr with
       queue := [{ till := 1, body := b, given := 0 }], claims := claimed :: List.replicate 15 0 } }
     (s (.authTrace 1 1) 32766).sjr.writing = none ∧
     ((takeAppend (s (.authTrace 1 1) 32766)).sjr.writing.map (·.seq)) = some 7 ∧
     ((takeAppend (s (.voidedBasket .cancelled 0 []) 32765)).sjr.writing.map (·.seq)) = some 7 ∧
     (takeAppend (s (.voidedBasket .cancelled 0 []) 32766)).out = shop.out ++ [.till 1 11 .saleCancel .ok (.cancelled none)] ∧
     (placeAt (takeAppend (s (.voidedBasket .tillLost 0 []) 32766)) 1).state = .free ∧
     1 < (s (.authTrace 1 1) 0).tsu.places.length) ∧
    (let s (n : Nat) : State := { shop with sjr := { shop.sjr with
       queue := [{ till := 1, body := .voidedBasket .close 0 [], given := 0 }], counter := n, claims := 1 :: List.replicate 15 0 } }
     ((takeAppend (s 4294967293)).sjr.writing.map (·.seq)) = some 4294967294 ∧ (takeAppend (s 4294967294)).sjr.writing = none) ∧
    ([16383, 16384, 24575, 24576, 29491, 29492, 32767, 32768].map levelReached) =
      [.below50, .l50, .l50, .l75, .l75, .l90, .l90, .l100] ∧
    (let s (l : Level) : State := { shop with sjr := { shop.sjr with level := l } }
     compareLevel shop = shop ∧ (compareLevel (s .l75)).hlk.notices.length = 2 ∧ (compareLevel (s .l75)).sjr.level = .below50) := by
  decide +kernel

/-- A claimed append at the last number, and with the counter at its end. -/
theorem witness_JournalWritesDone_end :
    (let s (n : Nat) : State := { shop with sjr := { shop.sjr with
       queue := [{ till := 1, body := .authTrace 1 1, given := 0 }], counter := n } }
     ((takeAppend (s 4294967294)).sjr.writing.map (·.seq)) = some 4294967295 ∧
     takeAppend (s 4294967295) = s 4294967295) := by decide +kernel

theorem witness_SettingWritesDone : UnderWay (writing (.setting 1002 (.num 100) (.host 1))) (.setting 1002 (.num 100) (.host 1)) [] [] ∧
    settingTarget 1002 = some (.num .noticeResend) ∧
    UnderWay (writing (.setting 600 (.window (everywhere .blocked)) .headOffice))
      (.setting 600 (.window (everywhere .blocked)) .headOffice) [] [] ∧ settingTarget 600 = some (.window 0) ∧
    UnderWay (writing (.branch 1 65535)) (.branch 1 65535) [] [] ∧ (∀ x ∈ shop.nv, NvWrite.target x ≠ (11, 0)) :=
  ⟨underWay_of _, rfl, underWay_of _, rfl, underWay_of _, fun x hx => absurd hx (by simp [shop, State.reset])⟩

/-- A period whose next tick has passed by its new value ticks as it is written; one that is off, or whose tick is to come, does not. -/
theorem witness_SettingWritesDone_period :
    (settingTarget 513 = some (.num (periodSetting .t1)) ∧ shop.ulc.t1.lastTick = 0 ∧ shop.timer = 1000) ∧
    ([(4, 16), (9, 512), (10, 1024)].map fun p => periodMs (withSetting .periodT1 p.1 shop).settings .t1 == some p.2) =
      [true, true, true] ∧
    ([0, 9, 10].map fun n => ok (exec (.settingWriteDone 513) (writing (.setting 513 (.num n) (.host 1)))) fun t =>
      t.ulc.t1.counter == 1) = [false, true, false] ∧ periodMs (withSetting .periodT1 0 shop).settings .t1 = none := by
  decide +kernel

/-- Each kind of setting has its own effect as it is written: the mark, the queuing test, the guest service, the tokens, the cursor and
the GUEST queue; another has none. -/
theorem witness_SettingWritesDone_effects :
    (let s : State := { shop with
       auz := { shop.auz with mark := true }, lrs := { shop.lrs with cursor := 4 }
       ulc := { shop.ulc with guestQ := [.guest 20 0 [1]] } }
     let put (id : Nat) (v : SettingValue) (s : State) (p : State → Bool) : Bool :=
       ok (exec (.settingWriteDone id) { s with nv := [.setting id v (.host 1)] }) p
     (settingTarget 303 = some (.num .exposureLimit) ∧ settingTarget 507 = some (.num .backupAuth) ∧
       settingTarget 801 = some (.num .guestEnable) ∧ settingTarget 806 = some (.num .depth) ∧
       settingTarget 108 = some (.num .refreshOpen) ∧ settingTarget 1002 = some (.num .noticeResend)) ∧
     put 303 (.num 9) s (fun t => !t.auz.mark) = true ∧
     put 801 (.num 1) (withSetting .guestEnable 0 s) (fun t => t.gac.service == .shed) = true ∧
     put 806 (.num 1) s (fun t => (sessionAt t 0).any (·.tokenBits == 8000)) = true ∧
     ([0, 1].map fun held => put 108 (.num 0) (withSetting .refreshOpen held s) fun t => t.lrs.cursor == 4) = [true, false] ∧
     put 600 (.window (everywhere .external)) s (fun t => t.gac.drops == 0) = true ∧
     put 600 (.window (everywhere .internal)) (withWindow (everywhere .external) s) (fun t => t.gac.drops == 1) = true ∧
     put 1002 (.num 100) s (fun t => t.auz.mark && t.lrs.cursor == 4) = true) ∧
    (queuingTest shop = true ∧ queuingTest { shop with ulc := { shop.ulc with active := some .backup } } =
      permittedOn shop.settings .auth .backup) := by decide +kernel

/-- The shop with its entries in a state, the expiries of T1 due or not. -/
def entries (st : EntryState) (now : Tick) : State :=
  { shop with
    auz := { shop.auz with entries := shop.auz.entries.map fun e => { e with state := st, retryEnd := some 2000, attempts := 4 } }
    ulc := { shop.ulc with t1 := { counter := now, lastTick := 0 } } }

theorem witness_AuthEventsTaken : shop.running = true ∧ entryOf shop 15 = none ∧
    ((entryOf (entries .queued 4) 3).any fun e => e.state == .queued && e.expiry == some 0 &&
      dueTick (entries .queued 4) .t1 e.expiry) = true ∧
    ((entryOf (entries .queued 3) 3).any fun e => e.expiry == some 0 && !dueTick (entries .queued 3) .t1 e.expiry) = true ∧
    ((entryOf (entries .sent 4) 2).any fun e => e.state == .sent && e.expiry == some 0) = true ∧
    ((periodMs shop.settings .t1).isSome = true ∧ periodMs (withSetting .periodT1 0 shop).settings .t1 = none) ∧
    (ok (exec (.authWaitExpiry 3) (entries .queued 3)) fun t => t.ulc.t1.counter == 4 && t.auz.fallbackDeclines == 2) = true ∧
    ((entryOf (entries .retryWait 0) 2).any fun e => e.state == .retryWait && e.retryEnd == some 2000) = true ∧
    (queuingTest (advanceTo 2000 (entries .retryWait 0)) = true ∧
      queuingTest (advanceTo 2000 { entries .retryWait 0 with identity := State.reset.identity }) = false) ∧
    ((shop.ulc.path .primary).state = .up) ∧ ((entryByTrace shop 5).any fun e => e.state != .decided) = true ∧
    ((entryByTrace (entries .decided 0) 5).any fun e => e.state == .decided) = true ∧ entryByTrace shop 4294967295 = none ∧
    ((entryByTrace shop 5).any fun e => e.state == .sent && decide ((e.attempts : Int) ≤ shop.settings.num .retryLimit)) = true ∧
    ((entryByTrace (entries .sent 0) 5).any fun e => decide (shop.settings.num .retryLimit < (e.attempts : Int))) = true ∧
    (shop.settings.num .fallbackMode = 0 ∧ (withSetting .fallbackMode 1 shop).settings.num .fallbackMode ≠ 0) ∧
    (let s := withSetting .fallbackMode 1 (withSetting .floorLimit 5000 (withSetting .exposureLimit 200 shop))
     s.sjr.exposure + s.auz.commitment + 200 ≤ s.settings.num .exposureLimit ∧ (200 : Int) ≤ s.settings.num .floorLimit ∧
     s.settings.num .exposureLimit < s.sjr.exposure + s.auz.commitment + 201 ∧
     s.settings.num .floorLimit < ((5001 : Nat) : Int)) := by
  decide +kernel

/-- Replies of head office with a trace, a code or a reason out of range; and an entry that is queued again. -/
theorem witness_AuthEventsTaken_range : (shop.ulc.path .primary).state = .up ∧
    ([Instr.authApproved .primary 0 [1], .authApproved .primary 4294967296 [1], .authApproved .primary 5 [],
        .authApproved .primary 5 (List.replicate 9 1), .authDeclined .primary 0 1, .authDeclined .primary 5 0,
        .authDeclined .primary 5 256, .authBusy .primary 0, .authBusy .primary 4294967296].all fun c =>
      ok (exec c shop) fun t => t.ulc.routeErrors == 1 && t.auz.entries == shop.auz.entries) = true ∧
    ((entryOf (entries .retryWait 7) 2).any fun e => (entryOf (queueEntry e (entries .retryWait 7)) 2).any fun x =>
      x.state == .queued && x.expiry == some 7 && x.retryEnd.isNone) = true := by decide +kernel

/-! ### The uplink and transfer -/

def rising : State :=
  { shop with ulc := { shop.ulc with
      backup := { resetPath with state := .helloWait, carrier := true, helloExpiry := some 0 }
      t2 := { counter := 4, lastTick := 0 } } }

/-- Both paths UP, or PRIMARY alone, PRIMARY degraded or not. -/
def twoPaths (degraded alone : Bool) : State :=
  { shop with ulc := { shop.ulc with
      primary := { shop.ulc.primary with degraded := degraded || alone }
      backup := if alone then resetPath else { resetPath with state := .up, carrier := true, session := some 2 } } }

theorem witness_SessionsTaken : (shop.ulc.path .primary).session = some 1 ∧ stopped.running = false ∧ shop.running = true ∧
    (shop.ulc.path .backup).state = .down ∧ (shop.ulc.path .primary).state = .up ∧
    ((rising.ulc.path .backup).state = .helloWait ∧ (rising.ulc.path .backup).helloExpiry = some 0 ∧
      (rising.ulc.path .backup).helloExpiry.any (expired rising.ulc.t2.counter) = true ∧
      (rising.ulc.path .backup).helloExpiry.any (expired 3) = false) ∧
    (grantsTooHigh ⟨7, 7, 7, 7, 7, 127⟩ = false ∧ grantsTooHigh ⟨8, 0, 0, 0, 0, 0⟩ = true ∧
      grantsTooHigh ⟨0, 0, 0, 0, 0, 128⟩ = true) ∧
    (periodMs (withSetting .periodT1 0 shop).settings .t1 = none ∧ periodMs shop.settings .t2 = some 4096) ∧
    (chosenPath shop.ulc = some .primary ∧ chosenPath (twoPaths true false).ulc = some .backup ∧
      chosenPath (twoPaths false true).ulc = some .primary ∧ chosenPath (twoPaths false false).ulc = some .primary ∧
      chosenPath rising.ulc = some .primary ∧ chosenPath State.reset.ulc = none) ∧
    (chosenPath (twoPaths true false).ulc ≠ (twoPaths true false).ulc.active ∧
      (rechoose .degraded (twoPaths true false)).ulc.active = some .backup ∧
      ((rechoose .degraded (twoPaths true false)).ulc.path .primary).state = .helloWait) ∧
    (queuingTest shop = true ∧ queuingTest { shop with identity := State.reset.identity } = false) := by
  decide +kernel

/-- A session's end reaches everything that is bound to it: the entry that was SENT goes to fallback, the batch waits again, the
office record leaves, and the credits and probes are gone, with carrier and without. -/
theorem test_session_end :
    (let t := endPathSession .primary shop
     t.auz.fallbackDeclines = 1 ∧ (t.txe.batch.any fun b => b.state == .retryWait && b.expiry.isNone) = true ∧ t.ulc.waits = [] ∧
     (t.ulc.path .primary).credits = none ∧ (t.ulc.path .primary).probes = [] ∧ (t.ulc.path .primary).state = .helloWait) ∧
    (let t := endPathSession .primary (putPath .primary { shop.ulc.primary with carrier := false } shop)
     (t.ulc.path .primary).state = .down ∧ (t.ulc.path .primary).credits = none ∧ t.ulc.waits = []) := by decide +kernel

theorem test_grants_above_their_range :
    (let c := openCredits ⟨8, 7, 0, 1, 2, 200⟩
     (c.auth, c.price.held, c.shared) = (⟨7, 7, 0⟩, 7, ⟨127, 127, 0⟩)) ∧
    (ok (exec (.helloAccept .backup ⟨8, 0, 0, 0, 0, 128⟩) rising) fun t => t.ulc.linkErrors == 1) = true := by decide +kernel

/-- Four probes out, all expired. -/
def probed (missed : Nat) : State :=
  { shop with ulc := { shop.ulc with
      t2 := { counter := 4, lastTick := 0 }
      primary := { shop.ulc.primary with
        missed := missed
        probes := [⟨0, 100, 0⟩, ⟨1, 200, 0⟩, ⟨2, 300, 0⟩, ⟨3, 400, 0⟩] } } }

theorem witness_ProbesAndCreditsTaken :
    ((shop.ulc.path .backup).state ≠ .up ∧ (shop.ulc.path .primary).nextProbe = some 9000 ∧
      (shop.ulc.path .primary).probes.length < 4) ∧
    (4 ≤ ((probed 0).ulc.path .primary).probes.length ∧
      ((probeMissed .primary 0 (advanceTo 9000 (probed 0))).ulc.path .primary).state = .up ∧
      ((probeMissed .primary 0 (advanceTo 9000 (probed 0))).ulc.path .primary).session = some 1 ∧
      ((probeMissed .primary 0 (advanceTo 9000 (probed 2))).ulc.path .primary).state ≠ .up) ∧
    ((periodMs shop.settings .t2).isSome = true ∧ periodMs (withSetting .periodT2 0 shop).settings .t2 = none ∧
      (∃ x ∈ ((probed 1).ulc.path .primary).probes, x.number = 0) ∧ (probed 1).ulc.primary.missed + 1 < 3 ∧
      3 ≤ (probed 2).ulc.primary.missed + 1) ∧
    ((∀ x ∈ (shop.ulc.path .primary).probes, x.number ≠ 255) ∧
      (shop.ulc.path .primary).probes.find? (fun y => y.number == 0) = some ⟨0, 900, 0⟩) ∧
    (qualityScoped shop.settings .primary = true ∧ qualityScoped shop.settings .backup = false ∧
      shop.settings.nat .qualityHigh = 2000 ∧ satAdd 8 2 1 = shop.settings.nat .qualityCount ∧
      (shop.ulc.path .primary).degraded = false) ∧
    (classes[4]? = some .guest ∧ (shop.ulc.path .primary).credits.isSome = true) ∧
    ((shop.ulc.path .primary).credits.any fun c => c.auth.inUse == 1 && c.price.inUse == 0 && c.shared.inUse == 1 &&
      c.journal.held == 0) = true := by
  decide +kernel

/-- The shop in a store state, with a frame in every class queue and the journal at its promote mark or below. -/
def sendingAll (st : StoreState) (promote : Nat) : State :=
  let s := withSetting .promoteMark promote (withSetting .backupGuest 0 shop)
  { s with
    day := { s.day with store := st }
    ulc := { s.ulc with
      authQ := [.authRequest 5 1 1 12], priceQ := [.fileRequest 0 12], journalQ := [.fileRequest 0 12]
      officeQ := [.office 10 0 true []], guestQ := [.guest 20 0 [1]] } }

/-- The arbiter's classes: each order, a class with no frame, no permission, no credit, no room in the wait list, and one that is
taken after another that is passed over. -/
theorem witness_ProbesAndCreditsTaken_arbiter :
    (arbiterOrder shop = [.auth, .price, .journal, .office, .guest] ∧ promoteReached shop = false ∧
      shop.day.store = .opened) ∧ (night.day.store = .night ∧ asleep.day.store = .quiet) ∧
    (shop.ulc.queue .guest = [] ∧ ((sendingAll .opened 100).ulc.queue .guest).length = 1) ∧
    (permittedOn shop.settings .office .primary = true ∧ permittedOn (withSetting .backupOffice 1 shop).settings .office .backup = false ∧
      permittedOn (withSetting .backupOffice 0 shop).settings .office .backup = true) ∧
    (sendingAll .opened 100).ulc.waits.length < 32 ∧ (sendingAll .opened 100).gac.service = .opened ∧
    ((shop.ulc.path .primary).tx = none ∧ (shop.ulc.path .primary).control = [] ∧ shop.ulc.active = some .primary ∧
      (shop.ulc.path .primary).credits.isSome = true ∧ (shop.ulc.path .backup).credits = none) ∧
    ((shop.ulc.path .primary).credits.any fun c => (arbiterOrder shop).all fun k => !classQualifies shop .primary c k) = true ∧
    ((sendingAll .opened 100).ulc.primary.credits.any fun c =>
      classQualifies (sendingAll .opened 100) .primary c .auth && classQualifies (sendingAll .opened 100) .primary c .guest) = true ∧
    (let s := { sendingAll .opened 100 with ulc := { (sendingAll .opened 100).ulc with authQ := [] } }
     (s.ulc.primary.credits.any fun c => !classQualifies s .primary c .auth && classQualifies s .primary c .price) = true ∧
     (pump .primary s).out.getLast? = some (.uplink .primary (.fileRequest 0 12))) := by decide +kernel

theorem witness_HeadOfficeFramesTaken : fromHeadOffice (.guestReply .backup 1 []) = some .backup ∧
    ((shop.ulc.path .backup).state = .down ∧ (rising.ulc.path .backup).state = .helloWait ∧ (shop.ulc.path .primary).state = .up) ∧
    ((withSetting .routeTable 1 shop).settings.on .routeTable = false ∧ shop.settings.on .routeTable = true) ∧
    (settingTarget 99 = none ∧ settingTarget 101 = some (.num .ackWindow) ∧
      settingTakes shop.settings (.num .ackWindow) (.num 500) = true ∧
      settingTakes shop.settings (.num .ackWindow) (.num 501) = false ∧ keysMeet [settingKey 101] (writeKeys shop) = false) ∧
    ((wake .headOffice night).day.store = .night ∧ (wake .headOffice night).txe.run.state = .notStarted) ∧
    (wake .headOffice shop).day.store ≠ .night ∧
    ((wake .headOffice shop).hlk.standalone = none ∧
      (wake .headOffice { shop with hlk := { shop.hlk with standalone := some 500 } }).hlk.standalone.isSome = true) ∧
    (shop.ulc.waits.find? (fun x => x.forward == 9) = some { forward := 9, session := 1, expiry := 0 } ∧
      (periodMs shop.settings .t4).isSome = true ∧ (∀ w ∈ shop.ulc.waits, w.forward ≠ 65535) ∧
      periodMs (withSetting .periodT4 0 shop).settings .t4 = none) ∧
    (ok (exec (.officeReplyExpiry 9) shop) fun t => t.ulc.waits.isEmpty && t.ulc.t4.counter == 4) = true := by decide +kernel

/-- A head-office setting that meets a write of its own, in range or not, is judged at its turn: out of range, held already, and new,
with the lock on. -/
theorem witness_HeadOfficeFramesTaken_settings :
    (let s := writing (.setting 101 (.num 50) (.host 2))
     keysMeet [settingKey 101] (writeKeys s) = true ∧ settingTakes s.settings (.num .ackWindow) (.num 501) = false ∧
     (ok (exec (.settings .primary 101 (.num 501)) s) fun t => t.waiting == [.setting 101 (.num 501) .headOffice] &&
       ok (exec (.settingWriteDone 101) t) fun u => u.waiting == [] && u.ulc.routeErrors == 1) = true) ∧
    (takeWork (.setting 99 (.num 1) .headOffice) shop).ulc.routeErrors = 1 ∧
    (takeWork (.setting 101 (.num 50) .headOffice) shop).hlk.notices.getLast?.map (·.body) =
      some (.settingChanged 101 (.num 50) (.num 50) .headOffice) ∧
    (lockable (.num .floorLimit) = true ∧ writesStopped locked = false ∧
      (takeWork (.setting 302 (.num 7) .headOffice) locked).nv = [.setting 302 (.num 7) .headOffice]) := by decide +kernel

/-- A file request in a state, for piece 0. -/
def asking (st : FileState) (now : Tick) : State :=
  { shop with
    ulc := { shop.ulc with t3 := { counter := now, lastTick := 0 } }
    txe := { shop.txe with
      pauseEnd := some 3000
      batch := shop.txe.batch.map fun b => { b with retryEnd := some 2000 }
      file := some
        { state := st, firstSent := some 900, expiry := some { tick := 0, session := 1 }, retryEnd := some 2500, feed := []
          last := false, awaiting := false } } }

/-- A night run in a phase whose abort is due, with a removal that counts for it under way or not. -/
def aborting (st : RunState) (removal : Bool) : State :=
  { shop with
    sjr := { shop.sjr with removing := if removal then some ⟨⟨5, 5, some 3, true⟩, [5]⟩ else none }
    txe := { shop.txe with abortDue := true, run := { shop.txe.run with state := st } } }

/-- The abort waits for the removal, whose number still reaches the run. -/
theorem test_abort_waits_for_the_removal :
    settleAbort (aborting .upload true) = aborting .upload true ∧
    (settleAbort (aborting .upload false)).txe.run.state = .ended ∧
    (ok (exec .journalRemovalDone (aborting .upload true)) fun t =>
      t.txe.run.state == .ended && t.txe.run.uploaded == 1 && t.txe.run.upload == some .aborted) = true := by decide +kernel

theorem witness_TransferEventsTaken : (shop.ulc.path .primary).state = .up ∧
    ((wake .headOffice shop).txe.batch.any fun b => b.number == 3) = true ∧ (wake .headOffice night).txe.batch.isSome = true ∧
    ((answersRequest (wake .headOffice (asking .sent 0)) 0).isSome = true ∧
      answersRequest (wake .headOffice (asking .sent 0)) 1 = none ∧ answersRequest (wake .headOffice (asking .feeding 0)) 0 = none ∧
      (wake .headOffice (asking .sent 0)).txe.pieceNumber = 0) ∧
    (shop.txe.batch.any fun b => b.state == .waitingAck && windowOpen shop b.firstSent) = true ∧
    (let s := { shop with timer := 10 ^ 9 }
     (s.txe.batch.any fun b => b.state == .waitingAck && !windowOpen s b.firstSent) = true) ∧
    ((asking .sent 0).txe.file.any fun f => f.state == .sent && windowOpen (asking .sent 0) f.firstSent) = true ∧
    ((asking .queued 0).txe.file.any fun f => f.state != .sent) = true ∧
    (shop.sjr.removing = none ∧ rangeHeld shop.sjr 5 5 = [5] ∧ rangeHeld shop.sjr 7 9 = [] ∧ writesStopped shop = false) ∧
    (shop.txe.batch.any fun b => b.state == .waitingAck && !b.accepted) = true ∧
    (shop.sjr.removing = none ∧ (let w : RemovalWrite := ⟨⟨5, 5, none, false⟩, [5]⟩
      ({ shop with sjr := { shop.sjr with removing := some w } } : State).sjr.removing.isSome = true)) ∧
    ((asking .sent 4).txe.batch.any fun b => (b.expiry.any fun e => expired (asking .sent 4).ulc.t3.counter e.tick) &&
      b.retryEnd == some 2000) = true ∧
    ((asking .sent 3).txe.batch.any fun b => b.expiry.any fun e => !expired (asking .sent 3).ulc.t3.counter e.tick) = true ∧
    ((periodMs shop.settings .t3).isSome = true ∧ periodMs (withSetting .periodT3 0 shop).settings .t3 = none) ∧
    ((aborting .upload false).txe.abortDue = true ∧ replyPending (aborting .upload false) = false ∧
      (aborting .download false).txe.run.state = .download ∧ replyPending (aborting .download true) = true ∧
      (aborting .upload false).txe.run.state = .upload ∧ shop.txe.run.state.going = false ∧ shop.txe.abortDue = false) ∧
    (shop.txe.batch.any fun b => b.retryEnd == none) = true ∧ (asking .sent 0).txe.pauseEnd = some 3000 ∧
    shop.txe.pauseEnd = none ∧
    ((asking .sent 4).txe.file.any fun f => f.expiry.any fun e => expired (asking .sent 4).ulc.t3.counter e.tick) = true ∧
    ((asking .retryWait 0).txe.file.any fun f => f.state == .retryWait && f.retryEnd == some 2500) = true ∧
    shop.txe.file = none := by decide +kernel

/-- The shop with no batch in flight, its run in a phase. -/
def unbatched (st : RunState) : State :=
  { shop with txe := { shop.txe with batch := none, run := { shop.txe.run with state := st } } }
/-- The shop whose batch of three members is in a state, the last of them held no longer. -/
def batching (st : BatchState) (queue : Nat) (offers : List Nat) : State :=
  { withSetting .trickleEnable 0 shop with
    ulc := { shop.ulc with
      journalQ := List.replicate queue
        (.journalRecord 2 1 1 { seq := 1, till := 0, time := 0, body := .authTrace 1 1, sent := none }) }
    txe := { shop.txe with batch := shop.txe.batch.map fun b =>
      { b with state := st, members := [5, 6, 9], toOffer := offers, expiry := none } } }

/-- The batch aborted by either owner, the run ended, and a removal's number told; then a batch formed for the night and for trickle, and
not; resumed; offered with room, without, and with its record gone; and left waiting, or ended with no member. -/
theorem witness_TransferEventsTaken_batch :
    ((abortBatch shop).txe.pauseEnd.isSome = true ∧ (abortBatch (unbatched .upload)).txe.pauseEnd = none ∧
      windowOpen { shop with timer := 60000 * shop.settings.nat .retryWindow + 499 } (some 500) = true ∧
      windowOpen { shop with timer := 60000 * shop.settings.nat .retryWindow + 500 } (some 500) = false) ∧
    ((endRun .aborted .skipped shop).txe.run.upload = some .aborted ∧
      (endRun .aborted .skipped shop).hlk.notices.length = 2 ∧
      (removalTold ⟨5, 5, some 3, true⟩ 1 shop).txe.batch = none ∧ (removalTold ⟨5, 5, some 4, true⟩ 1 shop).txe.run.uploaded = 1) ∧
    ([formNext (unbatched .upload), formNext (withSetting .trickleEnable 0 (unbatched .notStarted)),
        formNext (withSetting .trickleEnable 1 (unbatched .notStarted)),
        formNext { unbatched .upload with sjr := State.reset.sjr }].map
      fun t => (t.txe.batch.map fun b => (b.owner, b.members), t.txe.run.state)) =
      [(some (.night, [6]), .upload), (some (.trickle, [6]), .notStarted), (none, .notStarted), (none, .download)] ∧
    ([(BatchState.retryWait, 0, []), (.sending, 31, [5, 9]), (.sending, 32, [5, 9]), (.sending, 0, [9])].map fun p =>
      (offerMember (resumeBatch (batching p.1 p.2.1 p.2.2))).txe.batch.map fun b => (b.members, b.toOffer)) =
      [some ([5, 6], [6]), some ([5, 6, 9], [9]), some ([5, 6, 9], [5, 9]), some ([5, 6], [])] ∧
    ((settleBatch (batching .sending 0 [])).txe.batch.any (·.state == .waitingAck) = true ∧
      settleBatch (batching .sending 0 [9]) = batching .sending 0 [9] ∧
      (settleBatch { shop with txe := { shop.txe with batch := shop.txe.batch.map fun b => { b with members := [] } } }).txe.batch
        = none) := by decide +kernel

/-- The FILE REQUEST offered with room and without, with the branch number as it is; and a piece fed, ended, asked on and ended at the
last number. -/
theorem witness_TransferEventsTaken_file :
    ((offerFileRequest (asking .waitingRoom 0)).ulc.priceQ = [.fileRequest 0 12] ∧
      (offerFileRequest { asking .waitingRoom 0 with identity := State.reset.identity }).ulc.priceQ = [.fileRequest 0 0] ∧
      queueCount shop = 1 ∧
      queueCount { shop with pbk := { shop.pbk with
        ops := [⟨.upsert (entry 20 false false), .nobody⟩, ⟨.upsert (entry 7 false false), .nobody⟩] } } = 2 ∧
      (let s : State := { asking .waitingRoom 0 with ulc := { shop.ulc with priceQ := List.replicate 32 (.fileRequest 1 1) } }
       offerFileRequest s = s)) ∧
    (let feeding (feed : List PieceChange) (last : Bool) (n : Nat) : State :=
       { asking .feeding 0 with txe := { (asking .feeding 0).txe with
           pieceNumber := n
           file := (asking .feeding 0).txe.file.map fun f => { f with feed := feed, last := last } } }
     ((feedOne (feeding [⟨7, 1, true, false⟩] true 0)).txe.file.any fun f => f.awaiting && f.feed.isEmpty) = true ∧
     (feedOne (feeding [] true 0)).txe.run.download = some .ok ∧
     ([65534, 65535].map fun n => ((feedOne (feeding [] false n)).txe.pieceNumber, (feedOne (feeding [] false n)).txe.run.download)) =
       [(65535, none), (65535, some .failed)] ∧
     ((nightAnswer false (feedOne (feeding [⟨7, 1, true, false⟩, ⟨8, 1, true, false⟩] true 0))).txe.run.rejected = 1)) := by
  decide +kernel

/-- A frame of each kind with its owner and without. -/
theorem witness_ProbesAndCreditsTaken_owner :
    (let r (n : Nat) : Record := { seq := n, till := 3, time := 0, body := .authTrace 50 1, sent := none }
     ((entryByTrace shop 6).isSome = true ∧ entryByTrace shop 99 = none) ∧
     ((entryByTrace (frameSent (.authRequest 6 50 1 12) 1 shop) 6).any fun e =>
       e.state == .sent && e.attempts == 1 && e.session == some 1 && e.expiry == some 0) = true ∧
     ((frameSent (.journalRecord 3 1 1 (r 6)) 1 shop).txe.batch.map (·.framesSent)) = some 2 ∧
     ((frameSent (.journalRecord 4 1 1 (r 6)) 1 shop).txe.batch = shop.txe.batch) ∧
     ((frameSent (.journalRecord 3 1 1 (r 6)) 1 shop).sjr.records.map (·.sent), (frameSent (.journalRecord 3 1 1 (r 6)) 1 shop).sjr.unsent)
       = ([some 3, some 3], 0) ∧
     ((frameSent (.fileRequest 0 12) 1 (asking .queued 0)).txe.file.any fun f => f.state == .sent && f.firstSent == some 900) = true ∧
     frameSent (.fileRequest 0 12) 1 (asking .sent 0) = asking .sent 0 ∧ frameSent (.fileRequest 0 12) 1 shop = shop ∧
     ((frameSent (.office 10 0 true []) 1 shop).ulc.waits.map (·.forward)) = [9, 10] ∧
     frameSent (.office 10 0 false []) 1 shop = shop ∧ frameSent (.guest 20 0 [1]) 1 shop = shop) := by decide +kernel

/-! ### Guests, the day and stops -/

/-- The shop with the one session changed. -/
def guest (bits : Nat) (quota : Int) : State :=
  let e : Session :=
    { addr := 20, admitted := 0, endsAt := 61000, quota := quota, tokenBits := bits, tokenTime := 1000, bytesOut := 0
      bytesIn := 0 }
  { shop with gac := { shop.gac with sessions := some e :: List.replicate 63 none } }
/-- The shop with guest access enabled and every condition met. -/
def served : State := withSetting .guestEnable 0 shop
def crowd : State := { shop with gac := { shop.gac with sessions := List.replicate 64 (sessionAt shop 0) } }

/-- Payloads of no byte, of one, of as many as a guest frame may carry, and of one more. -/
theorem witness_GuestPortTaken_lengths : ([0, 1, 1536, 1537].map fun n =>
      (List.replicate n (0 : Byte)).length) = [0, 1, 1536, 1537] ∧
    (ok (exec (.guestReply .primary 20 []) shop) fun t => t.ulc.routeErrors == 1) = true ∧
    (ok (exec (.guestReply .primary 20 (List.replicate 1537 0)) shop) fun t => t.ulc.routeErrors == 1) = true ∧
    (ok (exec (.guestReply .primary 20 [7]) shop) fun t => (sessionAt t 0).any (·.quota == 999)) = true := by decide +kernel

theorem witness_GuestPortTaken : asleep.day.power = .quiet ∧ shop.day.power ≠ .quiet ∧ State.reset.gac.service ≠ .opened ∧
    (shop.gac.service = .opened ∧ shop.gac.spent.contains 21 = true ∧ shop.gac.spent.contains 22 = false) ∧
    (sessionOf shop 20 = some 0 ∧ (sessionAt shop 0).isSome = true) ∧ (sessionOf crowd 22 = none ∧ freeSession crowd = none) ∧
    (sessionOf shop 22 = none ∧ freeSession shop = some 1) ∧
    ((sessionAt (guest 8 1) 0).any fun e => tokensAt shop.settings 1000 e == 8 && e.quota == 1) = true ∧
    ((sessionAt (guest 7 1) 0).any fun e => decide (tokensAt shop.settings 1000 e < 8 * 1)) = true ∧
    ((sessionAt (guest 8 0) 0).any fun e => decide (e.quota < 1)) = true ∧
    (firstWindow shop.settings.windows true 0 = none ∧
      firstWindow (withWindow (everywhere .internal) shop).settings.windows true 0 = some (everywhere .internal) ∧
      firstWindow (withWindow (everywhere .external) shop).settings.windows true 0 = some (everywhere .external)) ∧
    (shop.ulc.guestQ.length < 64 ∧ 64 ≤ ({ shop with ulc := { shop.ulc with
      guestQ := List.replicate 64 (.guest 20 0 [1]) } } : State).ulc.guestQ.length) ∧
    sessionAt shop 63 = none ∧ (shop.ulc.path .primary).state = .up ∧
    (sessionOf (wake .headOffice shop) 20 = some 0 ∧ sessionOf (wake .headOffice shop) 22 = none) ∧
    ([21, 22].contains (22 : Addr) = true ∧ (List.replicate 255 (1 : Addr)).contains 2 = false ∧
      (List.replicate 255 (1 : Addr)).length < 256 ∧ 256 ≤ (List.replicate 256 (1 : Addr)).length) := by decide +kernel

/-- The service opened, shed for one condition after another, and closed; and what each change of it does. -/
theorem witness_GuestPortTaken_service :
    (failingConditions served = [] ∧ serviceDecided served = .opened ∧ serviceDecided night = .closed) ∧
    (failingConditions (withSetting .guestEnable 1 served) = [.disabled] ∧
      failingConditions { served with ulc := { served.ulc with active := none } } = [.path] ∧
      failingConditions { served with day := { served.day with lines := served.day.lines.put .mains false } } = [.mains] ∧
      serviceDecided (withSetting .guestEnable 1 served) = .shed) ∧
    (let s := { withSetting .guestEnable 1 served with ulc := { served.ulc with guestQ := [.guest 20 0 [1]] } }
     (guestDecide s).gac.service = .shed ∧ (guestDecide s).gac.drops = 1 ∧ admittedCount (guestDecide s) = 1) ∧
    (let s := { served with day := { served.day with store := .closing } }
     (guestDecide s).gac.service = .closed ∧ admittedCount (guestDecide s) = 0) ∧
    (let s := { served with gac := { served.gac with service := .shed } }
     (guestDecide s).gac.service = .opened ∧ admittedCount (guestDecide s) = 1) ∧ guestDecide served = served := by
  decide +kernel

/-- The shop at night with every condition for QUIET met. -/
def ready : State :=
  { withSetting .quietEnable 0 night with
    pbk := { State.reset.pbk with counter := 5, taken := 5 }
    txe := { shop.txe with run := { shop.txe.run with state := .ended } }
    day := { night.day with quietAt := some 1000 } }

theorem witness_DayEventsTaken : State.reset.day.clock = none ∧
    (inEventMinute shop.settings .openTime 28800 = true ∧ inEventMinute shop.settings .openTime 28859 = true ∧
      inEventMinute shop.settings .openTime 28860 = false ∧ nextEventAt shop.settings .openTime 28860 = some 115200) ∧
    (let s := withSetting .closedWeekdays 127 shop
     inEventMinute s.settings .openLead 0 = false ∧ nextEventAt s.settings .openLead 0 = none) ∧
    (shop.day.quietAt = none ∧ State.reset.day.quietAt = some 300000) ∧
    (shop.day.lines.get .mains = true ∧ shop.day.lines.get .door = false ∧ shop.day.reported.get .door ≠ true ∧
      asleep.day.power = .quiet ∧ stopped.running = false ∧ shop.running = true ∧ shop.day.power ≠ .quiet) ∧
    (quietDue ready = true ∧ ready.day.lines = ready.day.reported ∧ quietDue shop = false) ∧
    (night.day.store = .night ∧ asleep.day.store = .quiet ∧ shop.day.store = .opened) ∧
    ([25199, 25200, 28799, 28800].map fun c => wakeState { asleep with day := { asleep.day with clock := some c } } .tillHello) =
      [.night, .opening, .opening, .night] ∧
    (wakeState State.reset .tillHello = .night ∧ tradingDay (withSetting .closedWeekdays 127 shop).settings 25200 = false ∧
      tradingDay shop.settings 25200 = true) := by decide +kernel

/-- An event of a minute that another event's early arrival passes joins the queue; an event across the clock's wrap comes in its own
minute; and an entry to QUIET with a line unreported wakes at once, telling of it. -/
theorem witness_DayEventsTaken_queue :
    (let at' (c : Nat) : State := { shop with day := { shop.day with clock := some c } }
     (eventsFallDue 999 (at' 25199)).day.dueEvents = [] ∧ (eventsFallDue 1000 (at' 25199)).day.dueEvents = [.openLead] ∧
     (eventsFallDue 3601000 (at' 25199)).day.dueEvents = [.openLead, .openTime] ∧
     dueCommands (eventsFallDue 1000 (at' 25199)) = dueCommands (at' 25199) ++ [.openLeadEvent] ∧
     countedEvents shop.settings 4294960000 32496 = [.openLead] ∧ countedEvents shop.settings 4294960000 32495 = [] ∧
     nextEventAt shop.settings .openLead 4294960000 = some 4294992496) ∧
    (ok (exec .openLeadEvent { night with day := { night.day with clock := some 4294960000 } }) fun t =>
      t.day.store == .opening && t.day.clock == some 25200) = true ∧
    (ok (exec .openEvent { night with day := { night.day with clock := some 25199 } }) fun t =>
      t.day.dueEvents == [.openLead] && t.day.clock == some 28800 &&
      ok (exec .openLeadEvent t) fun u => u.day.store == .opening && u.day.dueEvents == [] && u.day.clock == some 28800) = true ∧
    ready.day.lines = ready.day.reported ∧
    (let s : State := { ready with day := { ready.day with lines := ready.day.lines.put .door true } }
     s.day.lines ≠ s.day.reported ∧ quietDue s = true ∧ (enterQuiet s).day.power = .run ∧
     (enterQuiet s).day.lastWake = some .siteLine ∧
     (enterQuiet s).hlk.notices.getLast?.map (·.body) = some (.site .door true s.clock0 s.day.lines) ∧
     (enterQuiet s).day.reported = s.day.lines) ∧
    (enterQuiet ready).day.power = .quiet := by decide +kernel

/-- A line unreported at an entry to QUIET with a quiet delay of 0: with room for its notice the second test ends in QUIET; with none
the condition holds on, and the event falls due in each millisecond. -/
theorem witness_DayEventsTaken_delay0 :
    (let s (n : Nat) : State := withSetting .quietDelay 0 { ready with
       hlk := { ready.hlk with notices := List.replicate n firstStart }
       day := { ready.day with lines := ready.day.lines.put .door true } }
     (quietDue (enterQuiet (s 1)) = true ∧ (testQuiet (s 1)).day.power = .quiet ∧ quietDue (testQuiet (s 1)) = false) ∧
     (quietDue (testQuiet (s 32)) = true ∧ (testQuiet (s 32)).day.power = .run ∧
       (dueCommands (testQuiet (s 32))).contains .quietDelayExpiry = true)) ∧
    (ready.settings.nat .quietDelay ≠ 0 ∧ quietDue (enterQuiet { ready with
      day := { ready.day with lines := ready.day.lines.put .door true } }) = false) := by decide +kernel

/-- Start-ups after a reset kind that keeps the clock, at a clock value, with records or without. -/
def started (c : Nat) (records : Bool) : State :=
  startUp .resetLine
    { shop with
      day := { shop.day with clock := some c }
      sjr := if records then shop.sjr else State.reset.sjr }

/-- The store state at each end of the schedule's stretches, the run that a start-up at night begins, and the paths. -/
theorem witness_StopsAndResets_start :
    ([25199, 25200, 28799, 28800, 75599, 75600].map fun c => (started c true).day.store) =
      [.night, .opening, .opening, .opened, .opened, .night] ∧
    ((started 0 true).txe.run.state = .upload ∧ (started 0 false).txe.run.state = .download ∧
      (started 28800 true).txe.run.state = .notStarted ∧ (started 28800 true).gac.service = .shed) ∧
    ((started 0 true).ulc.primary.state = .helloWait ∧ (started 0 true).ulc.backup.state = .down) ∧
    ((startUp .holdExit shop).day.clock = none ∧ (startUp .holdExit shop).day.store = .night) := by decide +kernel

/-- A pending part rebuilt with a label that lacks its price, and one whose set is empty and which takes effect at once; the journal's
figures; and the host link and radio begun anew. -/
theorem witness_StopsAndResets_rebuilt :
    (let t := started 28800 true
     ((shop.pbk.items.filter (·.pending.isSome)).map (·.code) = [9]) ∧
     (slotAt t 0 = some { number := 5, item := 9, price := 70, origin := .hostRequest, urgent := false, outstanding := [6]
                          issueTime := 28800, confirmed := 0, unreachable := 0, stage := .labelling }) ∧
     (t.sjr.level, t.sjr.exposure, t.sjr.unsent) = (.below50, exposureOf shop.sjr.records, 2) ∧
     (t.hlk.replies, t.hlk.silenceAt, t.lrs.radio, t.lrs.settleEnd, t.pbk.drops) = ([], some 30000, .settling, some 64, 0)) ∧
    (let s : State := { shop with lrs := { shop.lrs with labels := shop.lrs.labels.map fun l =>
       if l.id = 6 then { l with confirmed := some 70 } else l } }
     (startUp .resetLine s).nv.contains (.effect 9) = true ∧
     ((slotAt (startUp .resetLine s) 0).any fun x => x.stage == .effecting && x.confirmed == 1 && x.outstanding == []) = true) := by
  decide +kernel

/-- What START tells: the store state chosen, a run started or none, the records held and the slots rebuilt. -/
theorem witness_StopsAndResets_notice :
    ([(0, true), (28800, true), (25200, false)].map fun p => (started p.1 p.2).hlk.notices.head?.map (·.body)) =
      [some (.start .resetLine (some 0) .night true 2 1 shop.day.lines),
       some (.start .resetLine (some 28800) .opened false 2 1 shop.day.lines),
       some (.start .resetLine (some 25200) .opening false 0 1 shop.day.lines)] ∧
    (startUp .holdExit shop).hlk.notices.head?.map (·.body) = some (.start .holdExit none .night false 2 1 shop.day.lines) := by
  decide +kernel

theorem witness_StopsAndResets :
    (let s : State := { shop with day := { shop.day with powered := false } }
     s.day.powered = false) ∧ shop.day.powered = true ∧
    shop.running = true ∧ stopped.running = false ∧ shop.day.holdLine = false ∧
    (stopped.day.resetLine = true ∧ stopped.day.holdLine = false ∧ stopped.day.powered = true ∧
      stopped.day.stopped = some .resetLine) ∧
    (let s : State := { shop with day := { shop.day with holdLine := true, power := .hold, stopped := some .holdExit } }
     s.day.holdLine = true ∧ s.day.resetLine = false ∧ s.day.stopped = some .holdExit) ∧
    (hostResetDue { shop with hlk := { shop.hlk with resetPhase := .sent } } = true ∧ hostResetDue shop = false ∧
      (dueCommands { shop with hlk := { shop.hlk with resetPhase := .sent } }).contains .hostReset = true) := by
  decide +kernel

theorem witness_NumbersAreRead : 65535 < 256 ^ 2 ∧ ¬ 65536 < 256 ^ 2 ∧ readNumber (numberBytes 2 65535) = 65535 ∧
    crc16 [0x31, 0x32, 0x33, 0x34, 0x35, 0x36, 0x37, 0x38, 0x39] = 0x29B1 ∧
    ((0#16).msb = false ∧ (0x8000#16).msb = true) ∧
    ((List.replicate 1024 (0 : Byte)).length ≤ 1024 ∧ 1024 < 256 * (4 : Byte).toNat + (1 : Byte).toNat) ∧
    crcHolds ([0, 0, 33, 1] ++ [0, 0]) = false ∧ shop.running = true ∧ stopped.running = false ∧
    ((begun 980).timer ≤ (begun 980).hlk.rxAt + 20 ∧ (begun 979).hlk.rxAt + 20 < (begun 979).timer ∧
      (begun 979).hlk.rx.bytes ≠ []) ∧
    gapCounted [.beacon, .hostByteTimeout, .settleEnd] = [.beacon, .badFrame (.check .host), .settleEnd] := by decide +kernel

/-- A STATUS request's bytes come in one at a time and join the waiting commands; with one bit wrong they are a bad frame; and stray
bytes before the marker are one frame error. -/
theorem test_bytes_come_in :
    (shop.receive .host ([9, 9] ++ outerFrame [33, 1] [])).pending = [.badFrame (.check .host), .status { tag := 1, fits := true }] ∧
    (let f := outerFrame [33, 1] []
     ((shop.receive .host (f.take 4)).receive .host (f.drop 4)).pending = [.status { tag := 1, fits := true }] ∧
     (shop.receive .host (f.set 4 3)).pending = [.badFrame (.check .host)] ∧
     (shop.receive .host (f ++ [1, 2])).pending = [.status { tag := 1, fits := true }, .badFrame (.check .host)]) ∧
    (shop.receive (.uplink .primary) (outerFrame [5, 255, 0, 0, 0, 0, 0, 0, 0] [])).pending = [.probeReply .primary 255] ∧
    (shop.receive .till (outerFrame [1, 0, 0, 0, 0, 0, 11, 2, 0] [])).pending = [.poll { till := 1, addr := 11, fits := true }] ∧
    (stopped.receive .till (outerFrame [1, 0, 0, 0, 0, 0, 11, 2, 0] [])).pending = [] := by decide +kernel

/-- Frames the part sends: a LOCK reply from marker to check, IDENTIFY's payload, the session entry of GUEST LIST, a declined
tender's frame, and the beacon, which has no bytes. -/
theorem test_frames_go_out :
    (let f := hostFrameBytes (.reply { tag := 1, kind := .lock, result := .ok, body := .empty, queued := false })
     f.take 6 = [0x7E, 0, 0, 30, 1, 0] ∧ f.length = 8 ∧ crcHolds f.tail = true) ∧
    replyPayload (.identity 1 2 3 4 65535) = [0, 1, 0, 2, 0, 3, 0, 0, 0, 4, 255, 255] ∧
    (replyPayload (.guests (guestReport shop 0))).length = 9 + 1 + 31 + 2 ∧
    (noticeFields (.settingChanged 305 (.num (-1)) (.num 5) .headOffice)) = [1, 49, 255, 255, 255, 255, 0, 0, 0, 5, 1] ∧
    ((portBytes (.till 1 11 .declined .declined (.declined .unavailable 5))).any fun f =>
      (f.drop 3).take 14 == [1, 0, 0, 0, 0, 0, 11, 17, 34, 0, 0, 0, 0, 5]) = true ∧
    portBytes .beacon = none := by decide +kernel

end Sys2Proof.Tests
end

