-- ==== Sys2Proof/Proofs/TillRequests.lean ====
section
/-! PROOFS. Till places and till requests: what is read from a place that has been written, what a request that R50's checks let through is handed, and how its answer leaves the place; with them, BYE and SALE OPEN (R54, R55). -/

namespace Sys2Proof.Proofs

open Sys2Proof.Machine Sys2Proof.Safety Sys2Proof.Laws

/-! ## Reading and writing places -/

/-- A place that is not FREE is one of the part's places: a number beyond them reads as a FREE place. -/
theorem till_lt_length_of_not_free {s : State} {t : Nat} (h : (placeAt s t).state ≠ .free) :
    t < s.tsu.places.length := by
  refine Nat.lt_of_not_le fun hle => h ?_
  have hfree : placeAt s t = freePlace := by
    rw [placeAt, List.getD_eq_getElem?_getD, List.getElem?_eq_none hle, Option.getD_none]
  rw [hfree]
  rfl

theorem placeAt_putPlace_same {s : State} {t : Nat} (p : Place) (ht : t < s.tsu.places.length) :
    placeAt (putPlace t p s) t = p := by
  simp [placeAt, putPlace, ht]

@[simp] theorem placeAt_emit (o : Output) (s : State) (t : Nat) : placeAt (emit o s) t = placeAt s t := rfl

@[simp] theorem putPlace_putPlace (t : Nat) (p q : Place) (s : State) :
    putPlace t q (putPlace t p s) = putPlace t q s := by
  simp [putPlace]

theorem putPlace_emit (t : Nat) (p : Place) (o : Output) (s : State) :
    putPlace t p (emit o s) = emit o (putPlace t p s) := rfl

/-! ## Requests that R50's checks let through -/

section Admitted

variable {s : State} {h : TillHead}

theorem tillAdmits_inPlaces (ha : TillAdmits s h) : h.till < s.tsu.places.length :=
  till_lt_length_of_not_free ha.bound

/-- The request finds its place IDLE, BASKET or AUTHORIZING (R50). -/
theorem tillAdmits_state_cases (ha : TillAdmits s h) : (placeAt s h.till).state = .idle ∨
    (placeAt s h.till).state = .basket ∨ (placeAt s h.till).state = .authorizing := by
  have hbound := ha.bound
  have hheld := ha.held
  cases hst : (placeAt s h.till).state with
  | free => exact absurd hst hbound
  | idle => exact .inl rfl
  | basket => exact .inr (.inl rfl)
  | authorizing => exact .inr (.inr rfl)
  | orphaned => exact absurd hst hheld

theorem tillRefusal_of_admits (ha : TillAdmits s h) : tillRefusal h s = none := by
  have hnumber : ¬ 15 < h.till := Nat.not_lt.2 ha.number
  simp [tillRefusal, hnumber, ha.bound, ha.address, ha.held, ha.clear]

/-- The frame counts as the last frame of the place it names (R50, step 1). -/
theorem touchPlace_of_admits (ha : TillAdmits s h) : touchPlace h s = putPlace h.till (touched s h) s := by
  have hheard : heardFrom h.addr (placeAt s h.till) = true := by
    rcases tillAdmits_state_cases ha with hst | hst | hst <;> simp [heardFrom, hst, ha.address]
  simp [touchPlace, soundingPlace, hheard, touched]

/-- The request's own rule is taken at the state in which its frame is the place's last. -/
theorem tillRequest_of_admits (ha : TillAdmits s h) (k : TillKind) (own : State → State) :
    tillRequest h k own s = .next (finish (own (putPlace h.till (touched s h) s))) := by
  have hframe : tillFrame h k own s = own (putPlace h.till (touched s h) s) := by
    rw [tillFrame, tillRefusal_of_admits ha, touchPlace_of_admits ha]
  rw [tillRequest, event_running _ _ ha.running, hframe]

/-- A request without fields whose payload fits is decided by its own rule alone (R196). -/
theorem fieldlessRequest_of_admits (ha : TillAdmits s h) (k : TillKind) (own : State → State) :
    tillRequest h k (ifFits h k own) s = .next (finish (own (putPlace h.till (touched s h) s))) := by
  rw [tillRequest_of_admits ha, ifFits, if_pos ha.fits]

theorem placeAt_touched (ha : TillAdmits s h) : placeAt (putPlace h.till (touched s h) s) h.till = touched s h :=
  placeAt_putPlace_same _ (tillAdmits_inPlaces ha)

/-! ## Answers -/

/-- The flag's clearing leaves a place as it is when the flag is clear and the frame is of this moment. -/
theorem clearedPlace_eq_self {now : Nat} {p : Place} (hbusy : p.busy = false) (hlast : p.lastFrame = now) :
    clearedPlace now p = p := by
  subst hlast
  cases p
  cases hbusy
  rfl

/-- An answer to the till of a place just written, with its flag clear and its last frame of this moment (R51). -/
theorem answerTill_putPlace (k : TillKind) (r : Result) (b : TillBody) {p : Place}
    (ht : h.till < s.tsu.places.length) (haddr : p.addr = some h.addr) (hbusy : p.busy = false)
    (hlast : p.lastFrame = s.timer) :
    answerTill h.till k r b (putPlace h.till p s) = tillAnswer h k r b p s := by
  have hplace := placeAt_putPlace_same p ht
  have hcleared : clearedPlace s.timer p = p := clearedPlace_eq_self hbusy hlast
  simp [answerTill, clearBusy, sendTill, tillAnswer, hplace, hcleared, haddr, putPlace_emit]

/-- An answer that leaves the place as it was but for its last-frame time. -/
theorem answerTill_touched (ha : TillAdmits s h) (k : TillKind) (r : Result) (b : TillBody) :
    answerTill h.till k r b (putPlace h.till (touched s h) s) = tillAnswer h k r b (touched s h) s :=
  answerTill_putPlace k r b (tillAdmits_inPlaces ha) ha.address ha.clear rfl

/-! ## BYE (R54) -/

theorem exec_bye_of_idle (ha : TillAdmits s h) (hidle : (placeAt s h.till).state = .idle) :
    exec (.bye h) s = .next (finish (emit (.till h.till h.addr .bye .ok .empty)
      (putPlace h.till (freedPlace (touched s h)) s))) := by
  have hanswer : answerBye h (putPlace h.till (touched s h) s) =
      emit (.till h.till h.addr .bye .ok .empty) (putPlace h.till (freedPlace (touched s h)) s) := by
    have hstate : (touched s h).state = .idle := hidle
    simp [answerBye, placeAt_touched ha, hstate, sendTill, freeTill]
  rw [← hanswer]
  exact fieldlessRequest_of_admits ha .bye (answerBye h)

theorem exec_bye_of_not_idle (ha : TillAdmits s h) (hidle : (placeAt s h.till).state ≠ .idle) :
    exec (.bye h) s = .next (finish (tillAnswer h .bye .basketOpen .empty (touched s h) s)) := by
  have hanswer : answerBye h (putPlace h.till (touched s h) s) = tillAnswer h .bye .basketOpen .empty (touched s h) s := by
    have hstate : (touched s h).state ≠ .idle := hidle
    rw [answerBye, placeAt_touched ha, if_neg hstate, answerTill_touched ha]
  rw [← hanswer]
  exact fieldlessRequest_of_admits ha .bye (answerBye h)

/-! ## SALE OPEN (R55) -/

theorem exec_saleOpen_of_idle (ha : TillAdmits s h) (hidle : (placeAt s h.till).state = .idle)
    (hopen : s.day.store = .opened) : exec (.saleOpen h) s = .next (finish
      (tillAnswer h .saleOpen .ok .empty { touched s h with state := .basket, basket := [] } s)) := by
  have hanswer : answerSaleOpen h (putPlace h.till (touched s h) s) =
      tillAnswer h .saleOpen .ok .empty { touched s h with state := .basket, basket := [] } s := by
    have hcond : (touched s h).state = .idle ∧ (putPlace h.till (touched s h) s).day.store = .opened := ⟨hidle, hopen⟩
    rw [answerSaleOpen, placeAt_touched ha, if_pos hcond, putPlace_putPlace]
    exact answerTill_putPlace .saleOpen .ok .empty (tillAdmits_inPlaces ha) ha.address ha.clear rfl
  rw [← hanswer]
  exact fieldlessRequest_of_admits ha .saleOpen (answerSaleOpen h)

theorem exec_saleOpen_refused (ha : TillAdmits s h)
    (href : (placeAt s h.till).state ≠ .idle ∨ s.day.store ≠ .opened) :
    exec (.saleOpen h) s = .next (finish (tillAnswer h .saleOpen .state .empty (touched s h) s)) := by
  have hanswer : answerSaleOpen h (putPlace h.till (touched s h) s) =
      tillAnswer h .saleOpen .state .empty (touched s h) s := by
    have hcond : ¬ ((touched s h).state = .idle ∧ (putPlace h.till (touched s h) s).day.store = .opened) :=
      fun hc => href.elim (absurd hc.1) (absurd hc.2)
    rw [answerSaleOpen, placeAt_touched ha, if_neg hcond, answerTill_touched ha]
  rw [← hanswer]
  exact fieldlessRequest_of_admits ha .saleOpen (answerSaleOpen h)

end Admitted

/-- Settles O40: every case of BYE and SALE OPEN, once R50's checks have let the request through. -/
theorem byeAndSaleOpenDecided : Obligations.ByeAndSaleOpenDecided := by
  unfold Obligations.ByeAndSaleOpenDecided
  intro h s ha
  refine ⟨exec_bye_of_idle ha, fun hst => exec_bye_of_not_idle ha ?_, exec_saleOpen_of_idle ha, exec_saleOpen_refused ha⟩
  rcases hst with hst | hst <;> rw [hst] <;> decide

end Sys2Proof.Proofs
end

