-- ==== Sys2Proof/Proofs/HostLink.lean ====
section
/-! PROOFS. The host link: how a notice joins the queue or is lost (R184), who may clear the lock flag, and what the lock refuses (R188, R189). -/

namespace Sys2Proof.Proofs

open Sys2Proof.Machine Sys2Proof.Safety Sys2Proof.Laws

/-! ## Notices (R184) -/

theorem noticeRoom_iff (s : State) : noticeRoom s = true ↔ s.hlk.notices.length < 32 :=
  decide_eq_true_iff

theorem joinNotice_of_room {s : State} (b : NoticeBody) (hroom : s.hlk.notices.length < 32) :
    joinNotice b s = { s with hlk := { s.hlk with
      notices := s.hlk.notices ++
        [{ number := if s.hlk.lastNumber < 65535 then s.hlk.lastNumber + 1 else 1, overrun := s.hlk.overrun, body := b }]
      lastNumber := if s.hlk.lastNumber < 65535 then s.hlk.lastNumber + 1 else 1
      overrun := false } } := by
  rw [joinNotice, if_pos ((noticeRoom_iff s).2 hroom)]
  rfl

theorem joinNotice_of_full {s : State} (b : NoticeBody) (hfull : 32 ≤ s.hlk.notices.length) :
    joinNotice b s = { s with hlk := { s.hlk with
      overrun := true
      standaloneOverrun := s.hlk.standaloneOverrun || s.hlk.standalone.isSome } } := by
  rw [joinNotice, if_neg (fun hroom => Nat.not_lt.2 hfull ((noticeRoom_iff s).1 hroom))]

/-- Once START has joined the queue, nothing is held back (R179). -/
theorem notify_of_not_held {s : State} (b : NoticeBody) (hheld : s.hlk.held = none) : notify b s = joinNotice b s := by
  rw [notify, hheld]

theorem notify_of_held {s : State} (b : NoticeBody) {l : List NoticeBody} (hheld : s.hlk.held = some l) :
    notify b s = { s with hlk := { s.hlk with held := some (l ++ [b]) } } := by
  rw [notify, hheld]

@[simp] theorem joinNotice_day (b : NoticeBody) (s : State) : (joinNotice b s).day = s.day := by
  unfold joinNotice
  split <;> rfl

@[simp] theorem notify_day (b : NoticeBody) (s : State) : (notify b s).day = s.day := by
  unfold notify
  split
  · rfl
  · exact joinNotice_day b s

/-- The last-reported value follows when the SITE notice finds room (R172). -/
theorem reportLine_reported_of_room {s : State} (l : SiteLine) (hroom : s.hlk.notices.length < 32) :
    (reportLine l s).day.reported = s.day.reported.put l (s.day.lines.get l) := by
  simp [reportLine, (noticeRoom_iff s).2 hroom]

theorem reportLine_reported_of_full {s : State} (l : SiteLine) (hfull : 32 ≤ s.hlk.notices.length) :
    (reportLine l s).day.reported = s.day.reported := by
  have hroom : ¬ noticeRoom s = true := fun h => Nat.not_lt.2 hfull ((noticeRoom_iff s).1 h)
  simp [reportLine, hroom]

/-- Settles O37: the three fates of a notice, and the last-reported value of a line by the room its notice finds. -/
theorem noticesJoinTheQueue : Obligations.NoticesJoinTheQueue := by
  unfold Obligations.NoticesJoinTheQueue
  intro b s
  refine ⟨fun hheld hroom => ?_, fun hheld hfull => ?_, fun l hheld => notify_of_held b hheld,
    fun l => ⟨reportLine_reported_of_room l, reportLine_reported_of_full l⟩⟩
  · rw [notify_of_not_held b hheld, joinNotice_of_room b hroom]
  · rw [notify_of_not_held b hheld, joinNotice_of_full b hfull]

/-! ## Who may clear the lock flag (R189) -/

/-- Of the elementary moves a reset alone clears the lock flag. -/
theorem move_keeps_lock {d : Area → Bool} {v w : View} (hresets : d .resets = false) (hm : Move (.outer d) v w)
    (hlock : v.lock = true) : w.lock = true := by
  cases hm
  case fresh hd => exact absurd hd (by simp [hresets])
  all_goals simp [hlock]

/-- A command that may not reset the part leaves a set lock flag set. -/
theorem exec_keeps_lock {c : Instr} {s t : State} (hresets : areas c .resets = false) (hc : exec c s = .next t)
    (hlock : s.hlk.lock = true) : t.hlk.lock = true := by
  obtain ⟨u, hu, hr⟩ := exec_reaches c s
  obtain rfl : u = t := by rw [hu] at hc; exact Host.Outcome.next.inj hc
  exact hr.keeps (fun v => v.lock = true) (fun _ _ ha hm => move_keeps_lock hresets hm ha) hlock

/-- Start-up is the clearing of what is volatile (R177), and after it after-effects alone (R178). -/
theorem startUp_runs_from_fresh (k : ResetCause) (s : State) :
    Runs .inner (view (freshState k s)) (view (startUp k s)) := by
  have hslots : (freshState k s).pbk.slots.length = Config.slotCount := by simp [freshState, freshPbk]
  exact finish_runs _ (startSilence_runs _ (greetPaths_runs _ (settleRadio_runs _ (guestDecide_runs _
    (releaseNotices_runs _ _ (emit_runs _ _ (enterChosen_runs _ _ (rebuildSlots_runs _ hslots .refl))))))))

theorem startUp_lock (k : ResetCause) (s : State) : (startUp k s).hlk.lock = false :=
  (startUp_runs_from_fresh k s).afterEffects.lock

theorem finish_lock (s : State) : (finish s).hlk.lock = s.hlk.lock := (finish_after s).lock

/-! ## LOCK (R189) -/

theorem exec_lock_of_admits {s : State} {h : HostHead} (ha : Admits s h) :
    exec (.lock h) s = .next (finish (answerLock h.tag (admitted h .lock s))) :=
  request_admitted h .lock (answerLock h.tag) s ha

theorem exec_lock_sets_lock {s : State} {h : HostHead} (ha : Admits s h) :
    ∃ t, exec (.lock h) s = .next t ∧ Answered t h.tag .lock .ok .empty ∧ t.hlk.lock = true :=
  ⟨_, exec_lock_of_admits ha, finish_reply .., finish_lock _⟩

/-! ## How a setting message is judged (R188) -/

section Judged

variable {s : State} {id tag : Nat} {x : SettingTarget} {v : SettingValue}

/-- The lock comes before the judgement of the value. -/
theorem takeSetting_of_locked (hx : settingTarget id = some x) (hlockable : lockable x = true)
    (hlock : s.hlk.lock = true) : takeSetting id v (.host tag) s = reply tag .settingSet .locked .empty s := by
  simp [takeSetting, hx, hlockable, hlock, settingRefused]

/-- A setting message that the lock does not concern is refused, found held, or starts its write. -/
theorem takeSetting_of_not_locked (hx : settingTarget id = some x) (hfree : lockable x = false ∨ s.hlk.lock = false) :
    takeSetting id v (.host tag) s =
      if settingTakes s.settings x v = false then reply tag .settingSet .range .empty s
      else if heldValue s.settings x = v then reply tag .settingSet .ok .empty s
      else startWrite (.setting id v (.host tag)) s := by
  have hpass : ¬ (lockable x = true ∧ s.hlk.lock = true ∧ SettingSource.host tag ≠ .headOffice) := by
    rintro ⟨hlockable, hlock, -⟩
    rcases hfree with hfree | hfree
    · exact absurd hlockable (by simp [hfree])
    · exact absurd hlock (by simp [hfree])
  simp only [takeSetting, hx, if_neg hpass, settingRefused, settingSame]

end Judged

/-! ## SETTING SET (R188, R189) -/

section SettingSet

variable {s : State} {h : HostHead} {id : Nat} {x : SettingTarget} {v : SettingValue}

/-- A SETTING SET that meets no write of its setting is judged at once, and after-effects follow. -/
theorem exec_settingSet_taken (ha : Admits s h) (hready : Ready s [settingKey id]) :
    ∃ t, exec (.settingSet h id v) s = .next t ∧
      Runs .inner (view (takeSetting id v (.host h.tag) (admitted h .settingSet s))) (view t) :=
  request_taken h .settingSet (.setting id v (.host h.tag)) s ha hready.none hready.free

/-- The reply that the judgement gives is the command's. -/
theorem settingSet_replies (ha : Admits s h) (hready : Ready s [settingKey id]) {r : Result}
    (hjudged : takeSetting id v (.host h.tag) (admitted h .settingSet s) =
      reply h.tag .settingSet r .empty (admitted h .settingSet s)) :
    Replies (.settingSet h id v) s h.tag .settingSet r .empty := by
  obtain ⟨t, hexec, hruns⟩ := exec_settingSet_taken (v := v) ha hready
  rw [hjudged] at hruns
  exact ⟨t, hexec, hruns.answeredBy (answered_reply ..)⟩

/-- The write that the judgement starts is under way after the command. -/
theorem settingSet_starts (ha : Admits s h) (hready : Ready s [settingKey id]) {w : NvWrite}
    (hjudged : takeSetting id v (.host h.tag) (admitted h .settingSet s) = startWrite w (admitted h .settingSet s)) :
    Starts (.settingSet h id v) s w := by
  obtain ⟨t, hexec, hruns⟩ := exec_settingSet_taken (v := v) ha hready
  rw [hjudged] at hruns
  exact ⟨t, hexec, hruns.writeStays (startWrite_mem _ _ (admits_writes ha _))⟩

theorem settingSet_locked (ha : Admits s h) (hready : Ready s [settingKey id]) (hx : settingTarget id = some x)
    (hlockable : lockable x = true) (hlock : s.hlk.lock = true) :
    Replies (.settingSet h id v) s h.tag .settingSet .locked .empty :=
  settingSet_replies ha hready (takeSetting_of_locked hx hlockable ((admitted_lock ..).trans hlock))

/-- A SETTING SET that the lock does not concern: RANGE, OK for the value held, else its write starts. -/
theorem settingSet_of_not_locked (ha : Admits s h) (hready : Ready s [settingKey id]) (hx : settingTarget id = some x)
    (hfree : lockable x = false ∨ s.hlk.lock = false) :
    (settingTakes s.settings x v = false → Replies (.settingSet h id v) s h.tag .settingSet .range .empty) ∧
    (settingTakes s.settings x v = true → heldValue s.settings x = v →
      Replies (.settingSet h id v) s h.tag .settingSet .ok .empty) ∧
    (settingTakes s.settings x v = true → heldValue s.settings x ≠ v →
      Starts (.settingSet h id v) s (.setting id v (.host h.tag))) := by
  have hjudged := takeSetting_of_not_locked (s := admitted h .settingSet s) (tag := h.tag) (v := v) hx
    (by rwa [admitted_lock])
  rw [admitted_settings] at hjudged
  refine ⟨fun hrange => settingSet_replies ha hready ?_, fun htakes hheld => settingSet_replies ha hready ?_,
    fun htakes hheld => settingSet_starts ha hready ?_⟩
  · rw [hjudged, if_pos hrange]
  · rw [hjudged, if_neg (by simp [htakes]), if_pos hheld]
  · rw [hjudged, if_neg (by simp [htakes]), if_neg hheld]

end SettingSet

/-! ## The lockable settings (R189) -/

/-- The settings that R189 names beside the destination windows. -/
def lockableSettings : List SettingId :=
  [.floorLimit, .exposureLimit, .fallbackMode, .routeTable, .backupAuth, .backupPrice, .backupJournal, .backupOffice,
    .backupGuest, .guestEnable, .authShed, .sessionLimit, .quota, .rate, .depth]

theorem lockableNum_iff_mem (n : SettingId) : lockableNum n = true ↔ n ∈ lockableSettings := by
  cases n <;> decide

theorem lockable_iff (x : SettingTarget) :
    lockable x = true ↔ (∃ i, x = .window i) ∨ x ∈ lockableSettings.map SettingTarget.num := by
  cases x with
  | num n =>
    have hmem : SettingTarget.num n ∈ lockableSettings.map SettingTarget.num ↔ n ∈ lockableSettings :=
      ⟨fun h => by
        obtain ⟨m, hm, he⟩ := List.mem_map.1 h
        exact SettingTarget.num.inj he ▸ hm, fun h => List.mem_map.2 ⟨n, h, rfl⟩⟩
    exact (lockableNum_iff_mem n).trans (hmem.symm.trans ⟨.inr, fun h => h.resolve_left fun ⟨_, hi⟩ => nomatch hi⟩)
  | window i => exact ⟨fun _ => .inl ⟨i, rfl⟩, fun _ => rfl⟩

/-- Settles O10: no command but a reset clears the lock flag, and the flag is read where SETTING SET is judged. -/
theorem lockHoldsUntilAReset : Obligations.LockHoldsUntilAReset := by
  unfold Obligations.LockHoldsUntilAReset
  refine ⟨fun c s t hlock hexec hclear => ?_, startUp_lock, fun h s ha => exec_lock_sets_lock ha,
    fun h id v x s ha hready hx => ⟨settingSet_locked ha hready hx,
      fun hfree => settingSet_of_not_locked ha hready hx (.inl hfree)⟩, lockable_iff⟩
  cases hresets : areas c .resets with
  | true => rfl
  | false => exact absurd (exec_keeps_lock hresets hexec hlock) (by simp [hclear])

end Sys2Proof.Proofs
end

