-- ==== Sys2Proof/Proofs/SettingsSound.lean ====
section
/-! PROOFS. The settings keep their rules through every step: what a write to one setting leaves of the others, which relation a setting's group ties it by, and the invariant as a property of the view. -/

namespace Sys2Proof.Proofs

open Sys2Proof.Machine Sys2Proof.Safety Sys2Proof.Laws

/-! ## Writing a setting -/

theorem ctorIdx_injective {m n : SettingId} (h : m.ctorIdx = n.ctorIdx) : m = n := by
  have := congrArg SettingId.ofNat h
  rwa [SettingId.ofNat_ctorIdx, SettingId.ofNat_ctorIdx] at this

theorem ctorIdx_lt (n : SettingId) : n.ctorIdx < 60 := by cases n <;> decide

theorem num_putValue_same {t : Settings} (n : SettingId) (v : Int) (hlen : t.vals.length = 60) :
    (putValue t (.num n) (.num v)).num n = v := by
  have hlt : n.ctorIdx < t.vals.length := hlen ▸ ctorIdx_lt n
  simp [putValue, Settings.num, hlt]

theorem num_putValue_other {t : Settings} {m n : SettingId} (v : SettingValue) (h : m ≠ n) :
    (putValue t (.num n) v).num m = t.num m := by
  have hidx : n.ctorIdx ≠ m.ctorIdx := fun e => h (ctorIdx_injective e).symm
  cases v <;> simp [putValue, Settings.num, hidx]

@[simp] theorem putValue_window_vals (t : Settings) (i : Nat) (v : SettingValue) :
    (putValue t (.window i) v).vals = t.vals := by cases v <;> rfl

@[simp] theorem putValue_num_windows (t : Settings) (n : SettingId) (v : SettingValue) :
    (putValue t (.num n) v).windows = t.windows := by cases v <;> rfl

theorem putValue_vals_length (t : Settings) (x : SettingTarget) (v : SettingValue) :
    (putValue t x v).vals.length = t.vals.length := by
  cases x <;> cases v <;> simp [putValue]

theorem putValue_windows_length (t : Settings) (x : SettingTarget) (v : SettingValue) :
    (putValue t x v).windows.length = t.windows.length := by
  cases x <;> cases v <;> simp [putValue]

theorem num_putValue_window (t : Settings) (i : Nat) (v : SettingValue) (n : SettingId) :
    (putValue t (.window i) v).num n = t.num n := by simp [Settings.num]

theorem window_putValue_num (t : Settings) (n : SettingId) (v : SettingValue) (i : Nat) :
    (putValue t (.num n) v).window i = t.window i := by simp [Settings.window]

/-- A window read after a write of a window is the one written, or the one that stood there. -/
theorem window_putValue_window (t : Settings) (i j : Nat) (w : Window) :
    (putValue t (.window i) (.window w)).window j = w ∨
      (putValue t (.window i) (.window w)).window j = t.window j := by
  by_cases hij : i = j
  · subst hij
    by_cases hlt : i < t.windows.length
    · exact .inl (by simp [putValue, Settings.window, hlt])
    · exact .inr (by simp [putValue, Settings.window, hlt])
  · exact .inr (by simp [putValue, Settings.window, hij])

/-! ## The relations of a group (R44, R167; log entry 12) -/

/-- The settings that R44 relates. -/
def isMargin (n : SettingId) : Bool := n == .marginLow || n == .marginHigh

/-- The settings that R167 relates. -/
def isDayTime (n : SettingId) : Bool := n == .openTime || n == .closeTime || n == .openingLead

/-- R44's relation. -/
def marginsHold (t : Settings) : Prop := t.num .marginLow ≤ t.num .marginHigh

/-- R167's relations. -/
def dayTimesHold (t : Settings) : Prop :=
  t.num .openingLead ≤ t.num .openTime ∧ t.num .openTime < t.num .closeTime

theorem relationsHold_iff (t : Settings) : relationsHold t = true ↔ marginsHold t ∧ dayTimesHold t := by
  simp [relationsHold, marginsHold, dayTimesHold, and_assoc]

theorem marginsHold_putValue {t : Settings} {n : SettingId} (v : SettingValue) (h : isMargin n = false) :
    marginsHold (putValue t (.num n) v) ↔ marginsHold t := by
  have hlow : SettingId.marginLow ≠ n := by rintro rfl; simp [isMargin] at h
  have hhigh : SettingId.marginHigh ≠ n := by rintro rfl; simp [isMargin] at h
  rw [marginsHold, num_putValue_other v hlow, num_putValue_other v hhigh, marginsHold]

theorem dayTimesHold_putValue {t : Settings} {n : SettingId} (v : SettingValue) (h : isDayTime n = false) :
    dayTimesHold (putValue t (.num n) v) ↔ dayTimesHold t := by
  have hopen : SettingId.openTime ≠ n := by rintro rfl; simp [isDayTime] at h
  have hclose : SettingId.closeTime ≠ n := by rintro rfl; simp [isDayTime] at h
  have hlead : SettingId.openingLead ≠ n := by rintro rfl; simp [isDayTime] at h
  rw [dayTimesHold, num_putValue_other v hopen, num_putValue_other v hclose, num_putValue_other v hlead, dayTimesHold]

/-- Of a block whose ids begin at `first`, the settings that a relation ties together have one group. -/
def groupsAgree (first : Nat) (l : List SettingId) : Bool :=
  (l.zipIdx first).all fun p => (!isMargin p.1 || settingGroup p.2 == 113) && (!isDayTime p.1 || settingGroup p.2 == 901)

theorem settingInBlock_not_window {first id i : Nat} {l : List SettingId} :
    settingInBlock first id l ≠ some (.window i) := by
  unfold settingInBlock
  split <;> simp

theorem settingInBlock_group {first id : Nat} {l : List SettingId} {n : SettingId} (hl : groupsAgree first l = true)
    (h : settingInBlock first id l = some (.num n)) :
    (isMargin n = true → settingGroup id = 113) ∧ (isDayTime n = true → settingGroup id = 901) := by
  unfold settingInBlock at h
  split at h
  case isFalse => cases h
  case isTrue hle =>
    have hat : l[id - first]? = some n := by simpa using h
    have hmem : (n, id) ∈ l.zipIdx first := List.mk_mem_zipIdx_iff_le_and_getElem?_sub.2 ⟨hle, hat⟩
    have hfits := List.all_eq_true.1 hl _ hmem
    simp only [Bool.and_eq_true, Bool.or_eq_true, Bool.not_eq_true', beq_iff_eq] at hfits
    exact ⟨fun hn => hfits.1.resolve_left (by simp [hn]), fun hn => hfits.2.resolve_left (by simp [hn])⟩

/-- The group of a setting that a relation ties to others. -/
theorem settingTarget_group {id : Nat} {n : SettingId} (h : settingTarget id = some (.num n)) :
    (isMargin n = true → settingGroup id = 113) ∧ (isDayTime n = true → settingGroup id = 901) := by
  unfold settingTarget at h
  repeat' split at h
  all_goals first
    | exact settingInBlock_group (by decide) h
    | cases h

/-! ## One write beside another -/

theorem putValue_comm {t : Settings} {m n : SettingId} (v w : SettingValue) (h : m ≠ n) :
    putValue (putValue t (.num m) v) (.num n) w = putValue (putValue t (.num n) w) (.num m) v := by
  have hidx : m.ctorIdx ≠ n.ctorIdx := fun e => h (ctorIdx_injective e)
  cases v <;> cases w <;> simp [putValue, List.set_comm _ _ hidx]

/-- Two writes that no relation ties together keep the relations when each of them does. -/
theorem relationsHold_putValue_putValue {t : Settings} {m n : SettingId} {v w : SettingValue}
    (hmargin : isMargin m = true → isMargin n = true → False)
    (hday : isDayTime m = true → isDayTime n = true → False)
    (hm : relationsHold (putValue t (.num m) v) = true) (hn : relationsHold (putValue t (.num n) w) = true) :
    relationsHold (putValue (putValue t (.num m) v) (.num n) w) = true := by
  rw [relationsHold_iff] at *
  constructor
  · cases hmn : isMargin n with
    | false => exact (marginsHold_putValue w hmn).2 hm.1
    | true =>
      have hmm : isMargin m = false := Bool.eq_false_iff.2 fun hmm => hmargin hmm hmn
      rw [putValue_comm v w (by rintro rfl; simp [hmn] at hmm)]
      exact (marginsHold_putValue v hmm).2 hn.1
  · cases hdn : isDayTime n with
    | false => exact (dayTimesHold_putValue w hdn).2 hm.2
    | true =>
      have hdm : isDayTime m = false := Bool.eq_false_iff.2 fun hdm => hday hdm hdn
      rw [putValue_comm v w (by rintro rfl; simp [hdn] at hdm)]
      exact (dayTimesHold_putValue v hdm).2 hn.2

theorem settingTakes_num {t : Settings} {n : SettingId} {w : SettingValue} (h : settingTakes t (.num n) w = true) :
    ∃ v, w = .num v ∧ inSettingRange n v = true ∧ relationsHold (putValue t (.num n) (.num v)) = true := by
  cases w <;> simp_all [settingTakes]

theorem settingTakes_window {t : Settings} {i : Nat} {w : SettingValue} (h : settingTakes t (.window i) w = true) :
    ∃ v, w = .window v ∧ windowFits v = true := by
  cases w <;> simp_all [settingTakes]

theorem relationsHold_putValue_window (t : Settings) (i : Nat) (v : SettingValue) :
    relationsHold (putValue t (.window i) v) = relationsHold t := by
  simp [relationsHold, num_putValue_window]

/-- A value taken keeps the relations. -/
theorem relationsHold_of_takes {t : Settings} {x : SettingTarget} {v : SettingValue} (hrel : relationsHold t = true)
    (h : settingTakes t x v = true) : relationsHold (putValue t x v) = true := by
  cases x with
  | num n =>
    obtain ⟨v, rfl, -, hv⟩ := settingTakes_num h
    exact hv
  | window i => rw [relationsHold_putValue_window, hrel]

/-- A value that a setting takes is taken as well when a setting of another group has been written (R188). -/
theorem settingTakes_putValue {t : Settings} {id id' : Nat} {x y : SettingTarget} {v w : SettingValue}
    (hx : settingTarget id = some x) (hy : settingTarget id' = some y) (hgroup : settingGroup id ≠ settingGroup id')
    (htx : settingTakes t x v = true) (hty : settingTakes t y w = true) :
    settingTakes (putValue t x v) y w = true := by
  cases y with
  | window j =>
    obtain ⟨w, rfl, hw⟩ := settingTakes_window hty
    exact hw
  | num n =>
    obtain ⟨w, rfl, hrange, hrel⟩ := settingTakes_num hty
    suffices relationsHold (putValue (putValue t x v) (.num n) (.num w)) = true by
      simp [settingTakes, hrange, this]
    cases x with
    | window i =>
      have hswap : putValue (putValue t (.window i) v) (.num n) (.num w) =
          putValue (putValue t (.num n) (.num w)) (.window i) v := by cases v <;> rfl
      rw [hswap, relationsHold_putValue_window, hrel]
    | num m =>
      obtain ⟨v, rfl, -, hrelx⟩ := settingTakes_num htx
      obtain ⟨hmx, hdx⟩ := settingTarget_group hx
      obtain ⟨hmy, hdy⟩ := settingTarget_group hy
      exact relationsHold_putValue_putValue (fun a b => hgroup ((hmx a).trans (hmy b).symm))
        (fun a b => hgroup ((hdx a).trans (hdy b).symm)) hrelx hrel

/-! ## The invariant -/

/-- The invariant reads the settings and the writes under way of a view, and nothing else. -/
def soundView (v : View) : Prop := SettingsSound { State.reset with settings := v.settings, nv := v.nv }

theorem soundView_view (s : State) : soundView (view s) ↔ SettingsSound s :=
  ⟨fun h => ⟨h.values, h.windows, h.inRange, h.relations, h.windowsFit, h.writes, h.apart⟩,
    fun h => ⟨h.values, h.windows, h.inRange, h.relations, h.windowsFit, h.writes, h.apart⟩⟩

/-- A list without repetition keeps so with a new element behind it. -/
theorem nodup_concat {α : Type} {l : List α} {a : α} (hl : l.Nodup) (ha : a ∉ l) : (l ++ [a]).Nodup := by
  refine List.nodup_append.2 ⟨hl, List.pairwise_singleton .., fun x hx y hy hxy => ha ?_⟩
  rwa [← List.mem_singleton.1 hy, ← hxy]

@[simp] theorem settingGroups_append (l m : List NvWrite) :
    settingGroups (l ++ m) = settingGroups l ++ settingGroups m := by simp [settingGroups]

theorem settingGroups_of_not_setting {w : NvWrite} (h : isSetting w = false) : settingGroups [w] = [] := by
  cases w <;> simp_all [settingGroups, settingWriteGroup]

/-- Fewer writes under way keep the invariant. -/
theorem soundView_sublist {v : View} {l : List NvWrite} (hv : soundView v) (hl : l.Sublist v.nv) :
    soundView { v with nv := l } :=
  { hv with
    writes := fun id x src h => hv.writes id x src (hl.subset h)
    apart := hv.apart.sublist (hl.filterMap _) }

theorem soundView_write {v : View} {w : NvWrite} (hv : soundView v) (hw : isSetting w = false) :
    soundView { v with nv := v.nv ++ [w] } :=
  { hv with
    writes := fun id x src h => by
      rcases List.mem_append.1 h with h | h
      · exact hv.writes id x src h
      · rw [← List.mem_singleton.1 h] at hw
        cases hw
    apart := by
      show (settingGroups (v.nv ++ [w])).Nodup
      rw [settingGroups_append, settingGroups_of_not_setting hw, List.append_nil]
      exact hv.apart }

/-- A setting write starts with a value that the setting takes, and alone in its group. -/
theorem soundView_writeSetting {v : View} {id : Nat} {x : SettingValue} {src : SettingSource} {t : SettingTarget}
    (hv : soundView v) (ht : settingTarget id = some t) (hx : settingTakes v.settings t x = true)
    (hg : settingGroup id ∉ settingGroups v.nv) : soundView { v with nv := v.nv ++ [.setting id x src] } :=
  { hv with
    writes := fun id' x' src' h => by
      rcases List.mem_append.1 h with h | h
      · exact hv.writes id' x' src' h
      · cases List.mem_singleton.1 h
        exact ⟨t, ht, hx⟩
    apart := by
      show (settingGroups (v.nv ++ [NvWrite.setting id x src])).Nodup
      rw [settingGroups_append]
      exact nodup_concat hv.apart hg }

theorem inRange_putValue {t : Settings} {x : SettingTarget} {v : SettingValue} (hlen : t.vals.length = 60)
    (hrange : ∀ n, inSettingRange n (t.num n) = true) (h : settingTakes t x v = true) (n : SettingId) :
    inSettingRange n ((putValue t x v).num n) = true := by
  cases x with
  | window i => rw [num_putValue_window, hrange]
  | num m =>
    obtain ⟨v, rfl, hv, -⟩ := settingTakes_num h
    by_cases hnm : n = m
    · subst hnm
      rw [num_putValue_same n v hlen, hv]
    · rw [num_putValue_other _ hnm, hrange]

theorem windowsFit_putValue {t : Settings} {x : SettingTarget} {v : SettingValue}
    (hfit : ∀ i, windowFits (t.window i) = true) (h : settingTakes t x v = true) (i : Nat) :
    windowFits ((putValue t x v).window i) = true := by
  cases x with
  | num n => rw [window_putValue_num, hfit]
  | window j =>
    obtain ⟨w, rfl, hw⟩ := settingTakes_window h
    rcases window_putValue_window t j i w with e | e <;> rw [e]
    · exact hw
    · exact hfit i

/-- A setting write becomes durable: its value was taken, and the writes left are of other groups. -/
theorem soundView_settingDone {v : View} {id : Nat} {x : SettingValue} {src : SettingSource} {t : SettingTarget}
    {pre post : List NvWrite} (hv : soundView v) (h : v.nv = pre ++ .setting id x src :: post)
    (ht : settingTarget id = some t) :
    soundView { v with nv := pre ++ post, settings := putValue v.settings t x } := by
  have hmem : NvWrite.setting id x src ∈ v.nv := by simp [h]
  have htakes : settingTakes v.settings t x = true := by
    obtain ⟨t', ht', htakes⟩ := hv.writes id x src hmem
    cases ht.symm.trans ht'
    exact htakes
  have hless : (pre ++ post).Sublist v.nv := h ▸ (List.sublist_cons_self _ _).append_left _
  have halone : settingGroup id ∉ settingGroups (pre ++ post) := by
    have hnodup : (settingGroups (pre ++ .setting id x src :: post)).Nodup := h ▸ hv.apart
    have hperm : (settingGroups (pre ++ .setting id x src :: post)).Perm
        (settingGroup id :: settingGroups (pre ++ post)) :=
      List.perm_middle.filterMap _
    exact (List.nodup_cons.1 (hperm.nodup_iff.1 hnodup)).1
  exact {
    values := (putValue_vals_length ..).trans hv.values
    windows := (putValue_windows_length ..).trans hv.windows
    inRange := inRange_putValue hv.values hv.inRange htakes
    relations := relationsHold_of_takes hv.relations htakes
    windowsFit := windowsFit_putValue hv.windowsFit htakes
    writes := fun id' x' src' hin => by
      obtain ⟨y, hy, hty⟩ := hv.writes id' x' src' (hless.subset hin)
      refine ⟨y, hy, settingTakes_putValue ht hy (fun he => halone ?_) htakes hty⟩
      exact he ▸ List.mem_filterMap.2 ⟨_, hin, rfl⟩
    apart := hv.apart.sublist (hless.filterMap _) }

theorem move_keeps_soundView {ρ : Reach} {v w : View} (hv : soundView v) (hm : Move ρ v w) : soundView w := by
  cases hm
  case write w hw => exact soundView_write hv hw
  case writeSetting ht hx hg => exact soundView_writeSetting hv ht hx hg
  case settingDone ht h => exact soundView_settingDone hv h ht
  case dropWrites l h => exact soundView_sublist hv h
  case cut => exact soundView_sublist hv (List.nil_sublist _)
  case fresh => exact soundView_sublist hv (List.nil_sublist _)
  case joinClass => rw [putClassQ_eq]; exact hv
  case leaveClass => rw [putClassQ_eq]; exact hv
  case spend => rw [putCredits_eq]; exact hv
  case noCredits => rw [putCredits_eq]; exact hv
  case openCredits => rw [putCredits_eq]; exact hv
  case giveBack => rw [putCredits_eq]; exact hv
  case giveShared => rw [putCredits_eq]; exact hv
  all_goals exact hv

/-- Settles O11: of the elementary moves only the start and the end of a setting write concern the invariant. -/
theorem settingsStaySound : Obligations.SettingsStaySound := by
  unfold Obligations.SettingsStaySound
  intro s t hs hstep
  exact (soundView_view t).1 (step_keeps soundView (fun _ _ h => h) (fun _ _ => move_keeps_soundView) s t
    ((soundView_view s).2 hs) hstep)

end Sys2Proof.Proofs
end

