-- ==== Sys2Proof/Proofs/JournalFigures.lean ====
section
/-! PROOFS. The journal's figures through every step: what the exposure and the UNSENT count of a list are when a record joins, records leave, or send states change, and the invariant as a property of the view. -/

namespace Sys2Proof.Proofs

open Sys2Proof.Machine Sys2Proof.Safety Sys2Proof.Laws

/-! ## Figures of a list of records (R98, R99) -/

theorem exposureOf_append (a b : List Record) : exposureOf (a ++ b) = exposureOf a + exposureOf b := by
  simp [exposureOf]

theorem unsentOf_append (a b : List Record) : unsentOf (a ++ b) = unsentOf a + unsentOf b :=
  List.countP_append

/-- Exposure is a matter of the bodies alone. -/
theorem exposureOf_map {f : Record → Record} (hf : ∀ r, (f r).body = r.body) (rs : List Record) :
    exposureOf (rs.map f) = exposureOf rs := by
  simp [exposureOf, Function.comp_def, hf]

theorem exposureOf_filter_add (p : Record → Bool) (rs : List Record) :
    exposureOf (rs.filter p) + exposureOf (rs.filter fun r => !p r) = exposureOf rs := by
  induction rs with
  | nil => rfl
  | cons r rs ih =>
    have hcons : ∀ l, exposureOf (r :: l) = r.body.exposed + exposureOf l := fun l => by simp [exposureOf]
    cases hp : p r <;> simp [hp, hcons] <;> omega

theorem unsentOf_filter_add (p : Record → Bool) (rs : List Record) :
    unsentOf (rs.filter p) + unsentOf (rs.filter fun r => !p r) = unsentOf rs := by
  simp only [unsentOf, ← List.countP_eq_countP_filter_add]

/-- The records that become SENT are the UNSENT records of the number. -/
theorem unsentOf_markSent (seq batch : Nat) (rs : List Record) :
    unsentOf (rs.map fun r => if r.seq = seq then { r with sent := some batch } else r) +
      rs.countP (fun r => r.seq == seq && r.sent.isNone) = unsentOf rs := by
  induction rs with
  | nil => rfl
  | cons r rs ih =>
    simp only [unsentOf, List.countP_map, List.countP_cons] at *
    by_cases hseq : r.seq = seq <;> simp [Function.comp_apply, hseq] <;> omega

theorem unsentOf_unsend (batch : Nat) (rs : List Record) :
    unsentOf (rs.map fun r => if r.sent = some batch then { r with sent := none } else r) =
      unsentOf rs + rs.countP fun r => r.sent == some batch := by
  induction rs with
  | nil => rfl
  | cons r rs ih =>
    simp only [unsentOf, List.countP_map, List.countP_cons] at *
    by_cases hsent : r.sent = some batch <;> simp [Function.comp_apply, hsent] <;> omega

theorem unsentOf_cleared (rs : List Record) : unsentOf (rs.map fun r => { r with sent := none }) = rs.length := by
  simp [unsentOf, Function.comp_def]

/-! ## The invariant -/

/-- The invariant reads the journal of a view, and nothing else. -/
def figuresView (v : View) : Prop :=
  JournalFigures { State.reset with sjr := { State.reset.sjr with
    records := v.records, counter := v.sequence, writing := v.writing, exposure := v.exposure, unsent := v.unsent } }

theorem figuresView_view (s : State) : figuresView (view s) ↔ JournalFigures s :=
  ⟨fun h => ⟨h.exposure, h.unsent, h.counter, h.writing⟩, fun h => ⟨h.exposure, h.unsent, h.counter, h.writing⟩⟩

section Moves

variable {v : View}

theorem figuresView_append (hv : figuresView v) {w : Writing} (hw : v.writing = some w) :
    figuresView { v with records := v.records ++ [w.record], sequence := w.seq, writing := none
                         unsent := v.unsent + 1, exposure := v.exposure + w.append.body.exposed } where
  exposure := by
    have hsum : v.exposure = exposureOf v.records := hv.exposure
    simp [hsum, exposureOf_append, exposureOf, Writing.record]
  unsent := by
    have hcount : v.unsent = unsentOf v.records := hv.unsent
    simp [hcount, unsentOf_append, unsentOf, Writing.record]
  counter := hv.writing w hw
  writing := fun _ h => nomatch h

theorem figuresView_drop (hv : figuresView v) (named : List Nat) :
    figuresView { v with records := v.records.filter fun r => !named.contains r.seq
                         exposure := v.exposure - exposureOf (v.records.filter fun r => named.contains r.seq)
                         unsent := v.unsent - unsentOf (v.records.filter fun r => named.contains r.seq) } :=
  { hv with
    exposure := by
      have hsum : v.exposure = exposureOf v.records := hv.exposure
      have hsplit := exposureOf_filter_add (fun r => named.contains r.seq) v.records
      show v.exposure - exposureOf (v.records.filter fun r => named.contains r.seq) =
        exposureOf (v.records.filter fun r => !named.contains r.seq)
      omega
    unsent := by
      have hcount : v.unsent = unsentOf v.records := hv.unsent
      exact Nat.sub_eq_of_eq_add' (hcount.trans (unsentOf_filter_add (fun r => named.contains r.seq) v.records).symm) }

theorem figuresView_markSent (hv : figuresView v) (seq batch : Nat) :
    figuresView { v with records := v.records.map fun r => if r.seq = seq then { r with sent := some batch } else r
                         unsent := v.unsent - v.records.countP fun r => r.seq == seq && r.sent.isNone } :=
  { hv with
    exposure := hv.exposure.trans (exposureOf_map (fun r => by split <;> rfl) v.records).symm
    unsent := by
      have hcount : v.unsent = unsentOf v.records := hv.unsent
      exact Nat.sub_eq_of_eq_add (hcount.trans (unsentOf_markSent seq batch v.records).symm) }

theorem figuresView_unsend (hv : figuresView v) (batch : Nat) :
    figuresView { v with records := v.records.map fun r => if r.sent = some batch then { r with sent := none } else r
                         unsent := v.unsent + v.records.countP fun r => r.sent == some batch } :=
  { hv with
    exposure := hv.exposure.trans (exposureOf_map (fun r => by split <;> rfl) v.records).symm
    unsent := by
      have hcount : v.unsent = unsentOf v.records := hv.unsent
      exact (congrArg (· + _) hcount).trans (unsentOf_unsend batch v.records).symm }

theorem figuresView_takeAppend (hv : figuresView v) {w : Writing} (hw : w.seq ≤ Config.max32) :
    figuresView { v with writing := some w } :=
  { hv with writing := fun x hx => by cases hx; exact hw }

theorem figuresView_cut (hv : figuresView v) : figuresView { v with nv := [], ops := [], writing := none } :=
  { hv with writing := fun _ hx => nomatch hx }

theorem figuresView_fresh (hv : figuresView v) (c : ResetCause) : figuresView (v.fresh c) where
  exposure := rfl
  unsent := (unsentOf_cleared v.records).symm
  counter := hv.counter
  writing := fun _ hx => nomatch hx

end Moves

theorem move_keeps_figuresView {ρ : Reach} {v w : View} (hv : figuresView v) (hm : Move ρ v w) : figuresView w := by
  cases hm
  case append w hd hw => exact figuresView_append hv hw
  case drop => exact figuresView_drop hv _
  case markSent => exact figuresView_markSent hv _ _
  case unsend => exact figuresView_unsend hv _
  case takeAppend w hw => exact figuresView_takeAppend hv hw
  case cut => exact figuresView_cut hv
  case fresh => exact figuresView_fresh hv _
  case joinClass => rw [putClassQ_eq]; exact hv
  case leaveClass => rw [putClassQ_eq]; exact hv
  case spend => rw [putCredits_eq]; exact hv
  case noCredits => rw [putCredits_eq]; exact hv
  case openCredits => rw [putCredits_eq]; exact hv
  case giveBack => rw [putCredits_eq]; exact hv
  case giveShared => rw [putCredits_eq]; exact hv
  all_goals exact hv

/-- Settles O12: the moves that change the records change the figures with them. -/
theorem journalFiguresStayExact : Obligations.JournalFiguresStayExact := by
  unfold Obligations.JournalFiguresStayExact
  intro s t hs hstep
  exact (figuresView_view t).1 (step_keeps figuresView (fun _ _ h => h) (fun _ _ => move_keeps_figuresView) s t
    ((figuresView_view s).2 hs) hstep)

end Sys2Proof.Proofs
end

