-- ==== Sys2Proof/Proofs/Credits.lean ====
section
/-! PROOFS. Credits within their grants through every step: what opening, spending and giving back do to a count, and the invariant as a property of the view. -/

namespace Sys2Proof.Proofs

open Sys2Proof.Machine Sys2Proof.Safety Sys2Proof.Laws

/-! ## One count (R115, R116) -/

section Count

variable {top : Nat} {c : CreditCount}

theorem openCount_sound (top grant : Nat) : CreditCount.sound top (openCount top grant) :=
  ⟨Nat.add_zero _, Nat.min_le_right ..⟩

theorem spend_sound (hc : CreditCount.sound top c) (hheld : 0 < c.held) : CreditCount.sound top c.spend := by
  obtain ⟨hsum, htop⟩ := hc
  refine ⟨?_, htop⟩
  show c.held - 1 + (c.inUse + 1) = c.grant
  omega

theorem giveBack_sound (hc : CreditCount.sound top c) (n : Nat) : CreditCount.sound top (c.giveBack n) := by
  obtain ⟨hsum, htop⟩ := hc
  refine ⟨?_, htop⟩
  show c.held + min n c.inUse + (c.inUse - min n c.inUse) = c.grant
  omega

end Count

/-! ## The counts of a session (R115, R117) -/

section Session

variable {c : Credits}

theorem openCredits_sound (g : Grants) : CreditsSound (openCredits g) where
  auth := openCount_sound ..
  price := openCount_sound ..
  journal := openCount_sound ..
  office := openCount_sound ..
  guest := openCount_sound ..
  shared := openCount_sound ..

theorem get_sound (hc : CreditsSound c) (k : Machine.Class) : CreditCount.sound 7 (c.get k) := by
  cases k with
  | auth => exact hc.auth
  | price => exact hc.price
  | journal => exact hc.journal
  | office => exact hc.office
  | guest => exact hc.guest

theorem put_sound (hc : CreditsSound c) (k : Machine.Class) {n : CreditCount} (hn : CreditCount.sound 7 n) :
    CreditsSound (c.put k n) := by
  cases k with
  | auth => exact { hc with auth := hn }
  | price => exact { hc with price := hn }
  | journal => exact { hc with journal := hn }
  | office => exact { hc with office := hn }
  | guest => exact { hc with guest := hn }

/-- A class that has no credit of its own and may send finds a shared one (R117). -/
theorem shared_held_of_usable {t : Settings} {k : Machine.Class} (husable : usableCredit t c k = true)
    (hown : ¬ 0 < (c.get k).held) : 0 < c.shared.held := by
  simp only [usableCredit, decide_eq_false hown, Bool.false_or] at husable
  cases k <;> simp only [decide_eq_true_eq] at husable <;> omega

theorem spendCredit_sound {t : Settings} {k : Machine.Class} (hc : CreditsSound c) (husable : usableCredit t c k = true) :
    CreditsSound (spendCredit c k) := by
  unfold spendCredit
  split
  case isTrue hown => exact put_sound hc k (spend_sound (get_sound hc k) hown)
  case isFalse hown => exact { hc with shared := spend_sound hc.shared (shared_held_of_usable husable hown) }

end Session

/-! ## The invariant -/

/-- The invariant reads the credits of a view's paths, and nothing else. -/
def creditsView (v : View) : Prop := ∀ p c, v.credits p = some c → CreditsSound c

theorem creditsView_view (s : State) : creditsView (view s) ↔ CreditsWithinGrant s := by
  have hcredits : ∀ p, (view s).credits p = (s.ulc.path p).credits := fun p => by cases p <;> rfl
  simp only [creditsView, CreditsWithinGrant, hcredits]

theorem putCredits_credits (v : View) (p q : Path) (c : Option Credits) :
    (v.putCredits p c).credits q = if q = p then c else v.credits q := by
  cases p <;> cases q <;> rfl

theorem creditsView_putCredits {v : View} (hv : creditsView v) (p : Path) {c : Option Credits}
    (hc : ∀ x, c = some x → CreditsSound x) : creditsView (v.putCredits p c) := by
  intro q x hx
  rw [putCredits_credits] at hx
  split at hx
  · exact hc x hx
  · exact hv q x hx

/-- Another path's credits, and those of a view with the same credits. -/
theorem creditsView_of_same {v w : View} (hv : creditsView v) (hprimary : w.creditsPrimary = v.creditsPrimary)
    (hbackup : w.creditsBackup = v.creditsBackup) : creditsView w := by
  intro p c hc
  cases p with
  | primary => exact hv .primary c (hprimary.symm.trans hc)
  | backup => exact hv .backup c (hbackup.symm.trans hc)

theorem creditsView_fresh (v : View) (k : ResetCause) : creditsView (v.fresh k) := by
  intro p c hc
  cases p <;> cases hc

theorem move_keeps_creditsView {ρ : Reach} {v w : View} (hv : creditsView v) (hm : Move ρ v w) : creditsView w := by
  have hput : ∀ p c, CreditsSound c → creditsView (v.putCredits p (some c)) := fun p c hc =>
    creditsView_putCredits hv p fun x hx => by cases hx; exact hc
  cases hm
  case spend p c t k husable hc => exact hput p _ (spendCredit_sound (hv p c hc) husable)
  case noCredits p => exact creditsView_putCredits hv p fun x hx => nomatch hx
  case openCredits p g => exact hput p _ (openCredits_sound g)
  case giveBack p c k n hc => exact hput p _ (put_sound (hv p c hc) k (giveBack_sound (get_sound (hv p c hc) k) n))
  case giveShared p c n hc => exact hput p _ { hv p c hc with shared := giveBack_sound (hv p c hc).shared n }
  case fresh => exact creditsView_fresh v _
  case joinClass => rw [putClassQ_eq]; exact creditsView_of_same hv rfl rfl
  case leaveClass => rw [putClassQ_eq]; exact creditsView_of_same hv rfl rfl
  all_goals exact creditsView_of_same hv rfl rfl

/-- Settles O13: the moves that touch credits are the opening and the end of a session, a spend, and a credit given back. -/
theorem creditsStayWithinTheirGrants : Obligations.CreditsStayWithinTheirGrants := by
  unfold Obligations.CreditsStayWithinTheirGrants
  intro s t hs hstep
  exact (creditsView_view t).1 (step_keeps creditsView
    (fun _ _ h => creditsView_of_same h rfl rfl) (fun _ _ => move_keeps_creditsView) s t
    ((creditsView_view s).2 hs) hstep)

end Sys2Proof.Proofs
end

