-- ==== Sys2Proof/Proofs/Capacities.lean ====
section
/-! PROOFS. Queues within their capacities and tables of a fixed size through every step: the invariant as a property of the view, and the moves that add to a queue. -/

namespace Sys2Proof.Proofs

open Sys2Proof.Machine Sys2Proof.Safety Sys2Proof.Laws

/-- The capacities of a view; a class queue's is the arbiter's own table of them (R114). -/
structure CapacitiesView (v : View) : Prop where
  requests : v.requests.length ≤ 8
  notices : v.notices.length ≤ 32
  queues : ∀ k n, classRoom k = some n → (v.classQ k).length ≤ n
  waits : v.waits.length ≤ 32
  spent : v.spent.length ≤ 256
  slots : v.slotCount = 32
  places : v.placeCount = 16
  claims : v.claims.length = 16
  sessions : v.sessionCount = 64
  replies : ∀ k f, f ∈ v.classQ k → f.wantsReply = true → k = .office

theorem capacitiesView_view (s : State) : CapacitiesView (view s) ↔ Capacities s := by
  have hqueue : ∀ k, (view s).classQ k = s.ulc.queue k := fun k => by cases k <;> rfl
  constructor
  · intro h
    exact {
      requests := h.requests, notices := h.notices, waits := h.waits, spent := h.spent, slots := h.slots
      places := h.places, claims := h.claims, sessions := h.sessions
      price := h.queues .price 32 rfl
      journal := h.queues .journal 32 rfl
      office := h.queues .office 32 rfl
      guest := h.queues .guest 64 rfl
      replies := fun k f hf => h.replies k f ((hqueue k).symm ▸ hf) }
  · intro h
    exact {
      requests := h.requests, notices := h.notices, waits := h.waits, spent := h.spent, slots := h.slots
      places := h.places, claims := h.claims, sessions := h.sessions
      queues := fun k n hn => by
        cases k with
        | auth => cases hn
        | price => cases hn; exact h.price
        | journal => cases hn; exact h.journal
        | office => cases hn; exact h.office
        | guest => cases hn; exact h.guest
      replies := fun k f hf => h.replies k f (hqueue k ▸ hf) }

theorem putClassQ_classQ (v : View) (k j : Machine.Class) (q : List UpFrame) :
    (v.putClassQ k q).classQ j = if j = k then q else v.classQ j := by
  cases k <;> cases j <;> rfl

section Moves

variable {v : View}

/-- A class queue changed to one that keeps its capacity and its kind of frames. -/
theorem capacitiesView_putClassQ (hv : CapacitiesView v) {k : Machine.Class} {q : List UpFrame}
    (hlen : ∀ n, classRoom k = some n → q.length ≤ n) (hwants : ∀ f ∈ q, f.wantsReply = true → k = .office) :
    CapacitiesView (v.putClassQ k q) where
  requests := by rw [putClassQ_eq]; exact hv.requests
  notices := by rw [putClassQ_eq]; exact hv.notices
  waits := by rw [putClassQ_eq]; exact hv.waits
  spent := by rw [putClassQ_eq]; exact hv.spent
  slots := by rw [putClassQ_eq]; exact hv.slots
  places := by rw [putClassQ_eq]; exact hv.places
  claims := by rw [putClassQ_eq]; exact hv.claims
  sessions := by rw [putClassQ_eq]; exact hv.sessions
  queues j n hn := by
    rw [putClassQ_classQ]
    split
    case isTrue hj => exact hlen n (hj ▸ hn)
    case isFalse => exact hv.queues j n hn
  replies j f hf hr := by
    rw [putClassQ_classQ] at hf
    split at hf
    case isTrue hj => exact hj.trans (hwants f hf hr)
    case isFalse => exact hv.replies j f hf hr

/-- Credits are no part of the capacities. -/
theorem capacitiesView_putCredits (hv : CapacitiesView v) (p : Path) (c : Option Credits) :
    CapacitiesView (v.putCredits p c) := by
  cases p <;> exact { hv with }

theorem capacitiesView_joinClass (hv : CapacitiesView v) {k : Machine.Class} {f : UpFrame} (hroom : hasRoom k (v.classQ k))
    (hwants : f.wantsReply = true → k = .office) : CapacitiesView (v.putClassQ k (v.classQ k ++ [f])) := by
  refine capacitiesView_putClassQ hv (fun n hn => ?_) (fun g hg hr => ?_)
  · rw [List.length_append]
    exact hroom n hn
  · rcases List.mem_append.1 hg with hg | hg
    · exact hv.replies k g hg hr
    · cases List.mem_singleton.1 hg
      exact hwants hr

theorem capacitiesView_leaveClass (hv : CapacitiesView v) {k : Machine.Class} {q : List UpFrame}
    (hq : q.Sublist (v.classQ k)) : CapacitiesView (v.putClassQ k q) :=
  capacitiesView_putClassQ hv (fun n hn => Nat.le_trans hq.length_le (hv.queues k n hn))
    (fun f hf hr => hv.replies k f (hq.subset hf) hr)

/-- A frame that wants a reply is an OFFICE frame, and finds room in the wait list (R118, R124). -/
theorem capacitiesView_joinWaits (hv : CapacitiesView v) {k : Machine.Class} {f : UpFrame} {w : OfficeWait}
    (hf : f ∈ v.classQ k) (hr : f.wantsReply = true) (hroom : k = .office → v.waits.length < 32) :
    CapacitiesView { v with waits := v.waits ++ [w] } :=
  { hv with
    waits := by
      rw [List.length_append]
      exact hroom (hv.replies k f hf hr) }

theorem spentAfter_length (a : Addr) {l : List Addr} (hl : l.length ≤ 256) : (spentAfter a l).length ≤ 256 := by
  unfold spentAfter
  split
  case isTrue hmem =>
    have hless : (l.filter (· != a)).length < l.length := List.length_filter_lt_length_iff_exists.2 ⟨a, by simpa using hmem⟩
    simp only [List.length_append, List.length_singleton]
    omega
  case isFalse =>
    split
    case isTrue hroom =>
      simp only [List.length_append, List.length_singleton]
      exact hroom
    case isFalse hfull =>
      have hfull : ¬ l.length < 256 := hfull
      simp only [List.length_append, List.length_singleton, List.length_tail]
      omega

theorem capacitiesView_fresh (v : View) (c : ResetCause) : CapacitiesView (v.fresh c) where
  requests := Nat.zero_le _
  notices := Nat.zero_le _
  waits := Nat.zero_le _
  spent := Nat.zero_le _
  slots := rfl
  places := rfl
  claims := List.length_replicate
  sessions := rfl
  queues k n _ := by cases k <;> exact Nat.zero_le _
  replies k f hf _ := by cases k <;> exact absurd hf List.not_mem_nil

end Moves

theorem move_keeps_capacitiesView {ρ : Reach} {v w : View} (hv : CapacitiesView v) (hm : Move ρ v w) :
    CapacitiesView w := by
  cases hm
  case notice n hroom => exact { hv with notices := by rw [List.length_append]; exact hroom }
  case sendReply r rest _ =>
    refine { hv with requests := ?_ }
    show (if r.queued then _ else _ : List QueuedRequest).length ≤ 8
    split
    · exact Nat.le_trans (List.length_filter_le ..) hv.requests
    · exact hv.requests
  case joinClass k f hwants hroom => exact capacitiesView_joinClass hv hroom hwants
  case leaveClass k q hq => exact capacitiesView_leaveClass hv hq
  case joinWaits k f w hr hf hroom => exact capacitiesView_joinWaits hv hf hr hroom
  case leaveWaits l hl => exact { hv with waits := Nat.le_trans hl.length_le hv.waits }
  case clearSpent => exact { hv with spent := Nat.zero_le _ }
  case spent a => exact { hv with spent := spentAfter_length a hv.spent }
  case claims l hl => exact { hv with claims := hl.trans hv.claims }
  case acknowledge => exact { hv with notices := by rw [List.length_tail]; exact Nat.le_trans (Nat.sub_le ..) hv.notices }
  case joinRequest q hroom => exact { hv with requests := by rw [List.length_append]; exact hroom }
  case spend => exact capacitiesView_putCredits hv _ _
  case noCredits => exact capacitiesView_putCredits hv _ _
  case openCredits => exact capacitiesView_putCredits hv _ _
  case giveBack => exact capacitiesView_putCredits hv _ _
  case giveShared => exact capacitiesView_putCredits hv _ _
  case fresh => exact capacitiesView_fresh v _
  all_goals exact { hv with }

/-- Settles O14: a move adds to a queue only where there is room, and none changes the size of a fixed table. -/
theorem capacitiesAreKept : Obligations.CapacitiesAreKept := by
  unfold Obligations.CapacitiesAreKept
  intro s t hs hstep
  exact (capacitiesView_view t).1 (step_keeps CapacitiesView (fun _ _ h => { h with })
    (fun _ _ => move_keeps_capacitiesView) s t ((capacitiesView_view s).2 hs) hstep)

end Sys2Proof.Proofs
end

