-- ==== Sys2Proof/Proofs/Tables.lean ====
section
/-! PROOFS. One entry for a key, and the tables' orders, through every step: insertion in key order, the change queue's joins and updates, and the invariant as a property of the view. -/

namespace Sys2Proof.Proofs

open Sys2Proof.Machine Sys2Proof.Safety Sys2Proof.Laws

/-! ## Keys that are not shared -/

theorem eq_of_map_nodup {α β : Type} {f : α → β} {l : List α} {a b : α} (hl : (l.map f).Nodup) (ha : a ∈ l) (hb : b ∈ l)
    (hf : f a = f b) : a = b := by
  induction l with
  | nil => exact absurd ha List.not_mem_nil
  | cons x l ih =>
    obtain ⟨hhead, htail⟩ := List.nodup_cons.1 hl
    rcases List.mem_cons.1 ha with rfl | ha'
    · rcases List.mem_cons.1 hb with rfl | hb'
      · rfl
      · exact absurd (List.mem_map.2 ⟨b, hb', hf.symm⟩) hhead
    · rcases List.mem_cons.1 hb with rfl | hb'
      · exact absurd (List.mem_map.2 ⟨a, ha', hf⟩) hhead
      · exact ih htail ha' hb'

/-! ## Insertion in key order (R1, R24) -/

section Insertion

variable {α : Type} (key : α → Nat)

/-- Insert in key order, in place of the one with the key: what `insertItem` and `insertLabel` are for their keys. -/
def insertKeyed (a : α) : List α → List α
  | [] => [a]
  | h :: t => if key a < key h then a :: h :: t else if key a = key h then a :: t else h :: insertKeyed a t

theorem insertItem_eq_insertKeyed (i : Item) (l : List Item) : insertItem i l = insertKeyed (·.code) i l := by
  induction l with
  | nil => rfl
  | cons h t ih => rw [insertItem, insertKeyed, ih]

theorem insertLabel_eq_insertKeyed (a : Label) (l : List Label) : insertLabel a l = insertKeyed (·.id) a l := by
  induction l with
  | nil => rfl
  | cons h t ih => rw [insertLabel, insertKeyed, ih]

variable {key}

theorem mem_insertKeyed {a x : α} {l : List α} (h : x ∈ insertKeyed key a l) : x = a ∨ x ∈ l := by
  induction l with
  | nil => exact .inl (List.mem_singleton.1 h)
  | cons y t ih =>
    rw [insertKeyed] at h
    split at h
    · exact List.mem_cons.1 h
    · split at h
      · exact (List.mem_cons.1 h).imp_right (List.mem_cons_of_mem _)
      · rcases List.mem_cons.1 h with rfl | h
        · exact .inr List.mem_cons_self
        · exact (ih h).imp_right (List.mem_cons_of_mem _)

/-- Insertion keeps the order of keys. -/
theorem insertKeyed_pairwise {a : α} {l : List α} (hl : l.Pairwise fun x y => key x < key y) :
    (insertKeyed key a l).Pairwise fun x y => key x < key y := by
  induction l with
  | nil => exact List.pairwise_singleton ..
  | cons h t ih =>
    obtain ⟨hhead, htail⟩ := List.pairwise_cons.1 hl
    rw [insertKeyed]
    split
    case isTrue hlt =>
      refine List.pairwise_cons.2 ⟨fun x hx => ?_, hl⟩
      rcases List.mem_cons.1 hx with rfl | hx
      · exact hlt
      · exact Nat.lt_trans hlt (hhead x hx)
    case isFalse hge =>
      split
      case isTrue heq => exact List.pairwise_cons.2 ⟨fun x hx => heq ▸ hhead x hx, htail⟩
      case isFalse hne =>
        refine List.pairwise_cons.2 ⟨fun x hx => ?_, ih htail⟩
        rcases mem_insertKeyed hx with rfl | hx
        · omega
        · exact hhead x hx

end Insertion

theorem insertItem_sorted (i : Item) {l : List Item} (hl : (l.map (·.code)).Pairwise (· < ·)) :
    ((insertItem i l).map (·.code)).Pairwise (· < ·) := by
  rw [List.pairwise_map] at *
  rw [insertItem_eq_insertKeyed]
  exact insertKeyed_pairwise hl

theorem insertLabel_sorted (a : Label) {l : List Label} (hl : (l.map (·.id)).Pairwise (· < ·)) :
    ((insertLabel a l).map (·.id)).Pairwise (· < ·) := by
  rw [List.pairwise_map] at *
  rw [insertLabel_eq_insertKeyed]
  exact insertKeyed_pairwise hl

/-! ## The change queue (R9, R10) -/

/-- The urgent part stands ahead of the rest. -/
def UrgentFirst (q : List QueueEntry) : Prop := q.Pairwise fun a b => b.urgent = true → a.urgent = true

/-- An entry set between the urgent part and the rest. -/
def betweenParts (e : QueueEntry) (q : List QueueEntry) : List QueueEntry :=
  q.filter (·.urgent) ++ [e] ++ q.filter (!·.urgent)

theorem betweenParts_perm (e : QueueEntry) (q : List QueueEntry) : (betweenParts e q).Perm (e :: q) := by
  rw [betweenParts, List.append_assoc, List.singleton_append]
  exact List.perm_middle.trans ((List.filter_append_perm _ q).cons e)

theorem betweenParts_nodup {e : QueueEntry} {q : List QueueEntry} (hq : (q.map (·.item)).Nodup)
    (he : e.item ∉ q.map (·.item)) : ((betweenParts e q).map (·.item)).Nodup :=
  ((betweenParts_perm e q).map _).nodup_iff.2 (List.nodup_cons.2 ⟨he, hq⟩)

theorem betweenParts_urgentFirst (e : QueueEntry) (q : List QueueEntry) : UrgentFirst (betweenParts e q) := by
  have hurgent : ∀ a ∈ q.filter (·.urgent), a.urgent = true := fun a ha => (List.mem_filter.1 ha).2
  have hrest : ∀ b ∈ q.filter (!·.urgent), b.urgent ≠ true := fun b hb => by simpa using (List.mem_filter.1 hb).2
  refine List.pairwise_append.2 ⟨List.pairwise_append.2 ⟨?_, List.pairwise_singleton .., ?_⟩, ?_, ?_⟩
  · exact List.pairwise_of_forall_mem_list fun a ha b _ _ => hurgent a ha
  · exact fun a ha b _ _ => hurgent a ha
  · exact List.pairwise_of_forall_mem_list fun a _ b hb hb' => absurd hb' (hrest b hb)
  · exact fun a _ b hb hb' => absurd hb' (hrest b hb)

theorem joinQueue_keyed {e : QueueEntry} {q : List QueueEntry} (hq : (q.map (·.item)).Nodup) (hfirst : UrgentFirst q)
    (he : e.item ∉ q.map (·.item)) : ((joinQueue e q).map (·.item)).Nodup ∧ UrgentFirst (joinQueue e q) := by
  unfold joinQueue
  split
  case isTrue => exact ⟨betweenParts_nodup hq he, betweenParts_urgentFirst e q⟩
  case isFalse hurgent =>
    refine ⟨?_, List.pairwise_append.2 ⟨hfirst, List.pairwise_singleton .., fun a _ b hb hb' => ?_⟩⟩
    · rw [List.map_append]
      exact nodup_concat hq (by simpa using he)
    · exact absurd (List.mem_singleton.1 hb ▸ hb') hurgent

theorem updateQueue_keyed {old e : QueueEntry} {q : List QueueEntry} (hq : (q.map (·.item)).Nodup)
    (hfirst : UrgentFirst q) (hold : old ∈ q) (hitem : old.item = e.item) :
    ((updateQueue old e q).map (·.item)).Nodup ∧ UrgentFirst (updateQueue old e q) := by
  unfold updateQueue
  split
  case isTrue hsame =>
    refine ⟨?_, List.pairwise_map.2 (hfirst.imp_of_mem fun {a b} ha hb hab => ?_)⟩
    · have hitems : (q.map fun x => if x.item = e.item then e else x).map (·.item) = q.map (·.item) := by
        rw [List.map_map]
        exact List.map_congr_left fun x _ => by
          by_cases hx : x.item = e.item <;> simp [hx]
      rw [hitems]
      exact hq
    · have hurgent : ∀ x ∈ q, (if x.item = e.item then e else x).urgent = x.urgent := fun x hx => by
        split
        case isTrue hxe => rw [eq_of_map_nodup hq hx hold (hxe.trans hitem.symm), hsame]
        case isFalse => rfl
      rw [hurgent a ha, hurgent b hb]
      exact hab
  case isFalse =>
    have hless : (q.filter fun x => x.item != e.item).Sublist q := List.filter_sublist
    refine ⟨betweenParts_nodup (hq.sublist (hless.map _)) ?_, betweenParts_urgentFirst e _⟩
    simp

theorem applyQueue_keyed {q : List QueueEntry} (a : QueueAction) (hq : (q.map (·.item)).Nodup) (hfirst : UrgentFirst q) :
    ((applyQueue a q).map (·.item)).Nodup ∧ UrgentFirst (applyQueue a q) := by
  cases a with
  | remove i =>
    have hless : (applyQueue (.remove i) q).Sublist q := List.filter_sublist
    exact ⟨hq.sublist (hless.map _), hfirst.sublist hless⟩
  | upsert e =>
    show ((upsertQueue e q).map (·.item)).Nodup ∧ UrgentFirst (upsertQueue e q)
    unfold upsertQueue
    split
    case h_1 old hfind =>
      exact updateQueue_keyed hq hfirst (List.mem_of_find?_eq_some hfind) (by simpa using List.find?_some hfind)
    case h_2 hfind =>
      refine joinQueue_keyed hq hfirst fun hmem => ?_
      obtain ⟨x, hx, hxe⟩ := List.mem_map.1 hmem
      exact absurd hxe (by simpa using List.find?_eq_none.1 hfind x hx)

/-! ## The invariant -/

/-- The invariant reads the tables of a view, and nothing else. -/
structure TablesView (v : View) : Prop where
  items : (v.items.map (·.code)).Pairwise (· < ·)
  queue : (v.queue.map (·.item)).Nodup
  urgentFirst : UrgentFirst v.queue
  labels : (v.labels.map (·.id)).Pairwise (· < ·)

theorem tablesView_view (s : State) : TablesView (view s) ↔ TablesKeyed s :=
  ⟨fun h => ⟨h.items, h.queue, h.urgentFirst, h.labels⟩, fun h => ⟨h.items, h.queue, h.urgentFirst, h.labels⟩⟩

theorem labels_sorted_fresh {l : List Label} (hl : (l.map (·.id)).Pairwise (· < ·)) :
    (((l.map freshLabel).filter fun x => x != blankLabel x.id).map (·.id)).Pairwise (· < ·) := by
  refine List.Pairwise.sublist (List.filter_sublist.map _) ?_
  rw [List.map_map]
  exact hl

theorem move_keeps_tablesView {ρ : Reach} {v w : View} (hv : TablesView v) (hm : Move ρ v w) : TablesView w := by
  cases hm
  case failed l n _ => exact { hv with labels := insertLabel_sorted _ hv.labels }
  case item hd i => exact { hv with items := insertItem_sorted i hv.items }
  case dropItem hd c => exact { hv with items := hv.items.sublist (List.filter_sublist.map _) }
  case queueOp hd a l =>
    obtain ⟨hnodup, hfirst⟩ := applyQueue_keyed a hv.queue hv.urgentFirst
    exact { hv with queue := hnodup, urgentFirst := hfirst }
  case label hd l =>
    refine { hv with labels := ?_ }
    show ((if _ then _ else _ : List Label).map (·.id)).Pairwise (· < ·)
    split
    · exact hv.labels.sublist (List.filter_sublist.map _)
    · exact insertLabel_sorted l hv.labels
  case fresh => exact { hv with labels := labels_sorted_fresh hv.labels }
  case joinClass => rw [putClassQ_eq]; exact { hv with }
  case leaveClass => rw [putClassQ_eq]; exact { hv with }
  case spend => rw [putCredits_eq]; exact { hv with }
  case noCredits => rw [putCredits_eq]; exact { hv with }
  case openCredits => rw [putCredits_eq]; exact { hv with }
  case giveBack => rw [putCredits_eq]; exact { hv with }
  case giveShared => rw [putCredits_eq]; exact { hv with }
  all_goals exact { hv with }

/-- Settles O15: the moves that change a table are the insertions and removals by key, and a reset's clearing. -/
theorem tablesStayKeyed : Obligations.TablesStayKeyed := by
  unfold Obligations.TablesStayKeyed
  intro s t hs hstep
  exact (tablesView_view t).1 (step_keeps TablesView (fun _ _ h => { h with })
    (fun _ _ => move_keeps_tablesView) s t ((tablesView_view s).2 hs) hstep)

end Sys2Proof.Proofs
end

