-- ==== Sys2Proof/Proofs/Machine.lean ====
section
/-! PROOFS. The machine as a whole: every command is answered with a next state, what a command leaves outside its areas, what a part that does not run takes, and the state after reset. -/

namespace Sys2Proof.Proofs

open Sys2Proof.Machine Sys2Proof.Safety Sys2Proof.Laws

/-- Settles O1. -/
theorem stepRunsTheFrontCommand : Obligations.StepRunsTheFrontCommand := by
  unfold Obligations.StepRunsTheFrontCommand
  exact fun _ _ => rfl

/-- Settles O3. -/
theorem tableWordsSpellNoCommand : Obligations.TableWordsSpellNoCommand := by
  unfold Obligations.TableWordsSpellNoCommand
  exact fun _ _ _ => ⟨rfl, rfl⟩

/-- Settles O4: start-up of a part whose NV store has never been written, evaluated. -/
theorem powerOnOfABlankPartIsReset : Obligations.PowerOnOfABlankPartIsReset := by
  unfold Obligations.PowerOnOfABlankPartIsReset
  refine congrArg Host.Outcome.next ?_
  decide +kernel

/-- Settles O5: the run of moves that a command is leaves the queue of commands alone. -/
theorem commandsAnswerAndKeepTheQueue : Obligations.CommandsAnswerAndKeepTheQueue := by
  unfold Obligations.CommandsAnswerAndKeepTheQueue
  intro c s
  obtain ⟨t, hexec, hruns⟩ := exec_reaches c s
  exact ⟨t, hexec, hruns.pending_same⟩

/-! ## The state after reset -/

theorem settingsSound_reset : SettingsSound State.reset where
  values := rfl
  windows := rfl
  inRange n := by cases n <;> decide
  relations := by decide
  windowsFit i := by
    have hwindow : State.reset.settings.window i = defaultWindow := by
      show (List.replicate 16 defaultWindow).getD i defaultWindow = defaultWindow
      rw [List.getD_eq_getElem?_getD, List.getElem?_replicate]
      split <;> rfl
    rw [hwindow]
    decide
  writes := fun _ _ _ h => absurd h List.not_mem_nil
  apart := List.nodup_nil

theorem journalFigures_reset : JournalFigures State.reset where
  exposure := rfl
  unsent := rfl
  counter := Nat.zero_le _
  writing := fun _ h => nomatch h

theorem creditsWithinGrant_reset : CreditsWithinGrant State.reset := by
  intro p c hc
  cases p <;> cases hc

theorem capacities_reset : Capacities State.reset where
  requests := Nat.zero_le _
  notices := by decide
  price := Nat.zero_le _
  journal := Nat.zero_le _
  office := Nat.zero_le _
  guest := Nat.zero_le _
  waits := Nat.zero_le _
  spent := Nat.zero_le _
  slots := rfl
  places := rfl
  claims := rfl
  sessions := rfl
  replies := fun k f hf _ => by cases k <;> exact absurd hf List.not_mem_nil

theorem tablesKeyed_reset : TablesKeyed State.reset where
  items := List.Pairwise.nil
  queue := List.nodup_nil
  urgentFirst := List.Pairwise.nil
  labels := List.Pairwise.nil

/-- Settles O16. -/
theorem resetMeetsTheInvariants : Obligations.ResetMeetsTheInvariants := by
  unfold Obligations.ResetMeetsTheInvariants
  exact ⟨settingsSound_reset, journalFigures_reset, creditsWithinGrant_reset, capacities_reset, tablesKeyed_reset⟩

/-! ## A part that does not run (R176, R177) -/

section Stopped

variable {s : State}

theorem event_of_stopped (f : State → State) (hs : s.running = false) : event f s = .next s := by
  rw [event, if_neg (by simp [hs])]

theorem statusRequest_of_stopped (h : HostHead) (k : RequestKind) (body : State → ReplyBody) (hs : s.running = false) :
    statusRequest h k body s = .next s := by
  rw [statusRequest, if_neg (by simp [hs])]

end Stopped

/-- Settles O8: a command of another area than the resets' is an event or a status request, which only a running part takes. -/
theorem stoppedPartTakesNothing : Obligations.StoppedPartTakesNothing := by
  unfold Obligations.StoppedPartTakesNothing
  intro c s hs hresets hline hpresent habsent
  cases c
  case siteLineChange l v => exact absurd rfl (hline l v)
  case carrierPresent p => exact absurd rfl (hpresent p)
  case carrierAbsent p => exact absurd rfl (habsent p)
  case changeStatus => exact statusRequest_of_stopped _ _ _ hs
  case radioStatus => exact statusRequest_of_stopped _ _ _ hs
  case tillStatus => exact statusRequest_of_stopped _ _ _ hs
  case authStatus => exact statusRequest_of_stopped _ _ _ hs
  case journalInfo => exact statusRequest_of_stopped _ _ _ hs
  case uplinkStatus => exact statusRequest_of_stopped _ _ _ hs
  case transferStatus => exact statusRequest_of_stopped _ _ _ hs
  case storeStatus => exact statusRequest_of_stopped _ _ _ hs
  case identify => exact statusRequest_of_stopped _ _ _ hs
  case status => exact statusRequest_of_stopped _ _ _ hs
  case holdAssert => cases hresets
  case holdExit => cases hresets
  case resetLineAssert => cases hresets
  case resetLineRelease => cases hresets
  case powerOn => cases hresets
  case powerLoss => cases hresets
  case hostReset => cases hresets
  case closingGraceEnd => rw [exec, execClosingGraceEnd, event_of_stopped _ hs]
  case labelAcknowledgement => rw [exec, execLabelAcknowledgement, event_of_stopped _ hs]
  case beacon => rw [exec, execBeacon, event_of_stopped _ hs]
  case settleEnd => rw [exec, execSettleEnd, event_of_stopped _ hs]
  case itemRemoveWriteDone => rw [exec, execItemRemoveWriteDone, event_of_stopped _ hs]
  case journalAppendDone => rw [exec, execJournalAppendDone, event_of_stopped _ hs]
  case journalRemovalDone => rw [exec, execJournalRemovalDone, event_of_stopped _ hs]
  case probeDue => rw [exec, execProbeDue, event_of_stopped _ hs]
  case batchRetryDelayEnd => rw [exec, execBatchRetryDelayEnd, event_of_stopped _ hs]
  case tricklePauseEnd => rw [exec, execTricklePauseEnd, event_of_stopped _ hs]
  case fileRetryDelayEnd => rw [exec, execFileRetryDelayEnd, event_of_stopped _ hs]
  case guestTimeExpiry => rw [exec, execGuestTimeExpiry, event_of_stopped _ hs]
  case quietDelayExpiry => rw [exec, execQuietDelayExpiry, event_of_stopped _ hs]
  all_goals exact event_of_stopped _ hs

/-! ## What a command leaves outside its areas -/

section Areas

variable {ρ : Reach} {d : Area → Bool} {v w : View}

/-- A label's entry but for its failed attempts. -/
def unfailed (l : Label) : Label := { l with failed := 0 }

/-- A record but for its send state. -/
def unsentRecord (r : Record) : Record := { r with sent := none }

theorem insertKeyed_map_same {α β : Type} {key : α → Nat} {f : α → β} {a b : α} {l : List α} (hb : b ∈ l)
    (hkey : key a = key b) (hf : f a = f b) (hl : l.Pairwise fun x y => key x < key y) :
    (insertKeyed key a l).map f = l.map f := by
  induction l with
  | nil => exact absurd hb List.not_mem_nil
  | cons h t ih =>
    obtain ⟨hhead, htail⟩ := List.pairwise_cons.1 hl
    rw [insertKeyed]
    rcases List.mem_cons.1 hb with rfl | hb
    · rw [if_neg (by omega), if_pos hkey, List.map_cons, List.map_cons, hf]
    · have hlt := hhead b hb
      rw [if_neg (by omega), if_neg (by omega), List.map_cons, List.map_cons, ih hb htail]

/-- What moves that may not write label entries leave of a keyed label table. -/
theorem runs_keeps_labels (hm : ∀ a b, Move ρ a b → (∃ l n, l ∈ a.labels ∧
      b.labels = insertLabel { l with failed := n } a.labels) ∨ b.labels = a.labels)
    (h : Runs ρ v w) (hv : (v.labels.map (·.id)).Pairwise (· < ·)) :
    w.labels.map unfailed = v.labels.map unfailed := by
  refine (h.keeps (fun x => (x.labels.map (·.id)).Pairwise (· < ·) ∧ x.labels.map unfailed = v.labels.map unfailed)
    (fun a b ⟨hsorted, hsame⟩ hab => ?_) ⟨hv, rfl⟩).2
  rcases hm a b hab with ⟨l, n, hl, hb⟩ | hb
  · rw [hb]
    refine ⟨insertLabel_sorted _ hsorted, ?_⟩
    rw [insertLabel_eq_insertKeyed, ← hsame]
    exact insertKeyed_map_same hl rfl rfl (List.pairwise_map.1 hsorted)
  · rw [hb]
    exact ⟨hsorted, hsame⟩

theorem move_inner_labels (h : Move .inner v w) : (∃ l n, l ∈ v.labels ∧
    w.labels = insertLabel { l with failed := n } v.labels) ∨ w.labels = v.labels := by
  cases h
  case failed l n hl => exact .inl ⟨l, n, hl, rfl⟩
  all_goals exact .inr (by simp)

theorem move_outer_labels (hlabels : d .labels = false) (hresets : d .resets = false) (h : Move (.outer d) v w) :
    (∃ l n, l ∈ v.labels ∧ w.labels = insertLabel { l with failed := n } v.labels) ∨ w.labels = v.labels := by
  cases h
  case failed l n hl => exact .inl ⟨l, n, hl, rfl⟩
  case label => simp_all
  case fresh => simp_all
  all_goals exact .inr (by simp)

/-- A send state given or taken back leaves the records as they are but for it. -/
theorem map_unsentRecord_of_sent (p : Record → Prop) [DecidablePred p] (sent : Record → Option Nat) (rs : List Record) :
    (rs.map fun r => if p r then { r with sent := sent r } else r).map unsentRecord = rs.map unsentRecord := by
  rw [List.map_map]
  exact List.map_congr_left fun r _ => by
    by_cases hr : p r <;> simp [hr, unsentRecord]

theorem move_inner_records (h : Move .inner v w) : w.records.map unsentRecord = v.records.map unsentRecord := by
  cases h
  case markSent seq batch => exact map_unsentRecord_of_sent (·.seq = seq) (fun _ => some batch) v.records
  case unsend batch => exact map_unsentRecord_of_sent (·.sent = some batch) (fun _ => none) v.records
  all_goals simp

theorem move_outer_records (hjournal : d .journal = false) (hresets : d .resets = false) (h : Move (.outer d) v w) :
    w.sequence = v.sequence ∧ w.records.map unsentRecord = v.records.map unsentRecord := by
  cases h
  case markSent seq batch => exact ⟨rfl, map_unsentRecord_of_sent (·.seq = seq) (fun _ => some batch) v.records⟩
  case unsend batch => exact ⟨rfl, map_unsentRecord_of_sent (·.sent = some batch) (fun _ => none) v.records⟩
  case append => simp_all
  case drop => simp_all
  case fresh => simp_all
  all_goals simp

theorem move_outer_settings (hsettings : d .settings = false) (hresets : d .resets = false) (h : Move (.outer d) v w) :
    w.settings = v.settings ∧ w.identity = v.identity := by
  cases h
  case settingDone => simp_all
  case branch => simp_all
  case fresh => simp_all
  all_goals simp

theorem move_outer_prices (hprices : d .prices = false) (hresets : d .resets = false) (h : Move (.outer d) v w) :
    w.items = v.items ∧ w.queue = v.queue ∧ w.changes = v.changes := by
  cases h
  case item => simp_all
  case dropItem => simp_all
  case queueOp => simp_all
  case change => simp_all
  case fresh => simp_all
  all_goals simp

theorem move_outer_writes (hwrites : d .writes = false) (hresets : d .resets = false) (h : Move (.outer d) v w) :
    v.nv <+: w.nv := by
  cases h
  case write => exact List.prefix_append ..
  case writeSetting => exact List.prefix_append ..
  case settingDone => simp_all
  case dropWrites => simp_all
  case cut => simp_all
  case fresh => simp_all
  all_goals simp

theorem move_outer_stops (hresets : d .resets = false) (h : Move (.outer d) v w) :
    w.stops = v.stops ∧ w.cause = v.cause := by
  cases h
  case stops => simp_all
  case fresh => simp_all
  all_goals simp

end Areas

/-- Settles O6: of the moves that change an area, those of a command with the area closed are none. -/
theorem commandsChangeOnlyTheirAreas : Obligations.CommandsChangeOnlyTheirAreas := by
  unfold Obligations.CommandsChangeOnlyTheirAreas
  intro c s t hexec
  obtain ⟨u, hu, hruns⟩ := exec_reaches c s
  obtain rfl : u = t := by rw [hu] at hexec; exact Host.Outcome.next.inj hexec
  refine ⟨fun hsettings hresets => ?_, fun hprices hresets => ?_, fun hlabels hresets hkeyed => ?_,
    fun hjournal hresets => ?_, fun hwrites hresets => ?_, fun hresets => ?_⟩
  · have hsame := hruns.same (fun x => (x.settings, x.identity)) fun a b hab =>
      Prod.ext_iff.2 (move_outer_settings hsettings hresets hab)
    exact Prod.ext_iff.1 hsame
  · have hsame := hruns.same (fun x => (x.items, x.queue, x.changes)) fun a b hab => by
      obtain ⟨hitems, hqueue, hchanges⟩ := move_outer_prices hprices hresets hab
      rw [hitems, hqueue, hchanges]
    simpa [view] using hsame
  · exact runs_keeps_labels (fun a b => move_outer_labels hlabels hresets) hruns hkeyed.labels
  · have hsame := hruns.same (fun x => (x.sequence, x.records.map unsentRecord)) fun a b hab =>
      Prod.ext_iff.2 (move_outer_records hjournal hresets hab)
    exact Prod.ext_iff.1 hsame
  · exact hruns.keeps (fun x => s.nv <+: x.nv) (fun a b ha hab => ha.trans (move_outer_writes hwrites hresets hab))
      (List.prefix_refl _)
  · have hsame := hruns.same (fun x => (x.stops, x.cause)) fun a b hab =>
      Prod.ext_iff.2 (move_outer_stops hresets hab)
    simpa [view, and_assoc] using hsame

end Sys2Proof.Proofs
end

