-- ==== Sys2Proof/Proofs/Tick.lean ====
section
/-! PROOFS. One millisecond on an empty queue: how time goes on, and which timed events have come due with it (log entry 1). -/

namespace Sys2Proof.Proofs

open Sys2Proof.Machine Sys2Proof.Safety Sys2Proof.Laws

/-! ## Time -/

section Time

variable {s : State}

theorem step_of_empty (hs : s.pending = []) : step s = .next (tick s) := by
  rw [step, hs]

theorem advanceTo_next (s : State) :
    advanceTo (s.timer + 1) s = { advanceClock 1 (eventsFallDue 1 s) with timer := s.timer + 1 } := by
  rw [advanceTo, if_neg (Nat.not_succ_le_self _), Nat.add_sub_cancel_left]

theorem tick_of_running (hs : s.pending = []) (hrun : s.running = true) {u : State}
    (hu : { advanceClock 1 (eventsFallDue 1 s) with timer := s.timer + 1 } = u) :
    tick s = { u with pending := dueCommands u } := by
  have hpending : u.pending = [] := by rw [← hu]; exact hs
  rw [tick, if_pos hrun, advanceTo_next, hu]
  simp [hpending]

theorem tick_of_reset_line (hrun : s.running = false) (hclock : clockCounts s = true) : tick s = advanceClock 1 s := by
  rw [tick, if_neg (by simp [hrun]), if_pos hclock]

theorem tick_of_stopped (hrun : s.running = false) (hclock : clockCounts s = false) : tick s = s := by
  rw [tick, if_neg (by simp [hrun]), if_neg (by simp [hclock])]

/-- An unset clock begins no event's minute (R165, R168). -/
theorem eventsFallDue_of_unset {ms : Nat} (hclock : s.day.clock = none) : eventsFallDue ms s = s := by
  have hnone : eventsBegun ms s = [] := by rw [eventsBegun, hclock]
  rw [eventsFallDue, hnone, List.append_nil]

theorem eventsFallDue_of_set {ms c : Nat} (hclock : s.day.clock = some c) : eventsFallDue ms s =
    { s with day := { s.day with
      dueEvents := s.day.dueEvents ++ countedEvents s.settings c ((s.day.clockMs + ms) / 1000) } } := by
  simp [eventsFallDue, eventsBegun, hclock]

end Time

/-! ## What has come due -/

section Due

variable {s : State} {c : Instr}

@[simp] theorem mem_dueIf {b : Bool} {i : Instr} : c ∈ dueIf b i ↔ b = true ∧ c = i := by
  cases b <;> simp [dueIf]

@[simp] theorem dueNow_iff (t : Option Nat) : dueNow s t = true ↔ ∃ x, t = some x ∧ x ≤ s.timer := by
  cases t <;> simp [dueNow]

/-- Whether a window of the transmission in flight has come to its end. -/
theorem windowOver_iff : (match s.lrs.inFlight with
    | some t => (match t.phase with | .window x => decide (x ≤ s.timer) | _ => false)
    | none => false) = true ↔ ∃ t x, s.lrs.inFlight = some t ∧ t.phase = .window x ∧ x ≤ s.timer := by
  cases s.lrs.inFlight with
  | none => simp
  | some t => cases hphase : t.phase <;> simp [hphase]

theorem resendOver_iff : (match s.hlk.ackWait with | .waiting x => decide (x ≤ s.timer) | _ => false) = true ↔
    ∃ x, s.hlk.ackWait = .waiting x ∧ x ≤ s.timer := by
  cases s.hlk.ackWait <;> simp

theorem mem_dueRadioHost : c ∈ dueRadioHost s ↔
    (s.lrs.radio = .settling ∧ ∃ x, s.lrs.settleEnd = some x ∧ x ≤ s.timer) ∧ c = .settleEnd ∨
    (∃ t x, s.lrs.inFlight = some t ∧ t.phase = .window x ∧ x ≤ s.timer) ∧ c = .ackWindowClose ∨
    (s.lrs.radio = .awake ∧ ∃ x, s.lrs.nextBeacon = some x ∧ x ≤ s.timer) ∧ c = .beacon ∨
    (∃ x, s.hlk.ackWait = .waiting x ∧ x ≤ s.timer) ∧ c = .noticeResendExpiry ∨
    (∃ x, s.hlk.silenceAt = some x ∧ x ≤ s.timer) ∧ c = .silenceExpiry ∨
    byteGapPassed s = true ∧ c = .hostByteTimeout ∨ hostResetDue s = true ∧ c = .hostReset := by
  simp only [dueRadioHost, List.mem_append, mem_dueIf, Bool.and_eq_true, beq_iff_eq, dueNow_iff, or_assoc]
  exact or_congr_right (or_congr (and_congr_left' windowOver_iff)
    (or_congr_right (or_congr_left (and_congr_left' resendOver_iff))))

theorem silentTill_iff (p : Place) : silentTill s p = true ↔
    (p.state = .idle ∨ p.state = .basket ∨ p.state = .authorizing) ∧ p.busy = false ∧
      p.lastFrame + 1000 * s.settings.nat .tillSilence ≤ s.timer := by
  simp [silentTill, and_assoc, or_assoc]

theorem mem_dueTills : c ∈ dueTills s ↔
    (∃ t, (t ≤ 15 ∧ silentTill s (placeAt s t) = true) ∧ c = .tillSilenceExpiry t) ∨
    (∃ x, s.tsu.grace = some x ∧ x ≤ s.timer) ∧ c = .closingGraceEnd := by
  simp only [dueTills, List.mem_append, List.mem_map, List.mem_filter, mem_dueIf, dueNow_iff, tillNumbers,
    List.mem_range, Config.tillCount, Nat.lt_succ_iff, eq_comm (b := c)]

theorem mem_dueRetries : c ∈ dueRetries s ↔
    ∃ e ∈ s.auz.entries, (e.state = .retryWait ∧ ∃ x, e.retryEnd = some x ∧ x ≤ s.timer) ∧
      c = .authRetryDelayEnd e.till := by
  simp only [dueRetries, List.mem_map, List.mem_filter, Bool.and_eq_true, beq_iff_eq, dueNow_iff, and_assoc,
    eq_comm (b := c)]

theorem mem_dueProbe {p : Path} : c ∈ dueProbe s p ↔
    (∃ x, (s.ulc.path p).nextProbe = some x ∧ x ≤ s.timer) ∧ c = .probeDue p := by
  simp only [dueProbe, mem_dueIf, dueNow_iff]

/-- An armed time within what may be there. -/
theorem dueNow_bind_iff {α : Type} (o : Option α) (f : α → Option Nat) :
    dueNow s (o.bind f) = true ↔ ∃ b x, o = some b ∧ f b = some x ∧ x ≤ s.timer := by
  cases o <;> simp

theorem mem_dueTransfer : c ∈ dueTransfer s ↔
    (∃ b x, s.txe.batch = some b ∧ b.retryEnd = some x ∧ x ≤ s.timer) ∧ c = .batchRetryDelayEnd ∨
    (∃ x, s.txe.pauseEnd = some x ∧ x ≤ s.timer) ∧ c = .tricklePauseEnd ∨
    (∃ f x, s.txe.file = some f ∧ f.retryEnd = some x ∧ x ≤ s.timer) ∧ c = .fileRetryDelayEnd := by
  simp only [dueTransfer, List.mem_append, mem_dueIf, dueNow_bind_iff, or_assoc]
  exact or_congr_right (or_congr_left (and_congr_left' (dueNow_iff _)))

theorem sessionOver_iff (i : Nat) : (match sessionAt s i with
    | some e => decide (e.endsAt ≤ s.timer)
    | none => false) = true ↔ ∃ e, sessionAt s i = some e ∧ e.endsAt ≤ s.timer := by
  cases sessionAt s i <;> simp

theorem mem_dueGuests : c ∈ dueGuests s ↔
    ∃ i, (i ≤ 63 ∧ ∃ e, sessionAt s i = some e ∧ e.endsAt ≤ s.timer) ∧ c = .guestTimeExpiry i := by
  simp only [dueGuests, List.mem_map, List.mem_filter, List.mem_range, Config.sessionCount, Nat.lt_succ_iff,
    eq_comm (b := c)]
  exact exists_congr fun i => and_congr_left' (and_congr_right' (sessionOver_iff i))

theorem tickDue_iff (k : TimeoutClass) : tickDue s k = true ↔
    ∃ ms, periodMs s.settings k = some ms ∧ (s.ulc.ticks k).lastTick + ms ≤ s.timer := by
  unfold tickDue
  cases periodMs s.settings k <;> simp

theorem mem_dueTicks : c ∈ dueTicks s ↔ ∃ k, tickDue s k = true ∧ c = .timeoutTick k := by
  have hall : ∀ k, k ∈ [TimeoutClass.t1, .t2, .t3, .t4] := fun k => by cases k <;> simp
  simp only [dueTicks, List.mem_map, List.mem_filter, hall, true_and, eq_comm (b := c)]

/-- The commands that the day's timed events come as. -/
def dayCommands : List Instr := [.quietDelayExpiry, .openLeadEvent, .openEvent, .closeEvent]

theorem mem_dayCommands_of_mem_dueDay (h : c ∈ dueDay s) : c ∈ dayCommands := by
  rcases List.mem_append.1 h with h | h
  · rw [(mem_dueIf.1 h).2]
    decide
  · obtain ⟨e, -, rfl⟩ := List.mem_map.1 h
    cases e <;> decide

theorem mem_dueCommands : c ∈ dueCommands s ↔ c ∈ dueTicks s ∨ c ∈ dueRadioHost s ∨ c ∈ dueTills s ∨ c ∈ dueRetries s ∨
    c ∈ dueProbe s .primary ∨ c ∈ dueProbe s .backup ∨ c ∈ dueTransfer s ∨ c ∈ dueGuests s ∨ c ∈ dueDay s := by
  simp only [dueCommands, List.mem_append, or_assoc]

/-- A command that no day event comes as has come due when its own row's condition holds. -/
theorem mem_dueCommands_of_not_day (hc : c ∉ dayCommands) : c ∈ dueCommands s ↔
    c ∈ dueTicks s ∨ c ∈ dueRadioHost s ∨ c ∈ dueTills s ∨ c ∈ dueRetries s ∨
    c ∈ dueProbe s .primary ∨ c ∈ dueProbe s .backup ∨ c ∈ dueTransfer s ∨ c ∈ dueGuests s := by
  have hday : c ∉ dueDay s := fun h => hc (mem_dayCommands_of_mem_dueDay h)
  simp only [mem_dueCommands, hday, or_false]

/-- No other command comes due by itself. -/
theorem dueCommands_cases (h : c ∈ dueCommands s) :
    c ∈ [Instr.settleEnd, .ackWindowClose, .beacon, .noticeResendExpiry, .silenceExpiry, .hostByteTimeout, .hostReset,
      .closingGraceEnd, .batchRetryDelayEnd, .tricklePauseEnd, .fileRetryDelayEnd, .quietDelayExpiry, .openLeadEvent,
      .openEvent, .closeEvent] ∨
    (∃ t, c = .tillSilenceExpiry t) ∨ (∃ t, c = .authRetryDelayEnd t) ∨ (∃ p, c = .probeDue p) ∨
    (∃ i, c = .guestTimeExpiry i) ∨ ∃ k, c = .timeoutTick k := by
  rcases mem_dueCommands.1 h with h | h | h | h | h | h | h | h | h
  · obtain ⟨k, -, rfl⟩ := mem_dueTicks.1 h
    simp
  · rcases mem_dueRadioHost.1 h with h | h | h | h | h | h | h <;> simp [h.2]
  · rcases mem_dueTills.1 h with ⟨t, -, rfl⟩ | ⟨-, rfl⟩ <;> simp
  · obtain ⟨e, -, -, rfl⟩ := mem_dueRetries.1 h
    simp
  · simp [(mem_dueProbe.1 h).2]
  · simp [(mem_dueProbe.1 h).2]
  · rcases mem_dueTransfer.1 h with h | h | h <;> simp [h.2]
  · obtain ⟨i, -, rfl⟩ := mem_dueGuests.1 h
    simp
  · have hday := mem_dayCommands_of_mem_dueDay h
    simp only [dayCommands, List.mem_cons, List.not_mem_nil, or_false] at hday
    rcases hday with rfl | rfl | rfl | rfl <;> simp

theorem probeDue_mem_iff (p : Path) : .probeDue p ∈ dueCommands s ↔
    ∃ x, (s.ulc.path p).nextProbe = some x ∧ x ≤ s.timer := by
  cases p <;>
    simp [mem_dueCommands_of_not_day, dayCommands, mem_dueTicks, mem_dueRadioHost, mem_dueTills, mem_dueRetries,
      mem_dueProbe, mem_dueTransfer, mem_dueGuests]

theorem authRetryDelayEnd_mem_iff (t : Nat) : .authRetryDelayEnd t ∈ dueCommands s ↔
    ∃ e ∈ s.auz.entries, e.till = t ∧ e.state = .retryWait ∧ ∃ x, e.retryEnd = some x ∧ x ≤ s.timer := by
  simp [mem_dueCommands_of_not_day, dayCommands, mem_dueTicks, mem_dueRadioHost, mem_dueTills, mem_dueRetries,
    mem_dueProbe, mem_dueTransfer, mem_dueGuests]
  exact exists_congr fun e => and_congr_right fun _ => and_comm.trans (and_congr_left' eq_comm)

end Due

/-- Settles O2: time's own step, and what has come due as the union of each block's timed events. -/
theorem emptyQueueIsOneMillisecond : Obligations.EmptyQueueIsOneMillisecond := by
  unfold Obligations.EmptyQueueIsOneMillisecond
  refine ⟨fun s hs => ⟨fun hrun u hu => ?_, eventsFallDue_of_unset, fun c => eventsFallDue_of_set,
    fun hrun hclock => ?_, fun hrun hclock => ?_⟩, fun s => ?_⟩
  · rw [step_of_empty hs, tick_of_running hs hrun hu]
  · rw [step_of_empty hs, tick_of_reset_line hrun hclock]
  · rw [step_of_empty hs, tick_of_stopped hrun hclock]
  · refine ⟨?_, ?_, ?_, ?_, ?_, fun t => ?_, ?_, authRetryDelayEnd_mem_iff, probeDue_mem_iff, ?_, ?_, ?_,
      fun i => ?_, fun k => ?_, fun c => dueCommands_cases⟩ <;>
      simp [mem_dueCommands_of_not_day, dayCommands, mem_dueTicks, mem_dueRadioHost, mem_dueTills, mem_dueRetries,
        mem_dueProbe, mem_dueTransfer, mem_dueGuests, silentTill_iff, tickDue_iff]

end Sys2Proof.Proofs
end

