-- ==== Sys2Proof/Proofs/AfterEffects.lean ====
section
/-! PROOFS. What follows a command (R6, R24, R35, R40, R41, R188): what it leaves alone, the order it goes in, which waiting event is taken, and the radio's step. -/

namespace Sys2Proof.Proofs

open Sys2Proof.Machine Sys2Proof.Safety Sys2Proof.Laws

/-! ## Repetition -/

/-- What is done once more for each number is a fold that does it so many times. -/
theorem eq_foldl_of_succ {α : Type} {f : α → α} {g : Nat → α → α} (hzero : ∀ a, g 0 a = a) (hsucc : ∀ n a, g (n + 1) a = g n (f a))
    (n : Nat) (a : α) : g n a = (List.range n).foldl (fun x _ => f x) a := by
  induction n generalizing a with
  | zero => exact hzero a
  | succ n ih => rw [hsucc, ih, List.range_succ_eq_map, List.foldl_cons, List.foldl_map]

theorem foldl_of_fixed {α β : Type} {f : α → α} {a : α} (ha : f a = a) (l : List β) : l.foldl (fun x _ => f x) a = a := by
  induction l with
  | nil => rfl
  | cons b l ih => rw [List.foldl_cons, ha, ih]

theorem drain_eq_foldl (n : Nat) (s : State) : drain n s = (List.range n).foldl (fun x _ => takeReady x) s :=
  eq_foldl_of_succ (fun _ => rfl) (fun _ _ => rfl) n s

theorem writerPump_eq_foldl (n : Nat) (s : State) : writerPump n s = (List.range n).foldl (fun x _ => takeAppend x) s :=
  eq_foldl_of_succ (fun _ => rfl) (fun _ _ => rfl) n s

theorem offerMembers_eq_foldl (n : Nat) (s : State) : offerMembers n s = (List.range n).foldl (fun x _ => offerMember x) s :=
  eq_foldl_of_succ (fun _ => rfl) (fun _ _ => rfl) n s

theorem feed_eq_foldl (n : Nat) (s : State) : feed n s = (List.range n).foldl (fun x _ => feedOne x) s :=
  eq_foldl_of_succ (fun _ => rfl) (fun _ _ => rfl) n s

theorem feedAll_eq_foldl (s : State) : feedAll s = match s.txe.file with
    | some f => (List.range (f.feed.length + 1)).foldl (fun x _ => feedOne x) s
    | none => s := by
  unfold feedAll
  cases s.txe.file with
  | none => rfl
  | some f => exact feed_eq_foldl _ s

/-! ## The events that wait (R6, R24, R188) -/

section Waiting

variable {s : State}

theorem keysMeet_iff (a b : List Key) : keysMeet a b = true ↔ ∃ k ∈ a, k ∈ b := by
  simp [keysMeet]

theorem mem_writeKeys_iff (k : Key) :
    k ∈ writeKeys s ↔ (∃ w ∈ s.nv, k ∈ w.keys) ∨ ∃ o ∈ s.pbk.ops, k = .item o.item := by
  simp [writeKeys, eq_comm (b := k)]

/-- No event is ready when each meets a write under way or an event before it. -/
theorem firstReady_eq_none {busy : List Key} {l : List Work}
    (h : ∀ a w b, l = a ++ w :: b → keysMeet (w.keys s) (busy ++ a.flatMap (Work.keys s)) = true) :
    firstReady s busy l = none := by
  induction l generalizing busy with
  | nil => rfl
  | cons w ws ih =>
    have hw : keysMeet (w.keys s) busy = true := by simpa using h [] w ws rfl
    have hrest : firstReady s (busy ++ w.keys s) ws = none := ih fun a x b hab => by
      simpa using h (w :: a) x b (by rw [hab]; rfl)
    rw [firstReady]
    simp [hw, hrest]

/-- The first event whose keys are free of the writes under way and of the events before it. -/
theorem firstReady_eq_some {busy : List Key} {pre post : List Work} {w : Work}
    (hpre : ∀ a x b, pre = a ++ x :: b → keysMeet (x.keys s) (busy ++ a.flatMap (Work.keys s)) = true)
    (hw : keysMeet (w.keys s) (busy ++ pre.flatMap (Work.keys s)) = false) :
    firstReady s busy (pre ++ w :: post) = some (w, pre ++ post) := by
  induction pre generalizing busy with
  | nil =>
    have hfree : keysMeet (w.keys s) busy = false := by simpa using hw
    rw [List.nil_append, firstReady]
    simp [hfree]
  | cons x xs ih =>
    have hx : keysMeet (x.keys s) busy = true := by simpa using hpre [] x xs rfl
    have hrest : firstReady s (busy ++ x.keys s) (xs ++ w :: post) = some (w, xs ++ post) :=
      ih (fun a y b hab => by simpa using hpre (x :: a) y b (by rw [hab]; rfl)) (by simpa using hw)
    rw [List.cons_append, firstReady]
    simp [hx, hrest]

theorem drain_of_none_ready (hs : takeReady s = s) (n : Nat) : drain n s = s := by
  induction n with
  | zero => rfl
  | succ n ih => rw [drain, hs, ih]

theorem drainAll_of_none_ready
    (h : ∀ a w b, s.waiting = a ++ w :: b → keysMeet (w.keys s) (writeKeys s ++ a.flatMap (Work.keys s)) = true) :
    drainAll s = s := by
  refine drain_of_none_ready ?_ _
  rw [takeReady, firstReady_eq_none h]

theorem takeReady_of_first {pre post : List Work} {w : Work} (hs : s.waiting = pre ++ w :: post)
    (hpre : ∀ a x b, pre = a ++ x :: b → keysMeet (x.keys s) (writeKeys s ++ a.flatMap (Work.keys s)) = true)
    (hw : keysMeet (w.keys s) (writeKeys s ++ pre.flatMap (Work.keys s)) = false) :
    takeReady s = takeWork w { s with waiting := pre ++ post } := by
  rw [takeReady, hs, firstReady_eq_some hpre hw]

end Waiting

/-! ## The radio's step (R35, R40, R41) -/

section Radio

variable {s : State}

theorem attemptedNow_eq (s : State) : attemptedNow s = (s.lrs.burst.map (·.attempted)).getD [] := by
  unfold attemptedNow
  cases s.lrs.burst <;> rfl

theorem abandonForPriority_of_refresh {t : Transmission} (ht : s.lrs.inFlight = some t) (hkind : t.kind = .refresh)
    (hwork : (priorityChoice s ((s.lrs.burst.map (·.attempted)).getD [])).isSome) :
    abandonForPriority s =
      { s with
        waiting := s.waiting.filter fun w => match w with | .floor _ => false | _ => true
        lrs := { s.lrs with inFlight := none } } := by
  rw [← attemptedNow_eq] at hwork
  unfold abandonForPriority
  rw [ht]
  exact if_pos ⟨hkind, hwork⟩

theorem abandonForPriority_of_none {t : Transmission} (ht : s.lrs.inFlight = some t)
    (hno : t.kind = .priority ∨ priorityChoice s ((s.lrs.burst.map (·.attempted)).getD []) = none) :
    abandonForPriority s = s := by
  rw [← attemptedNow_eq] at hno
  unfold abandonForPriority
  rw [ht]
  refine if_neg fun hboth => ?_
  rcases hno with hkind | hnone
  · rw [hkind] at hboth
    cases hboth.1
  · rw [hnone] at hboth
    cases hboth.2

theorem abandonForPriority_of_idle (hidle : s.lrs.inFlight = none) : abandonForPriority s = s := by
  unfold abandonForPriority
  rw [hidle]

theorem startWaitingBurst_of_waiting {n : Nat} (hidle : s.lrs.inFlight = none) (hn : s.lrs.waitingBurst = some n) :
    startWaitingBurst s = { s with lrs := { s.lrs with
      burst := some { length := n, made := 0, attempted := [] }, waitingBurst := none } } := by
  unfold startWaitingBurst
  rw [hidle, hn]

theorem startWaitingBurst_of_not (h : s.lrs.inFlight.isSome ∨ s.lrs.waitingBurst = none) : startWaitingBurst s = s := by
  unfold startWaitingBurst
  split
  case h_1 n hidle hn => simp [hidle, hn] at h
  case h_2 => rfl

theorem chooseNext_of_not (h : s.lrs.inFlight.isSome ∨ s.lrs.burst = none ∨ s.lrs.radio ≠ .awake) :
    chooseNext s = s := by
  unfold chooseNext
  split
  case h_1 b hidle hb =>
    have hasleep : s.lrs.radio ≠ .awake := by simpa [hidle, hb] using h
    exact if_pos hasleep
  case h_2 => rfl

end Radio

/-! ## What follows a command -/

theorem finish_keeps_labels {s : State} (hs : TablesKeyed s) :
    (finish s).lrs.labels.map unfailed = s.lrs.labels.map unfailed :=
  runs_keeps_labels (fun _ _ => move_inner_labels) (finish_runs s .refl) hs.labels

theorem finish_keeps_records (s : State) :
    (finish s).sjr.records.map unsentRecord = s.sjr.records.map unsentRecord :=
  (finish_runs s .refl).same (fun x => x.records.map unsentRecord) fun _ _ => move_inner_records

theorem react_of_stopped {s : State} (hs : s.running = false) : react s = s := by
  rw [react, if_neg (by simp [hs])]

theorem react_of_running {s u : State} (hs : s.running = true)
    (hu : drainAll (radioStep (tryAdmission (journalStep (drainAll s)))) = u) :
    react s = testQuiet (settleBatch (pumpPaths (transferStep (pumpPaths (transferStep u))))) := by
  rw [react, if_pos hs, ← hu]
  rfl

/-- Settles O7: the after-effects are an inner run of moves, and their steps are taken in the model's order. -/
theorem afterEffectsKeepTheRest : Obligations.AfterEffectsKeepTheRest := by
  unfold Obligations.AfterEffectsKeepTheRest
  intro s
  have h := finish_after s
  obtain ⟨hclock, -⟩ := Prod.ext_iff.1 h.clock
  obtain ⟨hprimary, hbackup⟩ := Prod.ext_iff.1 h.carriers
  refine ⟨h.pending, h.timer, h.settings, h.identity, h.items, h.queue, h.changes, h.sequence, h.exposure, h.claims,
    finish_keeps_labels, finish_keeps_records s, hclock, h.lines, hprimary, hbackup, h.lock, h.out, h.nv, h.ops, h.notices,
    rfl, react_of_stopped, fun u => react_of_running, writerPump_eq_foldl _ s, fun u hu => ?_, rfl, feedAll_eq_foldl s,
    ⟨keysMeet_iff, mem_writeKeys_iff, drain_eq_foldl _ s, drainAll_of_none_ready, fun pre w post => takeReady_of_first⟩,
    ⟨rfl, fun t => abandonForPriority_of_refresh, fun hnone => ?_, fun n => startWaitingBurst_of_waiting,
      startWaitingBurst_of_not, chooseNext_of_not⟩, rfl⟩
  · rw [batchStep, offerMembers_eq_foldl, hu]
  · cases hidle : s.lrs.inFlight with
    | none => exact abandonForPriority_of_idle hidle
    | some t => exact abandonForPriority_of_none hidle (hnone t hidle)

end Sys2Proof.Proofs
end

