-- ==== Sys2Proof/Proofs/HostRequests.lean ====
section
/-! PROOFS. How the host link takes a request (R181, R182): how it is turned away before its owner sees it, and the requests that are answered from state alone. -/

namespace Sys2Proof.Proofs

open Sys2Proof.Machine Sys2Proof.Safety Sys2Proof.Laws

/-! ## Taking a request (R181, R182) -/

section Taking

variable {s : State} {h : HostHead} {k : RequestKind}

/-- A request frame at a running part is taken, and at least the host transmitter follows. -/
theorem exec_hostRequest {c : Instr} (hc : hostRequest c = some (h, k)) (hrun : s.running = true) :
    ∃ own, exec c s = .next (finish (takeRequest h k own s)) ∨ exec c s = .next (hostPump (takeRequest h k own s)) := by
  have hchange : ∀ own, ∃ own', request h k own s = .next (finish (takeRequest h k own' s)) ∨
      request h k own s = .next (hostPump (takeRequest h k own' s)) :=
    fun own => ⟨own, .inl (event_running _ _ hrun)⟩
  have hstatus : ∀ body, ∃ own, statusRequest h k body s = .next (finish (takeRequest h k own s)) ∨
      statusRequest h k body s = .next (hostPump (takeRequest h k own s)) := fun body => by
    refine ⟨fun u => reply h.tag k .ok (body u) u, ?_⟩
    rw [statusRequest, if_pos hrun]
    dsimp only
    split
    · exact .inl rfl
    · exact .inr rfl
  cases c <;> cases hc <;> first | exact hchange _ | exact hstatus _

theorem badTag_iff (tag : Nat) : badTag tag = true ↔ tag = 0 ∨ 255 < tag := by
  simp [badTag]

theorem takeRequest_of_bad_tag (own : State → State) (htag : h.tag = 0 ∨ 255 < h.tag) :
    takeRequest h k own s = frameError s := by
  rw [takeRequest, if_pos ((badTag_iff _).2 htag)]

theorem takeRequest_of_tag (own : State → State) (hlow : 1 ≤ h.tag) (hhigh : h.tag ≤ 255) :
    takeRequest h k own s = decideRequest h k own (beginRequest s) := by
  rw [takeRequest, if_neg (fun hbad => by rcases (badTag_iff _).1 hbad with hb | hb <;> omega)]

theorem beginRequest_requests (s : State) : (beginRequest s).hlk.requests = s.hlk.requests :=
  congrArg Kept.requests (beginRequest_kept s)

theorem tagInUse_beginRequest (s : State) (tag : Nat) : tagInUse (beginRequest s) tag = tagInUse s tag := by
  rw [tagInUse, beginRequest_requests, tagInUse]

theorem decideRequest_of_tag_in_use (own : State → State) (huse : tagInUse s h.tag = true) :
    decideRequest h k own (beginRequest s) = replyNow h.tag k .tagInUse (beginRequest s) := by
  rw [decideRequest, if_pos ((tagInUse_beginRequest s _).trans huse)]

theorem decideRequest_of_full (own : State → State) (hfree : tagInUse s h.tag = false)
    (hfull : 8 ≤ s.hlk.requests.length) :
    decideRequest h k own (beginRequest s) = replyNow h.tag k .busy (beginRequest s) := by
  rw [decideRequest, if_neg (by simp [tagInUse_beginRequest, hfree]),
    if_pos (by rw [beginRequest_requests]; exact hfull)]

theorem decideRequest_of_room (own : State → State) (hfree : tagInUse s h.tag = false)
    (hroom : s.hlk.requests.length < 8) :
    decideRequest h k own (beginRequest s) = handRequest h k own (admitted h k s) := by
  rw [decideRequest, if_neg (by simp [tagInUse_beginRequest, hfree]),
    if_neg (by rw [beginRequest_requests]; exact Nat.not_le.2 hroom)]
  rfl

theorem handRequest_of_unfit (own : State → State) (hphase : s.hlk.resetPhase = .none) (hfits : h.fits = false) :
    handRequest h k own (admitted h k s) = reply h.tag k .range .empty (admitted h k s) := by
  rw [handRequest, if_neg (by simp [admitted_phase, hphase]), if_neg (by simp [hfits])]

theorem answeredNow_replyNow (tag : Nat) (k : RequestKind) (r : Result) (s : State) :
    AnsweredNow (replyNow tag k r s) tag k r := .inl (List.mem_append_right _ List.mem_cons_self)

/-- A reply given as the request is taken is the command's. -/
theorem replies_of_taken {c : Instr} {r : Result} {b : ReplyBody} (hc : hostRequest c = some (h, k))
    (hrun : s.running = true) (hans : ∀ own, Answered (takeRequest h k own s) h.tag k r b) :
    Replies c s h.tag k r b := by
  obtain ⟨own, hexec | hexec⟩ := exec_hostRequest hc hrun
  · exact ⟨_, hexec, finish_answered _ _ (hans own)⟩
  · exact ⟨_, hexec, hostPump_answered _ _ (hans own)⟩

theorem repliesNow_of_taken {c : Instr} {r : Result} (hc : hostRequest c = some (h, k)) (hrun : s.running = true)
    (hans : ∀ own, AnsweredNow (takeRequest h k own s) h.tag k r) : RepliesNow c s h.tag k r := by
  obtain ⟨own, hexec | hexec⟩ := exec_hostRequest hc hrun
  · exact ⟨_, hexec, finish_answered _ _ (hans own)⟩
  · exact ⟨_, hexec, hostPump_answered _ _ (hans own)⟩

end Taking

/-- Settles O17: R182's table, each of its lines before the owner. -/
theorem requestsTurnedAway : Obligations.RequestsTurnedAway := by
  unfold Obligations.RequestsTurnedAway
  intro c h k s hc hrun
  refine ⟨fun htag => ?_, fun hlow hhigh huse => ?_, fun hlow hhigh hfree hfull => ?_,
    fun hlow hhigh hfree hroom hphase hfits => ?_⟩
  · obtain ⟨own, hexec⟩ := exec_hostRequest hc hrun
    rwa [takeRequest_of_bad_tag own htag] at hexec
  · refine repliesNow_of_taken hc hrun fun own => ?_
    rw [takeRequest_of_tag own hlow hhigh, decideRequest_of_tag_in_use own huse]
    exact answeredNow_replyNow ..
  · refine repliesNow_of_taken hc hrun fun own => ?_
    rw [takeRequest_of_tag own hlow hhigh, decideRequest_of_full own hfree hfull]
    exact answeredNow_replyNow ..
  · refine replies_of_taken hc hrun fun own => ?_
    rw [takeRequest_of_tag own hlow hhigh, decideRequest_of_room own hfree hroom, handRequest_of_unfit own hphase hfits]
    exact answered_reply ..

/-! ## Requests answered from state alone -/

section Status

variable {s : State} {h : HostHead}

/-- An admitted request is handed to its owner. -/
theorem takeRequest_of_admits (ha : Admits s h) (k : RequestKind) (own : State → State) :
    takeRequest h k own s = own (admitted h k s) := by
  rw [takeRequest_of_tag own ha.tagLow ha.tagHigh, decideRequest_of_room own ha.tagFree ha.room, handRequest,
    if_neg (by simp [admitted_phase, ha.noReset]), if_pos ha.fits]

/-- A status request carries its report as it stands when the request is decided. -/
theorem statusRequest_replies (ha : Admits s h) (k : RequestKind) (body : State → ReplyBody) :
    ∃ t, statusRequest h k body s = .next t ∧ Answered t h.tag k .ok (body (admitted h k s)) := by
  rw [statusRequest, if_pos ha.running]
  dsimp only
  rw [takeRequest_of_admits ha]
  split
  · exact ⟨_, rfl, finish_reply ..⟩
  · exact ⟨_, rfl, hostPump_answered _ _ (answered_reply ..)⟩

/-- An admitted request that is answered by a reply. -/
theorem request_replies (ha : Admits s h) {k : RequestKind} {own : State → State} {r : Result} {b : ReplyBody}
    (hown : own (admitted h k s) = reply h.tag k r b (admitted h k s)) :
    ∃ t, request h k own s = .next t ∧ Answered t h.tag k r b := by
  refine ⟨_, request_admitted h k own s ha, ?_⟩
  rw [hown]
  exact finish_reply ..

/-- A reply given in the course of an admitted request. -/
theorem request_answers (ha : Admits s h) {k : RequestKind} {own : State → State} {r : Result} {b : ReplyBody}
    (hown : Answered (own (admitted h k s)) h.tag k r b) :
    ∃ t, request h k own s = .next t ∧ Answered t h.tag k r b :=
  ⟨_, request_admitted h k own s ha, finish_answered _ _ hown⟩

theorem admitted_tsu (h : HostHead) (k : RequestKind) (s : State) : (admitted h k s).tsu = s.tsu :=
  congrArg Kept.tsu (beginRequest_kept s)

/-- The tills' report reads the tills, the timer and nothing else. -/
theorem tillReport_admitted (h : HostHead) (k : RequestKind) (s : State) :
    ReplyBody.tills ((admitted h k s).tsu.places.map (placeReport (admitted h k s))) (graceLeft (admitted h k s))
      (admitted h k s).tsu.errors = .tills (s.tsu.places.map (placeReport s)) (graceLeft s) s.tsu.errors := by
  have hplace : ∀ p, placeReport (admitted h k s) p = placeReport s p := fun p => by
    simp only [placeReport, admitted_timer]
  simp only [graceLeft, admitted_tsu, admitted_timer, funext hplace]

theorem authStatusReport_admitted (h : HostHead) (k : RequestKind) (s : State) :
    authStatusReport (admitted h k s) = authStatusReport s := by
  simp only [authStatusReport, admitted_auz, admitted_settings, admitted_exposure]

end Status

/-- Settles O18: a status request reports the state that stands once it has begun; where its beginning leaves a block alone, that
block's report is the state's own. -/
theorem statusRequestsAnswered : Obligations.StatusRequestsAnswered := by
  unfold Obligations.StatusRequestsAnswered
  intro h s ha
  refine ⟨statusRequest_replies ha .., statusRequest_replies ha .., ?_, ?_, statusRequest_replies ha ..,
    statusRequest_replies ha .., statusRequest_replies ha .., statusRequest_replies ha .., ?_, statusRequest_replies ha ..⟩
  · rw [← tillReport_admitted h .tillStatus s]
    exact statusRequest_replies ha ..
  · rw [← authStatusReport_admitted h .authStatus s]
    exact statusRequest_replies ha ..
  · rw [← admitted_identity h .identify s]
    exact statusRequest_replies ha .identify fun u => identityBody u.identity

/-! ## Reading requests (R28, R103, R162, R188) -/

/-- Settles O19: each reading request's own range, and the report otherwise. -/
theorem readingRequestsAnswered : Obligations.ReadingRequestsAnswered := by
  unfold Obligations.ReadingRequestsAnswered
  intro h s ha
  refine ⟨fun label hlabel => request_replies ha (if_pos hlabel),
    fun label hlabel => request_replies ha (if_neg (Nat.not_lt.2 hlabel)),
    fun fromSeq count hrange => request_replies ha (if_pos hrange),
    fun fromSeq count hfrom hlow hhigh => request_replies ha (if_neg (by omega)),
    fun start hstart => request_replies ha (if_pos hstart),
    fun start hstart => request_replies ha (if_neg (Nat.not_lt.2 hstart)),
    fun id hid => request_replies ha ?_, fun id x hx => request_replies ha ?_⟩
  · simp only [answerSettingGet, hid]
  · simp only [answerSettingGet, hx, admitted_settings, admitted_lock]

end Sys2Proof.Proofs
end

