-- ==== Sys2Proof/Proofs/ItemRequests.lean ====
section
/-! PROOFS. The host's item requests and PRICE SET: how a request that meets no write of its item is taken at once, and by what the book holds it is decided (R2 to R4, R6 to R9). -/

namespace Sys2Proof.Proofs

open Sys2Proof.Machine Sys2Proof.Safety Sys2Proof.Laws

/-! ## What beginning a request leaves of the book and the labels -/

section Admitted

variable (h : HostHead) (k : RequestKind) (s : State)

@[simp] theorem admitted_findItem (c : Nat) : findItem (admitted h k s) c = findItem s c := by
  rw [findItem, admitted_pbk, findItem]

@[simp] theorem admitted_addWaits (c : Nat) : addWaits (admitted h k s) c = addWaits s c := by
  rw [addWaits, admitted_pbk, addWaits]

@[simp] theorem admitted_queueEntryOf (c : Nat) : queueEntryOf (admitted h k s) c = queueEntryOf s c := by
  rw [queueEntryOf, admitted_pbk, queueEntryOf]

@[simp] theorem admitted_slotOf (c : Nat) : slotOf (admitted h k s) c = slotOf s c := by
  rw [slotOf, admitted_pbk, slotOf]

@[simp] theorem admitted_freeSlot : freeSlot (admitted h k s) = freeSlot s := by
  rw [freeSlot, admitted_pbk, freeSlot]

@[simp] theorem admitted_bookLoad : bookLoad (admitted h k s) = bookLoad s := by
  simp only [bookLoad, admitted_pbk, admitted_nv, admitted_addWaits]

@[simp] theorem admitted_queueCount : queueCount (admitted h k s) = queueCount s := by
  simp only [queueCount, admitted_pbk, admitted_nv, admitted_addWaits, admitted_queueEntryOf]

@[simp] theorem admitted_nextChange : nextChange (admitted h k s) = nextChange s := by
  rw [nextChange, admitted_pbk, nextChange]

@[simp] theorem admitted_label (l : Nat) : (admitted h k s).label l = s.label l := by
  rw [State.label, admitted_labels, State.label]

@[simp] theorem admitted_chargePrice : chargePrice (admitted h k s) = chargePrice s := by
  funext i
  simp only [chargePrice, holdingPrices, labelsOf, admitted_labels]

@[simp] theorem admitted_itemReport (c : Nat) : itemReport (admitted h k s) c = itemReport s c := by
  simp only [itemReport, admitted_findItem, admitted_chargePrice, admitted_slotOf, admitted_queueEntryOf, admitted_pbk]

@[simp] theorem admitted_keys (w : Work) : w.keys (admitted h k s) = w.keys s := by
  cases w <;> simp only [Work.keys, admitted_label]

end Admitted

/-! ## A request that meets no write of its keys (R6, R24) -/

section Taken

variable {s : State} {h : HostHead} {k : RequestKind}

theorem request_work_taken (ha : Admits s h) (k : RequestKind) (w : Work) (hready : Ready s (w.keys s)) :
    ∃ t, request h k (queueWork w) s = .next t ∧ Runs .inner (view (takeWork w (admitted h k s))) (view t) :=
  request_taken h k w s ha hready.none (by rw [admitted_keys]; exact hready.free)

/-- The reply that the judgement gives is the command's. -/
theorem request_work_replies (ha : Admits s h) (w : Work) (hready : Ready s (w.keys s)) {r : Result} {b : ReplyBody}
    (hjudged : takeWork w (admitted h k s) = reply h.tag k r b (admitted h k s)) :
    ∃ t, request h k (queueWork w) s = .next t ∧ Answered t h.tag k r b := by
  obtain ⟨t, hexec, hruns⟩ := request_work_taken ha k w hready
  rw [hjudged] at hruns
  exact ⟨t, hexec, hruns.answeredBy (answered_reply ..)⟩

/-- The write that the judgement starts is under way after the command. -/
theorem request_work_starts (ha : Admits s h) (w : Work) (hready : Ready s (w.keys s)) {x : NvWrite}
    (hjudged : x ∈ (takeWork w (admitted h k s)).nv) :
    ∃ t, request h k (queueWork w) s = .next t ∧ x ∈ t.nv := by
  obtain ⟨t, hexec, hruns⟩ := request_work_taken ha k w hready
  exact ⟨t, hexec, hruns.writeStays hjudged⟩

theorem startWrite_of_free {s : State} (x : NvWrite) (hs : writesStopped s = false) :
    startWrite x s = { s with nv := s.nv ++ [x] } := by
  rw [startWrite, if_neg (by simp [hs])]

theorem queueWrite_of_free {s : State} (o : QueueOp) (hs : writesStopped s = false) :
    queueWrite o s = { s with pbk := { s.pbk with ops := s.pbk.ops ++ [o] } } := by
  rw [queueWrite, if_neg (by simp [hs])]

end Taken

/-! ## Item codes (R196) -/

theorem badCode_iff (item : Nat) : badCode item = true ↔ item = 0 ∨ 4294967295 < item := by
  simp only [badCode, Bool.or_eq_true, beq_iff_eq, decide_eq_true_eq]
  exact Iff.rfl

theorem not_badCode {item : Nat} (hlow : 1 ≤ item) (hhigh : item ≤ 4294967295) : ¬ badCode item = true := by
  rw [badCode_iff]
  omega

/-! ## ITEM GET (R4) -/

section ItemGet

variable {tag item : Nat} {v : State}

theorem takeItemGet_of_bad (hbad : item = 0 ∨ 4294967295 < item) :
    takeItemGet tag item v = reply tag .itemGet .range .empty v :=
  if_pos ((badCode_iff item).2 hbad)

theorem takeItemGet_of_known (hlow : 1 ≤ item) (hhigh : item ≤ 4294967295)
    (hknown : (findItem v item).isSome ∨ addWaits v item = true) :
    takeItemGet tag item v = reply tag .itemGet .ok (.item (itemReport v item)) v := by
  rw [takeItemGet, if_neg (not_badCode hlow hhigh), if_pos hknown]

theorem takeItemGet_of_unknown (hlow : 1 ≤ item) (hhigh : item ≤ 4294967295) (hentry : findItem v item = none)
    (hadd : addWaits v item = false) : takeItemGet tag item v = reply tag .itemGet .unknownItem .empty v := by
  rw [takeItemGet, if_neg (not_badCode hlow hhigh), if_neg (by simp [hentry, hadd])]

end ItemGet

/-- Settles O20: the request waits for its item's writes, and is decided by the book of the moment it is taken. -/
theorem itemGetDecided : Obligations.ItemGetDecided := by
  unfold Obligations.ItemGetDecided
  intro h item s ha
  refine ⟨request_admitted _ _ _ _ ha, fun hready => ⟨fun hbad => ?_, fun hlow hhigh hknown => ?_,
    fun hlow hhigh hentry hadd => ?_⟩, fun v => ⟨takeItemGet_of_bad,
    fun hlow hhigh => ⟨takeItemGet_of_known hlow hhigh, takeItemGet_of_unknown hlow hhigh⟩⟩⟩
  · exact request_work_replies ha (.itemGet h.tag item) hready (takeItemGet_of_bad hbad)
  · rw [← admitted_itemReport h .itemGet s]
    exact request_work_replies ha (.itemGet h.tag item) hready (takeItemGet_of_known hlow hhigh (by simpa using hknown))
  · exact request_work_replies ha (.itemGet h.tag item) hready
      (takeItemGet_of_unknown hlow hhigh (by simpa using hentry) (by simpa using hadd))

/-! ## ITEM ADD (R2) -/

section ItemAdd

variable {tag item price : Nat} {openPrice : Bool} {v : State}

/-- The entry that an accepted ITEM ADD writes. -/
def addedItem (item price : Nat) (openPrice : Bool) : Item :=
  { code := item, price := price, openPrice := openPrice, pending := none, bound := 0 }

theorem takeItemAdd_of_range (hbad : item = 0 ∨ 4294967295 < item ∨ 9999999 < price) :
    takeItemAdd tag item price openPrice v = reply tag .itemAdd .range .empty v := by
  refine if_pos ?_
  rw [badCode_iff, or_assoc]
  exact hbad

theorem takeItemAdd_of_fits (hlow : 1 ≤ item) (hhigh : item ≤ 4294967295) (hprice : price ≤ 9999999) :
    takeItemAdd tag item price openPrice v =
      if (findItem v item).isSome ∨ addWaits v item = true then reply tag .itemAdd .exists_ .empty v
      else if 8192 ≤ bookLoad v then reply tag .itemAdd .bookFull .empty v
      else startWrite (.itemAdd tag (addedItem item price openPrice)) v := by
  refine if_neg ?_
  rintro (hcode | hlarge)
  · exact not_badCode hlow hhigh hcode
  · exact Nat.not_lt.2 hprice hlarge

theorem takeItemAdd_of_exists (hlow : 1 ≤ item) (hhigh : item ≤ 4294967295) (hprice : price ≤ 9999999)
    (hknown : (findItem v item).isSome ∨ addWaits v item = true) :
    takeItemAdd tag item price openPrice v = reply tag .itemAdd .exists_ .empty v := by
  rw [takeItemAdd_of_fits hlow hhigh hprice, if_pos hknown]

theorem takeItemAdd_of_full (hlow : 1 ≤ item) (hhigh : item ≤ 4294967295) (hprice : price ≤ 9999999)
    (hentry : findItem v item = none) (hadd : addWaits v item = false) (hfull : 8192 ≤ bookLoad v) :
    takeItemAdd tag item price openPrice v = reply tag .itemAdd .bookFull .empty v := by
  rw [takeItemAdd_of_fits hlow hhigh hprice, if_neg (by simp [hentry, hadd]), if_pos hfull]

theorem takeItemAdd_of_room (hlow : 1 ≤ item) (hhigh : item ≤ 4294967295) (hprice : price ≤ 9999999)
    (hentry : findItem v item = none) (hadd : addWaits v item = false) (hroom : bookLoad v < 8192)
    (hwrites : writesStopped v = false) : takeItemAdd tag item price openPrice v =
      { v with nv := v.nv ++ [.itemAdd tag (addedItem item price openPrice)] } := by
  rw [takeItemAdd_of_fits hlow hhigh hprice, if_neg (by simp [hentry, hadd]), if_neg (Nat.not_le.2 hroom),
    startWrite_of_free _ hwrites]

end ItemAdd

/-- Settles O21: R2's table in its order, at once or at the state of the moment the request is taken. -/
theorem itemAddDecided : Obligations.ItemAddDecided := by
  unfold Obligations.ItemAddDecided
  intro h item price openPrice s ha
  refine ⟨request_admitted _ _ _ _ ha, fun hready => ⟨fun hbad => ?_, fun hlow hhigh hprice =>
    ⟨fun hknown => ?_, fun hentry hadd hfull => ?_, fun hentry hadd hroom => ?_⟩⟩, fun v r hr => ?_⟩
  · exact request_work_replies ha (.itemAdd h.tag item price openPrice) hready (takeItemAdd_of_range hbad)
  · exact request_work_replies ha (.itemAdd h.tag item price openPrice) hready (takeItemAdd_of_exists hlow hhigh hprice (by simpa using hknown))
  · exact request_work_replies ha (.itemAdd h.tag item price openPrice) hready (takeItemAdd_of_full hlow hhigh hprice (by simpa using hentry)
      (by simpa using hadd) (by simpa using hfull))
  · refine request_work_starts ha (.itemAdd h.tag item price openPrice) hready ?_
    show _ ∈ (takeItemAdd h.tag item price openPrice (admitted h .itemAdd s)).nv
    rw [takeItemAdd_of_room hlow hhigh hprice (by simpa using hentry) (by simpa using hadd) (by simpa using hroom)
      (admits_writes ha _)]
    exact List.mem_append_right _ List.mem_cons_self
  · subst hr
    exact ⟨takeItemAdd_of_range, fun hlow hhigh hprice => ⟨takeItemAdd_of_exists hlow hhigh hprice,
      takeItemAdd_of_full hlow hhigh hprice, takeItemAdd_of_room hlow hhigh hprice⟩⟩

/-! ## ITEM REMOVE (R3) -/

section ItemRemove

variable {tag item : Nat} {v : State}

theorem takeItemRemove_of_bad (hbad : item = 0 ∨ 4294967295 < item) :
    takeItemRemove tag item v = reply tag .itemRemove .range .empty v :=
  if_pos ((badCode_iff item).2 hbad)

theorem takeItemRemove_of_unknown (hlow : 1 ≤ item) (hhigh : item ≤ 4294967295) (hentry : findItem v item = none) :
    takeItemRemove tag item v = reply tag .itemRemove .unknownItem .empty v := by
  rw [takeItemRemove, if_neg (not_badCode hlow hhigh), hentry]

theorem takeItemRemove_of_entry {e : Item} (hlow : 1 ≤ item) (hhigh : item ≤ 4294967295) (he : findItem v item = some e) :
    takeItemRemove tag item v =
      if e.pending.isSome then reply tag .itemRemove .pending .empty v
      else if 0 < e.bound then reply tag .itemRemove .bound .empty v
      else startWrite (.itemRemove tag item) v := by
  rw [takeItemRemove, if_neg (not_badCode hlow hhigh), he]

theorem takeItemRemove_of_free {e : Item} (hlow : 1 ≤ item) (hhigh : item ≤ 4294967295) (he : findItem v item = some e)
    (hpending : e.pending = none) (hbound : e.bound = 0) (hwrites : writesStopped v = false) :
    takeItemRemove tag item v = { v with nv := v.nv ++ [.itemRemove tag item] } := by
  rw [takeItemRemove_of_entry hlow hhigh he, if_neg (by simp [hpending]), if_neg (by omega), startWrite_of_free _ hwrites]

theorem takeItemRemove_of_pending {e : Item} (hlow : 1 ≤ item) (hhigh : item ≤ 4294967295)
    (he : findItem v item = some e) (hpending : e.pending.isSome) :
    takeItemRemove tag item v = reply tag .itemRemove .pending .empty v := by
  rw [takeItemRemove_of_entry hlow hhigh he, if_pos hpending]

theorem takeItemRemove_of_bound {e : Item} (hlow : 1 ≤ item) (hhigh : item ≤ 4294967295)
    (he : findItem v item = some e) (hpending : e.pending = none) (hbound : 0 < e.bound) :
    takeItemRemove tag item v = reply tag .itemRemove .bound .empty v := by
  rw [takeItemRemove_of_entry hlow hhigh he, if_neg (by simp [hpending]), if_pos hbound]

end ItemRemove

/-- Settles O22: R3's table in its order, at once or at the state of the moment the request is taken. -/
theorem itemRemoveDecided : Obligations.ItemRemoveDecided := by
  unfold Obligations.ItemRemoveDecided
  intro h item s ha
  refine ⟨request_admitted _ _ _ _ ha, fun hready => ⟨fun hbad => ?_, fun hlow hhigh hentry => ?_,
    fun e hlow hhigh he => ⟨fun hpending => ?_, fun hpending hbound => ?_, fun hpending hbound => ?_⟩⟩, fun v r hr => ?_⟩
  · exact request_work_replies ha (.itemRemove h.tag item) hready (takeItemRemove_of_bad hbad)
  · exact request_work_replies ha (.itemRemove h.tag item) hready (takeItemRemove_of_unknown hlow hhigh (by simpa using hentry))
  · exact request_work_replies ha (.itemRemove h.tag item) hready (takeItemRemove_of_pending hlow hhigh (by simpa using he) hpending)
  · exact request_work_replies ha (.itemRemove h.tag item) hready (takeItemRemove_of_bound hlow hhigh (by simpa using he) hpending hbound)
  · refine request_work_starts ha (.itemRemove h.tag item) hready ?_
    show _ ∈ (takeItemRemove h.tag item (admitted h .itemRemove s)).nv
    rw [takeItemRemove_of_free hlow hhigh (by simpa using he) hpending hbound (admits_writes ha _)]
    exact List.mem_append_right _ List.mem_cons_self
  · subst hr
    exact ⟨takeItemRemove_of_bad, takeItemRemove_of_unknown, fun e hlow hhigh he =>
      ⟨takeItemRemove_of_pending hlow hhigh he, takeItemRemove_of_bound hlow hhigh he,
        takeItemRemove_of_free hlow hhigh he⟩⟩

end Sys2Proof.Proofs
end

