-- ==== Sys2Proof/Proofs/Changes.lean ====
section
/-! PROOFS. A change that arrives (R7 to R9): the first refusal of R7's table, the route of one that passes, and PRICE SET by them. -/

namespace Sys2Proof.Proofs

open Sys2Proof.Machine Sys2Proof.Safety Sys2Proof.Laws

section Change

variable {s : State} {c : Change}

/-! ## The first refusal (R7) -/

theorem takeChange_of_refusal {r : Result} (hr : changeRefusal s c = some r) :
    takeChange c s = answerChange c.source c.item c.price (.refused r) s := by
  rw [takeChange, hr]

theorem takeChange_of_pass {r : Route} (hr : changeRefusal s c = none) (hroute : routeChange s c = r) :
    takeChange c s = routeTo r c s := by
  rw [takeChange, hr, hroute]

theorem changeRefusal_range (hbad : c.item = 0 ∨ 9999999 < c.price) : changeRefusal s c = some .range :=
  if_pos hbad

/-- A change in range. -/
structure ChangeInRange (c : Change) : Prop where
  item : c.item ≠ 0
  price : c.price ≤ 9999999

theorem ChangeInRange.not_range (hc : ChangeInRange c) : ¬ (c.item = 0 ∨ Config.maxPrice < c.price) := by
  rintro (hitem | hprice)
  · exact hc.item hitem
  · exact Nat.not_lt.2 hc.price hprice

theorem changeRefusal_exists (hc : ChangeInRange c) (hadd : c.add = true)
    (hknown : (findItem s c.item).isSome ∨ addWaits s c.item = true) : changeRefusal s c = some .exists_ := by
  rw [changeRefusal, if_neg hc.not_range, if_pos ⟨hadd, hknown⟩]

theorem changeRefusal_bookFull (hc : ChangeInRange c) (hadd : c.add = true) (hentry : findItem s c.item = none)
    (hwaits : addWaits s c.item = false) (hfull : 8192 ≤ bookLoad s) : changeRefusal s c = some .bookFull := by
  rw [changeRefusal, if_neg hc.not_range, if_neg (by simp [hentry, hwaits]), if_pos ⟨hadd, hfull⟩]

theorem changeRefusal_unknownItem (hc : ChangeInRange c) (hadd : c.add = false) (hentry : findItem s c.item = none)
    (hwaits : addWaits s c.item = false) : changeRefusal s c = some .unknownItem := by
  rw [changeRefusal, if_neg hc.not_range, if_neg (by simp [hadd]), if_neg (by simp [hadd]),
    if_pos ⟨hadd, by simp [hentry], hwaits⟩]

/-- An add of an item the book has room for, or a change of an item it knows: what R7 judges before the queue's room. -/
def ChangeAccepted (s : State) (c : Change) : Prop :=
  c.add = true ∧ findItem s c.item = none ∧ addWaits s c.item = false ∧ bookLoad s < 8192 ∨
    c.add = false ∧ ((findItem s c.item).isSome ∨ addWaits s c.item = true)

theorem changeRefusal_of_accepted (hc : ChangeInRange c) (hacc : ChangeAccepted s c) : changeRefusal s c =
    if routeChange s c = .queue ∧ (queueEntryOf s c.item).isNone ∧ Config.queueCapacity ≤ queueCount s then some .full
    else none := by
  rw [changeRefusal, if_neg hc.not_range]
  rcases hacc with ⟨hadd, hentry, hwaits, hroom⟩ | ⟨hadd, hknown⟩
  · have hload : ¬ Config.bookCapacity ≤ bookLoad s := Nat.not_le.2 hroom
    rw [if_neg (by simp [hentry, hwaits]), if_neg (fun hfull => hload hfull.2), if_neg (by simp [hadd])]
  · rw [if_neg (by simp [hadd]), if_neg (by simp [hadd]), if_neg ?_]
    rintro ⟨-, hnone, hwaits⟩
    rcases hknown with hsome | hadd'
    · rw [Option.isNone_iff_eq_none.1 hnone] at hsome
      cases hsome
    · rw [hwaits] at hadd'
      cases hadd'

/-! ## The route (R8, R9) -/

theorem routeChange_revise (hurgent : c.urgent = true) (hslot : (slotOf s c.item).isSome) :
    routeChange s c = .revise := by
  rw [routeChange, if_neg (by simp [hurgent]), if_pos hslot]

theorem routeChange_issue {i : Nat} (hurgent : c.urgent = true) (hslot : slotOf s c.item = none)
    (hwaits : addWaits s c.item = false) (hfree : freeSlot s = some i) : routeChange s c = .issue i := by
  rw [routeChange, if_neg (by simp [hurgent]), if_neg (by simp [hslot]), if_neg (by simp [hwaits]), hfree]

theorem routeChange_queue (h : c.urgent = false ∨ slotOf s c.item = none ∧ (addWaits s c.item = true ∨ freeSlot s = none)) :
    routeChange s c = .queue := by
  rw [routeChange]
  cases hurgent : c.urgent with
  | false => rfl
  | true =>
    obtain ⟨hslot, hwhy⟩ := h.resolve_left (by simp [hurgent])
    rw [if_neg (by simp), if_neg (by simp [hslot])]
    rcases hwhy with hwaits | hfree
    · rw [if_pos hwaits]
    · rw [hfree]
      exact ite_self _

/-! ## A change that passes -/

theorem changeRefusal_pass (hc : ChangeInRange c) (hacc : ChangeAccepted s c)
    (hroom : routeChange s c = .queue → (queueEntryOf s c.item).isSome ∨ queueCount s < 8192) :
    changeRefusal s c = none := by
  rw [changeRefusal_of_accepted hc hacc, if_neg ?_]
  rintro ⟨hqueue, hnone, hfull⟩
  rcases hroom hqueue with hsome | hroom
  · rw [Option.isNone_iff_eq_none.1 hnone] at hsome
    cases hsome
  · exact Nat.not_le.2 hroom hfull

theorem takeChange_revise (hc : ChangeInRange c) (hacc : ChangeAccepted s c) (hurgent : c.urgent = true)
    (hslot : (slotOf s c.item).isSome) : takeChange c s = reviseChange c s := by
  have hroute := routeChange_revise hurgent hslot
  exact takeChange_of_pass (changeRefusal_pass hc hacc (by simp [hroute])) hroute

theorem takeChange_issue {i : Nat} (hc : ChangeInRange c) (hacc : ChangeAccepted s c) (hurgent : c.urgent = true)
    (hslot : slotOf s c.item = none) (hwaits : addWaits s c.item = false) (hfree : freeSlot s = some i) :
    takeChange c s = issueChange c i s := by
  have hroute := routeChange_issue hurgent hslot hwaits hfree
  exact takeChange_of_pass (changeRefusal_pass hc hacc (by simp [hroute])) hroute

theorem takeChange_queue (hc : ChangeInRange c) (hacc : ChangeAccepted s c)
    (hqueue : c.urgent = false ∨ slotOf s c.item = none ∧ (addWaits s c.item = true ∨ freeSlot s = none))
    (hroom : (queueEntryOf s c.item).isSome ∨ queueCount s < 8192) (hwrites : writesStopped s = false) :
    takeChange c s = { s with pbk := { s.pbk with ops := s.pbk.ops ++
      [{ action := .upsert { item := c.item, price := c.price, origin := c.origin, add := c.add, urgent := c.urgent }
         answer := .queued c.source }] } } :=
  (takeChange_of_pass (changeRefusal_pass hc hacc fun _ => hroom) (routeChange_queue hqueue)).trans
    (queueWrite_of_free _ hwrites)

theorem changeRefusal_full (hc : ChangeInRange c) (hacc : ChangeAccepted s c)
    (hqueue : c.urgent = false ∨ slotOf s c.item = none ∧ (addWaits s c.item = true ∨ freeSlot s = none))
    (hentry : queueEntryOf s c.item = none) (hfull : 8192 ≤ queueCount s) : changeRefusal s c = some .full := by
  rw [changeRefusal_of_accepted hc hacc, if_pos ⟨routeChange_queue hqueue, by simp [hentry], hfull⟩]

/-! ## Issue and revision (R12 to R14) -/

@[simp] theorem takeNumber_writesStopped (s : State) : writesStopped (takeNumber s) = writesStopped s := rfl

@[simp] theorem putSlot_writesStopped (i : Nat) (x : Option Slot) (s : State) :
    writesStopped (putSlot i x s) = writesStopped s := rfl

theorem reviseChange_of_free (hwrites : writesStopped s = false) : reviseChange c s =
    { s with
      nv := s.nv ++ [.pending (pendingWrite c true (nextChange s))]
      pbk := { s.pbk with taken := nextChange s } } :=
  startWrite_of_free _ hwrites

theorem issueChange_of_free {i : Nat} (hwrites : writesStopped s = false) : issueChange c i s =
    { s with
      nv := s.nv ++ [.pending (pendingWrite c false (nextChange s))]
      pbk := { s.pbk with
        taken := nextChange s
        slots := s.pbk.slots.set i (some
          { number := nextChange s, item := c.item, price := c.price, origin := c.origin, urgent := c.urgent
            outstanding := activeLabels s c.item, issueTime := s.clock0, confirmed := 0, unreachable := 0
            stage := .issuing }) } } :=
  startWrite_of_free _ hwrites

end Change

/-! ## PRICE SET (R7 to R9) -/

section PriceSet

variable {s : State} {h : HostHead} {c : Change} {k : RequestKind}

theorem changeAccepted_of_known (hadd : c.add = false) (hknown : (findItem s c.item).isSome ∨ addWaits s c.item = true) :
    ChangeAccepted s c := .inr ⟨hadd, hknown⟩

/-- What R7 judges is not changed by a request's beginning. -/
theorem changeAccepted_admitted (hacc : ChangeAccepted s c) : ChangeAccepted (admitted h k s) c := by
  simpa only [ChangeAccepted, admitted_findItem, admitted_addWaits, admitted_bookLoad] using hacc

/-- A host change that R7 refuses is answered with the refusal. -/
theorem change_refused (ha : Admits s h) (hready : Ready s [.item c.item]) (hsource : c.source = .host h.tag) {r : Result}
    (hr : changeRefusal (admitted h .priceSet s) c = some r) :
    ∃ t, request h .priceSet (queueWork (.change c)) s = .next t ∧ Answered t h.tag .priceSet r .empty := by
  refine request_work_replies ha (.change c) hready ?_
  show takeChange c _ = _
  rw [takeChange_of_refusal hr, hsource]
  rfl

theorem change_starts (ha : Admits s h) (hready : Ready s [.item c.item]) {w : NvWrite}
    (hw : w ∈ (takeChange c (admitted h .priceSet s)).nv) :
    ∃ t, request h .priceSet (queueWork (.change c)) s = .next t ∧ w ∈ t.nv :=
  request_work_starts ha (.change c) hready hw

end PriceSet

/-- Settles O23: PRICE SET is R7 to R9 for the host's change. -/
theorem priceSetDecided : Obligations.PriceSetDecided := by
  unfold Obligations.PriceSetDecided
  intro h item price urgent s c ha hc
  subst hc
  refine ⟨request_admitted _ _ _ _ ha, fun _ => rfl, fun hready => ⟨fun hbad => ?_, fun hitem hprice hentry hwaits => ?_,
    fun hitem hprice hknown => ?_⟩⟩
  · exact change_refused ha hready rfl (changeRefusal_range hbad)
  · have hrange : ChangeInRange ⟨item, price, .hostRequest, urgent, false, .host h.tag⟩ :=
      ⟨Nat.one_le_iff_ne_zero.1 hitem, hprice⟩
    exact change_refused ha hready rfl (changeRefusal_unknownItem hrange rfl (by simpa using hentry) (by simpa using hwaits))
  · have hrange : ChangeInRange ⟨item, price, .hostRequest, urgent, false, .host h.tag⟩ :=
      ⟨Nat.one_le_iff_ne_zero.1 hitem, hprice⟩
    have hacc : ChangeAccepted (admitted h .priceSet s) ⟨item, price, .hostRequest, urgent, false, .host h.tag⟩ :=
      changeAccepted_admitted (changeAccepted_of_known rfl hknown)
    have hwrites := admits_writes ha .priceSet
    refine ⟨fun hurgent hslot => ?_, fun hurgent hslot hwaits hfree => ?_,
      fun hqueue => ⟨fun hroom => ?_, fun hentry hfull => ?_⟩⟩
    · subst hurgent
      refine change_starts ha hready ?_
      rw [takeChange_revise hrange hacc rfl (by simpa using hslot), reviseChange_of_free hwrites, admitted_nextChange]
      exact List.mem_append_right _ List.mem_cons_self
    · subst hurgent
      obtain ⟨i, hi⟩ := Option.isSome_iff_exists.1 hfree
      refine change_starts ha hready ?_
      rw [takeChange_issue (i := i) hrange hacc rfl (by simpa using hslot) (by simpa using hwaits) (by simpa using hi),
        issueChange_of_free hwrites, admitted_nextChange]
      exact List.mem_append_right _ List.mem_cons_self
    · obtain ⟨t, hexec, hruns⟩ := request_work_taken ha .priceSet
        (.change ⟨item, price, .hostRequest, urgent, false, .host h.tag⟩) hready
      refine ⟨t, hexec, hruns.afterEffects.ops.subset ?_⟩
      show _ ∈ (takeChange _ _).pbk.ops
      rw [takeChange_queue hrange hacc (by simpa using hqueue) (by simpa using hroom) hwrites]
      exact List.mem_append_right _ List.mem_cons_self
    · exact change_refused ha hready rfl
        (changeRefusal_full hrange hacc (by simpa using hqueue) (by simpa using hentry) (by simpa using hfull))

end Sys2Proof.Proofs
end

