-- ==== Sys2Proof/Proofs/LabelRequests.lean ====
section
/-! PROOFS. The label table read after a write of an entry, the host's label requests, and HEALTH CLEAR (R24 to R27, R44). -/

namespace Sys2Proof.Proofs

open Sys2Proof.Machine Sys2Proof.Safety Sys2Proof.Laws

/-! ## Reading and writing label entries (R24) -/

section Entries

variable {s : State} {l : Label}

theorem find?_insertLabel_same (l : Label) (t : List Label) : (insertLabel l t).find? (·.id == l.id) = some l := by
  induction t with
  | nil => simp [insertLabel]
  | cons h t ih =>
    rw [insertLabel]
    split
    · simp
    · split
      · simp
      · rw [List.find?_cons_of_neg (by simp; omega), ih]

theorem find?_insertLabel_other {k : Nat} (hk : k ≠ l.id) (t : List Label) :
    (insertLabel l t).find? (·.id == k) = t.find? (·.id == k) := by
  induction t with
  | nil => simp [insertLabel, hk.symm]
  | cons h t ih =>
    rw [insertLabel]
    split
    · exact List.find?_cons_of_neg (by simpa using hk.symm)
    · split
      case isTrue heq =>
        rw [List.find?_cons_of_neg (by simpa using hk.symm), List.find?_cons_of_neg (by simpa [← heq] using hk.symm)]
      case isFalse => rw [List.find?_cons, List.find?_cons, ih]

/-- The label table after a write of an entry; one with every field at its first value is not listed. -/
theorem putLabel_labels (l : Label) (s : State) : (putLabel l s).lrs.labels =
    if l = blankLabel l.id then s.lrs.labels.filter (fun x => x.id != l.id) else insertLabel l s.lrs.labels := rfl

theorem label_putLabel_same (l : Label) (s : State) : (putLabel l s).label l.id = l := by
  rw [State.label, putLabel_labels]
  split
  case isTrue hblank =>
    have hnone : (s.lrs.labels.filter fun x => x.id != l.id).find? (·.id == l.id) = none := by
      rw [List.find?_eq_none]
      intro x hx
      simpa using (List.mem_filter.1 hx).2
    rw [hnone]
    exact hblank.symm
  case isFalse => rw [find?_insertLabel_same, Option.getD_some]

theorem label_putLabel_other {k : Nat} (hk : k ≠ l.id) (s : State) : (putLabel l s).label k = s.label k := by
  rw [State.label, putLabel_labels]
  split
  case isTrue =>
    have hsame : ∀ x : Label, (x.id == k) = true → (x.id != l.id) = true := fun x hx => by
      rw [beq_iff_eq.1 hx]
      simpa using hk
    have hfind : (s.lrs.labels.filter fun x => x.id != l.id).find? (·.id == k) = s.lrs.labels.find? (·.id == k) := by
      rw [List.find?_filter]
      congr 1
      funext x
      cases hx : x.id == k with
      | false => simp
      | true => simp [hsame x hx]
    rw [hfind, State.label]
  case isFalse => rw [find?_insertLabel_other hk, State.label]

theorem label_id (s : State) (k : Nat) : (s.label k).id = k := by
  rw [State.label]
  cases hfind : s.lrs.labels.find? fun l => l.id == k with
  | none => rfl
  | some l => simpa using List.find?_some hfind

theorem mem_insertKeyed_self {α : Type} {key : α → Nat} (a : α) (t : List α) : a ∈ insertKeyed key a t := by
  induction t with
  | nil => exact List.mem_cons_self
  | cons h t ih =>
    rw [insertKeyed]
    split
    · exact List.mem_cons_self
    · split
      · exact List.mem_cons_self
      · exact List.mem_cons_of_mem _ ih

/-- A keyed label table. -/
def LabelsKeyed (s : State) : Prop := (s.lrs.labels.map (·.id)).Pairwise (· < ·)

theorem labelsKeyed_putLabel (l : Label) (hs : LabelsKeyed s) : LabelsKeyed (putLabel l s) := by
  rw [LabelsKeyed, putLabel_labels]
  split
  · exact List.Pairwise.sublist (List.filter_sublist.map _) hs
  · exact insertLabel_sorted l hs

theorem labelsKeyed_eq_of_id (hs : LabelsKeyed s) {a b : Label} (ha : a ∈ s.lrs.labels) (hb : b ∈ s.lrs.labels)
    (hid : a.id = b.id) : a = b :=
  eq_of_map_nodup (hs.imp fun h => Nat.ne_of_lt h) ha hb hid

/-- An entry listed after a write is the one written, or another label's as it was. -/
theorem mem_putLabel (hs : LabelsKeyed s) {x : Label} (hx : x ∈ (putLabel l s).lrs.labels) :
    x = l ∨ x ∈ s.lrs.labels ∧ x.id ≠ l.id := by
  have hkeyed := labelsKeyed_putLabel l hs
  by_cases hid : x.id = l.id
  · refine .inl ?_
    rw [putLabel_labels] at hx
    split at hx
    · exact absurd hid (by simpa using (List.mem_filter.1 hx).2)
    · case isFalse hnot =>
      refine labelsKeyed_eq_of_id hkeyed ?_ ?_ hid <;> rw [putLabel_labels, if_neg hnot]
      · exact hx
      · rw [insertLabel_eq_insertKeyed]
        exact mem_insertKeyed_self ..
  · rw [putLabel_labels] at hx
    split at hx
    · exact .inr ⟨(List.mem_filter.1 hx).1, hid⟩
    · rw [insertLabel_eq_insertKeyed] at hx
      exact (mem_insertKeyed hx).imp_right fun hmem => ⟨hmem, hid⟩

end Entries

/-! ## LABEL BIND, LABEL UNBIND and LABEL RETRY (R25 to R27) -/

section Requests

variable {tag label item : Nat} {v : State}

theorem not_maxLabel_lt (hlabel : label ≤ 4095) : ¬ Config.maxLabel < label := Nat.not_lt.2 hlabel

theorem takeBind_of_range (hbad : 4095 < label ∨ item = 0) :
    takeBind tag label item v = reply tag .labelBind .range .empty v := if_pos hbad

theorem takeBind_of_fits (hlabel : label ≤ 4095) (hitem : 1 ≤ item) : takeBind tag label item v =
    if (v.label label).state ≠ .unbound then reply tag .labelBind .bound .empty v
    else if (findItem v item).isNone then reply tag .labelBind .unknownItem .empty v
    else startWrite (.bind tag label item) v := by
  refine if_neg ?_
  rintro (hbad | hbad)
  · exact Nat.not_lt.2 hlabel hbad
  · omega

theorem takeBind_of_bound (hlabel : label ≤ 4095) (hitem : 1 ≤ item) (hstate : (v.label label).state ≠ .unbound) :
    takeBind tag label item v = reply tag .labelBind .bound .empty v := by
  rw [takeBind_of_fits hlabel hitem, if_pos hstate]

theorem takeBind_of_unknown (hlabel : label ≤ 4095) (hitem : 1 ≤ item) (hstate : (v.label label).state = .unbound)
    (hentry : findItem v item = none) : takeBind tag label item v = reply tag .labelBind .unknownItem .empty v := by
  rw [takeBind_of_fits hlabel hitem, if_neg (not_not_intro hstate), if_pos (by simp [hentry])]

theorem takeBind_of_accepted (hlabel : label ≤ 4095) (hitem : 1 ≤ item) (hstate : (v.label label).state = .unbound)
    (hentry : (findItem v item).isSome) (hwrites : writesStopped v = false) :
    takeBind tag label item v = { v with nv := v.nv ++ [.bind tag label item] } := by
  rw [takeBind_of_fits hlabel hitem, if_neg (not_not_intro hstate), if_neg (by simp [Option.isSome_iff_ne_none.1 hentry]),
    startWrite_of_free _ hwrites]

theorem takeUnbind_of_range (hbad : 4095 < label) : takeUnbind tag label v = reply tag .labelUnbind .range .empty v :=
  if_pos hbad

theorem takeUnbind_of_unbound (hlabel : label ≤ 4095) (hitem : (v.label label).item = none) :
    takeUnbind tag label v = reply tag .labelUnbind .state .empty v := by
  rw [takeUnbind, if_neg (not_maxLabel_lt hlabel), hitem]

theorem takeUnbind_of_bound (hlabel : label ≤ 4095) (hitem : (v.label label).item = some item)
    (hwrites : writesStopped v = false) : takeUnbind tag label v =
      { v with
        nv := v.nv ++ [.unbind tag label item]
        lrs := { v.lrs with
          inFlight := v.lrs.inFlight.map fun t => if t.label = label then { t with unboundMark := true } else t } } := by
  rw [takeUnbind, if_neg (not_maxLabel_lt hlabel), hitem]
  exact startWrite_of_free _ hwrites

theorem takeRetry_of_range (hbad : 4095 < label) : takeRetry tag label v = reply tag .labelRetry .range .empty v :=
  if_pos hbad

theorem takeRetry_of_state (hlabel : label ≤ 4095) (hstate : (v.label label).state ≠ .unreachable) :
    takeRetry tag label v = reply tag .labelRetry .state .empty v := by
  rw [takeRetry, if_neg (not_maxLabel_lt hlabel), if_pos hstate]

theorem takeRetry_of_unreachable (hlabel : label ≤ 4095) (hstate : (v.label label).state = .unreachable)
    (hwrites : writesStopped v = false) : takeRetry tag label v = { v with nv := v.nv ++ [.retry tag label] } := by
  rw [takeRetry, if_neg (not_maxLabel_lt hlabel), if_neg (not_not_intro hstate), startWrite_of_free _ hwrites]

end Requests

section Decided

variable {s : State} {h : HostHead} {label item : Nat}

theorem labelBind_decided (ha : Admits s h) (hready : Ready s [.label label, .item item]) :
    (4095 < label ∨ item = 0 → Replies (.labelBind h label item) s h.tag .labelBind .range .empty) ∧
    (label ≤ 4095 → 1 ≤ item →
      ((s.label label).state ≠ .unbound → Replies (.labelBind h label item) s h.tag .labelBind .bound .empty) ∧
      ((s.label label).state = .unbound → (findItem s item).isNone →
        Replies (.labelBind h label item) s h.tag .labelBind .unknownItem .empty) ∧
      ((s.label label).state = .unbound → (findItem s item).isSome →
        Starts (.labelBind h label item) s (.bind h.tag label item))) := by
  refine ⟨fun hbad => request_work_replies ha (.bind h.tag label item) hready (takeBind_of_range hbad),
    fun hlabel hitem => ⟨fun hstate => ?_, fun hstate hentry => ?_, fun hstate hentry => ?_⟩⟩
  · exact request_work_replies ha (.bind h.tag label item) hready (takeBind_of_bound hlabel hitem (by simpa using hstate))
  · exact request_work_replies ha (.bind h.tag label item) hready
      (takeBind_of_unknown hlabel hitem (by simpa using hstate) (by simpa using hentry))
  · refine request_work_starts ha (.bind h.tag label item) hready ?_
    show _ ∈ (takeBind h.tag label item _).nv
    rw [takeBind_of_accepted hlabel hitem (by simpa using hstate) (by simpa using hentry) (admits_writes ha _)]
    exact List.mem_append_right _ List.mem_cons_self

theorem labelUnbind_decided (ha : Admits s h) (hready : Ready s ((Work.unbind h.tag label).keys s)) :
    (4095 < label → Replies (.labelUnbind h label) s h.tag .labelUnbind .range .empty) ∧
    (label ≤ 4095 → (s.label label).item = none →
      Replies (.labelUnbind h label) s h.tag .labelUnbind .state .empty) ∧
    (label ≤ 4095 → (s.label label).item = some item →
      Starts (.labelUnbind h label) s (.unbind h.tag label item)) := by
  refine ⟨fun hbad => request_work_replies ha (.unbind h.tag label) hready (takeUnbind_of_range hbad),
    fun hlabel hitem => ?_, fun hlabel hitem => ?_⟩
  · exact request_work_replies ha (.unbind h.tag label) hready (takeUnbind_of_unbound hlabel (by simpa using hitem))
  · refine request_work_starts ha (.unbind h.tag label) hready ?_
    show _ ∈ (takeUnbind h.tag label _).nv
    rw [takeUnbind_of_bound hlabel (by simpa using hitem) (admits_writes ha _)]
    exact List.mem_append_right _ List.mem_cons_self

theorem labelRetry_decided (ha : Admits s h) (hready : Ready s [.label label]) :
    (4095 < label → Replies (.labelRetry h label) s h.tag .labelRetry .range .empty) ∧
    (label ≤ 4095 → (s.label label).state ≠ .unreachable →
      Replies (.labelRetry h label) s h.tag .labelRetry .state .empty) ∧
    (label ≤ 4095 → (s.label label).state = .unreachable → Starts (.labelRetry h label) s (.retry h.tag label)) := by
  refine ⟨fun hbad => request_work_replies ha (.retry h.tag label) hready (takeRetry_of_range hbad),
    fun hlabel hstate => ?_, fun hlabel hstate => ?_⟩
  · exact request_work_replies ha (.retry h.tag label) hready (takeRetry_of_state hlabel (by simpa using hstate))
  · refine request_work_starts ha (.retry h.tag label) hready ?_
    show _ ∈ (takeRetry h.tag label _).nv
    rw [takeRetry_of_unreachable hlabel (by simpa using hstate) (admits_writes ha _)]
    exact List.mem_append_right _ List.mem_cons_self

end Decided

/-- Settles O24: each request waits for its label's writes, and is judged by the state of the moment it is taken. -/
theorem labelRequestsDecided : Obligations.LabelRequestsDecided := by
  unfold Obligations.LabelRequestsDecided
  intro h label item s ha
  refine ⟨request_admitted _ _ _ _ ha, request_admitted _ _ _ _ ha, request_admitted _ _ _ _ ha, fun v r hr => ?_,
    fun v r hr => ?_, fun v r hr => ?_, labelBind_decided ha, labelUnbind_decided ha, labelRetry_decided ha⟩
  · subst hr
    exact ⟨takeBind_of_range, fun hlabel hitem => ⟨takeBind_of_bound hlabel hitem, takeBind_of_unknown hlabel hitem,
      takeBind_of_accepted hlabel hitem⟩⟩
  · subst hr
    exact ⟨takeUnbind_of_range, takeUnbind_of_unbound, fun i => takeUnbind_of_bound⟩
  · subst hr
    exact ⟨takeRetry_of_range, takeRetry_of_state, takeRetry_of_unreachable⟩

/-! ## HEALTH CLEAR (R44) -/

section HealthClear

variable {s t : State}

/-- Entries that agree but for their failed attempts are read alike but for them. -/
theorem unfailed_label_of_map (h : t.lrs.labels.map unfailed = s.lrs.labels.map unfailed) (k : Nat) :
    unfailed (t.label k) = unfailed (s.label k) := by
  have hread : ∀ u : State, unfailed (u.label k) =
      ((u.lrs.labels.map unfailed).find? fun l => l.id == k).getD (blankLabel k) := fun u => by
    rw [List.find?_map]
    show unfailed ((u.lrs.labels.find? fun l => l.id == k).getD _) =
      ((u.lrs.labels.find? fun l => l.id == k).map unfailed).getD _
    generalize u.lrs.labels.find? (fun l => l.id == k) = found
    cases found <;> rfl
  rw [hread, hread, h]

theorem health_of_unfailed {a b : Label} (h : unfailed a = unfailed b) : a.health = b.health :=
  (congrArg Label.health h : (unfailed a).health = (unfailed b).health)

theorem finish_labels_of_keyed (hs : LabelsKeyed s) :
    (finish s).lrs.labels.map unfailed = s.lrs.labels.map unfailed :=
  runs_keeps_labels (fun _ _ => move_inner_labels) (finish_runs s .refl) hs

theorem finish_label_health (hs : LabelsKeyed s) (k : Nat) : ((finish s).label k).health = (s.label k).health :=
  health_of_unfailed (unfailed_label_of_map (finish_labels_of_keyed hs) k)

theorem finish_health_clear (hs : LabelsKeyed s) (hclear : ∀ l ∈ s.lrs.labels, l.health = false) :
    ∀ l ∈ (finish s).lrs.labels, l.health = false := by
  intro l hl
  have hmem : unfailed l ∈ s.lrs.labels.map unfailed :=
    finish_labels_of_keyed hs ▸ List.mem_map.2 ⟨l, hl, rfl⟩
  obtain ⟨m, hm, hml⟩ := List.mem_map.1 hmem
  exact (health_of_unfailed hml).symm.trans (hclear m hm)

/-- The flags of the labels passed are clear, and those not passed are of labels still to come. -/
theorem clearHealth_fold (ids : List Nat) {u : State} (hu : LabelsKeyed u)
    (hrest : ∀ l ∈ u.lrs.labels, l.health = false ∨ l.id ∈ ids) :
    LabelsKeyed (ids.foldl (fun x id => putLabel { x.label id with health := false } x) u) ∧
    ∀ l ∈ (ids.foldl (fun x id => putLabel { x.label id with health := false } x) u).lrs.labels, l.health = false := by
  induction ids generalizing u with
  | nil => exact ⟨hu, fun l hl => (hrest l hl).resolve_right List.not_mem_nil⟩
  | cons id ids ih =>
    refine ih (labelsKeyed_putLabel _ hu) fun l hl => ?_
    rcases mem_putLabel hu hl with rfl | ⟨hmem, hid⟩
    · exact .inl rfl
    · refine (hrest l hmem).imp_right fun hin => (List.mem_cons.1 hin).resolve_left ?_
      rintro rfl
      exact hid (label_id u l.id).symm

theorem clearHealth_all (hs : LabelsKeyed s) : LabelsKeyed (clearHealth none s) ∧
    ∀ l ∈ (clearHealth none s).lrs.labels, l.health = false :=
  clearHealth_fold _ hs fun _ hl => .inr (List.mem_map_of_mem hl)

theorem clearHealth_one_same (s : State) (k : Nat) : ((clearHealth (some k) s).label k).health = false := by
  have hsame := label_putLabel_same { s.label k with health := false } s
  have hid : ({ s.label k with health := false } : Label).id = k := label_id s k
  rw [hid] at hsame
  show ((putLabel { s.label k with health := false } s).label k).health = false
  rw [hsame]

theorem clearHealth_one_other {j k : Nat} (hj : j ≠ k) (s : State) : (clearHealth (some k) s).label j = s.label j := by
  have hid : ({ s.label k with health := false } : Label).id = k := label_id s k
  exact label_putLabel_other (by rw [hid]; exact hj) s

end HealthClear

/-- Settles O28: the flag of one label, or every flag, is cleared at once, and after-effects leave the flags alone. -/
theorem healthClearDecided : Obligations.HealthClearDecided := by
  unfold Obligations.HealthClearDecided
  intro h s ha hkeyed
  have hlabels : LabelsKeyed (admitted h .healthClear s) := by
    rw [LabelsKeyed, admitted_labels]
    exact hkeyed.labels
  refine ⟨fun label hlabel => request_replies ha (if_pos hlabel), fun label hlabel => ?_, ?_⟩
  · have hown : answerHealthClear h.tag (some label) (admitted h .healthClear s) =
        reply h.tag .healthClear .ok .empty (clearHealth (some label) (admitted h .healthClear s)) :=
      if_neg (Nat.not_lt.2 hlabel)
    have hkept : LabelsKeyed (reply h.tag .healthClear .ok .empty
        (clearHealth (some label) (admitted h .healthClear s))) := labelsKeyed_putLabel _ hlabels
    refine ⟨_, request_admitted h .healthClear _ s ha, ?_, ?_, fun k hk => ?_⟩ <;> rw [hown]
    · exact finish_reply ..
    · exact (finish_label_health hkept label).trans (clearHealth_one_same _ label)
    · refine (finish_label_health hkept k).trans ?_
      show ((clearHealth (some label) (admitted h .healthClear s)).label k).health = _
      rw [clearHealth_one_other hk, admitted_label]
  · obtain ⟨hkept, hclear⟩ := clearHealth_all hlabels
    exact ⟨_, request_admitted h .healthClear _ s ha, finish_reply .., finish_health_clear hkept hclear⟩

end Sys2Proof.Proofs
end

