-- ==== Sys2Proof/Proofs/LinkRequests.lean ====
section
/-! PROOFS. The host link's own requests: SETTING SET, BRANCH SET, LOCK, RESET and FORWARD (R123, R188, R189, R191, R192, R194). -/

namespace Sys2Proof.Proofs

open Sys2Proof.Machine Sys2Proof.Safety Sys2Proof.Laws

/-! ## SETTING SET (R188, R189) -/

theorem takeSetting_of_unknown {s : State} {id tag : Nat} (v : SettingValue) (hid : settingTarget id = none) :
    takeSetting id v (.host tag) s = reply tag .settingSet .range .empty s := by
  rw [takeSetting, hid]
  rfl

/-- Settles O25: the judgement of a setting message that comes from the host, at once or when its turn comes. -/
theorem settingSetDecided : Obligations.SettingSetDecided := by
  unfold Obligations.SettingSetDecided
  intro h id v s ha
  refine ⟨request_admitted _ _ _ _ ha, fun hready => ⟨fun hid => ?_, fun x hx => ⟨settingSet_locked ha hready hx,
    settingSet_of_not_locked ha hready hx⟩⟩, fun u r hr => ?_⟩
  · exact settingSet_replies ha hready (takeSetting_of_unknown v hid)
  · subst hr
    refine ⟨takeSetting_of_unknown v, fun x hx => ⟨takeSetting_of_locked hx, fun hfree => ?_⟩⟩
    show (_ → takeSetting id v (.host h.tag) u = _) ∧ (_ → _ → takeSetting id v (.host h.tag) u = _) ∧
      (_ → _ → _ → takeSetting id v (.host h.tag) u = _)
    rw [takeSetting_of_not_locked hx hfree]
    refine ⟨fun hrange => if_pos hrange, fun htakes hheld => ?_, fun htakes hheld hwrites => ?_⟩
    · rw [if_neg (by simp [htakes]), if_pos hheld]
    · rw [if_neg (by simp [htakes]), if_neg hheld, startWrite_of_free _ hwrites]

/-! ## BRANCH SET (R191) -/

theorem branchTaken_admitted (h : HostHead) (k : RequestKind) (s : State) :
    branchTaken (admitted h k s) = branchTaken s := by
  rw [branchTaken, admitted_identity, admitted_writeKeys, branchTaken]

theorem answerBranchSet_of_fits {tag number : Nat} {s : State} (hlow : 1 ≤ number) (hhigh : number ≤ 65535) :
    answerBranchSet tag number s =
      if branchTaken s then reply tag .branchSet .alreadySet .empty s else startWrite (.branch tag number) s := by
  refine if_neg ?_
  rintro (hbad | hbad)
  · omega
  · exact Nat.not_lt.2 hhigh hbad

/-- Settles O26: R191's table. -/
theorem branchSetDecided : Obligations.BranchSetDecided := by
  unfold Obligations.BranchSetDecided
  intro h number s ha
  refine ⟨fun hbad => request_replies ha (if_pos hbad), fun hlow hhigh htaken => request_replies ha ?_,
    fun hlow hhigh hfree => ?_⟩
  · rw [answerBranchSet_of_fits hlow hhigh, branchTaken_admitted, if_pos htaken]
  · refine ⟨_, request_admitted _ _ _ _ ha, (finish_after _).nv.subset ?_⟩
    show _ ∈ (answerBranchSet h.tag number (admitted h .branchSet s)).nv
    rw [answerBranchSet_of_fits hlow hhigh, branchTaken_admitted, if_neg (by simp [hfree])]
    exact startWrite_mem _ _ (admits_writes ha _)

/-! ## LOCK and RESET (R189, R194) -/

/-- Settles O34. -/
theorem lockAndResetTaken : Obligations.LockAndResetTaken := by
  unfold Obligations.LockAndResetTaken
  intro h s u ha
  refine ⟨exec_lock_sets_lock ha, fun hu => ?_⟩
  subst hu
  exact request_admitted _ _ _ _ ha

/-! ## FORWARD (R123, R192) -/

section Forward

variable {u : State} {tag dest : Nat} {wanted : Bool} {payload : List Byte}

theorem answerForward_of_fits (hdest : dest ≤ 4294967295) (hlen : payload.length ≤ 1000) :
    answerForward tag dest wanted payload u =
      match forwardResult u dest with
      | .ok => reply tag .forward .ok (.forwardNumber (nextIn 1 65535 u.ulc.lastForward))
          (joinOffice (nextIn 1 65535 u.ulc.lastForward) dest wanted payload u)
      | r => reply tag .forward r .empty u := by
  unfold answerForward
  rw [if_neg ?_]
  · rfl
  · rintro (hbad | hbad)
    · exact Nat.not_lt.2 hlen hbad
    · exact Nat.not_lt.2 hdest hbad

theorem forwardResult_of_blocked {w : Window} (hw : firstWindow u.settings.windows false dest = some w)
    (hscope : w.scope = .blocked) : forwardResult u dest = .blocked := by
  rw [forwardResult, hw]
  exact if_pos hscope

theorem forwardResult_of_open
    (hopen : ∀ w, firstWindow u.settings.windows false dest = some w → w.scope ≠ .blocked) :
    forwardResult u dest = if u.ulc.officeQ.length < 32 then .ok else .busy := by
  unfold forwardResult
  split
  case h_1 w hw => exact if_neg (hopen w hw)
  case h_2 => rfl

end Forward

/-- Settles O35: R123's order, at the state in which the request is decided. -/
theorem forwardDecided : Obligations.ForwardDecided := by
  unfold Obligations.ForwardDecided
  intro h dest wanted payload s u ha hu hdest
  subst hu
  have hwindows : (admitted h .forward s).settings.windows = s.settings.windows := by rw [admitted_settings]
  refine ⟨fun hlong => request_replies ha (if_pos (.inl hlong)), fun hlen => ⟨fun w hw hscope => ?_, fun hopen =>
    ⟨fun hfull => ?_, fun hroom => ?_⟩⟩⟩
  · refine request_replies ha ?_
    rw [answerForward_of_fits hdest hlen, forwardResult_of_blocked (hwindows ▸ hw) hscope]
  · refine request_replies ha ?_
    rw [answerForward_of_fits hdest hlen, forwardResult_of_open (hwindows ▸ hopen), if_neg (Nat.not_lt.2 hfull)]
  · refine (request_admitted _ _ _ _ ha).trans ?_
    rw [answerForward_of_fits hdest hlen, forwardResult_of_open (hwindows ▸ hopen), if_pos hroom]
    rfl

end Sys2Proof.Proofs
end

