-- ==== Sys2Proof/Proofs/Untouched.lean ====
section
/-! PROOFS. What the shared operations leave unchanged: a notice, the end of sessions, the guest service's decision and the end of a run touch some blocks and no other. -/

namespace Sys2Proof.Proofs

open Sys2Proof.Machine Sys2Proof.Safety Sys2Proof.Laws

/-! ## A notice touches the host link -/

theorem notify_touches (b : NoticeBody) (s : State) : ∃ h, notify b s = { s with hlk := h } := by
  unfold notify joinNotice
  split
  · exact ⟨_, rfl⟩
  · split <;> exact ⟨_, rfl⟩

@[simp] theorem notify_pending (b : NoticeBody) (s : State) : (notify b s).pending = s.pending := by
  obtain ⟨h, heq⟩ := notify_touches b s
  rw [heq]
@[simp] theorem notify_out (b : NoticeBody) (s : State) : (notify b s).out = s.out := by
  obtain ⟨h, heq⟩ := notify_touches b s
  rw [heq]
@[simp] theorem notify_timer (b : NoticeBody) (s : State) : (notify b s).timer = s.timer := by
  obtain ⟨h, heq⟩ := notify_touches b s
  rw [heq]
@[simp] theorem notify_settings (b : NoticeBody) (s : State) : (notify b s).settings = s.settings := by
  obtain ⟨h, heq⟩ := notify_touches b s
  rw [heq]
@[simp] theorem notify_identity (b : NoticeBody) (s : State) : (notify b s).identity = s.identity := by
  obtain ⟨h, heq⟩ := notify_touches b s
  rw [heq]
@[simp] theorem notify_nv (b : NoticeBody) (s : State) : (notify b s).nv = s.nv := by
  obtain ⟨h, heq⟩ := notify_touches b s
  rw [heq]
@[simp] theorem notify_waiting (b : NoticeBody) (s : State) : (notify b s).waiting = s.waiting := by
  obtain ⟨h, heq⟩ := notify_touches b s
  rw [heq]
@[simp] theorem notify_pbk (b : NoticeBody) (s : State) : (notify b s).pbk = s.pbk := by
  obtain ⟨h, heq⟩ := notify_touches b s
  rw [heq]
@[simp] theorem notify_lrs (b : NoticeBody) (s : State) : (notify b s).lrs = s.lrs := by
  obtain ⟨h, heq⟩ := notify_touches b s
  rw [heq]
@[simp] theorem notify_tsu (b : NoticeBody) (s : State) : (notify b s).tsu = s.tsu := by
  obtain ⟨h, heq⟩ := notify_touches b s
  rw [heq]
@[simp] theorem notify_auz (b : NoticeBody) (s : State) : (notify b s).auz = s.auz := by
  obtain ⟨h, heq⟩ := notify_touches b s
  rw [heq]
@[simp] theorem notify_sjr (b : NoticeBody) (s : State) : (notify b s).sjr = s.sjr := by
  obtain ⟨h, heq⟩ := notify_touches b s
  rw [heq]
@[simp] theorem notify_ulc (b : NoticeBody) (s : State) : (notify b s).ulc = s.ulc := by
  obtain ⟨h, heq⟩ := notify_touches b s
  rw [heq]
@[simp] theorem notify_txe (b : NoticeBody) (s : State) : (notify b s).txe = s.txe := by
  obtain ⟨h, heq⟩ := notify_touches b s
  rw [heq]
@[simp] theorem notify_gac (b : NoticeBody) (s : State) : (notify b s).gac = s.gac := by
  obtain ⟨h, heq⟩ := notify_touches b s
  rw [heq]

/-! ## The end of sessions touches guest access -/

theorem endSession_touches (i : Nat) (r : EndReason) (s : State) :
    ∃ g o, endSession i r s = { s with gac := g, out := o } := by
  unfold endSession
  split
  · exact ⟨_, _, rfl⟩
  · by_cases hr : r.spends = true
    · rw [if_pos hr]
      exact ⟨_, _, rfl⟩
    · rw [if_neg hr]
      exact ⟨_, _, rfl⟩

theorem foldl_endSession_touches (r : EndReason) (l : List Nat) (s : State) :
    ∃ g o, l.foldl (fun t i => endSession i r t) s = { s with gac := g, out := o } := by
  induction l generalizing s with
  | nil => exact ⟨_, _, rfl⟩
  | cons i l ih =>
    obtain ⟨g, o, hone⟩ := endSession_touches i r s
    obtain ⟨g', o', hrest⟩ := ih (endSession i r s)
    rw [List.foldl_cons, hrest, hone]
    exact ⟨_, _, rfl⟩

theorem endAllSessions_touches (r : EndReason) (s : State) :
    ∃ g o, endAllSessions r s = { s with gac := g, out := o } := foldl_endSession_touches ..

/-! ## The guest service's decision -/

theorem enterService_touches (old new : Service) (s : State) :
    ∃ q g o, enterService old new s = { s with ulc := { s.ulc with guestQ := q }, gac := g, out := o } := by
  have hempty : ∃ q g, s.when (old == .opened) emptyGuestQueue = { s with ulc := { s.ulc with guestQ := q }, gac := g } := by
    unfold State.when
    split <;> exact ⟨_, _, rfl⟩
  have hend : ∀ v : State, ∃ g o, v.when (new == .closed) (endAllSessions .close) = { v with gac := g, out := o } := fun v => by
    unfold State.when
    split
    · exact endAllSessions_touches ..
    · exact ⟨_, _, rfl⟩
  obtain ⟨q, g, hempty⟩ := hempty
  obtain ⟨g', o', hend⟩ := hend (s.when (old == .opened) emptyGuestQueue)
  rw [enterService]
  simp only [hend]
  rw [hempty]
  exact ⟨_, _, _, rfl⟩

theorem guestDecide_touches (s : State) :
    ∃ q g o h, guestDecide s = { s with ulc := { s.ulc with guestQ := q }, gac := g, out := o, hlk := h } := by
  unfold guestDecide
  dsimp only
  split
  · exact ⟨_, _, _, _, rfl⟩
  · obtain ⟨q, g, o, henter⟩ := enterService_touches s.gac.service (serviceDecided s) s
    rw [henter]
    obtain ⟨h, hnotify⟩ := notify_touches _ { s with ulc := { s.ulc with guestQ := q }, gac := g, out := o }
    rw [hnotify]
    exact ⟨_, _, _, _, rfl⟩

@[simp] theorem guestDecide_pending (s : State) : (guestDecide s).pending = s.pending := by
  obtain ⟨q, g, o, h, heq⟩ := guestDecide_touches s
  rw [heq]
@[simp] theorem guestDecide_timer (s : State) : (guestDecide s).timer = s.timer := by
  obtain ⟨q, g, o, h, heq⟩ := guestDecide_touches s
  rw [heq]
@[simp] theorem guestDecide_settings (s : State) : (guestDecide s).settings = s.settings := by
  obtain ⟨q, g, o, h, heq⟩ := guestDecide_touches s
  rw [heq]
@[simp] theorem guestDecide_identity (s : State) : (guestDecide s).identity = s.identity := by
  obtain ⟨q, g, o, h, heq⟩ := guestDecide_touches s
  rw [heq]
@[simp] theorem guestDecide_nv (s : State) : (guestDecide s).nv = s.nv := by
  obtain ⟨q, g, o, h, heq⟩ := guestDecide_touches s
  rw [heq]
@[simp] theorem guestDecide_waiting (s : State) : (guestDecide s).waiting = s.waiting := by
  obtain ⟨q, g, o, h, heq⟩ := guestDecide_touches s
  rw [heq]
@[simp] theorem guestDecide_pbk (s : State) : (guestDecide s).pbk = s.pbk := by
  obtain ⟨q, g, o, h, heq⟩ := guestDecide_touches s
  rw [heq]
@[simp] theorem guestDecide_lrs (s : State) : (guestDecide s).lrs = s.lrs := by
  obtain ⟨q, g, o, h, heq⟩ := guestDecide_touches s
  rw [heq]
@[simp] theorem guestDecide_tsu (s : State) : (guestDecide s).tsu = s.tsu := by
  obtain ⟨q, g, o, h, heq⟩ := guestDecide_touches s
  rw [heq]
@[simp] theorem guestDecide_auz (s : State) : (guestDecide s).auz = s.auz := by
  obtain ⟨q, g, o, h, heq⟩ := guestDecide_touches s
  rw [heq]
@[simp] theorem guestDecide_sjr (s : State) : (guestDecide s).sjr = s.sjr := by
  obtain ⟨q, g, o, h, heq⟩ := guestDecide_touches s
  rw [heq]
@[simp] theorem guestDecide_txe (s : State) : (guestDecide s).txe = s.txe := by
  obtain ⟨q, g, o, h, heq⟩ := guestDecide_touches s
  rw [heq]
@[simp] theorem guestDecide_day (s : State) : (guestDecide s).day = s.day := by
  obtain ⟨q, g, o, h, heq⟩ := guestDecide_touches s
  rw [heq]

/-! ## The end of a run -/

theorem abortBatch_touches (s : State) :
    ∃ q j x, abortBatch s = { s with ulc := { s.ulc with journalQ := q }, sjr := j, txe := x } := by
  unfold abortBatch
  split <;> exact ⟨_, _, _, rfl⟩

theorem endRun_touches (upload download : PhaseResult) (s : State) :
    ∃ u j x h, endRun upload download s = { s with ulc := u, sjr := j, txe := x, hlk := h } := by
  unfold endRun
  dsimp only
  obtain ⟨q, j, x, habort⟩ := abortBatch_touches { s with txe := { s.txe with run := { s.txe.run with
    download := some download, upload := some (s.txe.run.upload.getD upload) } } }
  rw [habort]
  exact ⟨_, _, _, _, (notify_touches _ _).choose_spec⟩

theorem abortNow_touches (s : State) : ∃ u j x h, abortNow s = { s with ulc := u, sjr := j, txe := x, hlk := h } := by
  unfold abortNow
  split
  · exact endRun_touches ..
  · exact endRun_touches ..
  · exact ⟨_, _, _, _, rfl⟩

theorem abortRun_touches (s : State) : ∃ u j x h, abortRun s = { s with ulc := u, sjr := j, txe := x, hlk := h } := by
  unfold abortRun settleAbort
  split
  · obtain ⟨u, j, x, h, heq⟩ := abortNow_touches { s with txe := { s.txe with abortDue := false } }
    exact ⟨u, j, x, h, heq⟩
  · exact ⟨_, _, _, _, rfl⟩

@[simp] theorem abortRun_pending (s : State) : (abortRun s).pending = s.pending := by
  obtain ⟨u, j, x, h, heq⟩ := abortRun_touches s
  rw [heq]
@[simp] theorem abortRun_out (s : State) : (abortRun s).out = s.out := by
  obtain ⟨u, j, x, h, heq⟩ := abortRun_touches s
  rw [heq]
@[simp] theorem abortRun_timer (s : State) : (abortRun s).timer = s.timer := by
  obtain ⟨u, j, x, h, heq⟩ := abortRun_touches s
  rw [heq]
@[simp] theorem abortRun_settings (s : State) : (abortRun s).settings = s.settings := by
  obtain ⟨u, j, x, h, heq⟩ := abortRun_touches s
  rw [heq]
@[simp] theorem abortRun_identity (s : State) : (abortRun s).identity = s.identity := by
  obtain ⟨u, j, x, h, heq⟩ := abortRun_touches s
  rw [heq]
@[simp] theorem abortRun_nv (s : State) : (abortRun s).nv = s.nv := by
  obtain ⟨u, j, x, h, heq⟩ := abortRun_touches s
  rw [heq]
@[simp] theorem abortRun_waiting (s : State) : (abortRun s).waiting = s.waiting := by
  obtain ⟨u, j, x, h, heq⟩ := abortRun_touches s
  rw [heq]
@[simp] theorem abortRun_pbk (s : State) : (abortRun s).pbk = s.pbk := by
  obtain ⟨u, j, x, h, heq⟩ := abortRun_touches s
  rw [heq]
@[simp] theorem abortRun_lrs (s : State) : (abortRun s).lrs = s.lrs := by
  obtain ⟨u, j, x, h, heq⟩ := abortRun_touches s
  rw [heq]
@[simp] theorem abortRun_tsu (s : State) : (abortRun s).tsu = s.tsu := by
  obtain ⟨u, j, x, h, heq⟩ := abortRun_touches s
  rw [heq]
@[simp] theorem abortRun_auz (s : State) : (abortRun s).auz = s.auz := by
  obtain ⟨u, j, x, h, heq⟩ := abortRun_touches s
  rw [heq]
@[simp] theorem abortRun_gac (s : State) : (abortRun s).gac = s.gac := by
  obtain ⟨u, j, x, h, heq⟩ := abortRun_touches s
  rw [heq]
@[simp] theorem abortRun_day (s : State) : (abortRun s).day = s.day := by
  obtain ⟨u, j, x, h, heq⟩ := abortRun_touches s
  rw [heq]

/-! ## Time -/

theorem advanceTo_touches (t : Nat) (s : State) : ∃ n c m d,
    advanceTo t s = { s with timer := n, day := { s.day with clock := c, clockMs := m, dueEvents := d } } := by
  unfold advanceTo
  split <;> exact ⟨_, _, _, _, rfl⟩

@[simp] theorem advanceTo_pending (t : Nat) (s : State) : (advanceTo t s).pending = s.pending := by
  obtain ⟨n, c, m, d, heq⟩ := advanceTo_touches t s
  rw [heq]
@[simp] theorem advanceTo_out (t : Nat) (s : State) : (advanceTo t s).out = s.out := by
  obtain ⟨n, c, m, d, heq⟩ := advanceTo_touches t s
  rw [heq]
@[simp] theorem advanceTo_settings (t : Nat) (s : State) : (advanceTo t s).settings = s.settings := by
  obtain ⟨n, c, m, d, heq⟩ := advanceTo_touches t s
  rw [heq]
@[simp] theorem advanceTo_identity (t : Nat) (s : State) : (advanceTo t s).identity = s.identity := by
  obtain ⟨n, c, m, d, heq⟩ := advanceTo_touches t s
  rw [heq]
@[simp] theorem advanceTo_nv (t : Nat) (s : State) : (advanceTo t s).nv = s.nv := by
  obtain ⟨n, c, m, d, heq⟩ := advanceTo_touches t s
  rw [heq]
@[simp] theorem advanceTo_waiting (t : Nat) (s : State) : (advanceTo t s).waiting = s.waiting := by
  obtain ⟨n, c, m, d, heq⟩ := advanceTo_touches t s
  rw [heq]
@[simp] theorem advanceTo_pbk (t : Nat) (s : State) : (advanceTo t s).pbk = s.pbk := by
  obtain ⟨n, c, m, d, heq⟩ := advanceTo_touches t s
  rw [heq]
@[simp] theorem advanceTo_lrs (t : Nat) (s : State) : (advanceTo t s).lrs = s.lrs := by
  obtain ⟨n, c, m, d, heq⟩ := advanceTo_touches t s
  rw [heq]
@[simp] theorem advanceTo_tsu (t : Nat) (s : State) : (advanceTo t s).tsu = s.tsu := by
  obtain ⟨n, c, m, d, heq⟩ := advanceTo_touches t s
  rw [heq]
@[simp] theorem advanceTo_auz (t : Nat) (s : State) : (advanceTo t s).auz = s.auz := by
  obtain ⟨n, c, m, d, heq⟩ := advanceTo_touches t s
  rw [heq]
@[simp] theorem advanceTo_sjr (t : Nat) (s : State) : (advanceTo t s).sjr = s.sjr := by
  obtain ⟨n, c, m, d, heq⟩ := advanceTo_touches t s
  rw [heq]
@[simp] theorem advanceTo_ulc (t : Nat) (s : State) : (advanceTo t s).ulc = s.ulc := by
  obtain ⟨n, c, m, d, heq⟩ := advanceTo_touches t s
  rw [heq]
@[simp] theorem advanceTo_txe (t : Nat) (s : State) : (advanceTo t s).txe = s.txe := by
  obtain ⟨n, c, m, d, heq⟩ := advanceTo_touches t s
  rw [heq]
@[simp] theorem advanceTo_gac (t : Nat) (s : State) : (advanceTo t s).gac = s.gac := by
  obtain ⟨n, c, m, d, heq⟩ := advanceTo_touches t s
  rw [heq]
@[simp] theorem advanceTo_hlk (t : Nat) (s : State) : (advanceTo t s).hlk = s.hlk := by
  obtain ⟨n, c, m, d, heq⟩ := advanceTo_touches t s
  rw [heq]

@[simp] theorem advanceTo_store (t : Nat) (s : State) : (advanceTo t s).day.store = s.day.store := by
  obtain ⟨n, c, m, d, heq⟩ := advanceTo_touches t s
  rw [heq]

@[simp] theorem advanceTo_power (t : Nat) (s : State) : (advanceTo t s).day.power = s.day.power := by
  obtain ⟨n, c, m, d, heq⟩ := advanceTo_touches t s
  rw [heq]

theorem advanceTo_timer (t : Nat) (s : State) : (advanceTo t s).timer = max s.timer t := by
  unfold advanceTo
  split
  case isTrue h => exact (Nat.max_eq_left h).symm
  case isFalse h => exact (Nat.max_eq_right (Nat.le_of_not_le h)).symm

theorem advanceTo_of_le {t : Nat} {s : State} (h : t ≤ s.timer) : advanceTo t s = s := if_pos h

end Sys2Proof.Proofs
end

