-- ==== Sys2Proof/Proofs/BlockRequests.lean ====
section
/-! PROOFS. The requests of the blocks behind the host link: BURST NOW, NIGHT RERUN and GUEST END (R42, R141, R142, R159, R161). -/

namespace Sys2Proof.Proofs

open Sys2Proof.Machine Sys2Proof.Safety Sys2Proof.Laws

/-! ## BURST NOW (R42) -/

section Beacon

variable {s : State} {h : HostHead}

theorem wake_of_awake (c : WakeCause) (hpower : s.day.power ≠ .quiet) : wake c s = s := if_pos hpower

@[simp] theorem reportLine_lrs (l : SiteLine) (s : State) : (reportLine l s).lrs = s.lrs := by
  unfold reportLine
  dsimp only
  split <;> simp

@[simp] theorem reportLines_lrs (s : State) : (reportLines s).lrs = s.lrs := by
  have hone : ∀ (l : SiteLine) (u : State),
      (if u.day.lines.get l = u.day.reported.get l then u else reportLine l u).lrs = u.lrs := fun l u => by
    split <;> simp
  unfold reportLines
  simp only [List.foldl_cons, List.foldl_nil, hone]

theorem wake_radio_of_quiet (c : WakeCause) (hquiet : s.day.power = .quiet) : (wake c s).lrs.radio = .settling := by
  unfold wake
  rw [if_neg (by simp [hquiet])]
  dsimp only
  rw [reportLines_lrs]
  split
  · rw [guestDecide_lrs, abortRun_lrs]
    rfl
  · rw [guestDecide_lrs]
    rfl

@[simp] theorem endStandalone_day (s : State) : (endStandalone s).day = s.day := by
  unfold endStandalone
  split
  · rfl
  · exact notify_day ..

theorem endStandalone_touches (s : State) : ∃ h, endStandalone s = { s with hlk := h } := by
  unfold endStandalone
  split
  · exact ⟨_, rfl⟩
  · rename_i t0 _
    obtain ⟨h, heq⟩ := notify_touches (.hostReturn ((s.timer - t0) / 1000) s.hlk.officeDrops s.hlk.standaloneOverrun)
      { s with hlk := { s.hlk with standalone := none } }
    dsimp only at heq ⊢
    rw [heq]
    exact ⟨_, rfl⟩

/-- A request that finds the part awake changes the host link alone as it begins. -/
theorem admitted_touches_of_awake (h : HostHead) (k : RequestKind) (hpower : s.day.power ≠ .quiet) :
    ∃ x, admitted h k s = { s with hlk := x } := by
  obtain ⟨x, hx⟩ := endStandalone_touches (restartSilence s)
  have hbegin : beginRequest s = endStandalone (restartSilence s) :=
    wake_of_awake _ (by rw [endStandalone_day]; exact hpower)
  rw [admitted, hbegin, hx]
  exact ⟨_, rfl⟩

theorem admitted_radio_of_quiet (h : HostHead) (k : RequestKind) (hquiet : s.day.power = .quiet) :
    (admitted h k s).lrs.radio = .settling :=
  wake_radio_of_quiet _ (by rw [endStandalone_day]; exact hquiet)

theorem sendBeacon_out (s : State) : (sendBeacon s).out = s.out ++ [.beacon] := by
  unfold sendBeacon
  dsimp only
  split <;> rfl

end Beacon

/-- Settles O27: R42's table at the state in which the request is decided, where the radio of a part in QUIET is SETTLING. -/
theorem burstNowDecided : Obligations.BurstNowDecided := by
  unfold Obligations.BurstNowDecided
  intro h s ha
  refine ⟨fun hasleep => request_replies ha (if_pos ?_), fun hpower hradio hbusy => request_replies ha ?_,
    fun hpower hradio hburst hwaiting => ⟨_, request_admitted _ _ _ _ ha, ?_⟩⟩
  · by_cases hpower : s.day.power = .quiet
    · rw [admitted_radio_of_quiet h _ hpower]
      decide
    · obtain ⟨x, hx⟩ := admitted_touches_of_awake h .burstNow hpower
      rw [hx]
      exact hasleep.resolve_left hpower
  · obtain ⟨x, hx⟩ := admitted_touches_of_awake h .burstNow hpower
    rw [hx, answerBurstNow, if_neg (by simpa using hradio), if_pos hbusy]
  · obtain ⟨x, hx⟩ := admitted_touches_of_awake h .burstNow hpower
    have hown : answerBurstNow h.tag (admitted h .burstNow s) =
        reply h.tag .burstNow .ok .empty (sendBeacon (admitted h .burstNow s)) := by
      rw [hx, answerBurstNow, if_neg (by simpa using hradio), if_neg (by simp [hburst, hwaiting])]
    have hout : (answerBurstNow h.tag (admitted h .burstNow s)).out = s.out ++ [.beacon] := by
      rw [hown, reply_out, sendBeacon_out, hx]
    exact ⟨by rw [hown]; exact finish_reply .., hout ▸ (finish_after _).out⟩

/-! ## NIGHT RERUN (R141, R142) -/

theorem going_eq_false_iff (r : RunState) : r.going = false ↔ r = .notStarted ∨ r = .ended := by
  cases r <;> decide

/-- Settles O30. -/
theorem nightRerunDecided : Obligations.NightRerunDecided := by
  unfold Obligations.NightRerunDecided
  intro h s u ha hu
  subst hu
  refine ⟨fun hbusy => request_replies ha (if_neg ?_), fun hnight hidle =>
    (request_admitted _ _ _ _ ha).trans (congrArg (fun x => Host.Outcome.next (finish x))
      (if_pos ⟨hnight, (going_eq_false_iff _).2 hidle⟩))⟩
  rintro ⟨hnight, hidle⟩
  rcases hbusy with hstore | hrun | hrun
  · exact hstore hnight
  · simp [hrun, RunState.going] at hidle
  · simp [hrun, RunState.going] at hidle

/-! ## GUEST END (R159, R161) -/

section Sessions

variable {r : EndReason}

theorem sessionAt_endSession (i j : Nat) (r : EndReason) (s : State) :
    sessionAt (endSession i r s) j = if j = i then none else sessionAt s j := by
  have hset : sessionAt (putSession i none s) j = if j = i then none else sessionAt s j := by
    unfold sessionAt putSession
    rw [List.getElem?_set]
    by_cases hj : j = i
    · subst hj
      rw [if_pos rfl, if_pos rfl]
      split <;> rfl
    · rw [if_neg (Ne.symm hj), if_neg hj]
  unfold endSession
  split
  case h_1 hnone =>
    split
    case isTrue hj => rw [hj, hnone]
    case isFalse => rfl
  case h_2 e he =>
    refine Eq.trans ?_ hset
    cases r <;> rfl

theorem endSession_sessions_length (i : Nat) (r : EndReason) (s : State) :
    (endSession i r s).gac.sessions.length = s.gac.sessions.length := by
  unfold endSession
  split
  · rfl
  · cases r <;> exact List.length_set

theorem foldl_endSession_sessions_length (r : EndReason) (l : List Nat) (s : State) :
    (l.foldl (fun t i => endSession i r t) s).gac.sessions.length = s.gac.sessions.length := by
  induction l generalizing s with
  | nil => rfl
  | cons i l ih => exact (ih _).trans (endSession_sessions_length i r s)

theorem sessionAt_foldl_endSession (r : EndReason) (l : List Nat) (s : State) (j : Nat) :
    sessionAt (l.foldl (fun t i => endSession i r t) s) j = if j ∈ l then none else sessionAt s j := by
  induction l generalizing s with
  | nil => simp
  | cons i l ih =>
    rw [List.foldl_cons, ih, sessionAt_endSession]
    by_cases hl : j ∈ l <;> by_cases hi : j = i <;> simp [hl, hi]

theorem mem_admittedEntries (s : State) (j : Nat) : j ∈ admittedEntries s ↔ j < 64 ∧ (sessionAt s j).isSome := by
  rw [admittedEntries, List.mem_filter, List.mem_range]
  exact Iff.rfl

theorem admittedCount_eq_zero_iff (s : State) : admittedCount s = 0 ↔ ∀ j, sessionAt s j = none := by
  unfold admittedCount sessionAt
  rw [List.countP_eq_zero]
  constructor
  · intro hnone j
    cases hj : s.gac.sessions[j]? with
    | none => rfl
    | some e => simpa using hnone e (List.mem_of_getElem? hj)
  · intro hnone e he
    obtain ⟨j, hj⟩ := List.getElem?_of_mem he
    have hjn := hnone j
    rw [hj] at hjn
    simpa using hjn

/-- After every session has ended none is left. -/
theorem admittedCount_endAllSessions (r : EndReason) (s : State) (hlen : s.gac.sessions.length = 64) :
    admittedCount (endAllSessions r s) = 0 := by
  rw [admittedCount_eq_zero_iff]
  intro j
  rw [endAllSessions, sessionAt_foldl_endSession]
  split
  case isTrue => rfl
  case isFalse hj =>
    rw [mem_admittedEntries] at hj
    by_cases hlt : j < 64
    · simpa [hlt] using hj
    · rw [sessionAt, List.getElem?_eq_none (by omega), Option.getD_none]

theorem endSession_spent (i : Nat) (s : State) (hr : r.spends = false) : (endSession i r s).gac.spent = s.gac.spent := by
  unfold endSession
  split
  · rfl
  · rw [if_neg (by simp [hr])]
    rfl

theorem endAllSessions_spent (s : State) (hr : r.spends = false) : (endAllSessions r s).gac.spent = s.gac.spent := by
  unfold endAllSessions
  generalize admittedEntries s = l
  induction l generalizing s with
  | nil => rfl
  | cons i l ih => exact (ih _).trans (endSession_spent i s hr)

/-- The session that an address names is the address's. -/
theorem addr_of_sessionOf {s : State} {a : Addr} {i : Nat} {e : Session} (hi : sessionOf s a = some i)
    (he : sessionAt s i = some e) : e.addr = a := by
  obtain ⟨hx, hmatch, _⟩ := List.findIdx?_eq_some_iff_getElem.1 hi
  rw [sessionAt, List.getElem?_eq_getElem hx, Option.getD_some] at he
  rw [he] at hmatch
  simpa using hmatch

theorem endSession_of_session {s : State} {i : Nat} {e : Session} (he : sessionAt s i = some e) (hr : r.spends = false) :
    endSession i r s = emit (.sessionEnd e.addr r) (putSession i none s) := by
  unfold endSession
  simp only [he, hr]
  rfl

end Sessions

/-- Settles O31. -/
theorem guestEndDecided : Obligations.GuestEndDecided := by
  unfold Obligations.GuestEndDecided
  intro h s u ha hu
  subst hu
  refine ⟨fun a hnone => request_replies ha ?_, fun a i e hi he => (request_admitted _ _ _ _ ha).trans ?_,
    request_answers ha (own := answerGuestEnd h.tag none) (answered_reply ..),
    (request_admitted h .guestEnd (answerGuestEnd h.tag none) s ha).trans rfl, endAllSessions_spent _ rfl,
    admittedCount_endAllSessions _ _⟩
  · simp only [answerGuestEnd, hnone]
  · simp only [answerGuestEnd, hi, endSession_of_session he (r := .hostRequest) rfl, addr_of_sessionOf hi he]
    rfl

end Sys2Proof.Proofs
end

