-- ==== Sys2Proof/Proofs/Places.lean ====
section
/-! PROOFS. Places that the grace closes and that NIGHT frees (R68, R69), and the end of a sale's grace as the day asks for it. -/

namespace Sys2Proof.Proofs

open Sys2Proof.Machine Sys2Proof.Safety Sys2Proof.Laws

/-! ## An open basket after the grace (R64, R68) -/

section Places

variable {s : State} {t : Nat} {p : Place}

theorem graceOver_iff (s : State) : graceOver s = true ↔ s.day.store = .closing ∧ s.tsu.grace = none := by
  simp [graceOver]

theorem closeIfDue_of_due (hstore : s.day.store = .closing) (hgrace : s.tsu.grace = none)
    (hbasket : (placeAt s t).state = .basket) (hbusy : (placeAt s t).busy = false) :
    closeIfDue t s = startVoid t .close s :=
  if_pos ⟨(graceOver_iff s).2 ⟨hstore, hgrace⟩, hbasket, hbusy⟩

theorem closeIfDue_of_not_due (hnot : s.day.store ≠ .closing ∨ s.tsu.grace.isSome ∨ (placeAt s t).state ≠ .basket ∨
    (placeAt s t).busy = true) : closeIfDue t s = s := by
  refine if_neg ?_
  rintro ⟨hover, hbasket, hbusy⟩
  obtain ⟨hstore, hgrace⟩ := (graceOver_iff s).1 hover
  rcases hnot with h | h | h | h
  · exact h hstore
  · simp [hgrace] at h
  · exact h hbasket
  · simp [hbusy] at h

/-- What the closing of one basket touches: its place's flag and the journal's queue. -/
theorem closeIfDue_touches (t : Nat) (s : State) : ∃ l j, closeIfDue t s =
    { s with tsu := { s.tsu with places := l }, sjr := j } := by
  unfold closeIfDue
  dsimp only
  split <;> exact ⟨_, _, rfl⟩

@[simp] theorem closeIfDue_day (t : Nat) (s : State) : (closeIfDue t s).day = s.day := by
  obtain ⟨l, j, heq⟩ := closeIfDue_touches t s
  rw [heq]

@[simp] theorem closeIfDue_grace (t : Nat) (s : State) : (closeIfDue t s).tsu.grace = s.tsu.grace := by
  obtain ⟨l, j, heq⟩ := closeIfDue_touches t s
  rw [heq]

/-- A till whose place is not FREE lies within the list of places. -/
theorem inPlaces_of_state (hplace : placeAt s t = p) (hstate : p.state ≠ .free) : t < s.tsu.places.length :=
  till_lt_length_of_not_free (by rw [hplace]; exact hstate)

theorem placeAt_putPlace_other {k : Nat} (p : Place) (hk : k ≠ t) (s : State) :
    placeAt (putPlace t p s) k = placeAt s k := by
  simp [placeAt, putPlace, List.getElem?_set, hk.symm]

end Places

end Sys2Proof.Proofs
end

