-- ==== Sys2Proof/Proofs/AuthRequests.lean ====
section
/-! PROOFS. AUTH RELEASE, and the fallback that it brings about: the decision, the exposure limit mark, the entry DECIDED and the outcome's report (R63, R64, R66, R80 to R85). -/

namespace Sys2Proof.Proofs

open Sys2Proof.Machine Sys2Proof.Safety Sys2Proof.Laws

/-! ## The fallback decision (R80, R83) -/

section Decision

variable {s : State} {o : AuthOutcome} {byExposure : Bool}

theorem fallback_of_decision {e : AuthEntry} (hdecision : fallbackDecision s e.amount = (o, byExposure)) :
    fallback e s = reportOutcome e.till o (decideEntry e o (markExposure e.amount o byExposure s)) := by
  rw [fallback, fallbackEntry, hdecision]

theorem fallbackDecision_byExposure (s : State) (amount : Nat) : (fallbackDecision s amount).2 = true ↔
    s.settings.num .fallbackMode ≠ 0 ∧ (amount : Int) ≤ s.settings.num .floorLimit ∧
      s.settings.num .exposureLimit < s.sjr.exposure + s.auz.commitment + amount := by
  unfold fallbackDecision
  by_cases hmode : s.settings.num .fallbackMode = 0
  · simp [hmode]
  by_cases hfloor : s.settings.num .floorLimit < amount
  · simp [hmode, hfloor, Int.not_le.2 hfloor]
  by_cases hlimit : s.sjr.exposure + s.auz.commitment + amount ≤ s.settings.num .exposureLimit
  · simp [hmode, hfloor, hlimit]
  · simp [hmode, hfloor, hlimit]
    omega

theorem markExposure_of_other {amount : Nat} (ho : o ≠ .approvedOffline) (hmark : byExposure = false ∨ s.auz.mark = true) :
    markExposure amount o byExposure s = s := by
  rw [markExposure, if_neg ho]
  rcases hmark with hex | hmark
  · rw [if_neg (by simp [hex])]
  · rw [if_pos hmark, ite_self]

theorem markExposure_of_limit {amount : Nat} (ho : o ≠ .approvedOffline) (hmark : s.auz.mark = false) :
    markExposure amount o true s =
      notify (authLimitNotice s amount) { s with auz := { s.auz with mark := true } } := by
  rw [markExposure, if_neg ho, if_pos rfl, if_neg (by simp [hmark])]

end Decision

/-! ## The report of a decline (R64) -/

section Decline

variable {v : State} {t : Nat} {p : Place} {r : DeclineReason}

/-- The state after a decline of an AUTHORIZING place, before the closing grace is looked at. -/
def declinedState (t : Nat) (r : DeclineReason) (p : Place) (v : State) : State :=
  removeEntry t (sendTill t (p.addr.getD 0) .declined .declined (.declined r (p.trace.getD 0))
    (putPlace t { p with state := .basket, trace := none, lastResult := some (.declined r) } (dropClaim t v)))

theorem reportOutcome_declined_authorizing (hp : placeAt v t = p) (hstate : p.state = .authorizing) :
    reportOutcome t (.declined r) v = closeIfDue t (declinedState t r p v) := by
  subst hp
  show declinePlace t r v = _
  unfold declinePlace
  simp only [hstate]
  rfl

theorem placeAt_declinedState (hp : placeAt v t = p) (hstate : p.state = .authorizing) :
    placeAt (declinedState t r p v) t =
      { p with state := .basket, trace := none, lastResult := some (.declined r) } :=
  placeAt_putPlace_same (s := dropClaim t v) _
    (inPlaces_of_state hp (by rw [hstate]; decide) : t < v.tsu.places.length)

theorem reportOutcome_declined_orphaned (hp : placeAt v t = p) (hstate : p.state = .orphaned) :
    reportOutcome t (.declined r) v = startVoid t .declinedLost (dropClaim t v) := by
  subst hp
  show declinePlace t r v = _
  unfold declinePlace
  simp only [hstate]

end Decline

/-- Settles O29: the answer, and what fallback does, step by step. -/
theorem authReleaseDecided : Obligations.AuthReleaseDecided := by
  unfold Obligations.AuthReleaseDecided
  intro h till s ha
  refine ⟨fun hbad => request_replies ha (if_pos hbad), fun hfits hnone => request_replies ha ?_,
    fun e hfits he => ⟨fun hdecided => request_replies ha ?_, fun hopen => ?_⟩, fun e v o byExposure hdecision => ?_,
    fun amount o byExposure v => ⟨?_, markExposure_of_other, ?_⟩, fun e o v u w hu hw => ?_, fun t v u p hp hu => ?_⟩
  · have hnone' : entryOf (admitted h .authRelease s) till = none := by rw [entryOf, admitted_auz]; exact hnone
    rw [answerAuthRelease, if_neg (Nat.not_lt.2 hfits), hnone']
  · have he' : entryOf (admitted h .authRelease s) till = some e := by rw [entryOf, admitted_auz]; exact he
    rw [answerAuthRelease, if_neg (Nat.not_lt.2 hfits), he']
    exact if_pos hdecided
  · have he' : entryOf (admitted h .authRelease s) till = some e := by rw [entryOf, admitted_auz]; exact he
    have hdecision : fallbackDecision (admitted h .authRelease s) e.amount = fallbackDecision s e.amount := by
      simp only [fallbackDecision, admitted_settings, admitted_exposure, admitted_auz]
    refine (request_admitted _ _ _ _ ha).trans ?_
    rw [answerAuthRelease, if_neg (Nat.not_lt.2 hfits), he']
    dsimp only
    rw [if_neg hopen, hdecision]
  · refine ⟨fallback_of_decision hdecision, ?_⟩
    rw [← fallbackDecision_byExposure, hdecision]
  · exact fun ho => if_pos ho
  · exact fun ho hex hmark => by rw [hex]; exact markExposure_of_limit ho hmark
  · subst hu hw
    refine ⟨fun code ho => ?_, fun ho => ?_, fun ho => ?_, fun reason ho => ?_⟩ <;> subst ho <;> rfl
  · subst hu
    refine ⟨fun code => ?_, ?_, fun r hstate => ?_, fun r q x hstate hq hx => ⟨fun hopen => ?_, fun hstore hgrace hbusy => ?_⟩⟩
    · rw [← hp]
      rfl
    · rw [← hp]
      rfl
    · rw [reportOutcome_declined_orphaned hp hstate, ← hp]
      rfl
    · have hplace := placeAt_declinedState (r := r) hp hstate
      have hx' : declinedState t r p v = x := by rw [← hx, ← hq]; rfl
      rw [reportOutcome_declined_authorizing hp hstate, closeIfDue_of_not_due, hx']
      rw [hplace]
      exact hopen.imp_right (Or.imp_right .inr)
    · have hplace := placeAt_declinedState (r := r) hp hstate
      have hx' : declinedState t r p v = x := by rw [← hx, ← hq]; rfl
      rw [reportOutcome_declined_authorizing hp hstate,
        closeIfDue_of_due (s := declinedState t r p v) hstore hgrace (by rw [hplace]) (by rw [hplace]; exact hbusy), startVoid, startAppend, hplace,
        hq, hx', ← hq]
      rfl

end Sys2Proof.Proofs
end

