-- ==== Sys2Proof/Proofs/Schedule.lean ====
section
/-! PROOFS. The schedule events and the clock values at which their minutes begin (R165 to R168). -/

namespace Sys2Proof.Proofs

open Sys2Proof.Machine Sys2Proof.Safety Sys2Proof.Laws

section Schedule

variable {t : Settings} {e : ScheduleEvent} {c : Nat}

/-- The open time is before the close time, and both within a day (R167). -/
structure DaySound (t : Settings) : Prop where
  order : t.nat .openTime < t.nat .closeTime
  within : t.nat .closeTime < 1440

theorem DaySound.minute_lt (ht : DaySound t) (e : ScheduleEvent) : eventMinute t e < 1440 := by
  obtain ⟨horder, hwithin⟩ := ht
  cases e <;> simp only [eventMinute, leadMinute] <;> omega

/-- The beginning of an event's minute on a day is a clock value of that day, in the event's minute, that begins a minute. -/
theorem eventAt_eq_some_iff (hminute : eventMinute t e < 1440) (day : Nat) :
    eventAt t day e = some c ↔ day = dayNumber c ∧ c % 60 = 0 ∧ inEventMinute t e c = true := by
  have hvalue : ∀ c, day * 86400 + 60 * eventMinute t e = c ↔
      day = dayNumber c ∧ c % 60 = 0 ∧ minuteOfDay c = eventMinute t e := fun c => by
    simp only [dayNumber, minuteOfDay]
    omega
  simp only [eventAt, inEventMinute, Option.ite_none_right_eq_some, Option.some.injEq, Bool.and_eq_true, beq_iff_eq]
  rw [← and_assoc, ← and_assoc, and_assoc (a := day = _), ← hvalue]
  constructor
  · rintro ⟨hday, rfl⟩
    exact ⟨rfl, hday⟩
  · rintro ⟨rfl, hday⟩
    exact ⟨hday, rfl⟩

/-- An event of a day with the clock value at which its minute begins, when that lies from `a` up to, but not including, `b`. -/
def timedEvent (t : Settings) (a b day : Nat) (e : ScheduleEvent) : Option (ScheduleEvent × Nat) :=
  ((eventAt t day e).filter fun c => decide (a ≤ c) && decide (c < b)).map fun c => (e, c)

/-- The events that `eventsFrom` gives, each with its clock value. -/
def timedEvents (t : Settings) (a b : Nat) : List (ScheduleEvent × Nat) :=
  (List.range (dayNumber b + 1 - dayNumber a)).flatMap fun k => dayEvents.filterMap (timedEvent t a b (dayNumber a + k))

theorem timedEvent_eq_some_iff {a b day : Nat} {x : ScheduleEvent × Nat} : timedEvent t a b day e = some x ↔
    x.1 = e ∧ eventAt t day e = some x.2 ∧ a ≤ x.2 ∧ x.2 < b := by
  obtain ⟨e', c⟩ := x
  simp only [timedEvent, Option.map_eq_some_iff, Option.filter_eq_some_iff, Bool.and_eq_true, decide_eq_true_eq,
    Prod.mk.injEq]
  constructor
  · rintro ⟨c', ⟨hat, hfrom, hto⟩, rfl, rfl⟩
    exact ⟨rfl, hat, hfrom, hto⟩
  · rintro ⟨rfl, hat, hfrom, hto⟩
    exact ⟨c, ⟨hat, hfrom, hto⟩, rfl, rfl⟩

/-- The events alone are those the model gives. -/
theorem eventsFrom_eq_map (t : Settings) (a b : Nat) : eventsFrom t a b = (timedEvents t a b).map (·.1) := by
  rw [eventsFrom, timedEvents, List.map_flatMap]
  refine congrArg (List.flatMap · _) (funext fun k => ?_)
  induction dayEvents with
  | nil => rfl
  | cons e l ih =>
    cases hat : eventAt t (dayNumber a + k) e with
    | none =>
      have hnone : timedEvent t a b (dayNumber a + k) e = none := by simp [timedEvent, hat]
      rw [List.filterMap_cons_none hnone, List.filter_cons_of_neg (by simp [hat])]
      exact ih
    | some c =>
      by_cases hin : a ≤ c ∧ c < b
      · have hsome : timedEvent t a b (dayNumber a + k) e = some (e, c) :=
          timedEvent_eq_some_iff.2 ⟨rfl, hat, hin.1, hin.2⟩
        rw [List.filterMap_cons_some hsome, List.filter_cons_of_pos (by simp [hat, hin]), List.map_cons]
        exact congrArg _ ih
      · have hnone : timedEvent t a b (dayNumber a + k) e = none := by
          simp only [timedEvent, hat, Option.filter_some]
          rw [if_neg (by simpa using hin)]
          rfl
        rw [List.filterMap_cons_none hnone, List.filter_cons_of_neg (by simpa [hat] using hin)]
        exact ih

/-- Which events the list holds. -/
theorem mem_timedEvents (ht : DaySound t) {a b : Nat} {e : ScheduleEvent} {c : Nat} : (e, c) ∈ timedEvents t a b ↔
    a ≤ c ∧ c < b ∧ c % 60 = 0 ∧ inEventMinute t e c = true := by
  have hmem : ∀ e : ScheduleEvent, e ∈ dayEvents := fun e => by cases e <;> decide
  simp only [timedEvents, List.mem_flatMap, List.mem_range, List.mem_filterMap, timedEvent_eq_some_iff,
    eventAt_eq_some_iff (ht.minute_lt _)]
  constructor
  · rintro ⟨k, -, e', -, rfl, ⟨-, hsecond, hin⟩, hfrom, hto⟩
    exact ⟨hfrom, hto, hsecond, hin⟩
  · rintro ⟨hfrom, hto, hsecond, hin⟩
    have hday : dayNumber a ≤ dayNumber c := Nat.div_le_div_right hfrom
    have hend : dayNumber c ≤ dayNumber b := Nat.div_le_div_right (Nat.le_of_lt hto)
    exact ⟨dayNumber c - dayNumber a, by omega, e, hmem e, rfl, ⟨by omega, hsecond, hin⟩, hfrom, hto⟩

/-- Time order, where the lead's event goes before the opening's at the same moment (R168). -/
def EventOrder (x y : ScheduleEvent × Nat) : Prop :=
  x.2 < y.2 ∨ x.2 = y.2 ∧ x.1 = .openLead ∧ y.1 = .openTime

theorem timedEvent_clock (ht : DaySound t) {a b day : Nat} {x : ScheduleEvent × Nat}
    (hx : timedEvent t a b day e = some x) : x.1 = e ∧ x.2 = day * 86400 + 60 * eventMinute t e := by
  obtain ⟨he, hat, -, -⟩ := timedEvent_eq_some_iff.1 hx
  obtain ⟨hday, hsecond, hin⟩ := (eventAt_eq_some_iff (ht.minute_lt e) day).1 hat
  simp only [inEventMinute, Bool.and_eq_true, beq_iff_eq, dayNumber, minuteOfDay] at hday hin
  obtain ⟨hmin, -⟩ := hin
  exact ⟨he, by omega⟩

/-- The events come in time order. -/
theorem timedEvents_pairwise (ht : DaySound t) (a b : Nat) : (timedEvents t a b).Pairwise EventOrder := by
  unfold timedEvents
  rw [List.pairwise_flatMap]
  refine ⟨fun k _ => ?_, (List.pairwise_lt_range).imp fun {j k} hjk x hx y hy => ?_⟩
  · refine List.Pairwise.filterMap (R := fun e f => eventMinute t e < eventMinute t f ∨
      eventMinute t e = eventMinute t f ∧ e = .openLead ∧ f = .openTime) _ (fun e f hef x hx y hy => ?_) ?_
    · obtain ⟨hx1, hx2⟩ := timedEvent_clock ht hx
      obtain ⟨hy1, hy2⟩ := timedEvent_clock ht hy
      rcases hef with hlt | ⟨heq, he, hf⟩
      · exact .inl (by omega)
      · exact .inr ⟨by rw [hx2, hy2, heq], hx1.trans he, hy1.trans hf⟩
    · obtain ⟨horder, -⟩ := ht
      simp only [dayEvents, List.pairwise_cons, List.mem_cons, List.not_mem_nil, or_false, forall_eq_or_imp, forall_eq,
        eventMinute, leadMinute, and_true, reduceCtorEq, false_and, and_false, or_false, false_implies,
        implies_true, List.Pairwise.nil]
      omega
  · obtain ⟨e, -, he⟩ := List.mem_filterMap.1 hx
    obtain ⟨f, -, hf⟩ := List.mem_filterMap.1 hy
    have hex := (timedEvent_clock ht he).2
    have hfy := (timedEvent_clock ht hf).2
    have hem := ht.minute_lt e
    exact .inl (by omega)

end Schedule

end Sys2Proof.Proofs
end

