-- ==== Sys2Proof/Proofs/DayRequests.lean ====
section
/-! PROOFS. The requests that move the trading day, the store states they enter, and TIME SET (R39, R68, R69, R148, R151, R160, R166 to R171, R173, R178). -/

namespace Sys2Proof.Proofs

open Sys2Proof.Machine Sys2Proof.Safety Sys2Proof.Laws

/-! ## Entering a store state (R39, R171) -/

section StoreStates

variable {s v : State} {new : StoreState} {cause : Option StateCause}

/-- Refresh becomes enabled as the store goes from one state to another (R39). -/
theorem refresh_enabled_edge_iff (t : Settings) (old new : StoreState) :
    ((refreshSetting old).isSome ∧ refreshEnabled t old = false ∧ refreshEnabled t new = true) ↔
      (∃ n, refreshSetting old = some n ∧ t.on n = false) ∧ (∃ n, refreshSetting new = some n ∧ t.on n = true) := by
  unfold refreshEnabled
  cases refreshSetting old <;> cases refreshSetting new <;> simp

theorem refreshEdge_eq (old new : StoreState) (s : State) : refreshEdge old new s =
    { s with lrs := { s.lrs with
        cursor := if (refreshSetting old).isSome ∧ refreshEnabled s.settings old = false ∧
          refreshEnabled s.settings new = true then 0 else s.lrs.cursor } } := by
  unfold refreshEdge
  split <;> rfl

theorem setStore_touches (new : StoreState) (cause : Option StateCause) (s : State) : ∃ n h,
    setStore new cause s =
      { s with day := { s.day with store := new }, lrs := { s.lrs with cursor := n }, hlk := h } := by
  unfold setStore
  dsimp only
  rw [refreshEdge_eq]
  cases cause with
  | none => exact ⟨_, _, rfl⟩
  | some c => exact ⟨_, (notify_touches _ _).choose, (notify_touches _ _).choose_spec⟩

@[simp] theorem setStore_day (new : StoreState) (cause : Option StateCause) (s : State) :
    (setStore new cause s).day = { s.day with store := new } := by
  obtain ⟨n, h, heq⟩ := setStore_touches new cause s
  rw [heq]

@[simp] theorem setStore_tsu (new : StoreState) (cause : Option StateCause) (s : State) :
    (setStore new cause s).tsu = s.tsu := by
  obtain ⟨n, h, heq⟩ := setStore_touches new cause s
  rw [heq]

/-- The STATE notice follows the new state and the refresh cursor. -/
theorem setStore_some (new : StoreState) (c : StateCause) (s : State) : setStore new (some c) s =
    notify (.state s.day.store new s.clock0 c)
      (refreshEdge s.day.store new { s with day := { s.day with store := new } }) := by
  unfold setStore
  dsimp only
  rw [refreshEdge_eq]
  rfl

@[simp] theorem enterOpening_store (cause : Option StateCause) (s : State) :
    (enterOpening cause s).day.store = .opening := by
  unfold enterOpening
  rw [guestDecide_day, abortRun_day]
  exact congrArg Day.store (setStore_day _ _ _)

@[simp] theorem enterOpen_store (cause : Option StateCause) (s : State) : (enterOpen cause s).day.store = .opened := by
  rw [enterOpen, guestDecide_day, setStore_day]

/-! ## The closing grace and the sales in hand (R68, R170) -/

/-- An open basket is closed by its record. -/
def closeOpenBasket (t : Nat) (s : State) : State :=
  if (placeAt s t).state = .basket ∧ (placeAt s t).busy = false then startVoid t .close s else s

/-- With the grace over, the closing of baskets looks at the places alone. -/
theorem closeIfDue_eq_closeOpenBasket (hstore : s.day.store = .closing) (hgrace : s.tsu.grace = none) (t : Nat) :
    closeIfDue t s = closeOpenBasket t s := by
  unfold closeOpenBasket
  split
  case isTrue h => exact closeIfDue_of_due hstore hgrace h.1 h.2
  case isFalse h =>
    refine closeIfDue_of_not_due ?_
    by_cases hbasket : (placeAt s t).state = .basket
    · exact .inr (.inr (.inr (by simpa [hbasket] using h)))
    · exact .inr (.inr (.inl hbasket))

theorem foldl_closeIfDue (l : List Nat) (hstore : s.day.store = .closing) (hgrace : s.tsu.grace = none) :
    l.foldl (fun u t => closeIfDue t u) s = l.foldl (fun u t => closeOpenBasket t u) s := by
  induction l generalizing s with
  | nil => rfl
  | cons t l ih =>
    rw [List.foldl_cons, List.foldl_cons, ih (by simpa using hstore) (by simpa using hgrace),
      closeIfDue_eq_closeOpenBasket hstore hgrace]

theorem startGrace_of_grace (hgrace : s.settings.nat .closingGrace ≠ 0) : startGrace s =
    { s with tsu := { s.tsu with grace := some (s.timer + 60000 * s.settings.nat .closingGrace) } } := if_neg hgrace

/-- A grace of 0 closes the open baskets at once. -/
theorem startGrace_of_no_grace (hgrace : s.settings.nat .closingGrace = 0) (hstore : s.day.store = .closing) :
    startGrace s = (List.range 16).foldl (fun u t => closeOpenBasket t u)
      { s with tsu := { s.tsu with grace := none } } :=
  (if_pos hgrace).trans (foldl_closeIfDue _ hstore rfl)

/-- The closing of a basket leaves the sale in hand. -/
theorem closeIfDue_inHand (t : Nat) (s : State) :
    (closeIfDue t s).tsu.places.map Place.inHand = s.tsu.places.map Place.inHand := by
  unfold closeIfDue
  dsimp only
  split
  case isFalse => rfl
  case isTrue =>
    show (s.tsu.places.set t { placeAt s t with busy := true }).map Place.inHand = _
    rw [List.map_set]
    refine List.ext_getElem? fun i => ?_
    rw [List.getElem?_set]
    split
    case isFalse => rfl
    case isTrue hi =>
      subst hi
      by_cases ht : t < s.tsu.places.length
      · rw [if_pos (by simpa using ht), List.getElem?_map, List.getElem?_eq_getElem ht, placeAt, List.getD_eq_getElem?_getD,
          List.getElem?_eq_getElem ht]
        rfl
      · rw [if_neg (by simpa using ht), List.getElem?_map, List.getElem?_eq_none (Nat.not_lt.1 ht), Option.map_none]

theorem tillsDone_eq (s : State) : tillsDone s = (s.tsu.places.map Place.inHand).all (! ·) := by
  rw [tillsDone, List.all_map]
  rfl

theorem foldl_closeIfDue_inHand (l : List Nat) (s : State) :
    (l.foldl (fun u t => closeIfDue t u) s).tsu.places.map Place.inHand = s.tsu.places.map Place.inHand := by
  induction l generalizing s with
  | nil => rfl
  | cons t l ih => exact (ih _).trans (closeIfDue_inHand t s)

theorem foldl_closeIfDue_day (l : List Nat) (s : State) : (l.foldl (fun u t => closeIfDue t u) s).day = s.day := by
  induction l generalizing s with
  | nil => rfl
  | cons t l ih => exact (ih _).trans (closeIfDue_day t s)

theorem startGrace_inHand (s : State) :
    (startGrace s).tsu.places.map Place.inHand = s.tsu.places.map Place.inHand := by
  unfold startGrace
  split
  · rw [closeBaskets, foldl_closeIfDue_inHand]
  · rfl

@[simp] theorem startGrace_day (s : State) : (startGrace s).day = s.day := by
  unfold startGrace
  split
  · rw [closeBaskets, foldl_closeIfDue_day]
  · rfl

/-- The state that CLOSING enters, before the tills are looked at. -/
def closingEntered (cause : Option StateCause) (s : State) : State :=
  guestDecide (startGrace (setStore .closing cause s))

theorem closingEntered_store (cause : Option StateCause) (s : State) :
    (closingEntered cause s).day.store = .closing := by
  rw [closingEntered, guestDecide_day, startGrace_day, setStore_day]

theorem tillsDone_closingEntered (cause : Option StateCause) (s : State) :
    tillsDone (closingEntered cause s) = tillsDone s := by
  rw [tillsDone_eq, closingEntered, guestDecide_tsu, startGrace_inHand, setStore_tsu, ← tillsDone_eq]

/-! ## NIGHT (R69, R160, R170, R173) -/

theorem closeIdle_touches (t : Nat) (s : State) : ∃ l o, closeIdle t s =
    { s with tsu := { s.tsu with places := l }, out := o } := by
  unfold closeIdle
  dsimp only
  split <;> exact ⟨_, _, rfl⟩

theorem closeIdlePlaces_touches (s : State) : ∃ l o, closeIdlePlaces s =
    { s with tsu := { s.tsu with places := l }, out := o } := by
  unfold closeIdlePlaces
  induction tillNumbers generalizing s with
  | nil => exact ⟨_, _, rfl⟩
  | cons t l ih =>
    obtain ⟨p, o, hone⟩ := closeIdle_touches t s
    obtain ⟨p', o', hrest⟩ := ih (closeIdle t s)
    rw [List.foldl_cons, hrest, hone]
    exact ⟨_, _, rfl⟩

@[simp] theorem closeIdlePlaces_day (s : State) : (closeIdlePlaces s).day = s.day := by
  obtain ⟨l, o, heq⟩ := closeIdlePlaces_touches s
  rw [heq]

theorem startQuietDelay_store (s : State) : (startQuietDelay s).day.store = s.day.store := rfl

@[simp] theorem when_startRun_day (run : Bool) (cause : StartCause) (s : State) :
    (s.when run (startRun cause)).day = s.day := by
  cases run <;> rfl

theorem nightEffects_store (run : Bool) (s : State) : (nightEffects run s).day.store = s.day.store := by
  rw [nightEffects, startQuietDelay_store, when_startRun_day, guestDecide_day]
  dsimp only
  rw [closeIdlePlaces_day]

@[simp] theorem enterNight_store (s : State) : (enterNight s).day.store = .night := by
  rw [enterNight, nightEffects_store, setStore_day]

theorem testTillsDone_of_not (hnot : s.day.store ≠ .closing ∨ tillsDone s = false) : testTillsDone s = s := by
  refine if_neg ?_
  rintro ⟨hstore, hdone⟩
  rcases hnot with h | h
  · exact h hstore
  · simp [hdone] at h

theorem testTillsDone_of_done (hstore : s.day.store = .closing) (hdone : tillsDone s = true) :
    testTillsDone s = enterNight s := if_pos ⟨hstore, hdone⟩

theorem enterClosing_store_of_sale (hsale : tillsDone s = false) : (enterClosing cause s).day.store = .closing := by
  rw [enterClosing, ← closingEntered, testTillsDone_of_not (.inr ((tillsDone_closingEntered _ _).trans hsale)),
    closingEntered_store]

theorem enterClosing_store_of_done (hdone : tillsDone s = true) : (enterClosing cause s).day.store = .night := by
  rw [enterClosing, ← closingEntered, testTillsDone_of_done (closingEntered_store _ _)
    ((tillsDone_closingEntered _ _).trans hdone), enterNight_store]

theorem answerMove_of_from {tag : Nat} {k : RequestKind} {f : State → State} (hstore : s.day.store = new) :
    answerMove tag k new f s = reply tag k .ok .empty (f s) := if_pos hstore

theorem answerMove_of_other {tag : Nat} {k : RequestKind} {f : State → State} (hstore : s.day.store ≠ new) :
    answerMove tag k new f s = reply tag k .state .empty s := if_neg hstore

end StoreStates

/-- Settles O33: the three requests, and what the entry of each store state does. -/
theorem dayRequestsDecided : Obligations.DayRequestsDecided := by
  unfold Obligations.DayRequestsDecided
  refine ⟨fun h s ha => ⟨fun u hu => ?_, fun u hu => ?_, fun u hu => ?_⟩, fun v cause entered hentered => ?_⟩
  · subst hu
    exact ⟨fun hstore => ⟨(request_admitted _ _ _ _ ha).trans (congrArg (fun x => Host.Outcome.next (finish x))
      (answerMove_of_from hstore)), enterOpening_store _ _⟩, fun hstore => request_replies ha (answerMove_of_other hstore)⟩
  · subst hu
    exact ⟨fun hstore => ⟨(request_admitted _ _ _ _ ha).trans (congrArg (fun x => Host.Outcome.next (finish x))
      (answerMove_of_from hstore)), enterOpen_store _ _⟩, fun hstore => request_replies ha (answerMove_of_other hstore)⟩
  · subst hu
    exact ⟨fun hstore => ⟨(request_admitted _ _ _ _ ha).trans (congrArg (fun x => Host.Outcome.next (finish x))
      (answerMove_of_from hstore)), enterClosing_store_of_sale, enterClosing_store_of_done⟩,
      fun hstore => request_replies ha (answerMove_of_other hstore)⟩
  · have henters : ∀ new, setStore new (some cause) v = entered new := fun new => by
      rw [hentered, setStore_some, refreshEdge_eq]
      simp only [refresh_enabled_edge_iff]
    refine ⟨fun y hy => ?_, congrArg guestDecide (henters _), fun y hy => ⟨fun hgrace => ?_, fun hgrace => ?_⟩,
      testTillsDone_of_not, fun y z g hstore hdone hcause hy hz hg => ?_⟩
    · rw [enterOpening, henters, hy]
    · have hsettings : y.settings = v.settings := by rw [← hy, hentered, notify_settings]
      have htimer : y.timer = v.timer := by rw [← hy, hentered, notify_timer]
      rw [enterClosing, henters, hy, startGrace_of_grace (by rw [hsettings]; exact hgrace), hsettings, htimer]
    · have hsettings : y.settings = v.settings := by rw [← hy, hentered, notify_settings]
      have hclosing : y.day.store = .closing := by rw [← hy, hentered, notify_day]
      rw [enterClosing, henters, hy, startGrace_of_no_grace (by rw [hsettings]; exact hgrace) hclosing]
      rfl
    · subst hcause
      rw [testTillsDone_of_done hstore hdone, enterNight, henters, hy, nightEffects]
      dsimp only
      rw [show closeIdlePlaces { y with tsu := { y.tsu with grace := none } } = z from hz, hg]
      rfl

/-! ## TIME SET (R166) -/

section TimeSet

variable {value : Nat} {src : ClockSource} {s : State}

/-- The state with the clock at its new value and CLOCK SET offered, before the day looks at it. -/
def clockTaken (value : Nat) (src : ClockSource) (s : State) : State :=
  notify (.clockSet s.day.clock value src) { s with day := { s.day with clock := some value, clockMs := 0 } }

theorem timeSet_eq (value : Nat) (src : ClockSource) (s : State) :
    timeSet value src s = afterTimeSet s.day.clock value (clockTaken value src s) := rfl

theorem timeSet_runs_from_clockTaken (value : Nat) (src : ClockSource) (s : State) :
    Runs .inner (view (clockTaken value src s)) (view (timeSet value src s)) := afterTimeSet_runs _ _ _ .refl

theorem clockTaken_clock : (clockTaken value src s).day.clock = some value := by
  rw [clockTaken, notify_day]

theorem clockTaken_replies : (clockTaken value src s).hlk.replies = s.hlk.replies :=
  congrArg Kept.replies (notify_kept _ _)

theorem clockTaken_notice (hheld : s.hlk.held = none) (hroom : s.hlk.notices.length < 32) :
    ∃ n ∈ (clockTaken value src s).hlk.notices, n.body = .clockSet s.day.clock value src := by
  have hjoin : clockTaken value src s = joinNotice _ _ := notify_of_not_held _ hheld
  rw [hjoin, joinNotice_of_room (s := { s with day := { s.day with clock := some value, clockMs := 0 } }) _ hroom]
  exact ⟨_, List.mem_append_right _ List.mem_cons_self, rfl⟩

theorem afterTimeSet_of_set {old : Nat} (hlt : old < value) (v : State) : afterTimeSet (some old) value v =
    ((timedEvents v.settings (max (old + 1) (value - 86400)) (value + 1))).foldl (fun x e => scheduleEvent e.1 x) v := by
  refine (if_pos hlt).trans ?_
  rw [passedEvents, eventsFrom_eq_map, List.foldl_map]

end TimeSet

/-- Settles O32: the answer, the clock and the CLOCK SET notice, and what the store does with the new value. -/
theorem timeSetTaken : Obligations.TimeSetTaken := by
  unfold Obligations.TimeSetTaken
  intro h value s u ha hu
  subst hu
  refine ⟨fun hbad => request_replies ha (if_pos hbad), fun hfits => ⟨_, request_admitted _ _ _ _ ha, ?_, ?_, ?_⟩,
    fun hfits => (request_admitted _ _ _ _ ha).trans (congrArg (fun x => Host.Outcome.next (finish x))
      (if_neg (Nat.not_lt.2 hfits))), fun v => ⟨fun hstore => if_neg hstore, fun hstore => ⟨fun hsched => ?_, fun hsched => ?_,
      fun hsched => ?_⟩, fun old hle => if_neg (Nat.not_lt.2 hle), fun old hlt horder hwithin => ?_⟩⟩
  · refine finish_answered _ _ ?_
    rw [show answerTimeSet h.tag value _ = timeSet value .host _ from if_neg (Nat.not_lt.2 hfits)]
    refine (timeSet_runs_from_clockTaken _ _ _).answered _ (.inl ?_)
    show _ ∈ (clockTaken _ _ _).hlk.replies
    rw [clockTaken_replies]
    exact List.mem_append_right _ List.mem_cons_self
  · rw [show answerTimeSet h.tag value _ = timeSet value .host _ from if_neg (Nat.not_lt.2 hfits)]
    exact (congrArg Prod.fst (finish_after _).clock).trans
      ((congrArg Prod.fst (timeSet_runs_from_clockTaken _ _ _).afterEffects.clock).trans clockTaken_clock)
  · intro hheld hroom
    rw [show answerTimeSet h.tag value _ = timeSet value .host _ from if_neg (Nat.not_lt.2 hfits)]
    obtain ⟨n, hn, hbody⟩ := clockTaken_notice (value := value) (src := .host)
      (s := reply h.tag .timeSet .ok .empty (admitted h .timeSet s)) hheld hroom
    exact ⟨n, (finish_after _).notices.subset ((timeSet_runs_from_clockTaken _ _ _).afterEffects.notices.subset hn), hbody⟩
  · exact (if_pos hstore).trans (by rw [hsched])
  · exact (if_pos hstore).trans (by rw [hsched])
  · exact (if_pos hstore).trans (by rw [hsched])
  · have hday : DaySound v.settings := ⟨horder, hwithin⟩
    refine ⟨_, afterTimeSet_of_set hlt v, timedEvents_pairwise hday _ _, fun e c => ?_⟩
    rw [mem_timedEvents hday]
    constructor
    · rintro ⟨hfrom, hto, hsecond, hin⟩
      exact ⟨hsecond, hin, by omega, by omega, by omega⟩
    · rintro ⟨hsecond, hin, hafter, hto, hback⟩
      exact ⟨by omega, by omega, hsecond, hin⟩

end Sys2Proof.Proofs
end

