-- ==== Sys2Proof/Proofs/HostEvents.lean ====
section
/-! PROOFS. The host link's events: acknowledgements, frames cut short or damaged, the transmitter, the silence timer, and what every valid request does first (R31, R50, R125, R181 to R187, R194). -/

namespace Sys2Proof.Proofs

open Sys2Proof.Machine Sys2Proof.Safety Sys2Proof.Laws

/-- An event at a running part takes its own change, and the after-effects follow. -/
theorem event_takes {f : State → State} {s u : State} (hrun : s.running = true) (h : f s = u) :
    event f s = .next (finish u) := by
  rw [event_running _ _ hrun, h]

section HostEvents

variable {s u : State}

/-! ## Notices acknowledged and sent again (R181, R185) -/

theorem headNotice_iff (h : Hlk) (number : Nat) :
    headNotice h number = true ↔ ∃ n, h.notices.head? = some n ∧ n.number = number := by
  unfold headNotice
  cases h.notices.head? <;> simp

theorem takeNoticeAck_of_head {n : Notice} {rest : List Notice} (hn : s.hlk.notices = n :: rest) :
    takeNoticeAck 0 n.number s = { s with hlk := { s.hlk with notices := rest, ackWait := .unsent } } := by
  rw [takeNoticeAck, if_neg (by simp), if_pos ((headNotice_iff _ _).2 ⟨n, by simp [hn], rfl⟩), hn, List.tail_cons]

theorem takeNoticeAck_of_other {number : Nat} (hn : ∀ n, s.hlk.notices.head? = some n → n.number ≠ number) :
    takeNoticeAck 0 number s = s := by
  rw [takeNoticeAck, if_neg (by simp), if_neg]
  rw [headNotice_iff]
  rintro ⟨n, hhead, hnumber⟩
  exact hn n hhead hnumber

theorem resendDue_of_waiting {x : Nat} (hwait : s.hlk.ackWait = .waiting x) : resendDue s =
    { advanceTo x s with hlk := { (advanceTo x s).hlk with ackWait := .due } } := by
  rw [resendDue, hwait]

theorem resendDue_of_not_waiting (hwait : ∀ x, s.hlk.ackWait ≠ .waiting x) : resendDue s = s := by
  unfold resendDue
  split
  case h_1 x hx => exact absurd hx (hwait x)
  case h_2 => rfl

/-! ## The receiver and the transmitter (R181, R183, R194) -/

theorem byteGapPassed_iff (s : State) :
    byteGapPassed s = true ↔ s.hlk.rx.bytes ≠ [] ∧ s.hlk.rxAt + 20 < s.timer := by
  simp only [byteGapPassed, Bool.and_eq_true, bne_iff_ne, decide_eq_true_eq]
  exact Iff.rfl

theorem hostByteTimeout_mem_dueCommands (s : State) :
    .hostByteTimeout ∈ dueCommands s ↔ s.hlk.rx.bytes ≠ [] ∧ s.hlk.rxAt + 20 < s.timer := by
  rw [mem_dueCommands_of_not_day (by decide), ← byteGapPassed_iff]
  simp [mem_dueTicks, mem_dueRadioHost, mem_dueTills, mem_dueRetries, mem_dueProbe, mem_dueTransfer, mem_dueGuests]

theorem hostTxEnded_of_busy {f : HostFrame} (hf : s.hlk.tx = some f) : hostTxEnded s =
    { s with hlk := { s.hlk with
        tx := none
        resetPhase := if isResetReply f ∧ s.hlk.resetPhase = .sending then .sent else s.hlk.resetPhase } } := by
  rw [hostTxEnded, hf]

theorem hostTxEnded_of_idle (hidle : s.hlk.tx = none) : hostTxEnded s = s := by
  rw [hostTxEnded, hidle]

/-! ## Standalone (R186, R187) -/

theorem advanceTo_hlk_standalone (x : Nat) (s : State) : (advanceTo x s).hlk.standalone = s.hlk.standalone := by
  rw [advanceTo_hlk]

theorem enterStandalone_of_unset {x : Nat} (hat : s.hlk.silenceAt = some x) (hnone : s.hlk.standalone = none) :
    enterStandalone s = { advanceTo x s with hlk := { (advanceTo x s).hlk with
      silenceAt := none, standalone := some (advanceTo x s).timer, standaloneOverrun := false } } := by
  unfold enterStandalone
  rw [hat]
  dsimp only
  rw [advanceTo_hlk_standalone, hnone]
  rfl

theorem enterStandalone_of_set {x : Nat} (hat : s.hlk.silenceAt = some x) (hsome : s.hlk.standalone.isSome) :
    enterStandalone s = { advanceTo x s with hlk := { (advanceTo x s).hlk with silenceAt := none } } := by
  unfold enterStandalone
  rw [hat]
  dsimp only
  obtain ⟨y, hy⟩ := Option.isSome_iff_exists.1 hsome
  rw [advanceTo_hlk_standalone, hy]
  rfl

theorem enterStandalone_of_stopped (hat : s.hlk.silenceAt = none) : enterStandalone s = s := by
  rw [enterStandalone, hat]

theorem endStandalone_of_none (hnone : s.hlk.standalone = none) : endStandalone s = s := by
  rw [endStandalone, hnone]

theorem endStandalone_of_some {x : Nat} (hx : s.hlk.standalone = some x)
    (hu : notify (.hostReturn ((s.timer - x) / 1000) s.hlk.officeDrops s.hlk.standaloneOverrun)
      { s with hlk := { s.hlk with standalone := none } } = u) :
    endStandalone s = { u with hlk := { u.hlk with officeDrops := 0, standaloneOverrun := false } } := by
  rw [endStandalone, hx, ← hu]

theorem takeUnknown_of_bad {tag kind : Nat} (hbad : tag = 0 ∨ 255 < tag ∨ kind = 255) :
    takeUnknown tag kind s = frameError s := by
  refine if_pos ?_
  simp only [Bool.or_eq_true, badTag_iff, beq_iff_eq]
  rcases hbad with h | h | h
  · exact .inl (.inl h)
  · exact .inl (.inr h)
  · exact .inr h

theorem takeUnknown_of_tag {tag kind : Nat} (hlow : 1 ≤ tag) (hhigh : tag ≤ 255) (hkind : kind ≠ 255) :
    takeUnknown tag kind s = replyNow tag (.other kind) .unknownRequest (beginRequest s) := by
  refine if_neg ?_
  simp only [Bool.or_eq_true, badTag_iff, beq_iff_eq]
  omega

/-! ## What an idle transmitter takes (R183, R185, R194) -/

theorem hostPump_of_busy (hbusy : s.hlk.tx.isSome) : hostPump s = s := if_pos (.inr hbusy)

theorem hostPump_of_idle (hrun : s.running = true) (hidle : s.hlk.tx = none) : hostPump s =
    match (if writesStopped s then [] else s.hlk.replies) with
    | r :: rest => sendReply r rest s
    | [] =>
      match noticeToSend s.hlk with
      | some n => sendNotice n s
      | none => s :=
  if_neg (by simp [hrun, hidle])

theorem hostPump_of_reply (hrun : s.running = true) (hidle : s.hlk.tx = none) (hwrites : writesStopped s = false)
    {r : Reply} {rest : List Reply} (hr : s.hlk.replies = r :: rest) : hostPump s = sendReply r rest s := by
  rw [hostPump_of_idle hrun hidle, if_neg (by simp [hwrites]), hr]

theorem hostPump_of_no_reply (hrun : s.running = true) (hidle : s.hlk.tx = none)
    (hnone : s.hlk.replies = [] ∨ writesStopped s = true) :
    hostPump s = match noticeToSend s.hlk with
      | some n => sendNotice n s
      | none => s := by
  have hreplies : (if writesStopped s = true then [] else s.hlk.replies) = [] := by
    rcases hnone with h | h <;> simp [h]
  rw [hostPump_of_idle hrun hidle, hreplies]

theorem noticeToSend_of_head {n : Notice} {rest : List Notice} (hn : s.hlk.notices = n :: rest)
    (hwait : ∀ x, s.hlk.ackWait ≠ .waiting x) : noticeToSend s.hlk = some n := by
  unfold noticeToSend
  split
  case h_1 x hx => exact absurd hx (hwait x)
  case h_2 => rw [hn, List.head?_cons]

theorem noticeToSend_of_none (hnone : s.hlk.notices = [] ∨ ∃ x, s.hlk.ackWait = .waiting x) :
    noticeToSend s.hlk = none := by
  unfold noticeToSend
  split
  case h_1 => rfl
  case h_2 hother =>
    rcases hnone with h | ⟨x, hx⟩
    · rw [h, List.head?_nil]
    · exact absurd hx (hother x)

theorem writesStopped_iff (s : State) :
    writesStopped s = true ↔ s.hlk.resetPhase = .sending ∨ s.hlk.resetPhase = .sent := by
  simp [writesStopped]

end HostEvents

/-- Settles O36: each event of the host link, and the steps that every request and the transmitter share. -/
theorem hostLinkEventsTaken : Obligations.HostLinkEventsTaken := by
  unfold Obligations.HostLinkEventsTaken
  intro s hrun
  refine ⟨fun tag number htag => event_takes hrun (if_pos htag), fun n rest hn => event_takes hrun (takeNoticeAck_of_head hn),
    fun number hn => event_takes hrun (takeNoticeAck_of_other hn), fun hrx => event_takes hrun (if_pos hrx),
    fun u hrx hu => event_takes hrun ((if_neg hrx).trans (congrArg dropFrame hu)), hostByteTimeout_mem_dueCommands s,
    event_takes hrun rfl, event_takes hrun rfl, event_takes hrun rfl, event_takes hrun rfl,
    fun p => event_takes hrun rfl, fun f hf => event_takes hrun (hostTxEnded_of_busy hf),
    fun hidle => event_takes hrun (hostTxEnded_of_idle hidle), fun x u hwait hu => event_takes hrun ?_,
    fun hwait => event_takes hrun (resendDue_of_not_waiting hwait),
    fun x u hat hu => ⟨fun hnone => event_takes hrun ?_, fun hsome => event_takes hrun ?_⟩,
    fun hat => event_takes hrun (enterStandalone_of_stopped hat), fun tag kind u hlow hhigh hkind hu => event_takes hrun ?_,
    fun tag kind hbad => event_takes hrun (takeUnknown_of_bad hbad), fun h k u v hu hv => ?_, endStandalone_of_none,
    fun x u hx hu => endStandalone_of_some hx hu, hostPump_of_busy, fun hidle => ⟨fun r rest hwrites hr => ?_,
      fun hnone => ⟨fun n rest hn hwait => ?_, fun hno => ?_⟩⟩, writesStopped_iff s⟩
  · rw [resendDue_of_waiting hwait, hu]
  · rw [enterStandalone_of_unset hat hnone, hu]
  · rw [enterStandalone_of_set hat hsome, hu]
  · rw [takeUnknown_of_tag hlow hhigh hkind, hu]
    rfl
  · subst hu hv
    exact ⟨rfl, rfl⟩
  · exact hostPump_of_reply hrun hidle hwrites hr
  · rw [hostPump_of_no_reply hrun hidle hnone, noticeToSend_of_head hn hwait]
    rfl
  · rw [hostPump_of_no_reply hrun hidle hnone, noticeToSend_of_none hno]

end Sys2Proof.Proofs
end

