-- ==== Sys2Proof/Proofs/TillAnswers.lean ====
section
/-! PROOFS. What the tills' sale requests are answered, and what an accepted tender starts: POLL, SALE CANCEL, LINE ADD, LINE VOID, TENDER CASH and TENDER CARD (R53, R56 to R62), and the claims of journal places (R91, R92). -/

namespace Sys2Proof.Proofs

open Sys2Proof.Machine Sys2Proof.Safety Sys2Proof.Laws

/-! ## Requests that only a BASKET place accepts -/

section Basket

variable {s : State} {h : TillHead} {k : TillKind} {own : State → State} {u : State}

/-- The request's own rule gives the state that follows. -/
theorem fieldless_takes (ha : TillAdmits s h) (hown : own (putPlace h.till (touched s h) s) = u) :
    tillRequest h k (ifFits h k own) s = .next (finish u) :=
  (fieldlessRequest_of_admits ha k own).trans (congrArg (fun x => Host.Outcome.next (finish x)) hown)

theorem inBasket_of_other (ha : TillAdmits s h) (hstate : (placeAt s h.till).state ≠ .basket) :
    tillRequest h k (inBasket h k own) s = .next (finish (tillAnswer h k .state .empty (touched s h) s)) := by
  rw [tillRequest_of_admits ha, inBasket, placeAt_touched ha, if_pos (show (touched s h).state ≠ .basket from hstate),
    answerTill_touched ha]

theorem inBasket_takes (ha : TillAdmits s h) (hstate : (placeAt s h.till).state = .basket)
    (hown : own (putPlace h.till (touched s h) s) = u) : tillRequest h k (inBasket h k own) s = .next (finish u) := by
  rw [tillRequest_of_admits ha, inBasket, placeAt_touched ha,
    if_neg (show ¬(touched s h).state ≠ .basket from not_not_intro hstate), if_pos ha.fits, hown]

/-- An answer clears the flag of the place just written, and its last frame is of this moment (R51). -/
theorem answerTill_cleared (ha : TillAdmits s h) (r : Result) (b : TillBody) {p q : Place}
    (haddr : p.addr = some h.addr) (hq : clearedPlace s.timer p = q) :
    answerTill h.till k r b (putPlace h.till p s) = tillAnswer h k r b q s := by
  have hplace := placeAt_putPlace_same p (tillAdmits_inPlaces ha)
  simp [answerTill, clearBusy, sendTill, tillAnswer, hplace, hq, haddr, putPlace_emit]

/-- An answer that leaves the place with another content. -/
theorem answerTill_putPlace_touched (ha : TillAdmits s h) (r : Result) (b : TillBody) {p : Place}
    (haddr : p.addr = some h.addr) (hbusy : p.busy = false) (hlast : p.lastFrame = s.timer) :
    answerTill h.till k r b (putPlace h.till p (putPlace h.till (touched s h) s)) = tillAnswer h k r b p s := by
  rw [putPlace_putPlace, answerTill_putPlace k r b (tillAdmits_inPlaces ha) haddr hbusy hlast]

/-- The append that a request starts sets the place's flag. -/
theorem startAppend_touched (ha : TillAdmits s h) (body : RecordBody) (given : Int) :
    startAppend h.till body given (putPlace h.till (touched s h) s) =
      { s with
        tsu := { s.tsu with places := s.tsu.places.set h.till { touched s h with busy := true } }
        sjr := { s.sjr with queue := s.sjr.queue ++ [{ till := h.till, body := body, given := given }] } } := by
  rw [startAppend, placeAt_touched ha, putPlace_putPlace]
  rfl

theorem startAppend_claimed (ha : TillAdmits s h) (body : RecordBody) (given : Int) (n : Nat) :
    startAppend h.till body given (addClaim h.till n (putPlace h.till (touched s h) s)) =
      { s with
        tsu := { s.tsu with places := s.tsu.places.set h.till { touched s h with busy := true } }
        sjr := { s.sjr with
          claims := s.sjr.claims.modify h.till (· + n)
          queue := s.sjr.queue ++ [{ till := h.till, body := body, given := given }] } } :=
  congrArg (addClaim h.till n) (startAppend_touched ha body given)

end Basket

/-! ## POLL and SALE CANCEL (R53, R59) -/

theorem answerSaleCancel_of_basket {h : TillHead} {u : State} (hstate : (placeAt u h.till).state = .basket) :
    answerSaleCancel h u =
      if (placeAt u h.till).basket = [] then
        testTillsDone (answerTill h.till .saleCancel .ok .empty (putPlace h.till (idlePlace (placeAt u h.till)) u))
      else startVoid h.till .cancelled u := by
  unfold answerSaleCancel
  simp only [hstate]

/-- Settles O41. -/
theorem pollAndCancelDecided : Obligations.PollAndCancelDecided := by
  unfold Obligations.PollAndCancelDecided
  intro h s p ha hp
  subst hp
  have hplace := placeAt_touched ha
  refine ⟨fieldless_takes ha ?_, fun hidle => fieldless_takes ha ?_, fun hauth => fieldless_takes ha ?_,
    fun hbasket hempty => fieldless_takes ha ?_, fun hbasket hlines => fieldless_takes ha ?_⟩
  · rw [answerPoll, hplace, answerTill_touched ha]
    rfl
  · have hstate : (touched s h).state = .idle := hidle
    simp only [answerSaleCancel, hplace, hstate, answerTill_touched ha]
  · have hstate : (touched s h).state = .authorizing := hauth
    simp only [answerSaleCancel, hplace, hstate, answerTill_touched ha]
  · rw [answerSaleCancel_of_basket (by rw [hplace]; exact hbasket), hplace, if_pos (show (touched s h).basket = [] from hempty), answerTill_putPlace_touched (p := idlePlace (touched s h)) ha _ _ ha.address ha.clear rfl]
    rfl
  · rw [answerSaleCancel_of_basket (by rw [hplace]; exact hbasket), hplace, if_neg (show ¬(touched s h).basket = [] from hlines), startVoid, hplace, startAppend_touched ha]
    rfl

/-! ## LINE ADD and LINE VOID (R56, R57, R58) -/

section Lines

variable {s : State} {h : TillHead} {item : Nat} {qty : Int} {keyed : Option Nat}

theorem lineInRange_eq_false_iff : lineInRange item qty keyed = false ↔
    item = 0 ∨ qty = 0 ∨ qty < -999 ∨ 999 < qty ∨ ∃ k, keyed = some k ∧ 9999999 < k := by
  have hkeyed : (match keyed with | some k => decide (k ≤ Config.maxPrice) | none => true) = false ↔
      ∃ k, keyed = some k ∧ 9999999 < k := by
    cases keyed with
    | none => simp
    | some k =>
      simp only [Option.some.injEq, exists_eq_left', decide_eq_false_iff_not, Nat.not_le]
      exact Iff.rfl
  simp only [lineInRange, Bool.and_eq_false_iff, bne_eq_false_iff_eq, decide_eq_false_iff_not, Int.not_le, or_assoc]
  exact or_congr_right (or_congr_right (or_congr_right (or_congr_right hkeyed)))

theorem totalFits_eq_false_iff (t : Int) : totalFits t = false ↔ t < -99999999 ∨ 99999999 < t := by
  simp only [totalFits, Bool.and_eq_false_iff, decide_eq_false_iff_not, Int.not_le]
  exact Iff.rfl

theorem findItem_putPlace (t : Nat) (p : Place) (s : State) (item : Nat) :
    findItem (putPlace t p s) item = findItem s item := rfl

theorem linePrice_putPlace (t : Nat) (p : Place) (s : State) (item : Nat) (keyed : Option Nat) :
    linePrice (putPlace t p s) item keyed = linePrice s item keyed := rfl

/-- The state in which a LINE ADD waits for its turn: its place's flag is set. -/
def lineWaits (s : State) (h : TillHead) : State := putPlace h.till { touched s h with busy := true } s

theorem placeAt_lineWaits (ha : TillAdmits s h) : placeAt (lineWaits s h) h.till = { touched s h with busy := true } :=
  placeAt_putPlace_same _ (tillAdmits_inPlaces ha)

/-- The answer clears the flag again. -/
theorem answerTill_lineWaits (ha : TillAdmits s h) (k : TillKind) (r : Result) (b : TillBody) :
    answerTill h.till k r b (lineWaits s h) = tillAnswer h k r b (touched s h) s :=
  answerTill_cleared ha r b ha.address (clearedPlace_eq_self (p := touched s h) ha.clear rfl)

theorem addLine_lineWaits (ha : TillAdmits s h) (l : BasketLine) : addLine h.till l (lineWaits s h) =
    tillAnswer h .lineAdd .ok (.line l.number l.price l.origin (basketTotal ((placeAt s h.till).basket ++ [l])))
      { touched s h with basket := (placeAt s h.till).basket ++ [l] } s := by
  unfold addLine
  simp only [placeAt_lineWaits ha]
  rw [lineWaits, putPlace_putPlace]
  refine answerTill_cleared ha _ _ ha.address ?_
  exact clearedPlace_eq_self (p := { touched s h with basket := (placeAt s h.till).basket ++ [l] }) ha.clear rfl

theorem basketTotal_append (b : List BasketLine) (l : BasketLine) (hl : l.voided = false) :
    basketTotal (b ++ [l]) = basketTotal b + l.qty * l.price := by
  simp [basketTotal, BasketLine.amount, hl]

/-- The turn of a LINE ADD that nothing holds comes at once. -/
theorem drainAll_lineAdd (hready : Ready s [.item item]) :
    drainAll (queueWork (.lineAdd h.till item qty keyed) (lineWaits s h)) =
      takeLineAdd h.till item qty keyed (lineWaits s h) :=
  drainAll_ready (.lineAdd h.till item qty keyed) (lineWaits s h) hready.none hready.free

theorem takeLineAdd_of_range (ha : TillAdmits s h) (hbad : lineInRange item qty keyed = false) :
    takeLineAdd h.till item qty keyed (lineWaits s h) = tillAnswer h .lineAdd .range .empty (touched s h) s := by
  rw [takeLineAdd, if_pos hbad, answerTill_lineWaits ha]

theorem takeLineAdd_of_full (ha : TillAdmits s h) (hfits : lineInRange item qty keyed = true)
    (hfull : 64 ≤ (placeAt s h.till).basket.length) :
    takeLineAdd h.till item qty keyed (lineWaits s h) = tillAnswer h .lineAdd .lineLimit .empty (touched s h) s := by
  rw [takeLineAdd, if_neg (by simp [hfits]), placeAt_lineWaits ha]
  exact (if_pos hfull).trans (answerTill_lineWaits ha ..)

/-- With room in the basket and its fields in range, the line goes by its price. -/
theorem takeLineAdd_of_room (ha : TillAdmits s h) (hfits : lineInRange item qty keyed = true)
    (hroom : (placeAt s h.till).basket.length < 64) :
    takeLineAdd h.till item qty keyed (lineWaits s h) =
      match linePrice s item keyed with
      | .error r => tillAnswer h .lineAdd r .empty (touched s h) s
      | .ok (price, origin) =>
        if totalFits (basketTotal (placeAt s h.till).basket + qty * price) = false then
          tillAnswer h .lineAdd .totalRange .empty (touched s h) s
        else addLine h.till
          { number := (placeAt s h.till).basket.length + 1, item := item, qty := qty, price := price, origin := origin
            voided := false } (lineWaits s h) := by
  rw [takeLineAdd, if_neg (by simp [hfits]), placeAt_lineWaits ha]
  refine (if_neg (Nat.not_le.2 hroom)).trans ?_
  have hprice : linePrice (lineWaits s h) item keyed = linePrice s item keyed := linePrice_putPlace ..
  rw [hprice]
  cases linePrice s item keyed with
  | error r => exact answerTill_lineWaits ha ..
  | ok x =>
    simp only [answerTill_lineWaits ha]
    rfl

/-! ### A line's price (R57) -/

theorem linePrice_of_charged {e : Item} {c : Nat} (he : findItem s item = some e) (hc : chargePrice s e = some c) :
    linePrice s item keyed = .ok (c, .book) := by
  simp only [linePrice, he, hc]

theorem chargePrice_of_openPrice {e : Item} (hopen : e.openPrice = true) : chargePrice s e = none := if_pos hopen

theorem linePrice_of_openPrice {e : Item} (he : findItem s item = some e) (hopen : e.openPrice = true) :
    linePrice s item keyed = match keyed with | some k => .ok (k, .keyed) | none => .error .priceNeeded := by
  simp only [linePrice, he, chargePrice_of_openPrice hopen] <;> cases keyed <;> rfl

theorem linePrice_of_unknown (hnone : findItem s item = none) : linePrice s item keyed =
    if s.settings.on .keyedUnknown then
      match keyed with
      | some k => .ok (k, .keyed)
      | none => .error .priceNeeded
    else .error .unknownItem := by
  simp only [linePrice, hnone] <;> cases keyed <;> rfl

/-! ### The line that LINE VOID names (R58) -/

theorem voidable_eq_false_iff {line : Nat} {b : List BasketLine} :
    (b.any fun l => l.number == line && !l.voided) = false ↔ ∀ l ∈ b, l.number = line → l.voided = true := by
  simp

theorem answerLineVoid_of_no_line (ha : TillAdmits s h) {line : Nat}
    (hnone : ∀ l ∈ (placeAt s h.till).basket, l.number = line → l.voided = true) :
    answerLineVoid h line (putPlace h.till (touched s h) s) =
      tillAnswer h .lineVoid .noLine .empty (touched s h) s := by
  unfold answerLineVoid
  simp only [placeAt_touched ha]
  rw [if_pos (voidable_eq_false_iff (b := (touched s h).basket).2 hnone), answerTill_touched ha]

theorem answerLineVoid_of_line (ha : TillAdmits s h) {line : Nat}
    (hline : ∃ l ∈ (placeAt s h.till).basket, l.number = line ∧ l.voided = false) :
    answerLineVoid h line (putPlace h.till (touched s h) s) =
      if totalFits (basketTotal (voidLine line (placeAt s h.till).basket)) = false then
        tillAnswer h .lineVoid .totalRange .empty (touched s h) s
      else tillAnswer h .lineVoid .ok (.total (basketTotal (voidLine line (placeAt s h.till).basket)))
        { touched s h with basket := voidLine line (placeAt s h.till).basket } s := by
  have hvoidable : ¬((touched s h).basket.any fun l => l.number == line && !l.voided) = false := by
    rw [voidable_eq_false_iff]
    intro hnone
    obtain ⟨l, hl, hnumber, hvoided⟩ := hline
    simp [hnone l hl hnumber] at hvoided
  unfold answerLineVoid
  simp only [placeAt_touched ha]
  rw [if_neg hvoidable, answerTill_touched ha, answerTill_putPlace_touched
    (p := { touched s h with basket := voidLine line (touched s h).basket }) ha _ _ ha.address ha.clear rfl]
  rfl

end Lines

/-- Settles O42: LINE ADD's judgement when its turn comes, a line's price, and LINE VOID. -/
theorem linesDecided : Obligations.LinesDecided := by
  unfold Obligations.LinesDecided
  intro h s p ha hp
  subst hp
  refine ⟨fun hother item qty keyed line => ⟨inBasket_of_other ha hother, inBasket_of_other ha hother⟩,
    fun hbasket item qty keyed u hu => ⟨inBasket_takes ha hbasket ?_, fun hready => ?_⟩,
    fun item keyed => ⟨fun e c he hc => linePrice_of_charged he hc, fun e he hopen => ⟨fun k hk => ?_, fun hnone => ?_⟩,
      fun hnone => ⟨fun hon k hk => ?_, fun hon hk => ?_, fun hoff => ?_⟩⟩,
    fun hbasket line b hb => ⟨fun hnone => inBasket_takes ha hbasket (answerLineVoid_of_no_line ha hnone),
      fun hline => ⟨fun hbad => inBasket_takes ha hbasket ?_, fun hlow hhigh => inBasket_takes ha hbasket ?_⟩⟩⟩
  · rw [setBusy, placeAt_touched ha, putPlace_putPlace]
    exact hu
  · have hdrain : drainAll u = takeLineAdd h.till item qty keyed (lineWaits s h) := by
      rw [← hu]
      exact drainAll_lineAdd hready
    rw [hdrain]
    refine ⟨fun hbad => takeLineAdd_of_range ha (lineInRange_eq_false_iff.2 hbad), fun hitem hqty hlow hhigh hkeyed => ?_⟩
    have hfits : lineInRange item qty keyed = true := by
      rw [← Bool.not_eq_false, lineInRange_eq_false_iff]
      rintro (h | h | h | h | ⟨k, hk, hbig⟩)
      · exact hitem h
      · exact hqty h
      · omega
      · omega
      · exact Nat.not_lt.2 (hkeyed k hk) hbig
    refine ⟨takeLineAdd_of_full ha hfits, fun hroom => ?_⟩
    rw [takeLineAdd_of_room ha hfits hroom]
    refine ⟨fun r hr => by rw [hr], fun price origin hprice => ?_⟩
    rw [hprice]
    refine ⟨fun hbad => if_pos ((totalFits_eq_false_iff _).2 hbad), fun hlow hhigh => ?_⟩
    refine (if_neg fun hbad => ?_).trans ?_
    · have := (totalFits_eq_false_iff _).1 hbad
      omega
    · rw [addLine_lineWaits ha, basketTotal_append _ _ rfl]
  · rw [linePrice_of_openPrice he hopen, hk]
  · rw [linePrice_of_openPrice he hopen, hnone]
  · rw [linePrice_of_unknown hnone, if_pos hon, hk]
  · rw [linePrice_of_unknown hnone, if_pos hon, hk]
  · rw [linePrice_of_unknown hnone, if_neg (by simp [hoff])]
  · subst hb
    rw [answerLineVoid_of_line ha hline]
    exact if_pos ((totalFits_eq_false_iff _).2 hbad)
  · subst hb
    rw [answerLineVoid_of_line ha hline]
    refine if_neg fun hbad => ?_
    have := (totalFits_eq_false_iff _).1 hbad
    simp only [voidLine] at this
    omega

/-! ## TENDER CASH and TENDER CARD (R60, R61, R62) -/

section Tenders

variable {s : State} {h : TillHead} {given : Nat} {card : CardRef}

theorem hasLine_eq_false_iff {b : List BasketLine} : hasLine b = false ↔ ∀ l ∈ b, l.voided = true := by
  simp [hasLine]

theorem hasLine_of_line {b : List BasketLine} (hline : ∃ l ∈ b, l.voided = false) : ¬hasLine b = false := by
  rw [hasLine_eq_false_iff]
  intro hall
  obtain ⟨l, hl, hvoided⟩ := hline
  simp [hall l hl] at hvoided

/-- TENDER CASH's answer with the place's own figures. -/
theorem answerTenderCash_eq (ha : TillAdmits s h) (given : Nat) :
    answerTenderCash h given (putPlace h.till (touched s h) s) =
      if 99999999 < given then tillAnswer h .tenderCash .range .empty (touched s h) s
      else if hasLine (placeAt s h.till).basket = false then tillAnswer h .tenderCash .noLine .empty (touched s h) s
      else if (given : Int) < basketTotal (placeAt s h.till).basket then
        tillAnswer h .tenderCash .short .empty (touched s h) s
      else if claimGranted s.sjr 1 = false then tillAnswer h .tenderCash .journalFull .empty (touched s h) s
      else
        { s with
          tsu := { s.tsu with places := s.tsu.places.set h.till { touched s h with busy := true } }
          sjr := { s.sjr with
            claims := s.sjr.claims.modify h.till (· + 1)
            queue := s.sjr.queue ++
              [{ till := h.till
                 body := .sale (basketTotal (placeAt s h.till).basket) .cash none none false (placeAt s h.till).basket
                 given := given }] } } := by
  unfold answerTenderCash
  simp only [placeAt_touched ha, answerTill_touched ha, startAppend_claimed ha]
  rfl

/-- TENDER CARD's answer with the place's own figures. -/
theorem answerTenderCard_eq (ha : TillAdmits s h) (card : CardRef) :
    answerTenderCard h card (putPlace h.till (touched s h) s) =
      if hasLine (placeAt s h.till).basket = false then tillAnswer h .tenderCard .noLine .empty (touched s h) s
      else if basketTotal (placeAt s h.till).basket ≤ 0 then
        tillAnswer h .tenderCard .notAllowed .empty (touched s h) s
      else if claimGranted s.sjr 2 = false then tillAnswer h .tenderCard .journalFull .empty (touched s h) s
      else
        { s with
          tsu := { s.tsu with places := s.tsu.places.set h.till { touched s h with busy := true } }
          sjr := { s.sjr with
            claims := s.sjr.claims.modify h.till (· + 2)
            queue := s.sjr.queue ++
              [{ till := h.till, body := .authTrace (basketTotal (placeAt s h.till).basket).toNat card
                 given := 0 }] } } := by
  unfold answerTenderCard
  simp only [placeAt_touched ha, answerTill_touched ha, startAppend_claimed ha]
  rfl

end Tenders

/-- Settles O43. -/
theorem tendersDecided : Obligations.TendersDecided := by
  unfold Obligations.TendersDecided
  intro h s p given card ha hp
  subst hp
  have hcash := answerTenderCash_eq ha given
  have hcard := answerTenderCard_eq ha card
  refine ⟨fun hother => ⟨inBasket_of_other ha hother, inBasket_of_other ha hother⟩, fun hbasket =>
    ⟨fun hbad => inBasket_takes ha hbasket (hcash.trans (if_pos hbad)), fun hfits =>
      ⟨fun hall => inBasket_takes ha hbasket (hcash.trans ?_), fun hline =>
        ⟨fun hshort => inBasket_takes ha hbasket (hcash.trans ?_),
          fun hpaid hclaim => inBasket_takes ha hbasket (hcash.trans ?_),
          fun hpaid hclaim => inBasket_takes ha hbasket (hcash.trans ?_)⟩⟩,
      fun hall => inBasket_takes ha hbasket (hcard.trans (if_pos (hasLine_eq_false_iff.2 hall))), fun hline =>
        ⟨fun hnothing => inBasket_takes ha hbasket (hcard.trans ?_),
          fun hsome hclaim => inBasket_takes ha hbasket (hcard.trans ?_),
          fun hsome hclaim => inBasket_takes ha hbasket (hcard.trans ?_)⟩⟩⟩
  · rw [if_neg (Nat.not_lt.2 hfits), if_pos (hasLine_eq_false_iff.2 hall)]
  · rw [if_neg (Nat.not_lt.2 hfits), if_neg (hasLine_of_line hline), if_pos hshort]
  · rw [if_neg (Nat.not_lt.2 hfits), if_neg (hasLine_of_line hline), if_neg (Int.not_lt.2 hpaid), if_pos hclaim]
  · rw [if_neg (Nat.not_lt.2 hfits), if_neg (hasLine_of_line hline), if_neg (Int.not_lt.2 hpaid), if_neg (by simp [hclaim])]
  · rw [if_neg (hasLine_of_line hline), if_pos hnothing]
  · rw [if_neg (hasLine_of_line hline), if_neg (Int.not_le.2 hsome), if_pos hclaim]
  · rw [if_neg (hasLine_of_line hline), if_neg (Int.not_le.2 hsome), if_neg (by simp [hclaim])]

/-! ## Claims of journal places (R91, R92) -/

section Claims

theorem sum_modify_add {l : List Nat} {i : Nat} (n : Nat) (hi : i < l.length) :
    (l.modify i (· + n)).sum = l.sum + n := by
  induction l generalizing i with
  | nil => exact absurd hi (Nat.not_lt_zero _)
  | cons a l ih =>
    cases i with
    | zero => simp [Nat.add_right_comm]
    | succ i => simp [ih (Nat.lt_of_succ_lt_succ hi), Nat.add_assoc]

/-- The numbers that an unclaimed record under way takes. -/
theorem numbersTaken_eq {j : Sjr} {m : Nat} (hm : m = (match j.writing with
    | some w => (match w.append.body with
      | .voidedBasket .. => 1
      | _ => 0)
    | none => 0)) : j.numbersTaken = j.counter + m + j.claimed := by
  subst hm
  unfold Sjr.numbersTaken
  cases j.writing with
  | none => rfl
  | some w =>
    dsimp only
    cases w.append.body <;> rfl

end Claims

/-- Settles O44. -/
theorem claimsKeepTheReserve : Obligations.ClaimsKeepTheReserve := by
  unfold Obligations.ClaimsKeepTheReserve
  intro s till n m
  refine ⟨fun hm => ?_, fun hplaces => ?_, fun htill hgranted => ?_, fun h card given ha hbasket hline =>
    ⟨fun hfits hpaid hclaim => inBasket_takes ha hbasket ?_, fun hsome hclaim => inBasket_takes ha hbasket ?_⟩⟩
  · rw [claimGranted, Bool.and_eq_true, decide_eq_true_eq, decide_eq_true_eq, numbersTaken_eq hm]
    simp only [Config.journalReserve, Config.journalPlaces, Config.max32]
  · simp only [Sjr.free, Config.journalPlaces]
    omega
  · have hsum := sum_modify_add n htill
    rw [claimGranted, Bool.and_eq_true, decide_eq_true_eq] at hgranted
    obtain ⟨hroom, -⟩ := hgranted
    refine ⟨rfl, hsum, ?_⟩
    show Config.journalPlaces - s.sjr.held - (s.sjr.claims.modify till (· + n)).sum + n =
      Config.journalPlaces - s.sjr.held - s.sjr.claimed
    simp only [Sjr.claimed, Config.journalReserve, Config.journalPlaces] at *
    omega
  · rw [answerTenderCash_eq ha, if_neg (Nat.not_lt.2 hfits), if_neg (hasLine_of_line hline), if_neg (Int.not_lt.2 hpaid),
      if_pos hclaim]
  · rw [answerTenderCard_eq ha, if_neg (hasLine_of_line hline), if_neg (Int.not_le.2 hsome), if_pos hclaim]

/-! ## The charge price (R5) -/

section Charge

theorem foldl_min_le (l : List Nat) (a : Nat) : l.foldl min a ≤ a ∧ ∀ x ∈ l, l.foldl min a ≤ x := by
  induction l generalizing a with
  | nil => exact ⟨Nat.le_refl _, fun x hx => absurd hx List.not_mem_nil⟩
  | cons b l ih =>
    obtain ⟨hstart, hall⟩ := ih (min a b)
    refine ⟨Nat.le_trans hstart (Nat.min_le_left _ _), fun x hx => ?_⟩
    rcases List.mem_cons.1 hx with rfl | hx
    · exact Nat.le_trans hstart (Nat.min_le_right _ _)
    · exact hall x hx

theorem foldl_min_mem (l : List Nat) (a : Nat) : l.foldl min a = a ∨ l.foldl min a ∈ l := by
  induction l generalizing a with
  | nil => exact .inl rfl
  | cons b l ih =>
    rcases ih (min a b) with hmin | hmem
    · rw [List.foldl_cons, hmin]
      rcases Nat.le_total a b with h | h
      · exact .inl (Nat.min_eq_left h)
      · rw [Nat.min_eq_right h]
        exact .inr List.mem_cons_self
    · exact .inr (List.mem_cons_of_mem _ hmem)

theorem mem_holdingPrices {s : State} {i : Item} {c : Nat} : c ∈ holdingPrices s i ↔
    (∃ p, i.pending = some p ∧ c = p.price) ∨
      ∃ l ∈ s.lrs.labels, l.item = some i.code ∧ (l.confirmed = some c ∨ l.floor = some c) := by
  simp only [holdingPrices, labelsOf, List.mem_append, Option.mem_toList, Option.map_eq_some_iff, List.mem_flatMap,
    List.mem_filter, beq_iff_eq, and_assoc, eq_comm (a := c)]

end Charge

/-- Settles O46. -/
theorem chargePriceIsTheLowest : Obligations.ChargePriceIsTheLowest := by
  unfold Obligations.ChargePriceIsTheLowest
  intro s i
  refine ⟨fun hopen => if_pos hopen, fun hclosed => ⟨_, if_neg (by simp [hclosed]), ?_⟩⟩
  obtain ⟨hprice, hall⟩ := foldl_min_le (holdingPrices s i) i.price
  refine ⟨?_, hprice, fun p hp => hall _ (mem_holdingPrices.2 (.inl ⟨p, hp, rfl⟩)), fun l hl hitem =>
    ⟨fun x hx => hall _ (mem_holdingPrices.2 (.inr ⟨l, hl, hitem, .inl hx⟩)),
      fun x hx => hall _ (mem_holdingPrices.2 (.inr ⟨l, hl, hitem, .inr hx⟩))⟩⟩
  exact (foldl_min_mem _ _).imp_right mem_holdingPrices.1

end Sys2Proof.Proofs
end

