-- ==== Sys2Proof/Proofs/TillFrames.lean ====
section
/-! PROOFS. Frames from the tills before their own rule: whose last frame a frame is, R50's refusals, and HELLO (R50 to R52); and the tills' timed events (R65, R67, R68). -/

namespace Sys2Proof.Proofs

open Sys2Proof.Machine Sys2Proof.Safety Sys2Proof.Laws

/-! ## Whose last frame a frame is (R50) -/

section Sounding

variable {s : State} {h : TillHead} {t : Nat} {p : Place}

theorem heardFrom_iff (a : Addr) (p : Place) : heardFrom a p = true ↔
    (p.state = .idle ∨ p.state = .basket ∨ p.state = .authorizing) ∧ p.addr = some a := by
  simp only [heardFrom, Bool.and_eq_true, Bool.or_eq_true, beq_iff_eq, or_assoc]

theorem heardFrom_eq_false {a : Addr} {p : Place} (hnot : p.addr = some a → p.state = .free ∨ p.state = .orphaned) :
    heardFrom a p = false := by
  rw [← Bool.not_eq_true, heardFrom_iff]
  rintro ⟨hstate, haddr⟩
  rcases hnot haddr with h | h <;> simp [h] at hstate

theorem touchPlace_of_heard (hheard : heardFrom h.addr (placeAt s h.till) = true) :
    touchPlace h s = putPlace h.till (touched s h) s := by
  rw [touchPlace, soundingPlace, if_pos hheard]
  rfl

/-- The one place that is bound to the frame's address and hears it. -/
theorem soundingPlace_of_unique (ht : t ≤ 15) (hheard : heardFrom h.addr (placeAt s t) = true)
    (honly : ∀ j, j ≠ t → heardFrom h.addr (placeAt s j) = false) : soundingPlace h s = some t := by
  unfold soundingPlace
  by_cases heq : h.till = t
  · rw [heq, if_pos hheard]
  · rw [if_neg (by simp [honly _ heq]), List.find?_eq_some_iff_append]
    obtain ⟨pre, post, hsplit⟩ := List.append_of_mem (List.mem_range.2 (Nat.lt_succ_of_le ht))
    refine ⟨hheard, pre, post, hsplit, fun j hj => ?_⟩
    have hnodup : (pre ++ t :: post).Nodup := hsplit ▸ List.nodup_range
    have hjt : j ≠ t := fun h => (List.nodup_append.1 hnodup).2.2 j hj t List.mem_cons_self h
    simp [honly j hjt]

theorem touchPlace_of_unique (ht : t ≤ 15) (hp : placeAt s t = p)
    (hstate : p.state = .idle ∨ p.state = .basket ∨ p.state = .authorizing) (haddr : p.addr = some h.addr)
    (honly : ∀ j, j ≠ t → (placeAt s j).addr = some h.addr →
      (placeAt s j).state = .free ∨ (placeAt s j).state = .orphaned) :
    touchPlace h s = putPlace t { p with lastFrame := s.timer } s := by
  have hsound := soundingPlace_of_unique ht ((heardFrom_iff _ _).2 ⟨hp.symm ▸ hstate, hp.symm ▸ haddr⟩)
    fun j hj => heardFrom_eq_false (honly j hj)
  rw [touchPlace, hsound, ← hp]

theorem touchPlace_of_none (hnone : ∀ t, (placeAt s t).addr = some h.addr →
    (placeAt s t).state = .free ∨ (placeAt s t).state = .orphaned) : touchPlace h s = s := by
  have hsound : soundingPlace h s = none := by
    unfold soundingPlace
    rw [if_neg (by simp [heardFrom_eq_false (hnone h.till)]), List.find?_eq_none]
    intro j _
    simp [heardFrom_eq_false (hnone j)]
  rw [touchPlace, hsound]

/-- A frame changes the last-frame time of places and nothing else. -/
theorem touchPlace_touches (h : TillHead) (s : State) :
    ∃ l, touchPlace h s = { s with tsu := { s.tsu with places := l } } := by
  unfold touchPlace
  split <;> exact ⟨_, rfl⟩

theorem placeAt_touchPlace (h : TillHead) (s : State) (t : Nat) :
    ∃ n, placeAt (touchPlace h s) t = { placeAt s t with lastFrame := n } := by
  unfold touchPlace
  split
  case h_2 => exact ⟨(placeAt s t).lastFrame, rfl⟩
  case h_1 j _ =>
    by_cases hj : t = j
    · subst hj
      by_cases ht : t < s.tsu.places.length
      · exact ⟨s.timer, placeAt_putPlace_same _ ht⟩
      · refine ⟨(placeAt s t).lastFrame, ?_⟩
        rw [placeAt, putPlace, List.set_eq_of_length_le (Nat.not_lt.1 ht)]
        rfl
    · exact ⟨(placeAt s t).lastFrame, placeAt_putPlace_other _ hj s⟩

end Sounding

/-! ## R50's refusals -/

section Refusals

variable {s : State} {h : TillHead} {k : TillKind} {c : Instr} {r : Result} {own : State → State}

theorem tillRequest_of_refusal (hrun : s.running = true) (hr : tillRefusal h s = some r) :
    tillRequest h k own s = .next (finish (emit (.till h.till h.addr k r .empty) (touchPlace h s))) := by
  refine event_takes hrun ?_
  rw [tillFrame, hr]
  rfl

theorem tillRefusal_of_range (hbad : 15 < h.till) : tillRefusal h s = some .range := if_pos hbad

theorem tillRefusal_of_not_logged_on (hfits : h.till ≤ 15)
    (hnot : (placeAt s h.till).state = .free ∨ (placeAt s h.till).addr ≠ some h.addr) :
    tillRefusal h s = some .notLoggedOn := (if_neg (Nat.not_lt.2 hfits)).trans (if_pos hnot)

theorem tillRefusal_of_bound (hfits : h.till ≤ 15) (hstate : (placeAt s h.till).state ≠ .free)
    (haddr : (placeAt s h.till).addr = some h.addr) :
    tillRefusal h s =
      if (placeAt s h.till).state = .orphaned then some .busy
      else if (placeAt s h.till).busy then some .busy else none := by
  refine (if_neg (Nat.not_lt.2 hfits)).trans (if_neg ?_)
  rintro (hfree | hother)
  · exact hstate hfree
  · exact hother haddr

/-- Each kind of till request has a rule of its own, which first looks at the fields, or at the place and then at the fields. -/
theorem exec_tillRequest (hc : tillRequestOf c = some (h, k)) (s : State) :
    (∃ own, exec c s = tillRequest h k (ifFits h k own) s ∧ (k = .poll ∨ k = .bye ∨ k = .saleOpen ∨ k = .saleCancel)) ∨
    (∃ own, exec c s = tillRequest h k (inBasket h k own) s ∧
      (k = .lineAdd ∨ k = .lineVoid ∨ k = .tenderCash ∨ k = .tenderCard)) ∨
    exec c s = tillRequest h k (answerTill h.till k .range .empty) s ∧ ∃ n, k = .other n := by
  cases c
  case badFrame f =>
    cases f <;> cases hc
    exact .inr (.inr ⟨rfl, _, rfl⟩)
  all_goals cases hc
  case poll => exact .inl ⟨_, rfl, by simp⟩
  case bye => exact .inl ⟨_, rfl, by simp⟩
  case saleOpen => exact .inl ⟨_, rfl, by simp⟩
  case saleCancel => exact .inl ⟨_, rfl, by simp⟩
  case lineAdd => exact .inr (.inl ⟨_, rfl, by simp⟩)
  case lineVoid => exact .inr (.inl ⟨_, rfl, by simp⟩)
  case tenderCash => exact .inr (.inl ⟨_, rfl, by simp⟩)
  case tenderCard => exact .inr (.inl ⟨_, rfl, by simp⟩)

theorem exec_of_refusal (hc : tillRequestOf c = some (h, k)) (hrun : s.running = true)
    (hr : tillRefusal h s = some r) :
    exec c s = .next (finish (emit (.till h.till h.addr k r .empty) (touchPlace h s))) := by
  rcases exec_tillRequest hc s with ⟨own, hexec, -⟩ | ⟨own, hexec, -⟩ | ⟨hexec, -⟩ <;>
    exact hexec.trans (tillRequest_of_refusal hrun hr)

/-- A request that passes R50's checks, whether its payload fits or not. -/
theorem tillRequest_of_passes (ha : TillAdmits s { h with fits := true }) :
    tillRequest h k own s = .next (finish (own (putPlace h.till (touched s h) s))) :=
  tillRequest_of_admits ha k own

theorem answerTill_of_passes (ha : TillAdmits s { h with fits := true }) (k : TillKind) (r : Result) (b : TillBody) :
    answerTill h.till k r b (putPlace h.till (touched s h) s) = tillAnswer h k r b (touched s h) s :=
  answerTill_touched ha k r b

theorem placeAt_of_passes (ha : TillAdmits s { h with fits := true }) :
    placeAt (putPlace h.till (touched s h) s) h.till = touched s h :=
  placeAt_touched (h := { h with fits := true }) ha

theorem ifFits_of_unfit (ha : TillAdmits s { h with fits := true }) (hfits : h.fits = false) :
    tillRequest h k (ifFits h k own) s = .next (finish (tillAnswer h k .range .empty (touched s h) s)) := by
  rw [tillRequest_of_passes ha, ifFits, if_neg (by simp [hfits]), answerTill_of_passes ha]

theorem inBasket_of_unfit (ha : TillAdmits s { h with fits := true }) (hfits : h.fits = false) :
    tillRequest h k (inBasket h k own) s = .next (finish (tillAnswer h k
      (if (placeAt s h.till).state ≠ .basket then .state else .range) .empty (touched s h) s)) := by
  rw [tillRequest_of_passes ha, inBasket, placeAt_of_passes ha, hfits, answerTill_of_passes ha, answerTill_of_passes ha]
  by_cases hstate : (touched s h).state ≠ .basket
  · rw [if_pos hstate, if_pos (show (placeAt s h.till).state ≠ .basket from hstate)]
  · rw [if_neg hstate, if_neg (show ¬(placeAt s h.till).state ≠ .basket from hstate)]
    rfl

end Refusals

/-- Settles O38: R50's checks in their order, a payload that does not fit, and a kind that names no request. -/
theorem tillRequestsTurnedAway : Obligations.TillRequestsTurnedAway := by
  unfold Obligations.TillRequestsTurnedAway
  intro c h k s hc hrun
  refine ⟨fun u hu => ⟨fun t p ht hp hstate haddr honly => hu.symm.trans (touchPlace_of_unique ht hp hstate haddr honly),
    fun hnone => hu.symm.trans (touchPlace_of_none hnone), fun hbad => ?_, fun hfits hnot => ?_,
    fun hfits hstate haddr => ?_⟩, fun hfits hfree horphaned haddr hbusy => ?_,
    fun ha hunfit => ⟨fun hkind => ?_, fun hkind hstate => ?_⟩, fun n hk ha => ?_⟩
  · rw [exec_of_refusal hc hrun (tillRefusal_of_range hbad), hu]
  · rw [exec_of_refusal hc hrun (tillRefusal_of_not_logged_on hfits hnot), hu]
  · have hr := tillRefusal_of_bound hfits (by rw [hstate]; decide) haddr
    rw [if_pos hstate] at hr
    rw [exec_of_refusal hc hrun hr, hu]
  · have hr := tillRefusal_of_bound hfits hfree haddr
    rw [if_neg horphaned, if_pos hbusy] at hr
    have hheard : heardFrom h.addr (placeAt s h.till) = true := by
      refine (heardFrom_iff _ _).2 ⟨?_, haddr⟩
      cases hst : (placeAt s h.till).state <;> simp_all
    rw [exec_of_refusal hc hrun hr, touchPlace_of_heard hheard]
  · rcases exec_tillRequest hc s with ⟨own, hexec, -⟩ | ⟨own, hexec, hk⟩ | ⟨hexec, -⟩
    · exact hexec.trans (ifFits_of_unfit ha hunfit)
    · have hstate : (placeAt s h.till).state = .basket := by
        rcases hk with rfl | rfl | rfl | rfl <;> simpa using hkind
      rw [hexec, inBasket_of_unfit ha hunfit, if_neg (not_not_intro hstate)]
    · rw [hexec, tillRequest_of_passes ha, answerTill_of_passes ha]
  · rcases exec_tillRequest hc s with ⟨own, -, hk⟩ | ⟨own, hexec, -⟩ | ⟨-, n, hk⟩
    · rcases hk with rfl | rfl | rfl | rfl <;> simp at hkind
    · rw [hexec, inBasket_of_unfit ha hunfit, if_pos hstate]
    · subst hk
      simp at hkind
  · rcases exec_tillRequest hc s with ⟨own, -, hother⟩ | ⟨own, -, hother⟩ | ⟨hexec, -⟩
    · simp [hk] at hother
    · simp [hk] at hother
    · rw [hexec, tillRequest_of_passes ha, answerTill_of_passes ha]

/-! ## HELLO (R52) -/

section Hello

variable {s u : State} {h : TillHead}

/-- The state in which HELLO is answered: the frame counts as a last frame, and the part is awake. -/
def helloState (h : TillHead) (s : State) : State := wake .tillHello (touchPlace h s)

theorem placeAt_helloState (h : TillHead) (s : State) (t : Nat) :
    ∃ n, placeAt (helloState h s) t = { placeAt s t with lastFrame := n } := by
  have htsu : (helloState h s).tsu = (touchPlace h s).tsu := congrArg Kept.tsu (wake_kept _ _)
  obtain ⟨n, hn⟩ := placeAt_touchPlace h s t
  exact ⟨n, by rw [placeAt, htsu]; exact hn⟩

theorem placeAt_helloState_state (h : TillHead) (s : State) (t : Nat) :
    (placeAt (helloState h s) t).state = (placeAt s t).state := by
  obtain ⟨n, hn⟩ := placeAt_helloState h s t
  rw [hn]

theorem placeAt_helloState_addr (h : TillHead) (s : State) (t : Nat) :
    (placeAt (helloState h s) t).addr = (placeAt s t).addr := by
  obtain ⟨n, hn⟩ := placeAt_helloState h s t
  rw [hn]

theorem boundElsewhere_iff (s : State) (t : Nat) (a : Addr) : boundElsewhere s t a = true ↔
    ∃ k, k ≤ 15 ∧ k ≠ t ∧ (placeAt s k).addr = some a ∧ (placeAt s k).state ≠ .free := by
  simp only [boundElsewhere, tillNumbers, Config.tillCount, List.any_eq_true, List.mem_range, Bool.and_eq_true,
    bne_iff_ne, beq_iff_eq, and_assoc, Nat.lt_succ_iff, ne_eq]

theorem boundElsewhere_helloState (h : TillHead) (s : State) : boundElsewhere (helloState h s) h.till h.addr =
    boundElsewhere s h.till h.addr := by
  rw [Bool.eq_iff_iff, boundElsewhere_iff, boundElsewhere_iff]
  simp only [placeAt_helloState_state, placeAt_helloState_addr]

theorem helloFrameTaken_of_fits (hnumber : h.till ≤ 15) (hbusy : (placeAt s h.till).busy = false) (hfits : h.fits = true) :
    helloFrameTaken h s = answerHello s.day.store h (helloState h s) := by
  rw [helloFrameTaken, if_neg (Nat.not_lt.2 hnumber), if_neg (by simp [hbusy]), if_neg (by simp [hfits])]
  rfl

theorem answerHello_of_closed {store : StoreState} (hstore : store = .night ∨ store = .quiet) :
    answerHello store h u = emit (.till h.till h.addr .hello .closed .empty) u := if_pos hstore

/-- HELLO in an open store, by the places. -/
theorem answerHello_of_open {store : StoreState} (hnight : store ≠ .night) (hquiet : store ≠ .quiet) :
    answerHello store h u =
      if boundElsewhere u h.till h.addr then sendTill h.till h.addr .hello .tillInUse .empty u
      else if (placeAt u h.till).state = .free then
        sendTill h.till h.addr .hello .ok (placeBody (helloPlace h.addr u.timer))
          (putPlace h.till (helloPlace h.addr u.timer) u)
      else if (placeAt u h.till).addr ≠ some h.addr then sendTill h.till h.addr .hello .tillInUse .empty u
      else if (placeAt u h.till).state = .idle ∨ (placeAt u h.till).state = .basket then
        answerTill h.till .hello .ok (placeBody (placeAt u h.till)) u
      else sendTill h.till h.addr .hello .busy .empty u :=
  if_neg (not_or.2 ⟨hnight, hquiet⟩)

/-- The answer to the till of a bound place that has no request in progress. -/
theorem answerTill_helloState (hstate : (placeAt s h.till).state ≠ .free) (haddr : (placeAt s h.till).addr = some h.addr)
    (hbusy : (placeAt s h.till).busy = false) (b : TillBody) :
    answerTill h.till .hello .ok b (helloState h s) =
      tillAnswer h .hello .ok b { placeAt s h.till with lastFrame := (helloState h s).timer } (helloState h s) := by
  obtain ⟨n, hn⟩ := placeAt_helloState h s h.till
  have hcleared : clearedPlace (helloState h s).timer { placeAt s h.till with lastFrame := n } =
      { placeAt s h.till with lastFrame := (helloState h s).timer } := by
    simp [clearedPlace, hbusy]
  rw [answerTill, clearBusy, sendTill, placeAt_emit, emit_timer, hn, hcleared, haddr, putPlace_emit]
  rfl

end Hello

/-- Settles O39: HELLO's checks and R52's table, at the state in which it is answered. -/
theorem helloDecided : Obligations.HelloDecided := by
  unfold Obligations.HelloDecided
  intro h s hrun
  refine ⟨fun t p ht hp hstate haddr honly => touchPlace_of_unique ht hp hstate haddr honly, touchPlace_of_none,
    fun hbad => event_takes hrun (if_pos hbad),
    fun hnumber hbusy => event_takes hrun ((if_neg (Nat.not_lt.2 hnumber)).trans (if_pos hbusy)),
    fun hnumber hbusy hfits => event_takes hrun ?_, fun u hu hnumber hbusy hfits => ?_⟩
  · rw [helloFrameTaken, if_neg (Nat.not_lt.2 hnumber), if_neg (by simp [hbusy]), if_pos hfits]
    rfl
  · replace hu : helloState h s = u := hu
    have htaken : exec (.hello h) s = .next (finish (answerHello s.day.store h u)) :=
      event_takes hrun (by rw [helloFrameTaken_of_fits hnumber hbusy hfits, hu])
    have helsewhere := boundElsewhere_helloState h s
    have hstate := placeAt_helloState_state h s h.till
    have haddr := placeAt_helloState_addr h s h.till
    rw [htaken]
    refine ⟨fun hstore => by rw [answerHello_of_closed hstore], fun hnight hquiet => ?_⟩
    rw [answerHello_of_open hnight hquiet, ← hu, helsewhere, hstate, haddr]
    refine ⟨fun hbound => by rw [if_pos ((boundElsewhere_iff _ _ _).2 hbound)]; rfl, fun hfree => ?_⟩
    have hnot : ¬boundElsewhere s h.till h.addr = true := by
      rw [boundElsewhere_iff]
      rintro ⟨k, hk, hkt, hka, hks⟩
      exact hks (hfree k hk hkt hka)
    rw [if_neg hnot]
    refine ⟨fun hst => by rw [if_pos hst]; rfl, fun hst hother => by rw [if_neg hst, if_pos hother]; rfl,
      fun hbound => ⟨fun hst => ?_, fun hst => ?_⟩⟩
    · have hnotfree : (placeAt s h.till).state ≠ .free := by
        rcases hst with h | h <;> rw [h] <;> decide
      obtain ⟨n, hn⟩ := placeAt_helloState h s h.till
      rw [if_neg hnotfree, if_neg (not_not_intro hbound), if_pos hst, answerTill_helloState hnotfree hbound hbusy, hn]
      rfl
    · have hnotfree : (placeAt s h.till).state ≠ .free := by
        rcases hst with h | h <;> rw [h] <;> decide
      have hneither : ¬((placeAt s h.till).state = .idle ∨ (placeAt s h.till).state = .basket) := by
        rcases hst with h | h <;> rw [h] <;> decide
      rw [if_neg hnotfree, if_neg (not_not_intro hbound), if_neg hneither]
      rfl

/-! ## Silence and the end of the grace (R65, R67, R68) -/

section TillEvents

variable {s v : State} {t : Nat} {p : Place}

theorem silenceJudged_iff (p : Place) : silenceJudged p = true ↔
    (p.state = .idle ∨ p.state = .basket ∨ p.state = .authorizing) ∧ p.busy = false := by
  simp [silenceJudged, or_assoc]

theorem tillSilent_of_not_judged (hp : placeAt s t = p)
    (hnot : p.busy = true ∨ p.state = .free ∨ p.state = .orphaned ∨ s.timer ≤ p.lastFrame) : tillSilent t s = s := by
  subst hp
  refine if_neg ?_
  rw [silenceJudged_iff]
  rintro ⟨⟨hstate, hbusy⟩, hlast⟩
  rcases hnot with h | h | h | h
  · simp [hbusy] at h
  · simp [h] at hstate
  · simp [h] at hstate
  · exact Nat.not_lt.2 h hlast

/-- A till that is judged is lost at the end of its silence. -/
theorem tillSilent_of_judged (hp : placeAt s t = p)
    (hstate : p.state = .idle ∨ p.state = .basket ∨ p.state = .authorizing) (hbusy : p.busy = false)
    (hlast : p.lastFrame < s.timer) :
    tillSilent t s = tillLost t (advanceTo (p.lastFrame + 1000 * s.settings.nat .tillSilence) s) := by
  subst hp
  exact if_pos ⟨(silenceJudged_iff _).2 ⟨hstate, hbusy⟩, hlast⟩

theorem placeAt_advanceTo (x : Nat) (s : State) (t : Nat) : placeAt (advanceTo x s) t = placeAt s t := by
  rw [placeAt, advanceTo_tsu, placeAt]

theorem placeAt_notify (b : NoticeBody) (s : State) (t : Nat) : placeAt (notify b s) t = placeAt s t := by
  rw [placeAt, notify_tsu, placeAt]

theorem tillLost_of_idle (hp : placeAt v t = p) (hstate : p.state = .idle) :
    tillLost t v = putPlace t (freedPlace p) (notify (tillLostNotice t p .idle .none) v) := by
  subst hp
  unfold tillLost
  simp only [hstate]
  rw [freeTill, placeAt_notify]

theorem tillLost_of_basket (hp : placeAt v t = p) (hstate : p.state = .basket) :
    tillLost t v = startVoid t .tillLost v := by
  subst hp
  unfold tillLost
  simp only [hstate]

theorem tillLost_of_authorizing (hp : placeAt v t = p) (hstate : p.state = .authorizing) :
    tillLost t v = notify (tillLostNotice t p .authorizing (.awaiting (p.trace.getD 0)))
      (putPlace t { p with state := .orphaned } v) := by
  subst hp
  unfold tillLost
  simp only [hstate]

/-- The record that closes an open basket. -/
def closeAppend (t : Nat) (p : Place) : Append := { till := t, body := voidBody p .close, given := 0 }

/-- The place is set aside, and the record of its basket asked for. -/
def CloseAsked (t : Nat) (p : Place) (s : State) : Prop :=
  (placeAt s t).busy = true ∧ closeAppend t p ∈ s.sjr.queue

theorem placeAt_closeIfDue_other {j : Nat} (hj : t ≠ j) (s : State) : placeAt (closeIfDue j s) t = placeAt s t := by
  unfold closeIfDue
  dsimp only
  split
  · exact placeAt_putPlace_other _ hj s
  · rfl

theorem closeIfDue_keeps_asked {j : Nat} (hasked : CloseAsked t p s) : CloseAsked t p (closeIfDue j s) := by
  obtain ⟨hbusy, hqueue⟩ := hasked
  by_cases hj : t = j
  · subst hj
    rw [closeIfDue_of_not_due (.inr (.inr (.inr hbusy)))]
    exact ⟨hbusy, hqueue⟩
  · refine ⟨by rw [placeAt_closeIfDue_other hj]; exact hbusy, ?_⟩
    unfold closeIfDue
    dsimp only
    split
    · exact List.mem_append_left _ hqueue
    · exact hqueue

theorem closeIfDue_asks (hstore : s.day.store = .closing) (hgrace : s.tsu.grace = none) (hp : placeAt s t = p)
    (hbasket : p.state = .basket) (hbusy : p.busy = false) : CloseAsked t p (closeIfDue t s) := by
  subst hp
  rw [closeIfDue_of_due hstore hgrace hbasket hbusy]
  refine ⟨?_, List.mem_append_right _ List.mem_cons_self⟩
  exact congrArg Place.busy (placeAt_putPlace_same _ (inPlaces_of_state rfl (by rw [hbasket]; decide)))

theorem foldl_closeIfDue_keeps_asked (l : List Nat) (hasked : CloseAsked t p s) :
    CloseAsked t p (l.foldl (fun u j => closeIfDue j u) s) := by
  induction l generalizing s with
  | nil => exact hasked
  | cons j l ih => exact ih (closeIfDue_keeps_asked hasked)

/-- Going through the tills asks for every open basket. -/
theorem foldl_closeIfDue_asks (l : List Nat) (ht : t ∈ l) (hstore : s.day.store = .closing)
    (hgrace : s.tsu.grace = none) (hp : placeAt s t = p) (hbasket : p.state = .basket) (hbusy : p.busy = false) :
    CloseAsked t p (l.foldl (fun u j => closeIfDue j u) s) := by
  induction l generalizing s with
  | nil => exact absurd ht List.not_mem_nil
  | cons j l ih =>
    by_cases hj : t = j
    · subst hj
      exact foldl_closeIfDue_keeps_asked l (closeIfDue_asks hstore hgrace hp hbasket hbusy)
    · exact ih ((List.mem_cons.1 ht).resolve_left hj) (by simpa using hstore) (by simpa using hgrace)
        ((placeAt_closeIfDue_other hj s).trans hp)

theorem foldl_closeIfDue_grace (l : List Nat) (s : State) :
    (l.foldl (fun u j => closeIfDue j u) s).tsu.grace = s.tsu.grace := by
  induction l generalizing s with
  | nil => rfl
  | cons j l ih => exact (ih _).trans (closeIfDue_grace j s)

theorem exec_closingGraceEnd {x : Nat} (hrun : s.running = true) (hgrace : s.tsu.grace = some x)
    (hv : advanceTo x s = v) : exec .closingGraceEnd s = .next (finish
      ((List.range 16).foldl (fun u t => closeIfDue t u) { v with tsu := { v.tsu with grace := none } })) := by
  simp only [exec, execClosingGraceEnd]
  refine event_takes hrun ?_
  rw [hgrace]
  dsimp only
  rw [hv]
  exact closeBaskets.eq_1 _

end TillEvents

/-- Settles O45. -/
theorem tillEventsTaken : Obligations.TillEventsTaken := by
  unfold Obligations.TillEventsTaken
  intro s hrun
  refine ⟨fun t p u hp hu => ⟨fun hnot => event_takes hrun (tillSilent_of_not_judged hp hnot),
    fun hbusy hlast hstate => event_takes hrun ?_, fun hbusy hlast hstate => event_takes hrun ?_,
    fun n hbusy hlast hstate htrace => event_takes hrun ?_⟩, fun hnone => ?_, fun x u hgrace hu =>
    ⟨exec_closingGraceEnd hrun hgrace hu, _, exec_closingGraceEnd hrun hgrace hu, foldl_closeIfDue_grace _ _,
      fun hstore t ht hbasket hbusy => ?_⟩, fun t p v hp => ⟨fun hstore hgrace hbasket hbusy => ?_, fun hnot => ?_⟩⟩
  · have hplace : placeAt u t = p := by rw [← hu, placeAt_advanceTo, hp]
    rw [tillSilent_of_judged hp (.inl hstate) hbusy hlast, hu, tillLost_of_idle hplace hstate]
    rfl
  · have hplace : placeAt u t = p := by rw [← hu, placeAt_advanceTo, hp]
    rw [tillSilent_of_judged hp (.inr (.inl hstate)) hbusy hlast, hu, tillLost_of_basket hplace hstate, startVoid,
      startAppend, hplace]
    rfl
  · have hplace : placeAt u t = p := by rw [← hu, placeAt_advanceTo, hp]
    rw [tillSilent_of_judged hp (.inr (.inr hstate)) hbusy hlast, hu, tillLost_of_authorizing hplace hstate, htrace]
    rfl
  · simp only [exec, execClosingGraceEnd]
    refine event_takes hrun ?_
    rw [hnone]
  · have hplace : placeAt { u with tsu := { u.tsu with grace := none } } t = placeAt s t := by
      rw [← placeAt_advanceTo x s t, hu]
      rfl
    have hasked := foldl_closeIfDue_asks (List.range 16) (List.mem_range.2 (Nat.lt_succ_of_le ht))
      (s := { u with tsu := { u.tsu with grace := none } })
      (show u.day.store = .closing by rw [← hu, advanceTo_store]; exact hstore) rfl hplace hbasket hbusy
    generalize (List.range 16).foldl _ _ = w at hasked ⊢
    exact hasked
  · subst hp
    exact closeIfDue_of_due hstore hgrace hbasket hbusy
  · subst hp
    exact closeIfDue_of_not_due hnot

end Sys2Proof.Proofs
end

