-- ==== Sys2Proof/Proofs/AuthEvents.lean ====
section
/-! PROOFS. Expiries counted in ticks, frames from head office that reach their owner, and the events of card authorization (R73 to R82, R126 to R130). -/

namespace Sys2Proof.Proofs

open Sys2Proof.Machine Sys2Proof.Safety Sys2Proof.Laws

/-! ## Expiries taken as events (R128, R129) -/

section Expiries

variable {s : State} {c : TimeoutClass} {e : Option Tick}

theorem dueTick_eq_any (s : State) (c : TimeoutClass) (e : Option Tick) :
    dueTick s c e = e.any (expired (s.ulc.ticks c).counter) := by
  cases e <;> rfl

theorem bringOn_of_armed {x : Tick} (he : e = some x) (hon : (periodMs s.settings c).isSome) :
    bringOn c e s = tickTimes c (4 - ((s.ulc.ticks c).counter - x).toNat) (expireDue c s) := by
  obtain ⟨ms, hms⟩ := Option.isSome_iff_exists.1 hon
  unfold bringOn
  rw [he, hms]
  rfl

theorem bringOn_of_not (hnot : e = none ∨ periodMs s.settings c = none) : bringOn c e s = s := by
  unfold bringOn
  split
  case h_1 x ms hms =>
    rcases hnot with h | h
    · exact absurd h (by simp)
    · rw [hms] at h
      exact absurd h (by simp)
  case h_2 => rfl

end Expiries

/-! ## Frames routed to their owner (R125 to R127, R130) -/

section Routes

variable {s : State} {p : Path} {fits : Bool} {f : State → State}

theorem inbound_of_down (hdown : (s.ulc.path p).state = .down) : inbound p f s = s := by
  rw [inbound, hdown]

theorem inbound_of_helloWait (hwait : (s.ulc.path p).state = .helloWait) : inbound p f s = linkError s := by
  rw [inbound, hwait]

theorem inbound_of_up (hup : (s.ulc.path p).state = .up) : inbound p f s = f s := by
  rw [inbound, hup]

theorem routeReply_of_fits (hup : (s.ulc.path p).state = .up) (hfits : fits = true) :
    routeReply p fits f s = f (wake .headOffice s) := by
  rw [routeReply, inbound_of_up hup, if_pos hfits]
  rfl

theorem routeReply_of_unfit (hup : (s.ulc.path p).state = .up) (hfits : fits = false) :
    routeReply p fits f s = routeError s := by
  rw [routeReply, inbound_of_up hup, if_neg (by simp [hfits])]

theorem routeMessage_of_off (hup : (s.ulc.path p).state = .up) (hoff : s.settings.on .routeTable = false) :
    routeMessage p fits f s = s := by
  rw [routeMessage, inbound_of_up hup, if_neg (by simp [hoff])]

theorem routeMessage_of_fits (hup : (s.ulc.path p).state = .up) (hon : s.settings.on .routeTable = true)
    (hfits : fits = true) : routeMessage p fits f s = f (wake .headOffice s) := by
  rw [routeMessage, inbound_of_up hup, if_pos hon, if_pos hfits]
  rfl

theorem routeMessage_of_unfit (hup : (s.ulc.path p).state = .up) (hon : s.settings.on .routeTable = true)
    (hfits : fits = false) : routeMessage p fits f s = routeError s := by
  rw [routeMessage, inbound_of_up hup, if_pos hon, if_neg (by simp [hfits])]

theorem wake_auz (c : WakeCause) (s : State) : (wake c s).auz = s.auz := congrArg Kept.auz (wake_kept c s)

theorem wake_settings (c : WakeCause) (s : State) : (wake c s).settings = s.settings :=
  congrArg Kept.settings (wake_kept c s)

theorem sequenceFits_iff (n : Nat) : sequenceFits n = true ↔ 1 ≤ n ∧ n ≤ 4294967295 := by
  simp only [sequenceFits, Bool.and_eq_true, bne_iff_ne, decide_eq_true_eq, Nat.one_le_iff_ne_zero]
  exact Iff.rfl

theorem codeFits_iff (code : List Byte) : codeFits code = true ↔ 1 ≤ code.length ∧ code.length ≤ 8 := by
  simp [codeFits]

end Routes

/-! ## Entries and their events (R73 to R82) -/

section Entries

variable {s u : State} {till : Nat} {e : AuthEntry}

theorem entryExpiry_of_state (he : entryOf s till = some e) : entryExpiry s till e.state = e.expiry := by
  rw [entryExpiry, he]
  exact if_pos rfl

theorem entryExpiry_of_other {st : EntryState} (he : entryOf s till = some e) (hst : e.state ≠ st) :
    entryExpiry s till st = none := by
  rw [entryExpiry, he]
  exact if_neg hst

theorem entryExpiry_of_none {st : EntryState} (hnone : entryOf s till = none) : entryExpiry s till st = none := by
  rw [entryExpiry, hnone]
  rfl

/-- An expiry of an entry in the state it belongs to. -/
theorem bringOn_entryExpiry {st : EntryState} {x : Tick} (he : entryOf s till = some e) (hst : e.state = st)
    (hx : e.expiry = some x) (hon : (periodMs s.settings .t1).isSome) : bringOn .t1 (entryExpiry s till st) s =
      tickTimes .t1 (4 - (s.ulc.t1.counter - x).toNat) (expireDue .t1 s) :=
  bringOn_of_armed (by rw [← hst, entryExpiry_of_state he, hx]) hon

theorem bringOn_entryExpiry_of_not {st : EntryState} (he : entryOf s till = some e)
    (hnot : e.state ≠ st ∨ e.expiry = none ∨ periodMs s.settings .t1 = none) :
    bringOn .t1 (entryExpiry s till st) s = s := by
  refine bringOn_of_not ?_
  by_cases hst : e.state = st
  · rw [← hst, entryExpiry_of_state he]
    exact hnot.resolve_left (not_not_intro hst)
  · exact .inl (entryExpiry_of_other he hst)

theorem retryDelayEnd_of_waiting {x : Nat} (he : entryOf s till = some e) (hst : e.state = .retryWait)
    (hx : e.retryEnd = some x) (hu : advanceTo x s = u) :
    retryDelayEnd till s = if queuingTest u then queueEntry e u else fallback e u := by
  unfold retryDelayEnd
  rw [he]
  dsimp only
  rw [hst, hx]
  dsimp only
  rw [hu]

theorem retryDelayEnd_of_not (he : entryOf s till = some e) (hnot : e.state ≠ .retryWait ∨ e.retryEnd = none) :
    retryDelayEnd till s = s := by
  unfold retryDelayEnd
  rw [he]
  dsimp only
  split
  case h_1 x hst hx =>
    rcases hnot with h | h
    · exact absurd hst h
    · rw [h] at hx
      exact absurd hx (by simp)
  case h_2 => rfl

theorem retryDelayEnd_of_none (hnone : entryOf s till = none) : retryDelayEnd till s = s := by
  rw [retryDelayEnd, hnone]

theorem expireDue_t1 (v : State) : expireDue .t1 v = fallbackAll ((v.auz.entries.filter fun e =>
    (e.state == .queued || e.state == .sent) && e.expiry.any fun x => expired v.ulc.t1.counter x).map (·.trace)) v := by
  show fallbackAll (tracesWhere v fun e => (e.state == .queued || e.state == .sent) && dueTick v .t1 e.expiry) v = _
  simp only [dueTick_eq_any]
  rfl

theorem fallbackAll_cons_of_none {v : State} {trace : Nat} (rest : List Nat) (hnone : entryByTrace v trace = none) :
    fallbackAll (trace :: rest) v = fallbackAll rest v := by
  simp only [fallbackAll, List.foldl_cons, hnone]

theorem fallbackAll_cons_of_some {v : State} {trace : Nat} (rest : List Nat) (he : entryByTrace v trace = some e) :
    fallbackAll (trace :: rest) v = fallbackAll rest (fallback e v) := by
  simp only [fallbackAll, List.foldl_cons, he]

theorem entryByTrace_wake (c : WakeCause) (s : State) (trace : Nat) :
    entryByTrace (wake c s) trace = entryByTrace s trace := by
  rw [entryByTrace, wake_auz, entryByTrace]

theorem decisiveReply_of_open {trace : Nat} {o : AuthOutcome} {p : Path} (he : entryByTrace u trace = some e)
    (hopen : e.state ≠ .decided) : decisiveReply trace o p u = reportOutcome e.till o (decideEntry e o u) := by
  rw [decisiveReply, he]
  exact if_neg hopen

theorem decisiveReply_of_late {trace : Nat} {o : AuthOutcome} {p : Path}
    (hlate : ∀ e, entryByTrace u trace = some e → e.state = .decided) :
    decisiveReply trace o p u = lateOutcome trace o p u := by
  unfold decisiveReply
  split
  case h_1 e he => exact if_pos (hlate e he)
  case h_2 => rfl

theorem busyReply_of_retry {trace : Nat} (he : entryByTrace u trace = some e) (hst : e.state = .sent)
    (hlimit : (e.attempts : Int) ≤ u.settings.num .retryLimit) :
    busyReply trace u = putEntry { e with state := .retryWait, expiry := none, retryEnd := some (u.timer + 1000) } u := by
  rw [busyReply, he]
  exact (if_neg (not_not_intro hst)).trans (if_pos hlimit)

theorem busyReply_of_limit {trace : Nat} (he : entryByTrace u trace = some e) (hst : e.state = .sent)
    (hlimit : u.settings.num .retryLimit < (e.attempts : Int)) : busyReply trace u = fallback e u := by
  rw [busyReply, he]
  exact (if_neg (not_not_intro hst)).trans (if_neg (Int.not_le.2 hlimit))

theorem busyReply_of_other {trace : Nat} (hnot : ∀ e, entryByTrace u trace = some e → e.state ≠ .sent) :
    busyReply trace u = u := by
  unfold busyReply
  split
  case h_1 e he => exact if_pos (hnot e he)
  case h_2 => rfl

theorem approvedFits_eq_false {trace : Nat} {code : List Byte}
    (hbad : trace = 0 ∨ 4294967295 < trace ∨ code = [] ∨ 8 < code.length) :
    (sequenceFits trace && codeFits code) = false := by
  rw [← Bool.not_eq_true, Bool.and_eq_true, sequenceFits_iff, codeFits_iff]
  rintro ⟨⟨hlow, hhigh⟩, hshort, hlong⟩
  rcases hbad with h | h | h | h
  · omega
  · omega
  · simp [h] at hshort
  · omega

theorem declinedFits_iff {trace reason : Nat} : (sequenceFits trace && reason != 0 && decide (reason ≤ 255)) = true ↔
    (1 ≤ trace ∧ trace ≤ 4294967295) ∧ 1 ≤ reason ∧ reason ≤ 255 := by
  rw [Bool.and_eq_true, Bool.and_eq_true, sequenceFits_iff, and_assoc]
  simp only [bne_iff_ne, decide_eq_true_eq, Nat.one_le_iff_ne_zero]

theorem fallbackDecision_of_off (hmode : s.settings.num .fallbackMode = 0) (amount : Nat) :
    (fallbackDecision s amount).1 = .declined .unavailable := by
  rw [fallbackDecision, if_pos hmode]

theorem fallbackDecision_of_within {amount : Nat} (hmode : s.settings.num .fallbackMode ≠ 0)
    (hfloor : (amount : Int) ≤ s.settings.num .floorLimit)
    (hlimit : s.sjr.exposure + s.auz.commitment + amount ≤ s.settings.num .exposureLimit) :
    (fallbackDecision s amount).1 = .approvedOffline := by
  rw [fallbackDecision, if_neg hmode, if_neg (Int.not_lt.2 hfloor), if_pos hlimit]

theorem fallbackDecision_of_beyond {amount : Nat} (hmode : s.settings.num .fallbackMode ≠ 0)
    (hbeyond : s.settings.num .floorLimit < (amount : Int) ∨
      s.settings.num .exposureLimit < s.sjr.exposure + s.auz.commitment + amount) :
    (fallbackDecision s amount).1 = .declined .unavailable := by
  rw [fallbackDecision, if_neg hmode]
  by_cases hfloor : s.settings.num .floorLimit < (amount : Int)
  · rw [if_pos hfloor]
  · rw [if_neg hfloor, if_neg (Int.not_le.2 (hbeyond.resolve_left hfloor))]

end Entries

/-- Settles O52: an entry's expiries and its retry delay, head office's replies, and what fallback decides. -/
theorem authEventsTaken : Obligations.AuthEventsTaken := by
  unfold Obligations.AuthEventsTaken
  intro s hrun
  refine ⟨fun till hnone => ⟨event_takes hrun (bringOn_of_not (.inl (entryExpiry_of_none hnone))),
      event_takes hrun (bringOn_of_not (.inl (entryExpiry_of_none hnone))), event_takes hrun (retryDelayEnd_of_none hnone)⟩,
    fun till e he => ⟨fun x n hx hn hon => ⟨fun hst => event_takes hrun ?_, fun hst => event_takes hrun ?_⟩,
      fun hnot => event_takes hrun (bringOn_entryExpiry_of_not he hnot),
      fun hnot => event_takes hrun (bringOn_entryExpiry_of_not he hnot),
      fun x u hst hx hu => ⟨fun htest => event_takes hrun ?_, fun htest => event_takes hrun ?_⟩,
      fun hnot => event_takes hrun (retryDelayEnd_of_not he hnot)⟩,
    fun e v => rfl,
    fun p trace hup => ⟨fun code hbad => event_takes hrun (routeReply_of_unfit hup (approvedFits_eq_false hbad)),
      fun reason hbad => event_takes hrun (routeReply_of_unfit hup ?_),
      fun hbad => event_takes hrun (routeReply_of_unfit hup ?_)⟩,
    expireDue_t1, fun v trace rest => ⟨rfl, fallbackAll_cons_of_none rest, fun e he => fallbackAll_cons_of_some rest he⟩,
    fun p trace u hup hu hlow hhigh => ?_,
    fun amount => ⟨fun hmode => fallbackDecision_of_off hmode amount, fun hmode =>
      ⟨fallbackDecision_of_within hmode, fallbackDecision_of_beyond hmode⟩⟩⟩
  · rw [bringOn_entryExpiry he hst hx hon, hn]
  · rw [bringOn_entryExpiry he hst hx hon, hn]
  · rw [retryDelayEnd_of_waiting he hst hx hu, if_pos htest]
  · rw [retryDelayEnd_of_waiting he hst hx hu, if_neg (by simp [htest])]
  · rw [← Bool.not_eq_true, declinedFits_iff]
    omega
  · rw [← Bool.not_eq_true, sequenceFits_iff]
    omega
  · have hentry : entryByTrace u trace = entryByTrace s trace := by rw [← hu, entryByTrace_wake]
    have hsettings : u.settings = s.settings := by rw [← hu, wake_settings]
    have hsequence := (sequenceFits_iff trace).2 ⟨hlow, hhigh⟩
    have hroute : ∀ {fits : Bool} {f : State → State}, fits = true → routeReply p fits f s = f u := fun hfits => by
      rw [routeReply_of_fits hup hfits, hu]
    refine ⟨fun code hshort hlong => ?_, fun reason hr0 hr1 => ?_, fun e he hst =>
      ⟨fun hlimit => event_takes hrun ?_, fun hlimit => event_takes hrun ?_⟩, fun hnot => event_takes hrun ?_⟩
    · have hfits : (sequenceFits trace && codeFits code) = true := by
        rw [hsequence, (codeFits_iff code).2 ⟨hshort, hlong⟩]
        rfl
      refine ⟨fun e he hopen => event_takes hrun ((hroute hfits).trans (decisiveReply_of_open (hentry.trans he) hopen)),
        fun hlate => event_takes hrun ((hroute hfits).trans (decisiveReply_of_late fun e he => hlate e (hentry ▸ he)))⟩
    · have hfits := declinedFits_iff.2 ⟨⟨hlow, hhigh⟩, hr0, hr1⟩
      refine ⟨fun e he hopen => event_takes hrun ((hroute hfits).trans (decisiveReply_of_open (hentry.trans he) hopen)),
        fun hlate => event_takes hrun ((hroute hfits).trans (decisiveReply_of_late fun e he => hlate e (hentry ▸ he)))⟩
    · exact (hroute hsequence).trans (busyReply_of_retry (hentry.trans he) hst (by rw [hsettings]; exact hlimit))
    · exact (hroute hsequence).trans (busyReply_of_limit (hentry.trans he) hst (by rw [hsettings]; exact hlimit))
    · exact (hroute hsequence).trans (busyReply_of_other fun e he => hnot e (hentry ▸ he))

end Sys2Proof.Proofs
end

