-- ==== Sys2Proof/Proofs/HeadOffice.lean ====
section
/-! PROOFS. Frames from head office: the paths they are received on, the route table, settings, TIME SET and NIGHT CONTROL, and office replies (R124 to R130, R142, R189, R190, R192). -/

namespace Sys2Proof.Proofs

open Sys2Proof.Machine Sys2Proof.Safety Sys2Proof.Laws

section HeadOffice

variable {s u : State} {p : Path} {c : Instr}

/-- Every frame from head office goes by R125's checks. -/
theorem exec_fromHeadOffice (hc : fromHeadOffice c = some p) (hrun : s.running = true) :
    ∃ f, exec c s = .next (finish (inbound p f s)) := by
  cases c <;> cases hc
  all_goals exact ⟨_, event_takes hrun rfl⟩

/-! ## Settings (R188 to R190) -/

section Settings

variable {id : Nat} {v : SettingValue} {x : SettingTarget}

theorem settingsMayPass_of_unknown (hid : settingTarget id = none) : settingsMayPass s id v = false := by
  rw [settingsMayPass, hid]

theorem settingsMayPass_of_known (hid : settingTarget id = some x) :
    settingsMayPass s id v = (keysMeet [settingKey id] (writeKeys s) || settingTakes s.settings x v) := by
  rw [settingsMayPass, hid]

theorem takeSetting_headOffice_of_unknown (hid : settingTarget id = none) :
    takeSetting id v .headOffice s = routeError s := by
  rw [takeSetting, hid]
  rfl

/-- A setting message of head office is judged by its value alone, lock or no lock. -/
theorem takeSetting_headOffice_of_known (hid : settingTarget id = some x) : takeSetting id v .headOffice s =
    if settingTakes s.settings x v = false then routeError s
    else if heldValue s.settings x = v then notify (.settingChanged id v v .headOffice) s
    else startWrite (.setting id v .headOffice) s := by
  unfold takeSetting
  rw [hid]
  exact if_neg fun h => h.2.2 rfl

end Settings

/-! ## Office replies (R124, R192) -/

theorem officeFits_iff (n : Nat) : (n != 0 && decide (n ≤ Config.max16)) = true ↔ 1 ≤ n ∧ n ≤ 65535 := by
  simp only [Bool.and_eq_true, bne_iff_ne, decide_eq_true_eq, Nat.one_le_iff_ne_zero]
  exact Iff.rfl

theorem officeReply_of_connected (n : Nat) (payload : List Byte) (hnone : s.hlk.standalone = none) :
    officeReply p n payload s = notify (.inbound n (!s.ulc.waits.any fun w => w.forward == n) p (payload.take 1000)
      (decide (1000 < payload.length)))
      { s with ulc := { s.ulc with waits := s.ulc.waits.eraseP fun w => w.forward == n } } := by
  unfold officeReply officeInbound
  exact if_neg (by simp [hnone])

theorem officeReply_of_standalone (n : Nat) (payload : List Byte) (hsome : s.hlk.standalone.isSome) :
    officeReply p n payload s =
      { s with
        ulc := { s.ulc with waits := s.ulc.waits.eraseP fun w => w.forward == n }
        hlk := { s.hlk with officeDrops := satAdd 65535 s.hlk.officeDrops 1 } } := by
  unfold officeReply officeInbound
  exact if_pos hsome

theorem officeExpiry_of_not {n : Nat} (hnot : ∀ w ∈ s.ulc.waits, w.forward ≠ n) :
    (s.ulc.waits.find? fun w => w.forward == n).map (·.expiry) = none := by
  rw [Option.map_eq_none_iff, List.find?_eq_none]
  intro w hw
  simpa using hnot w hw

/-! ## NIGHT CONTROL (R142) -/

theorem takeNightControl_of_idle (hnight : s.day.store = .night)
    (hidle : s.txe.run.state = .notStarted ∨ s.txe.run.state = .ended) :
    takeNightControl s = startRun .headOffice s := if_pos ⟨hnight, (going_eq_false_iff _).2 hidle⟩

theorem takeNightControl_of_not (hnot : s.day.store ≠ .night ∨ s.txe.run.state = .upload ∨ s.txe.run.state = .download) :
    takeNightControl s = s := by
  refine if_neg ?_
  rintro ⟨hnight, hidle⟩
  rcases hnot with h | h | h
  · exact h hnight
  · simp [h, RunState.going] at hidle
  · simp [h, RunState.going] at hidle

end HeadOffice

/-- Settles O55. -/
theorem headOfficeFramesTaken : Obligations.HeadOfficeFramesTaken := by
  unfold Obligations.HeadOfficeFramesTaken
  intro s u p hrun hu
  refine ⟨fun c hc => ?_, fun hup => ⟨fun hoff item price urgent id v value command kind =>
      ⟨event_takes hrun (routeMessage_of_off hup hoff), event_takes hrun (routeMessage_of_off hup hoff),
        event_takes hrun (routeMessage_of_off hup hoff), event_takes hrun (routeMessage_of_off hup hoff),
        event_takes hrun ((inbound_of_up hup).trans (if_neg (by simp [hoff])))⟩,
      fun hon => ?_, fun n payload hbad => event_takes hrun (routeReply_of_unfit hup ?_), fun n payload v hlow hhigh hv => ?_⟩,
    fun n w k hw hk hon => event_takes hrun ?_, fun n hnot => event_takes hrun (bringOn_of_not (hnot.imp_left officeExpiry_of_not)),
    rfl, fun id x v r hr => ?_⟩
  · obtain ⟨f, hexec⟩ := exec_fromHeadOffice hc hrun
    exact ⟨fun hdown => by rw [hexec, inbound_of_down hdown], fun hwait => by rw [hexec, inbound_of_helloWait hwait]⟩
  · have hroute : ∀ {fits : Bool} {f : State → State}, fits = true → routeMessage p fits f s = f u := fun hfits => by
      rw [routeMessage_of_fits hup hon hfits, hu]
    refine ⟨fun item price urgent => event_takes hrun (hroute rfl),
      fun id v hid => event_takes hrun (routeMessage_of_unfit hup hon (settingsMayPass_of_unknown hid)),
      fun id v x hid => ⟨fun htakes => event_takes hrun (hroute ?_),
        fun htakes hfree => event_takes hrun (routeMessage_of_unfit hup hon ?_),
        fun htakes hbusy => event_takes hrun (hroute ?_)⟩,
      fun value hfits => event_takes hrun (hroute (decide_eq_true hfits)),
      fun value hbad => event_takes hrun (routeMessage_of_unfit hup hon (decide_eq_false (Nat.not_le.2 hbad))),
      fun hnight hidle => event_takes hrun ((hroute rfl).trans (takeNightControl_of_idle hnight hidle)),
      fun hnot => event_takes hrun ((hroute rfl).trans (takeNightControl_of_not hnot)),
      fun command hcommand => event_takes hrun (routeMessage_of_unfit hup hon (by simp [hcommand])),
      fun kind => event_takes hrun ((inbound_of_up hup).trans (if_pos hon))⟩
    · rw [settingsMayPass_of_known hid, htakes, Bool.or_true]
    · rw [settingsMayPass_of_known hid, htakes, hfree]
      rfl
    · rw [settingsMayPass_of_known hid, hbusy, Bool.true_or]
  · rw [← Bool.not_eq_true, officeFits_iff]
    omega
  · have hfits := (officeFits_iff n).2 ⟨hlow, hhigh⟩
    refine ⟨fun hnone => event_takes hrun ?_, fun hsome => event_takes hrun ?_⟩
    · rw [routeReply_of_fits hup hfits, hu, officeReply_of_connected n payload hnone, hv]
    · rw [routeReply_of_fits hup hfits, hu, officeReply_of_standalone n payload hsome, ← hv]
  · have harmed : (s.ulc.waits.find? fun x => x.forward == n).map (·.expiry) = some w.expiry := by rw [hw]; rfl
    rw [bringOn_of_armed harmed hon, ← hk]
    rfl
  · subst hr
    refine ⟨fun hid => takeSetting_headOffice_of_unknown hid, fun y hy => ?_⟩
    have hjudged := takeSetting_headOffice_of_known (s := v) (v := x) hy
    refine ⟨fun htakes => hjudged.trans (if_pos htakes), fun htakes hheld => hjudged.trans ?_,
      fun htakes hheld hwrites => hjudged.trans ?_⟩
    · rw [if_neg (by simp [htakes]), if_pos hheld]
    · rw [if_neg (by simp [htakes]), if_neg hheld, startWrite_of_free _ hwrites]

end Sys2Proof.Proofs
end

