-- ==== Sys2Proof/Proofs/Sessions.lean ====
section
/-! PROOFS. The uplink's sessions: greeting and answer, a session's end in its steps, the choice of the active path, carrier, and the ticks of the timeout classes (R107 to R109, R113, R115, R119, R128, R129). -/

namespace Sys2Proof.Proofs

open Sys2Proof.Machine Sys2Proof.Safety Sys2Proof.Laws

/-! ## Paths -/

section Paths

variable {s : State} {p q : Path} {r : PathRec}

@[simp] theorem path_setPath_same (p : Path) (r : PathRec) (u : Ulc) : (u.setPath p r).path p = r := by
  cases p <;> rfl

@[simp] theorem path_putPath_same (p : Path) (r : PathRec) (s : State) : (putPath p r s).ulc.path p = r :=
  path_setPath_same p r s.ulc

@[simp] theorem setPath_setPath (p : Path) (r x : PathRec) (u : Ulc) : (u.setPath p r).setPath p x = u.setPath p x := by
  cases p <;> rfl

@[simp] theorem putPath_putPath (p : Path) (r x : PathRec) (s : State) : putPath p x (putPath p r s) = putPath p x s := by
  simp only [putPath, setPath_setPath]

theorem path_setWire (p q : Path) (b : Bool) (s : State) : (setWire p b s).ulc.path q = s.ulc.path q := by
  cases p <;> cases q <;> rfl

theorem setWire_running (p : Path) (b : Bool) (s : State) : (setWire p b s).running = s.running := by
  cases p <;> rfl

theorem grantsTooHigh_iff (g : Grants) : grantsTooHigh g = true ↔
    7 < g.auth ∨ 7 < g.price ∨ 7 < g.journal ∨ 7 < g.office ∨ 7 < g.guest ∨ 127 < g.shared := by
  simp [grantsTooHigh, or_assoc]

/-! ## The end of a session (R109) -/

/-- The owners of a session's expiries are told of its end, its credits cleared first. -/
def ownersTold (p : Path) (n : Nat) (s : State) : State :=
  officeSessionEnd n (transferSessionEnd n (authSessionEnd n (putPath p { s.ulc.path p with credits := none } s)))

theorem endPathSession_of_session {n : Nat} (hn : (s.ulc.path p).session = some n) : endPathSession p s =
    if ((ownersTold p n s).ulc.path p).carrier then
      greet p (putPath p { (ownersTold p n s).ulc.path p with probes := [], nextProbe := none, session := none }
        (ownersTold p n s))
    else putPath p (downPath ((ownersTold p n s).ulc.path p)) (ownersTold p n s) := by
  rw [endPathSession, hn]
  rfl

theorem credits_ownersTold (p : Path) (n : Nat) (s : State) : ((ownersTold p n s).ulc.path p).credits = none :=
  (sessionEnd_credits p n _).trans (by rw [path_putPath_same])

/-- A session's end leaves nothing of it on its path. -/
theorem endPathSession_path {n : Nat} (hn : (s.ulc.path p).session = some n) :
    ((endPathSession p s).ulc.path p).session = none ∧ ((endPathSession p s).ulc.path p).state ≠ .up ∧
      ((endPathSession p s).ulc.path p).probes = [] ∧ ((endPathSession p s).ulc.path p).credits = none := by
  rw [endPathSession_of_session hn]
  split
  · simp [greet, credits_ownersTold p n s]
  · simp [downPath, resetPath]

theorem foldl_notify_ulc {α : Type} (b : α → NoticeBody) (l : List α) (s : State) :
    (l.foldl (fun u a => notify (b a) u) s).ulc = s.ulc := by
  induction l generalizing s with
  | nil => rfl
  | cons a l ih => exact (ih _).trans (notify_ulc _ s)

theorem officeSessionEnd_waits (n : Nat) (s : State) :
    (officeSessionEnd n s).ulc.waits = s.ulc.waits.filter fun w => w.session != n :=
  congrArg Ulc.waits (foldl_notify_ulc _ _ _)

/-- The batch's part of a session's end. -/
def batchSessionEnd (n : Nat) (s : State) : State :=
  match s.txe.batch with
  | some b => match b.expiry with
    | some e => if e.session = n then batchBusy s else s
    | none => s
  | none => s

/-- The file request's part of a session's end. -/
def fileSessionEnd (n : Nat) (s : State) : State :=
  match s.txe.file with
  | some f => match f.expiry with
    | some e => if e.session = n then fileRequestBusy s else s
    | none => s
  | none => s

theorem transferSessionEnd_eq_parts (n : Nat) (s : State) :
    transferSessionEnd n s = fileSessionEnd n (batchSessionEnd n s) := rfl

theorem batchSessionEnd_eq (n : Nat) (s : State) : batchSessionEnd n s =
    if (s.txe.batch.bind (·.expiry)).any (fun e => e.session == n) = true then batchBusy s else s := by
  unfold batchSessionEnd
  cases s.txe.batch with
  | none => rfl
  | some b =>
    rw [Option.bind_some]
    dsimp only
    cases b.expiry <;> simp

theorem fileSessionEnd_eq (n : Nat) (s : State) : fileSessionEnd n s =
    if (s.txe.file.bind (·.expiry)).any (fun e => e.session == n) = true then fileRequestBusy s else s := by
  unfold fileSessionEnd
  cases s.txe.file with
  | none => rfl
  | some f =>
    rw [Option.bind_some]
    dsimp only
    cases f.expiry <;> simp

/-- An expiry bound to an ended session counts as BUSY. -/
theorem transferSessionEnd_eq {v : State} (n : Nat)
    (hv : (if (s.txe.batch.bind (·.expiry)).any (fun e => e.session == n) = true then batchBusy s else s) = v) :
    transferSessionEnd n s =
      if (v.txe.file.bind (·.expiry)).any (fun e => e.session == n) = true then fileRequestBusy v else v := by
  rw [transferSessionEnd_eq_parts, batchSessionEnd_eq, hv, fileSessionEnd_eq]

end Paths

/-! ## Ticks (R128, R129) -/

section Ticks

variable {u v : State} {c : TimeoutClass} {ms : Nat}

theorem tickClass_of_off (hoff : periodMs u.settings c = none) : tickClass c u = u := by
  rw [tickClass, hoff]

theorem tickClass_of_on (hms : periodMs u.settings c = some ms)
    (hv : countTick c (advanceTo ((u.ulc.ticks c).lastTick + ms) u) = v) : tickClass c u = expireDue c v := by
  rw [tickClass, hms]
  show expireDue c (countTick c (advanceTo _ u)) = _
  rw [hv]

theorem ticks_countTick_same (c : TimeoutClass) (s : State) :
    (countTick c s).ulc.ticks c = { counter := (s.ulc.ticks c).counter + 1, lastTick := s.timer } := by
  cases c <;> rfl

theorem ticks_countTick_other {d : TimeoutClass} (hd : d ≠ c) (s : State) :
    (countTick c s).ulc.ticks d = s.ulc.ticks d := by
  cases c <;> cases d <;> first | rfl | exact absurd rfl hd

theorem countTick_timer (c : TimeoutClass) (s : State) : (countTick c s).timer = s.timer := by
  cases c <;> rfl

theorem expireHello_of_due {p : Path} (hstate : (u.ulc.path p).state = .helloWait)
    (hdue : (u.ulc.path p).helloExpiry.any (expired u.ulc.t2.counter) = true) : expireHello p u = greet p u :=
  if_pos ⟨hstate, (dueTick_eq_any u .t2 _).trans hdue⟩

theorem expireHello_of_not {p : Path} (hnot : (u.ulc.path p).state ≠ .helloWait ∨
    (u.ulc.path p).helloExpiry.any (expired u.ulc.t2.counter) = false) : expireHello p u = u := by
  refine if_neg ?_
  rintro ⟨hstate, hdue⟩
  rcases hnot with h | h
  · exact h hstate
  · rw [dueTick_eq_any] at hdue
    exact absurd hdue (by rw [show (u.ulc.ticks .t2).counter = u.ulc.t2.counter from rfl, h]; decide)

end Ticks

/-! ## The active path (R74, R113) -/

section Choice

variable {u v w : State}

theorem chosenPath_primary {x : Ulc} (hup : x.primary.state = .up) (hgood : x.primary.degraded = false) :
    chosenPath x = some .primary := if_pos ⟨hup, hgood⟩

theorem chosenPath_backup {x : Ulc} (hnot : x.primary.state ≠ .up ∨ x.primary.degraded = true)
    (hup : x.backup.state = .up) : chosenPath x = some .backup := by
  refine (if_neg ?_).trans (if_pos hup)
  rintro ⟨h1, h2⟩
  rcases hnot with h | h
  · exact h h1
  · simp [h2] at h

theorem chosenPath_degraded {x : Ulc} (hup : x.primary.state = .up) (hbad : x.primary.degraded = true)
    (hbackup : x.backup.state ≠ .up) : chosenPath x = some .primary := by
  rw [chosenPath, if_neg (by simp [hbad]), if_neg hbackup, if_pos hup]

theorem chosenPath_none {x : Ulc} (hprimary : x.primary.state ≠ .up) (hbackup : x.backup.state ≠ .up) :
    chosenPath x = none := by
  rw [chosenPath, if_neg (fun h => hprimary h.1), if_neg hbackup, if_neg hprimary]

theorem leavePath_eq (o : Option Path) (u : State) : leavePath o u = match o with
    | some q => if (u.ulc.path q).state = PathState.up then endPathSession q u else u
    | none => u := by
  cases o <;> rfl

theorem uplinkNotice_eq (u : State) (old new : Option Path) (c : PathCause) : uplinkNotice u old new c =
    .uplink old new c (new.bind fun q => (u.ulc.path q).session) u.ulc.primary.state u.ulc.backup.state
      u.ulc.primary.degraded u.ulc.backup.degraded := by
  cases new <;> rfl

theorem rechoose_of_same (c : PathCause) (hsame : chosenPath u.ulc = u.ulc.active) : rechoose c u = u := if_pos hsame

theorem rechoose_of_change {new : Option Path} (c : PathCause) (hnew : chosenPath u.ulc = new) (hchange : new ≠ u.ulc.active)
    (hv : leavePath u.ulc.active u = v) (hw : wake .pathChange { v with ulc := { v.ulc with active := new } } = w) :
    rechoose c u = guestDecide (testQueued (notify (uplinkNotice w u.ulc.active new c) w)) := by
  subst hnew hv hw
  exact if_neg hchange

theorem testQueued_of_pass (hpass : queuingTest u = true) : testQueued u = u := if_pos hpass

theorem testQueued_of_fail (hfail : queuingTest u = false) : testQueued u =
    fallbackAll ((u.auz.entries.filter fun e => e.state == .queued).map (·.trace)) u :=
  if_neg (by simp [hfail])

end Choice

/-! ## Carrier and the answers to HELLO (R108) -/

section Greeting

variable {s u : State} {p : Path}

theorem carrierUp_eq (hu : putPath p { s.ulc.path p with carrier := true } (setWire p true s) = u) :
    carrierUp p (setWire p true s) = if (s.ulc.path p).state = .down then greet p u else u := by
  unfold carrierUp
  simp only [path_setWire, hu]

theorem carrierDown_of_up (hup : (s.ulc.path p).state = .up)
    (hu : putPath p { s.ulc.path p with carrier := false, tx := none, control := [] } (setWire p false s) = u) :
    carrierDown p (setWire p false s) = rechoose .carrierLost (endPathSession p u) := by
  unfold carrierDown
  simp only [path_setWire, hup]
  rw [← hu]
  simp only [hup]

theorem carrierDown_of_not_up (hup : (s.ulc.path p).state ≠ .up)
    (hu : putPath p { s.ulc.path p with carrier := false, tx := none, control := [] } (setWire p false s) = u) :
    carrierDown p (setWire p false s) = putPath p
      { resetPath with refusal := (s.ulc.path p).refusal, probeNumber := (s.ulc.path p).probeNumber } u := by
  subst hu
  unfold carrierDown
  cases hstate : (s.ulc.path p).state with
  | up => exact absurd hstate hup
  | down =>
    simp only [path_setWire, hstate, path_putPath_same]
    rfl
  | helloWait =>
    simp only [path_setWire, hstate, path_putPath_same]
    rfl

theorem helloAnswer_of_down {f : State → State} (hdown : (s.ulc.path p).state = .down) : helloAnswer p f s = s := by
  rw [helloAnswer, hdown]

theorem helloAnswer_of_up {f : State → State} (hup : (s.ulc.path p).state = .up) : helloAnswer p f s = linkError s := by
  rw [helloAnswer, hup]

theorem helloAnswer_of_wait {f : State → State} (hwait : (s.ulc.path p).state = .helloWait) : helloAnswer p f s = f s := by
  rw [helloAnswer, hwait]

theorem path_with_sessions (p : Path) (n : Nat) (s : State) :
    ({ s with ulc := { s.ulc with sessions := n } } : State).ulc.path p = s.ulc.path p := by
  cases p <;> rfl

theorem openSession_eq {g : Grants} {n : Nat} (hn : (if s.ulc.sessions < 4294967295 then s.ulc.sessions + 1 else 1) = n)
    (hu : putPath p
      { s.ulc.path p with
        state := .up, session := some n, helloExpiry := none, outCount := 0, missed := 0, probes := []
        credits := some (openCredits g), control := [] }
      { s with ulc := { s.ulc with sessions := n } } = u) :
    openSession p g s = rechoose .pathUp (sendProbe p (u.when (grantsTooHigh g) linkError)) := by
  subst hn hu
  unfold openSession
  simp only [path_with_sessions]
  rfl

theorem noteRefusal_of_fits {reason : Nat} (hlow : 1 ≤ reason) (hhigh : reason ≤ 255) :
    noteRefusal p reason s = putPath p { s.ulc.path p with refusal := some reason } s :=
  if_neg (by omega)

end Greeting

/-- Settles O53. -/
theorem sessionsTaken : Obligations.SessionsTaken := by
  unfold Obligations.SessionsTaken
  intro s p
  refine ⟨fun u => rfl, fun g => ⟨rfl, grantsTooHigh_iff g⟩, fun u => rfl, fun u => rfl, fun u v n hn hv => ?_,
    fun u n => ⟨rfl, rfl, officeSessionEnd_waits n u, fun v hv => transferSessionEnd_eq n hv⟩,
    fun u c n => ⟨rfl, rfl⟩, fun u c => tickClass_of_off, fun u v c ms hms hv => ?_,
    fun u => ⟨rfl, expireHello_of_due, expireHello_of_not⟩,
    fun u => ⟨chosenPath_primary, chosenPath_backup, chosenPath_degraded, chosenPath_none⟩,
    fun c u => ⟨rechoose_of_same c, fun new v w hnew hchange hv hw => ?_⟩,
    fun u => ⟨testQueued_of_pass, testQueued_of_fail⟩, fun hstop => ?_, fun hrun => ?_⟩
  · replace hv : ownersTold p n u = v := hv
    have hend := endPathSession_of_session hn
    rw [hv] at hend
    refine ⟨hv ▸ credits_ownersTold p n u, fun hcarrier => ?_, fun hcarrier => ?_, endPathSession_path hn⟩
    · rw [hend, if_pos hcarrier]
    · rw [hend, if_neg (by simp [hcarrier])]
      rfl
  · refine ⟨tickClass_of_on hms hv, ?_, ?_, fun d hd => ?_⟩
    · rw [← hv, ticks_countTick_same, advanceTo_ulc, advanceTo_timer]
    · rw [← hv, countTick_timer, advanceTo_timer]
    · rw [← hv, ticks_countTick_other hd, advanceTo_ulc]
  · rw [rechoose_of_change c hnew hchange ((leavePath_eq _ _).trans hv) hw, uplinkNotice_eq]
  · exact ⟨event_of_stopped _ ((setWire_running ..).trans hstop), event_of_stopped _ ((setWire_running ..).trans hstop)⟩
  · have hwire : ∀ b, (setWire p b s).running = true := fun b => (setWire_running ..).trans hrun
    refine ⟨fun u hu => ⟨fun hdown => event_takes (hwire _) ?_, fun hdown => event_takes (hwire _) ?_⟩,
      fun u hu => ⟨fun hup => event_takes (hwire _) (carrierDown_of_up hup hu),
        fun hup => event_takes (hwire _) (carrierDown_of_not_up hup hu)⟩,
      fun hdown g reason => ⟨event_takes hrun (helloAnswer_of_down hdown), event_takes hrun (helloAnswer_of_down hdown)⟩,
      fun hup g reason => ⟨event_takes hrun (helloAnswer_of_up hup), event_takes hrun (helloAnswer_of_up hup)⟩,
      fun hwait => ⟨fun g n u hn hu => ⟨fun hgrants => event_takes hrun ?_, fun hgrants => event_takes hrun ?_⟩,
        fun reason hlow hhigh => event_takes hrun ((helloAnswer_of_wait hwait).trans (noteRefusal_of_fits hlow hhigh)),
        fun reason hbad => event_takes hrun ((helloAnswer_of_wait hwait).trans (if_pos hbad)),
        fun e n he hn hon => event_takes hrun ?_⟩,
      fun hnot => event_takes hrun (bringOn_of_not ?_), event_takes hrun rfl, fun c => event_takes hrun rfl⟩
    · rw [carrierUp_eq hu, if_pos hdown]
    · rw [carrierUp_eq hu, if_neg hdown]
    · rw [helloAnswer_of_wait hwait, openSession_eq hn hu, hgrants]
      rfl
    · rw [helloAnswer_of_wait hwait, openSession_eq hn hu, hgrants]
      rfl
    · rw [if_pos hwait, bringOn_of_armed he hon, ← hn]
      rfl
    · by_cases hwait : (s.ulc.path p).state = .helloWait
      · rw [if_pos hwait]
        exact hnot.resolve_left (not_not_intro hwait)
      · exact .inl (if_neg hwait)

end Sys2Proof.Proofs
end

