-- ==== Sys2Proof/Proofs/Probes.lean ====
section
/-! PROOFS. Probes and the quality watch, credits, the arbiter, and what the owner of a frame sent does (R98, R110 to R120, R124, R135, R144). -/

namespace Sys2Proof.Proofs

open Sys2Proof.Machine Sys2Proof.Safety Sys2Proof.Laws

/-! ## Probes (R110, R111) -/

section Probes

variable {s u v : State} {p : Path} {r : PathRec}

theorem path_advanceTo (x : Nat) (s : State) (p : Path) : (advanceTo x s).ulc.path p = s.ulc.path p := by
  rw [advanceTo_ulc]

theorem exec_probeDue_of_not (hrun : s.running = true)
    (hnot : (s.ulc.path p).state ≠ .up ∨ (s.ulc.path p).nextProbe = none) :
    exec (.probeDue p) s = .next (finish s) := by
  simp only [exec, execProbeDue]
  refine event_takes hrun ?_
  split
  case h_1 x hup hx =>
    rcases hnot with h | h
    · exact absurd hup h
    · rw [h] at hx
      exact absurd hx (by simp)
  case h_2 => rfl

theorem exec_probeDue_of_due {x : Nat} (hrun : s.running = true) (hup : (s.ulc.path p).state = .up)
    (hx : (s.ulc.path p).nextProbe = some x) (hv : probeDue p (advanceTo x s) = v) :
    exec (.probeDue p) s = .next (finish v) := by
  simp only [exec, execProbeDue]
  refine event_takes hrun ?_
  rw [hup, hx]
  exact hv

theorem probeDue_of_few (hup : (u.ulc.path p).state = .up) (hfew : (u.ulc.path p).probes.length < 4) :
    probeDue p u = sendProbe p u := by
  have hnone : (match (u.ulc.path p).probes with
      | x :: _ => if (u.ulc.path p).probes.length < 4 then u else probeMissed p x.number u
      | [] => u) = u := by
    split
    · exact if_pos hfew
    · rfl
  have hdue : probeDue p u = (fun w : State =>
      if (w.ulc.path p).state = .up ∧ (w.ulc.path p).session = (u.ulc.path p).session then sendProbe p w else w)
        (match (u.ulc.path p).probes with
        | x :: _ => if (u.ulc.path p).probes.length < 4 then u else probeMissed p x.number u
        | [] => u) := rfl
  rw [hdue, hnone]
  exact if_pos ⟨hup, rfl⟩

/-- With four probes outstanding the oldest is missed first. -/
theorem probeDue_of_full {y : Probe} {rest : List Probe} (hprobes : (u.ulc.path p).probes = y :: rest)
    (hfull : 4 ≤ (u.ulc.path p).probes.length) (hv : probeMissed p y.number u = v) :
    probeDue p u =
      if (v.ulc.path p).state = .up ∧ (v.ulc.path p).session = (u.ulc.path p).session then sendProbe p v else v := by
  unfold probeDue
  simp only [hprobes] at hfull ⊢
  rw [if_neg (Nat.not_lt.2 hfull), hv]

theorem probeExpiry_none {number : Nat} (hnone : ∀ x ∈ r.probes, x.number ≠ number) :
    (r.probes.find? fun x => x.number == number).map (·.expiry) = none := by
  rw [Option.map_eq_none_iff, List.find?_eq_none]
  intro x hx
  simpa using hnone x hx

theorem missNumber_of_not {number : Nat} (hnone : ∀ x ∈ (s.ulc.path p).probes, x.number ≠ number) :
    missNumber p number s = s := by
  refine if_neg ?_
  simp only [List.any_eq_true, beq_iff_eq, not_exists, not_and]
  exact hnone

theorem missNumber_of_outstanding {number : Nat} (hsome : ∃ x ∈ (s.ulc.path p).probes, x.number = number)
    (hv : putPath p { s.ulc.path p with
      probes := (s.ulc.path p).probes.filter (fun x => x.number != number), missed := (s.ulc.path p).missed + 1 } s = v) :
    missNumber p number s =
      if (s.ulc.path p).missed + 1 < 3 then v else rechoose .probesMissed (endPathSession p v) := by
  subst hv
  refine (if_pos ?_).trans rfl
  simpa using hsome

/-! ## The quality watch (R112) -/

theorem takeProbeReply_of_not {number : Nat} (hnone : ∀ x ∈ (s.ulc.path p).probes, x.number ≠ number) :
    takeProbeReply p number s = s := by
  have hfind : ((s.ulc.path p).probes.find? fun x => x.number == number) = none := by
    rw [List.find?_eq_none]
    intro x hx
    simpa using hnone x hx
  rw [takeProbeReply, hfind]

theorem takeProbeReply_of_outstanding {number : Nat} {x : Probe}
    (hx : ((s.ulc.path p).probes.find? fun y => y.number == number) = some x) :
    takeProbeReply p number s = probeAnswered p x s ∧ x.number = number := by
  refine ⟨by rw [takeProbeReply, hx], ?_⟩
  simpa using List.find?_some hx

/-- The path's record after a round trip, with the watch's count and flag. -/
def roundTripTaken (r : PathRec) (number rt count : Nat) (degraded : Bool) : PathRec :=
  { r with
    probes := r.probes.filter (fun y => y.number != number), roundTrip := some rt, missed := 0, outCount := count
    degraded := degraded }

theorem probeAnswered_eq {x : Probe} {count : Nat} {degraded : Bool}
    (hq : (if qualityScoped s.settings p then
        qualityAfter s.settings (s.timer - x.sentAt) (s.ulc.path p).outCount (s.ulc.path p).degraded
      else ((s.ulc.path p).outCount, (s.ulc.path p).degraded)) = (count, degraded))
    (hv : putPath p (roundTripTaken (s.ulc.path p) x.number (s.timer - x.sentAt) count degraded) s = v) :
    probeAnswered p x s = if degraded = (s.ulc.path p).degraded then v
      else rechoose (if degraded then .degraded else .recovered) v := by
  subst hv
  unfold probeAnswered
  simp only [hq]
  rfl

theorem qualityAfter_of_within {t : Settings} {rt count : Nat} {degraded : Bool} (hin : rt ≤ t.nat .qualityHigh) :
    qualityAfter t rt count degraded = (0, false) := if_neg (Nat.not_lt.2 hin)

theorem qualityAfter_of_beyond {t : Settings} {rt count n : Nat} {degraded : Bool} (hout : t.nat .qualityHigh < rt)
    (hn : satAdd 8 count 1 = n) :
    qualityAfter t rt count degraded = (n, degraded || decide (t.nat .qualityCount ≤ n)) := by
  rw [qualityAfter, if_pos hout, hn]

end Probes

/-! ## Credits (R116, R117) -/

section Credits

variable {s v : State} {p : Path} {r : PathRec} {c : Machine.Credits} {k : Machine.Class}

theorem takeCredit_of_class {target count : Nat} (hc : (s.ulc.path p).credits = some c)
    (hk : classes[target]? = some k)
    (hv : putPath p { s.ulc.path p with credits := some (c.put k ((c.get k).giveBack count)) } s = v) :
    takeCredit p target count s = if (c.get k).inUse < count then routeError v else v := by
  subst hv
  have htarget : target < 5 := (List.getElem?_eq_some_iff.1 hk).1
  have hwhen : ∀ (b : Prop) [Decidable b] (w : State), w.when (decide b) routeError = if b then routeError w else w := fun b _ w => by
    by_cases hb : b <;> simp [State.when, hb]
  unfold takeCredit
  rw [hc]
  have hclass : target = 0 ∨ target = 1 ∨ target = 2 ∨ target = 3 ∨ target = 4 := by omega
  rcases hclass with rfl | rfl | rfl | rfl | rfl <;> cases hk <;> exact hwhen _ _

theorem takeCredit_of_shared {count : Nat} (hc : (s.ulc.path p).credits = some c)
    (hv : putPath p { s.ulc.path p with credits := some { c with shared := c.shared.giveBack count } } s = v) :
    takeCredit p 5 count s = if c.shared.inUse < count then routeError v else v := by
  subst hv
  unfold takeCredit
  rw [hc]
  by_cases hb : c.shared.inUse < count <;> simp [State.when, hb]

theorem usableCredit_iff_of_first (t : Settings) (hk : k = .auth ∨ k = .price ∨ k = .journal) :
    usableCredit t c k = true ↔ 0 < (c.get k).held ∨ 0 < c.shared.held := by
  rcases hk with rfl | rfl | rfl <;> simp [usableCredit]

theorem usableCredit_iff_of_last (t : Settings) (hk : k = .office ∨ k = .guest) :
    usableCredit t c k = true ↔ 0 < (c.get k).held ∨ t.nat .sharedFloor < c.shared.held := by
  rcases hk with rfl | rfl <;> simp [usableCredit]

end Credits

/-! ## The arbiter (R118 to R120) -/

section Arbiter

variable {s : State} {p : Path} {c : Machine.Credits} {k : Machine.Class}

theorem arbiterOrder_of_open (hstore : s.day.store = .opened ∨ s.day.store = .closing) : arbiterOrder s =
    if promoteReached s then [.auth, .journal, .price, .office, .guest] else [.auth, .price, .journal, .office, .guest] := by
  rcases hstore with h | h <;> simp only [arbiterOrder, h]

theorem arbiterOrder_of_other (hstore : s.day.store = .opening ∨ s.day.store = .night ∨ s.day.store = .quiet) :
    arbiterOrder s = [.auth, .journal, .price, .office] := by
  rcases hstore with h | h | h <;> simp only [arbiterOrder, h]

theorem classQualifies_of_empty (hempty : s.ulc.queue k = []) : classQualifies s p c k = false := by
  rw [classQualifies, hempty]

theorem classQualifies_iff {f : UpFrame} {rest : List UpFrame} (hq : s.ulc.queue k = f :: rest) :
    classQualifies s p c k = true ↔ permittedOn s.settings k p = true ∧ usableCredit s.settings c k = true ∧
      (k = .office → f.wantsReply = false ∨ s.ulc.waits.length < 32) ∧ (k = .guest → s.gac.service = .opened) := by
  rw [classQualifies, hq]
  cases k <;> simp [Config.officeWaits, and_assoc] <;> exact fun _ _ => or_congr_right decide_eq_true_iff

theorem path_putQueue (k : Machine.Class) (q : List UpFrame) (u : Ulc) (p : Path) : (u.putQueue k q).path p = u.path p := by
  cases k <;> cases p <;> rfl

theorem pump_of_busy (hbusy : (s.ulc.path p).tx.isSome) : pump p s = s := if_pos hbusy

theorem pump_of_control {f : UpFrame} {rest : List UpFrame} (hidle : (s.ulc.path p).tx = none)
    (hcontrol : (s.ulc.path p).control = f :: rest) :
    pump p s = transmit p (controlFrame s f) (putPath p { s.ulc.path p with control := rest } s) := by
  simp only [pump, hidle, hcontrol, Option.isSome_none, Bool.false_eq_true, if_false]

theorem pump_of_no_control (hidle : (s.ulc.path p).tx = none) (hcontrol : (s.ulc.path p).control = []) :
    pump p s = if s.ulc.active = some p then arbitrate p s else s := by
  simp only [pump, hidle, hcontrol, Option.isSome_none, Bool.false_eq_true, if_false]

theorem arbitrate_of_no_credits (hc : (s.ulc.path p).credits = none) : arbitrate p s = s := by
  rw [arbitrate, hc]

theorem arbitrate_of_none (hc : (s.ulc.path p).credits = some c)
    (hnone : ∀ k ∈ arbiterOrder s, classQualifies s p c k = false) : arbitrate p s = s := by
  have hfind : (arbiterOrder s).find? (classQualifies s p c) = none := by
    rw [List.find?_eq_none]
    intro k hk
    simp [hnone k hk]
  unfold arbitrate
  rw [hc]
  dsimp only
  rw [hfind]

theorem arbitrate_of_first {before after : List Machine.Class} (hc : (s.ulc.path p).credits = some c)
    (horder : arbiterOrder s = before ++ k :: after) (hbefore : ∀ j ∈ before, classQualifies s p c j = false)
    (hk : classQualifies s p c k = true) : arbitrate p s = takeFrame p c k s := by
  have hfind : (arbiterOrder s).find? (classQualifies s p c) = some k := by
    rw [List.find?_eq_some_iff_append]
    exact ⟨hk, before, after, horder, fun j hj => by simp [hbefore j hj]⟩
  unfold arbitrate
  rw [hc]
  dsimp only
  rw [hfind]

theorem takeFrame_of_head {f : UpFrame} {rest : List UpFrame} (hq : s.ulc.queue k = f :: rest) :
    takeFrame p c k s = frameSent f ((s.ulc.path p).session.getD 0) (emit (.uplink p f)
      (putPath p { s.ulc.path p with credits := some (spendCredit c k), tx := some f }
        { s with ulc := s.ulc.putQueue k rest })) := by
  unfold takeFrame
  rw [hq]
  simp only [transmit, path_putPath_same, putPath_putPath, path_putQueue]

end Arbiter

/-! ## The owner of a frame sent (R75, R98, R119, R124, R135, R144) -/

section Sent

variable {v u : State} {n : Nat}

theorem authFrameSent_of_entry {trace : Nat} {e : AuthEntry} (he : entryByTrace v trace = some e) :
    authFrameSent trace n v =
      putEntry { e with state := .sent, attempts := e.attempts + 1, session := some n, expiry := some v.ulc.t1.counter } v := by
  rw [authFrameSent, he]

theorem authFrameSent_of_none {trace : Nat} (hnone : entryByTrace v trace = none) : authFrameSent trace n v = v := by
  rw [authFrameSent, hnone]

theorem journalFrameSent_of_batch {batch seq : Nat} {b : Batch} (hu : markSent seq batch v = u)
    (hb : v.txe.batch = some b) (hnumber : b.number = batch) : journalFrameSent batch seq n v =
      { u with txe := { u.txe with
          batch := some { b with
            framesSent := b.framesSent + 1, firstSent := some (b.firstSent.getD v.timer), lastSession := n } } } := by
  subst hu hnumber
  have hbatch : (markSent seq b.number v).txe.batch = some b := hb
  simp only [journalFrameSent, hbatch, if_true, putBatch]

theorem journalFrameSent_of_other {batch seq : Nat} (hu : markSent seq batch v = u)
    (hb : ∀ b, v.txe.batch = some b → b.number ≠ batch) : journalFrameSent batch seq n v = u := by
  subst hu
  have hbatch : (markSent seq batch v).txe.batch = v.txe.batch := rfl
  cases h : v.txe.batch with
  | none => simp only [journalFrameSent, hbatch, h]
  | some b => simp only [journalFrameSent, hbatch, h, if_neg (hb b h)]

theorem fileRequestSent_of_queued {x : FileRequest} (hx : v.txe.file = some x) (hstate : x.state = .queued) :
    fileRequestSent n v = { v with txe := { v.txe with
      file := some { x with
        state := .sent, firstSent := some (x.firstSent.getD v.timer)
        expiry := some { tick := v.ulc.t3.counter, session := n } } } } := by
  rw [fileRequestSent, hx]
  exact if_pos hstate

theorem fileRequestSent_of_other (hx : ∀ x, v.txe.file = some x → x.state ≠ .queued) : fileRequestSent n v = v := by
  unfold fileRequestSent
  split
  case h_1 x hfile => exact if_neg (hx x hfile)
  case h_2 => rfl

/-- A frame of another kind that wants no reply has no owner to tell. -/
theorem frameSent_of_no_owner {f : UpFrame} (hauth : ∀ trace amount card branch, f ≠ .authRequest trace amount card branch)
    (hrecord : ∀ batch place count r, f ≠ .journalRecord batch place count r)
    (hfile : ∀ piece branch, f ≠ .fileRequest piece branch) (hreply : f.wantsReply = false) : frameSent f n v = v := by
  unfold frameSent
  split
  case h_1 trace amount card branch => exact absurd rfl (hauth trace amount card branch)
  case h_2 batch place count r => exact absurd rfl (hrecord batch place count r)
  case h_3 piece branch => exact absurd rfl (hfile piece branch)
  case h_4 => exact absurd hreply (by simp [UpFrame.wantsReply])
  case h_5 => rfl

end Sent

/-- Settles O54. -/
theorem probesAndCreditsTaken : Obligations.ProbesAndCreditsTaken := by
  unfold Obligations.ProbesAndCreditsTaken
  intro s p r hrun hr
  subst hr
  refine ⟨exec_probeDue_of_not hrun, fun x u hup hx hu => ?_, fun number => ⟨fun hnot => ?_, fun x n hx hn hon => ?_⟩, rfl,
    fun number v hv => ⟨missNumber_of_not, fun hsome => ?_⟩, fun hup => ?_,
    fun c k => ⟨usableCredit_iff_of_first s.settings, usableCredit_iff_of_last s.settings, fun hheld => if_pos hheld,
      fun hheld => if_neg (by omega)⟩,
    fun hstore => ⟨fun hmark => ?_, fun hmark => ?_⟩, arbiterOrder_of_other, fun k => rfl, fun k n hkn => ?_,
    fun c k => ⟨classQualifies_of_empty, fun f rest => classQualifies_iff⟩, pump_of_busy,
    fun f rest => pump_of_control, fun hidle hcontrol => ?_, fun f n v => ?_⟩
  · have hpath : u.ulc.path p = s.ulc.path p := by rw [← hu, path_advanceTo]
    refine ⟨fun hfew => exec_probeDue_of_due hrun hup hx ?_, fun y rest v hprobes hfull hv =>
      ⟨fun hup' hsession => exec_probeDue_of_due hrun hup hx ?_, fun hnot => exec_probeDue_of_due hrun hup hx ?_⟩⟩
    · rw [hu, probeDue_of_few (by rw [hpath]; exact hup) (by rw [hpath]; exact hfew)]
    · rw [hu, probeDue_of_full (by rw [hpath]; exact hprobes) (by rw [hpath]; exact hfull) hv, hpath,
        if_pos ⟨hup', hsession⟩]
    · rw [hu, probeDue_of_full (by rw [hpath]; exact hprobes) (by rw [hpath]; exact hfull) hv, hpath,
        if_neg fun h => hnot.elim (absurd h.1) (absurd h.2)]
  · exact event_takes hrun (bringOn_of_not (hnot.imp_left probeExpiry_none))
  · have harmed : ((s.ulc.path p).probes.find? fun y => y.number == number).map (·.expiry) = some x.expiry := by
      rw [hx]
      rfl
    refine event_takes hrun ?_
    rw [bringOn_of_armed harmed hon, ← hn]
    rfl
  · rw [missNumber_of_outstanding hsome hv]
    exact ⟨fun hfew => if_pos hfew, fun hthird => if_neg (Nat.not_lt.2 hthird)⟩
  · have hinbound : ∀ {f : State → State} {v : State}, f s = v → inbound p f s = v := fun h => by
      rw [inbound_of_up hup, h]
    refine ⟨fun number hnone => event_takes hrun (hinbound (takeProbeReply_of_not hnone)), fun number x rt hx hrt => ?_,
      fun target count hbad => event_takes hrun (hinbound (if_pos hbad)),
      fun c target k count v hc hk hlow hhigh hv => ?_, fun c count v hc hlow hhigh hv => ?_⟩
    · obtain ⟨htaken, rfl⟩ := takeProbeReply_of_outstanding hx
      subst hrt
      refine ⟨fun hscope => event_takes hrun (hinbound (htaken.trans ?_)), fun hscope hin v hv => ⟨fun hdeg =>
        event_takes hrun (hinbound (htaken.trans ?_)), fun hdeg => event_takes hrun (hinbound (htaken.trans ?_))⟩,
        fun hscope hout n v hn hv => ⟨fun hkeeps => event_takes hrun (hinbound (htaken.trans ?_)),
          fun hdeg hcount => event_takes hrun (hinbound (htaken.trans ?_))⟩⟩
      · exact (probeAnswered_eq (if_neg (by simp [hscope])) rfl).trans (if_pos rfl)
      · exact (probeAnswered_eq ((if_pos hscope).trans (qualityAfter_of_within hin)) hv).trans (if_pos hdeg.symm)
      · exact (probeAnswered_eq ((if_pos hscope).trans (qualityAfter_of_within hin)) hv).trans (if_neg (by simp [hdeg]))
      · refine (probeAnswered_eq ((if_pos hscope).trans (qualityAfter_of_beyond hout hn)) hv).trans (if_pos ?_)
        rcases hkeeps with hdeg | hcount
        · rw [hdeg, Bool.true_or]
        · rw [decide_eq_false (Nat.not_le.2 hcount), Bool.or_false]
      · refine (probeAnswered_eq ((if_pos hscope).trans (qualityAfter_of_beyond hout hn)) hv).trans ?_
        rw [hdeg, decide_eq_true hcount]
        rfl
    · have hpass : ¬(5 < target ∨ count = 0 ∨ 127 < count) := by
        have htarget : target < 5 := (List.getElem?_eq_some_iff.1 hk).1
        omega
      have htaken := takeCredit_of_class hc hk hv
      exact ⟨fun hin => event_takes hrun (hinbound ((if_neg hpass).trans (htaken.trans (if_neg (Nat.not_lt.2 hin))))),
        fun hout => event_takes hrun (hinbound ((if_neg hpass).trans (htaken.trans (if_pos hout))))⟩
    · have hpass : ¬(5 < 5 ∨ count = 0 ∨ 127 < count) := by omega
      have htaken := takeCredit_of_shared hc hv
      exact ⟨fun hin => event_takes hrun (hinbound ((if_neg hpass).trans (htaken.trans (if_neg (Nat.not_lt.2 hin))))),
        fun hout => event_takes hrun (hinbound ((if_neg hpass).trans (htaken.trans (if_pos hout))))⟩
  · rw [arbiterOrder_of_open hstore, if_neg (by simp [hmark])]
  · rw [arbiterOrder_of_open hstore, if_pos hmark]
  · simp only [List.mem_cons, Prod.mk.injEq, List.not_mem_nil, or_false] at hkn
    rcases hkn with ⟨rfl, rfl⟩ | ⟨rfl, rfl⟩ | ⟨rfl, rfl⟩ | ⟨rfl, rfl⟩ | ⟨rfl, rfl⟩ <;> exact Iff.rfl
  · rw [pump_of_no_control hidle hcontrol]
    refine ⟨fun hnot => ?_, fun c hactive hc => ?_⟩
    · by_cases hactive : s.ulc.active = some p
      · rw [if_pos hactive, arbitrate_of_no_credits (hnot.resolve_left (not_not_intro hactive))]
      · exact if_neg hactive
    · rw [if_pos hactive]
      refine ⟨arbitrate_of_none hc, fun before k after f rest horder hbefore hk hq => ?_⟩
      rw [arbitrate_of_first hc horder hbefore hk, takeFrame_of_head hq]
  · refine ⟨fun trace amount card branch hf => ?_, fun batch place count r u hf hu => ?_, fun piece branch hf => ?_,
      fun m dest payload hf => by subst hf; rfl, frameSent_of_no_owner⟩
    · subst hf
      exact ⟨fun e he => congrArg guestDecide (authFrameSent_of_entry he),
        fun hnone => congrArg guestDecide (authFrameSent_of_none hnone)⟩
    · subst hf
      exact ⟨fun b hb hnumber => journalFrameSent_of_batch hu hb hnumber, fun hb => journalFrameSent_of_other hu hb⟩
    · subst hf
      exact ⟨fun x => fileRequestSent_of_queued, fileRequestSent_of_other⟩

end Sys2Proof.Proofs
end

