-- ==== Sys2Proof/Proofs/Radio.lean ====
section
/-! PROOFS. The label radio's events: acknowledgements, the window, the beacon, a transmission's steps, a failure, and what a burst chooses (R26, R30 to R38, R41, R46). -/

namespace Sys2Proof.Proofs

open Sys2Proof.Machine Sys2Proof.Safety Sys2Proof.Laws

/-! ## The beacon, and the end of a transmission (R31 to R35, R41, R46) -/

section Transmissions

variable {s u v w : State} {t : Transmission}

theorem sendBeacon_of_idle (hidle : u.lrs.inFlight = none) : sendBeacon u =
    { u with
      out := u.out ++ [.beacon]
      lrs := { u.lrs with
        nextBeacon := some (u.timer + beaconMs u)
        burst := some { length := burstLength u, made := 0, attempted := [] }
        waitingBurst := none } } := by
  simp only [sendBeacon, emit, hidle, Option.isNone_none, if_true]

theorem sendBeacon_of_sending (hsending : u.lrs.inFlight.isSome) : sendBeacon u =
    { u with
      out := u.out ++ [.beacon]
      lrs := { u.lrs with
        nextBeacon := some (u.timer + beaconMs u), burst := none, waitingBurst := some (burstLength u) } } := by
  obtain ⟨t, ht⟩ := Option.isSome_iff_exists.1 hsending
  simp only [sendBeacon, emit, ht, Option.isNone_some, Bool.false_eq_true, if_false]

theorem passLabel_of_below {id : Nat} (hid : id < 4095) :
    passLabel id u = { u with lrs := { u.lrs with cursor := id + 1 } } := if_pos hid

theorem passLabel_of_last {id : Nat} (hid : 4095 ≤ id) : passLabel id u = { u with lrs := { u.lrs with
    cursor := 0, cycles := if u.lrs.cycles < 4294967295 then u.lrs.cycles + 1 else 0 } } := if_neg (Nat.not_lt.2 hid)

theorem clampMargin_eq (m : Int) : clampMargin m = max (-40) (min 40 m) := by
  unfold clampMargin
  split
  · omega
  · split <;> omega

theorem takeAck_eq (a : AckReport) (hwrites : writesStopped u = false) : takeAck a u =
    { u with nv := u.nv ++ [.ack a ((u.label a.label).state != .unbound && !a.answersUnbound)] } := by
  rw [takeAck, startWrite_of_free _ hwrites]

variable {label number price battery : Nat} {margin : Int}

theorem ackInRange_iff : ackInRange label price battery = true ↔ label ≤ 4095 ∧ price ≤ 9999999 ∧ battery ≤ 255 := by
  rw [ackInRange, Bool.and_eq_true, Bool.and_eq_true, decide_eq_true_iff, decide_eq_true_iff, decide_eq_true_iff, and_assoc]
  exact Iff.rfl

theorem matchesWindow_iff : matchesWindow t label number = true ↔
    t.label = label ∧ t.number = number ∧ ∃ x, t.phase = .window x := by
  rw [matchesWindow]
  cases t.phase <;> simp

theorem answersMarked_iff : answersMarked t label number = true ↔ t.label = label ∧ t.number = number ∧
    t.unboundMark = true ∧ (t.phase = .frame ∨ ∃ x, t.phase = .window x) := by
  rw [answersMarked]
  cases t.phase <;> simp [and_assoc]

/-- The report an acknowledgement brings, of the transmission it answers (R31). -/
def ackReport (label number price battery : Nat) (margin : Int) (s : State) : AckReport :=
  { label := label, price := price, battery := battery, margin := clampMargin margin, time := s.day.clock
    answersUnbound := s.lrs.inFlight.any fun t => answersMarked t label number }

theorem eq_ackReport {a : AckReport} (hlabel : a.label = label) (hprice : a.price = price) (hbattery : a.battery = battery)
    (hmargin : a.margin = max (-40) (min 40 margin)) (htime : a.time = s.day.clock)
    (hanswers : a.answersUnbound = s.lrs.inFlight.any fun t => answersMarked t label number) :
    a = ackReport label number price battery margin s := by
  obtain ⟨l, p, b, m, c, d⟩ := a
  dsimp only at hlabel hprice hbattery hmargin htime hanswers
  rw [ackReport, clampMargin_eq, hlabel, hprice, hbattery, hmargin, htime, hanswers]

theorem takeAckFrame_of_window (ht : s.lrs.inFlight = some t) (hmatch : matchesWindow t label number = true) :
    takeAckFrame label number price battery margin s =
      queueWork (.ack (ackReport label number price battery margin s)) (endTransmission t s) := by
  simp only [takeAckFrame, ackReport, ht, hmatch, if_true, Option.any_some]

theorem takeAckFrame_of_other (hno : ∀ t, s.lrs.inFlight = some t → matchesWindow t label number = false) :
    takeAckFrame label number price battery margin s =
      queueWork (.ack (ackReport label number price battery margin s)) s := by
  cases ht : s.lrs.inFlight with
  | none => simp only [takeAckFrame, ackReport, ht, Option.any_none]
  | some t => simp only [takeAckFrame, ackReport, ht, hno t ht, Option.any_some, Bool.false_eq_true, if_false]

theorem labelAcknowledgement_heard (hrun : s.running = true) (hawake : s.lrs.radio = .awake) (hlabel : label ≤ 4095)
    (hprice : price ≤ 9999999) (hbattery : battery ≤ 255) (hv : takeAckFrame label number price battery margin s = v) :
    exec (.labelAcknowledgement label number price battery margin) s = .next (finish v) := by
  show execLabelAcknowledgement label number price battery margin s = _
  unfold execLabelAcknowledgement
  refine event_takes hrun ?_
  rw [if_neg (by simp [hawake]), if_pos (ackInRange_iff.2 ⟨hlabel, hprice, hbattery⟩), hv]

/-! ## The window and the frame (R30, R33) -/

theorem closeWindow_of_window {x : Nat} (ht : s.lrs.inFlight = some t) (hphase : t.phase = .window x) : closeWindow s =
    if t.unboundMark then endTransmission t (advanceTo x s)
    else queueWork (.failure t.label) (endTransmission t (advanceTo x s)) := by
  simp only [closeWindow, ht, hphase]

theorem closeWindow_of_none (hno : ∀ t x, s.lrs.inFlight = some t → t.phase ≠ .window x) : closeWindow s = s := by
  unfold closeWindow
  split
  case h_1 t ht =>
    split
    case h_1 x hphase => exact absurd hphase (hno t x ht)
    case h_2 => rfl
  case h_2 => rfl

theorem openWindow_of_frame (ht : s.lrs.inFlight = some t) (hphase : t.phase = .frame) : openWindow s =
    { s with lrs := { s.lrs with inFlight := some { t with phase := .window (s.timer + t.windowMs) } } } := by
  simp only [openWindow, ht, hphase, if_true]

theorem openWindow_of_other (hno : ∀ t, s.lrs.inFlight = some t → t.phase ≠ .frame) : openWindow s = s := by
  unfold openWindow
  split
  case h_1 t ht => exact if_neg (hno t ht)
  case h_2 => rfl

/-! ## A failure and a floor (R26, R30, R33) -/

theorem satAdd_one (top n : Nat) : satAdd top n 1 = min top (n + 1) := by
  unfold satAdd
  split <;> omega

section Failure

variable {label n : Nat} {l : Label}

theorem takeFailure_of_unbound (hstate : (v.label label).state = .unbound) : takeFailure label v = v := if_pos hstate

theorem takeFailure_of_bound (hl : v.label label = l) (hn : min 15 (l.failed + 1) = n) (hw : putLabel { l with failed := n } v = w)
    (hstate : l.state ≠ .unbound) : takeFailure label v =
      if l.state = .active ∧ v.settings.nat .attemptLimit ≤ n then startWrite (.unreachable label) w else w := by
  subst hl
  simp only [takeFailure, if_neg hstate, satAdd_one, hn, hw]

theorem takeFailure_of_below (hl : v.label label = l) (hn : min 15 (l.failed + 1) = n)
    (hw : putLabel { l with failed := n } v = w)
    (hbelow : l.state = .unreachable ∨ l.state = .active ∧ n < v.settings.nat .attemptLimit) : takeFailure label v = w := by
  rw [takeFailure_of_bound hl hn hw (by rintro h; simp [h] at hbelow), if_neg]
  rintro ⟨hactive, hle⟩
  rcases hbelow with h | ⟨-, hlt⟩
  · simp [hactive] at h
  · omega

theorem putLabel_hlk (l : Label) (s : State) : (putLabel l s).hlk = s.hlk := rfl

theorem takeFailure_of_limit (hl : v.label label = l) (hn : min 15 (l.failed + 1) = n)
    (hw : putLabel { l with failed := n } v = w) (hactive : l.state = .active)
    (hlimit : v.settings.nat .attemptLimit ≤ n) (hwrites : writesStopped v = false) :
    takeFailure label v = { w with nv := w.nv ++ [.unreachable label] } := by
  have hfree : writesStopped w = false := by rw [← hw, writesStopped, putLabel_hlk]; exact hwrites
  rw [takeFailure_of_bound hl hn hw (by simp [hactive]), if_pos ⟨hactive, hlimit⟩, startWrite_of_free _ hfree]

end Failure

theorem takeFloor_of_waiting (ht : v.lrs.inFlight = some t) (hphase : t.phase = .floorWait) : takeFloor t.label v =
    if floorNeeded (v.label t.label) t.price then
      startWrite (.floor t.label t.price) { v with lrs := { v.lrs with inFlight := some { t with phase := .floorWrite } } }
    else sendPrice t v := by
  simp only [takeFloor, ht, hphase, ne_eq, not_true_eq_false, or_self, if_false]

theorem floorNeeded_iff (l : Label) (price : Nat) : floorNeeded l price = true ↔ ∀ f, l.floor = some f → price < f := by
  rw [floorNeeded]
  cases l.floor <;> simp

theorem takeFloor_of_needed (ht : v.lrs.inFlight = some t) (hphase : t.phase = .floorWait)
    (hneeded : ∀ f, (v.label t.label).floor = some f → t.price < f) (hwrites : writesStopped v = false) :
    takeFloor t.label v = { v with
      nv := v.nv ++ [.floor t.label t.price]
      lrs := { v.lrs with inFlight := some { t with phase := .floorWrite } } } := by
  rw [takeFloor_of_waiting ht hphase, if_pos ((floorNeeded_iff ..).2 hneeded)]
  exact startWrite_of_free _ hwrites

theorem takeFloor_of_held {f n : Nat} (ht : v.lrs.inFlight = some t) (hphase : t.phase = .floorWait)
    (hfloor : (v.label t.label).floor = some f) (hle : f ≤ t.price) (hn : (v.lrs.txCount + 1) % 256 = n) :
    takeFloor t.label v = { v with
      out := v.out ++ [.priceFrame t.label n t.price]
      lrs := { v.lrs with
        txCount := n
        inFlight := some { t with number := n, phase := .frame, windowMs := v.settings.nat .ackWindow } } } := by
  have hnot : ¬ floorNeeded (v.label t.label) t.price = true := fun h =>
    absurd ((floorNeeded_iff ..).1 h f hfloor) (Nat.not_lt.2 hle)
  subst hn
  rw [takeFloor_of_waiting ht hphase, if_neg hnot]
  rfl

end Transmissions

/-! ## What a burst chooses (R35 to R38) -/

section Choice

variable {v : State} {b : Burst}

theorem chooseNext_of_idle (hidle : v.lrs.inFlight = none) (hb : v.lrs.burst = some b) (hawake : v.lrs.radio = .awake) :
    chooseNext v = if b.length ≤ b.made then endBurst v
      else match priorityChoice v b.attempted with
        | some (label, price) => beginTransmission label price .priority v
        | none => chooseRefresh b v := by
  simp only [chooseNext, hidle, hb, hawake, ne_eq, not_true_eq_false, if_false] <;> rfl

theorem chooseNext_of_full (hidle : v.lrs.inFlight = none) (hb : v.lrs.burst = some b) (hawake : v.lrs.radio = .awake)
    (hfull : b.length ≤ b.made) : chooseNext v = { v with lrs := { v.lrs with burst := none } } := by
  rw [chooseNext_of_idle hidle hb hawake, if_pos hfull]
  rfl

theorem chooseNext_of_priority {label price : Nat} (hidle : v.lrs.inFlight = none) (hb : v.lrs.burst = some b)
    (hawake : v.lrs.radio = .awake) (hroom : b.made < b.length) (hchoice : priorityChoice v b.attempted = some (label, price)) :
    chooseNext v = beginTransmission label price .priority v := by
  rw [chooseNext_of_idle hidle hb hawake, if_neg (Nat.not_le.2 hroom), hchoice]

theorem chooseNext_of_no_priority (hidle : v.lrs.inFlight = none) (hb : v.lrs.burst = some b)
    (hawake : v.lrs.radio = .awake) (hroom : b.made < b.length) (hchoice : priorityChoice v b.attempted = none) :
    chooseNext v = chooseRefresh b v := by
  rw [chooseNext_of_idle hidle hb hawake, if_neg (Nat.not_le.2 hroom), hchoice]

theorem chooseRefresh_of_disabled (hoff : refreshEnabled v.settings v.day.store = false) :
    chooseRefresh b v = { v with lrs := { v.lrs with burst := none } } := by
  rw [chooseRefresh, hoff]
  rfl

theorem chooseRefresh_of_found {l : Label} {cursor cycles price : Nat} (hon : refreshEnabled v.settings v.day.store = true)
    (hfound : refreshSearch v b.attempted = (some l, cursor, cycles)) (hprice : targetPrice v l = some price) :
    chooseRefresh b v =
      beginTransmission l.id price .refresh { v with lrs := { v.lrs with cursor := cursor, cycles := cycles } } := by
  simp only [chooseRefresh, hon, hfound, hprice, if_true]

theorem chooseRefresh_of_none {cursor cycles : Nat} (hon : refreshEnabled v.settings v.day.store = true)
    (hfound : refreshSearch v b.attempted = (none, cursor, cycles)) :
    chooseRefresh b v = { v with lrs := { v.lrs with burst := none, cursor := cursor, cycles := cycles } } := by
  simp only [chooseRefresh, hon, hfound, if_true, endBurst]

/-- In a list sorted by a key, a search finds the least entry that passes. -/
theorem find?_of_least {α : Type} {key : α → Nat} {p : α → Bool} {t : List α} {a : α} (ht : (t.map key).Pairwise (· < ·))
    (ha : a ∈ t) (hp : p a = true) (hleast : ∀ x ∈ t, p x = true → key a ≤ key x) : t.find? p = some a := by
  induction t with
  | nil => exact absurd ha List.not_mem_nil
  | cons x t ih =>
    rw [List.map_cons, List.pairwise_cons] at ht
    obtain ⟨hhead, htail⟩ := ht
    rw [List.mem_cons] at ha
    rcases ha with rfl | ha
    · exact List.find?_cons_of_pos hp
    · have hx : ¬ p x = true := fun hx =>
        absurd (hhead _ (List.mem_map_of_mem ha)) (Nat.not_lt.2 (hleast x List.mem_cons_self hx))
      rw [List.find?_cons_of_neg hx]
      exact ih htail ha fun y hy => hleast y (List.mem_cons_of_mem _ hy)

theorem refreshable_iff {attempted : List Nat} {l : Label} :
    refreshable attempted l = true ↔ l.state ≠ .unbound ∧ l.id ∉ attempted := by
  simp [refreshable]

variable {attempted : List Nat} {l : Label}

theorem refreshSearch_ahead (hkeyed : LabelsKeyed v) (hl : l ∈ v.lrs.labels) (hcan : refreshable attempted l = true)
    (hahead : v.lrs.cursor ≤ l.id)
    (hleast : ∀ k ∈ v.lrs.labels, refreshable attempted k = true → v.lrs.cursor ≤ k.id → l.id ≤ k.id) :
    refreshSearch v attempted = (some l, l.id, v.lrs.cycles) := by
  rw [refreshSearch, find?_of_least (key := Label.id) hkeyed hl (by simp [hahead, hcan])]
  intro k hk hp
  simp only [Bool.and_eq_true, decide_eq_true_eq] at hp
  exact hleast k hk hp.2 hp.1

theorem find?_ahead_of_behind
    (hbehind : ∀ k ∈ v.lrs.labels, refreshable attempted k = true → k.id < v.lrs.cursor) :
    (v.lrs.labels.find? fun k => decide (v.lrs.cursor ≤ k.id) && refreshable attempted k) = none := by
  rw [List.find?_eq_none]
  intro k hk hp
  simp only [Bool.and_eq_true, decide_eq_true_eq] at hp
  exact absurd (hbehind k hk hp.2) (Nat.not_lt.2 hp.1)

theorem refreshSearch_behind (hkeyed : LabelsKeyed v) (hl : l ∈ v.lrs.labels) (hcan : refreshable attempted l = true)
    (hleast : ∀ k ∈ v.lrs.labels, refreshable attempted k = true → l.id ≤ k.id ∧ k.id < v.lrs.cursor) :
    refreshSearch v attempted = (some l, l.id, nextCycle v.lrs.cycles) := by
  have hbehind := (hleast l hl hcan).2
  have hfind : (v.lrs.labels.find? fun k => decide (k.id < v.lrs.cursor) && refreshable attempted k) = some l := by
    refine find?_of_least (key := Label.id) hkeyed hl (by simp [hbehind, hcan]) fun k hk hp => ?_
    exact (hleast k hk (by simp_all)).1
  rw [refreshSearch, find?_ahead_of_behind fun k hk hp => (hleast k hk hp).2, hfind]

theorem refreshSearch_none (hnone : ∀ k ∈ v.lrs.labels, refreshable attempted k = false) :
    refreshSearch v attempted = (none, v.lrs.cursor, nextCycle v.lrs.cycles) := by
  have hfind : (v.lrs.labels.find? fun k => decide (k.id < v.lrs.cursor) && refreshable attempted k) = none := by
    rw [List.find?_eq_none]
    intro k hk
    simp [hnone k hk]
  rw [refreshSearch, find?_ahead_of_behind fun k hk hp => absurd hp (by simp [hnone k hk]), hfind]

end Choice

/-! ## The order of the priority work (R37) -/

section PriorityOrder

/-- R37's order of two slots: the urgent first, then by issue time. -/
def SlotOrder (a b : Slot) : Prop := a.urgent = b.urgent ∧ a.issueTime ≤ b.issueTime ∨ a.urgent = true ∧ b.urgent = false

/-- Whether a slot has an urgency and an issue time. -/
def sameRank (urgent : Bool) (time : Nat) (x : Slot) : Bool := x.urgent == urgent && x.issueTime == time

theorem slotBefore_eq_false_iff (a b : Slot) : slotBefore a b = false ↔ SlotOrder b a := by
  unfold slotBefore SlotOrder
  by_cases h : a.urgent = b.urgent
  · simp [h]
  · cases ha : a.urgent <;> cases hb : b.urgent <;> simp_all

theorem SlotOrder.of_before {a b : Slot} (h : slotBefore a b = true) : SlotOrder a b := by
  unfold slotBefore at h
  unfold SlotOrder
  split at h
  case isTrue heq => exact .inl ⟨heq, Nat.le_of_lt (of_decide_eq_true h)⟩
  case isFalse hne => exact .inr ⟨h, by cases hb : b.urgent <;> simp_all⟩

theorem SlotOrder.trans {a b c : Slot} (hab : SlotOrder a b) (hbc : SlotOrder b c) : SlotOrder a c := by
  unfold SlotOrder at *
  rcases hab with ⟨hu, ht⟩ | ⟨ha, hb⟩ <;> rcases hbc with ⟨hu', ht'⟩ | ⟨hb', hc⟩
  · exact .inl ⟨hu.trans hu', Nat.le_trans ht ht'⟩
  · exact .inr ⟨hu.trans hb', hc⟩
  · exact .inr ⟨ha, hu' ▸ hb⟩
  · exact .inr ⟨ha, hc⟩

theorem insertSlot_perm (x : Slot) (l : List Slot) : (insertSlot x l).Perm (x :: l) := by
  induction l with
  | nil => exact .refl _
  | cons h l ih =>
    rw [insertSlot]
    split
    · exact .refl _
    · exact (ih.cons h).trans (.swap x h l)

theorem insertSlot_ordered (x : Slot) {l : List Slot} (hl : l.Pairwise SlotOrder) : (insertSlot x l).Pairwise SlotOrder := by
  induction l with
  | nil => exact List.pairwise_singleton _ _
  | cons h l ih =>
    obtain ⟨hhead, htail⟩ := List.pairwise_cons.1 hl
    rw [insertSlot]
    split
    case isTrue hbefore =>
      refine List.pairwise_cons.2 ⟨fun y hy => ?_, hl⟩
      rcases List.mem_cons.1 hy with rfl | hy
      · exact .of_before hbefore
      · exact (SlotOrder.of_before hbefore).trans (hhead y hy)
    case isFalse hnot =>
      refine List.pairwise_cons.2 ⟨fun y hy => ?_, ih htail⟩
      rcases List.mem_cons.1 ((insertSlot_perm x l).mem_iff.1 hy) with rfl | hy
      · exact (slotBefore_eq_false_iff ..).1 (by simpa using hnot)
      · exact hhead y hy

/-- Nothing of a slot's own rank comes after one that the slot goes before. -/
theorem sameRank_after_of_before {x h y : Slot} (hbefore : slotBefore x h = true) (hy : y = h ∨ SlotOrder h y) {urgent : Bool}
    {time : Nat} (hx : sameRank urgent time x = true) : sameRank urgent time y = false := by
  have hnot : ¬ SlotOrder h x := fun ho => by simp [(slotBefore_eq_false_iff ..).2 ho] at hbefore
  have hyx : ¬ SlotOrder y x := fun ho => by
    rcases hy with rfl | hy
    · exact hnot ho
    · exact hnot (hy.trans ho)
  simp only [sameRank, Bool.and_eq_true, beq_iff_eq] at hx
  cases hrank : sameRank urgent time y with
  | false => rfl
  | true =>
    simp only [sameRank, Bool.and_eq_true, beq_iff_eq] at hrank
    exact absurd (.inl ⟨hrank.1.trans hx.1.symm, Nat.le_of_eq (hrank.2.trans hx.2.symm)⟩) hyx

theorem filter_insertSlot (x : Slot) {l : List Slot} (hl : l.Pairwise SlotOrder) (urgent : Bool) (time : Nat) :
    (insertSlot x l).filter (sameRank urgent time) = (l ++ [x]).filter (sameRank urgent time) := by
  induction l with
  | nil => rfl
  | cons h l ih =>
    obtain ⟨hhead, htail⟩ := List.pairwise_cons.1 hl
    rw [insertSlot]
    split
    case isTrue hbefore =>
      cases hx : sameRank urgent time x with
      | false => rw [List.filter_cons_of_neg (by simp [hx]), List.filter_append, List.filter_cons_of_neg (a := x) (by simp [hx]),
          List.filter_nil, List.append_nil]
      | true =>
        have hnone : (h :: l).filter (sameRank urgent time) = [] := by
          rw [List.filter_eq_nil_iff]
          intro y hy
          have hafter : y = h ∨ SlotOrder h y := (List.mem_cons.1 hy).imp id (hhead y)
          simp [sameRank_after_of_before hbefore hafter hx]
        rw [List.filter_append, hnone, List.filter_cons_of_pos hx, hnone, List.filter_cons_of_pos hx, List.filter_nil,
          List.nil_append]
    case isFalse =>
      rw [List.cons_append, List.filter_cons, List.filter_cons, ih htail]

theorem foldl_insertSlot (l : List Slot) {acc : List Slot} (hacc : acc.Pairwise SlotOrder) :
    (l.foldl (fun acc x => insertSlot x acc) acc).Perm (acc ++ l) ∧
    (l.foldl (fun acc x => insertSlot x acc) acc).Pairwise SlotOrder ∧
    ∀ urgent time, (l.foldl (fun acc x => insertSlot x acc) acc).filter (sameRank urgent time) =
      (acc ++ l).filter (sameRank urgent time) := by
  induction l generalizing acc with
  | nil => exact ⟨by rw [List.append_nil]; exact .refl _, hacc, fun _ _ => by rw [List.append_nil]; rfl⟩
  | cons x l ih =>
    obtain ⟨hperm, hordered, hstable⟩ := ih (insertSlot_ordered x hacc)
    refine ⟨hperm.trans ?_, hordered, fun urgent time => (hstable urgent time).trans ?_⟩
    · exact ((insertSlot_perm x acc).append_right l).trans List.perm_middle.symm
    · rw [List.filter_append, filter_insertSlot x hacc, ← List.filter_append, List.append_assoc]
      rfl

end PriorityOrder

/-- Settles O47. -/
theorem radioEventsTaken : Obligations.RadioEventsTaken := by
  unfold Obligations.RadioEventsTaken
  intro s hrun
  refine ⟨fun _ => sendBeacon_of_idle, fun _ => sendBeacon_of_sending, fun t u hkind => if_neg (by simp [hkind]),
    fun t u hkind => if_pos hkind, fun id u => ⟨passLabel_of_below, passLabel_of_last⟩,
    fun a u hwrites => ⟨fun hstate hanswers => ?_, fun hpart => ?_⟩,
    fun label number price battery margin => ⟨fun hasleep => ?_, fun hawake hbad => ?_,
      fun hawake hlabel hprice hbattery a hal hap hab ham hat => ⟨fun hno hanswers => ?_,
        fun t x ht htl htn hphase hanswers => ?_, fun t ht htl htn hphase hanswers => ?_⟩⟩,
    fun t x u ht hphase hu => ⟨fun hmark => ?_, fun hmark => ?_⟩, fun hno => event_takes hrun (closeWindow_of_none hno),
    fun x hawake hx => ?_, fun hno => ?_, fun t ht hphase => event_takes hrun (openWindow_of_frame ht hphase),
    fun hno => event_takes hrun (openWindow_of_other hno), fun x u hsettling hx hu => ?_, fun hno => ?_,
    fun label n l v w hl hn hw => ⟨fun hstate => takeFailure_of_unbound (hl ▸ hstate), takeFailure_of_below hl hn hw,
      takeFailure_of_limit hl hn hw⟩,
    fun label price k v => rfl,
    fun t v ht hphase => ⟨takeFloor_of_needed ht hphase, fun f n => takeFloor_of_held ht hphase⟩,
    fun tag label item v hlabel hitem hwrites => takeUnbind_of_bound hlabel hitem hwrites,
    fun v b hidle hb hawake => ⟨chooseNext_of_full hidle hb hawake, fun hroom =>
      ⟨fun label price => chooseNext_of_priority hidle hb hawake hroom, fun hnone hoff => ?_, fun hnone hon hkeyed =>
        ⟨fun l price hl hbound hfresh hprice => ⟨fun hahead hleast => ?_, fun hbehind hleast => ?_⟩, fun hall => ?_⟩⟩⟩,
    fun v => ⟨prioritySlots v, ?_⟩⟩
  · rw [takeAck_eq a hwrites, hanswers]
    simp [hstate]
  · rw [takeAck_eq a hwrites]
    rcases hpart with h | h <;> simp [h]
  · simp only [exec, execLabelAcknowledgement]
    exact event_takes hrun (if_pos hasleep)
  · simp only [exec, execLabelAcknowledgement]
    refine event_takes hrun ?_
    rw [if_neg (by simp [hawake]), if_neg fun h => ?_]
    obtain ⟨h1, h2, h3⟩ := ackInRange_iff.1 h
    omega
  · refine labelAcknowledgement_heard hrun hawake hlabel hprice hbattery ?_
    have hmatch : ∀ t, s.lrs.inFlight = some t → matchesWindow t label number = false := by
      intro t ht
      rw [Bool.eq_false_iff, Ne, matchesWindow_iff]
      rintro ⟨hl, hn, x, hx⟩
      rcases hno t ht with h | h | h
      · exact h hl
      · exact h hn
      · exact h.2 x hx
    rw [takeAckFrame_of_other hmatch, ← eq_ackReport hal hap hab ham hat]
    rw [hanswers, eq_comm, Option.any_eq_false]
    intro t ht
    rw [Bool.eq_false_iff, Ne, answersMarked_iff]
    rintro ⟨hl, hn, -, hphase⟩
    rcases hno t ht with h | h | h
    · exact h hl
    · exact h hn
    · exact hphase.elim h.1 fun ⟨x, hx⟩ => h.2 x hx
  · refine labelAcknowledgement_heard hrun hawake hlabel hprice hbattery ?_
    rw [takeAckFrame_of_window ht (matchesWindow_iff.2 ⟨htl, htn, x, hphase⟩), ← eq_ackReport hal hap hab ham hat]
    rw [hanswers, ht, Option.any_some, Bool.eq_iff_iff, answersMarked_iff]
    exact ⟨fun h => ⟨htl, htn, h, .inr ⟨x, hphase⟩⟩, fun h => h.2.2.1⟩
  · refine labelAcknowledgement_heard hrun hawake hlabel hprice hbattery ?_
    have hmatch : ∀ t', s.lrs.inFlight = some t' → matchesWindow t' label number = false := by
      intro t' ht'
      obtain rfl : t = t' := Option.some.inj (ht.symm.trans ht')
      rw [Bool.eq_false_iff, Ne, matchesWindow_iff]
      rintro ⟨-, -, x, hx⟩
      simp [hphase] at hx
    rw [takeAckFrame_of_other hmatch, ← eq_ackReport hal hap hab ham hat]
    rw [hanswers, ht, Option.any_some, Bool.eq_iff_iff, answersMarked_iff]
    exact ⟨fun h => ⟨htl, htn, h, .inl hphase⟩, fun h => h.2.2.1⟩
  · exact event_takes hrun (by rw [closeWindow_of_window ht hphase, if_pos hmark, hu])
  · exact event_takes hrun (by rw [closeWindow_of_window ht hphase, if_neg (by simp [hmark]), hu])
  · simp only [exec, execBeacon]
    exact event_takes hrun (by simp only [hawake, hx])
  · simp only [exec, execBeacon]
    refine event_takes hrun ?_
    split
    case h_1 x hawake hx => simp [hawake, hx] at hno
    case h_2 => rfl
  · simp only [exec, execSettleEnd]
    exact event_takes hrun (by simp only [hsettling, hx, hu, radioAwake])
  · simp only [exec, execSettleEnd]
    refine event_takes hrun ?_
    split
    case h_1 x hsettling hx => simp [hsettling, hx] at hno
    case h_2 => rfl
  · rw [chooseNext_of_no_priority hidle hb hawake hroom hnone, chooseRefresh_of_disabled hoff]
  · have hsearch := refreshSearch_ahead hkeyed.labels hl (refreshable_iff.2 ⟨hbound, hfresh⟩) hahead fun k hk hcan =>
      hleast k hk (refreshable_iff.1 hcan).1 (refreshable_iff.1 hcan).2
    rw [chooseNext_of_no_priority hidle hb hawake hroom hnone, chooseRefresh_of_found hon hsearch hprice]
  · have hsearch := refreshSearch_behind hkeyed.labels hl (refreshable_iff.2 ⟨hbound, hfresh⟩) fun k hk hcan =>
      hleast k hk (refreshable_iff.1 hcan).1 (refreshable_iff.1 hcan).2
    rw [chooseNext_of_no_priority hidle hb hawake hroom hnone, chooseRefresh_of_found hon hsearch hprice]
  · have hsearch := refreshSearch_none (v := v) (attempted := b.attempted) fun k hk =>
      Bool.eq_false_iff.2 fun hcan => (refreshable_iff.1 hcan).2 (hall k hk (refreshable_iff.1 hcan).1)
    rw [chooseNext_of_no_priority hidle hb hawake hroom hnone, chooseRefresh_of_none hon hsearch]
  · obtain ⟨hperm, hordered, hstable⟩ :=
      foldl_insertSlot ((v.pbk.slots.filterMap id).filter fun x => x.stage != .issuing) List.Pairwise.nil
    exact ⟨hperm, hordered, hstable, fun _ => rfl⟩

end Sys2Proof.Proofs
end

