-- ==== Sys2Proof/Proofs/Completions.lean ====
section
/-! PROOFS. The completion of an NV write: the write it names leaves the list of those under way, and what it made durable takes effect; without one nothing happens (R6, R24, R188, log entry 2). -/

namespace Sys2Proof.Proofs

open Sys2Proof.Machine Sys2Proof.Safety Sys2Proof.Laws

/-- A completion that takes its write: what it made durable is `g`. -/
def Completes (c : Instr) (w : NvWrite) (g : State → State) : Prop :=
  ∀ (s : State) (pre post : List NvWrite), UnderWay s w pre post → exec c s = .next (finish (g { s with nv := pre ++ post }))

/-- A completion with no write of its target under way has no effect. -/
def IdleWithout (c : Instr) (k : Nat × Nat) : Prop :=
  ∀ s : State, s.running = true → (∀ x ∈ s.nv, NvWrite.target x ≠ k) → exec c s = .next (finish s)

section Completions

variable {c : Instr} {p : NvWrite → Bool} {f : NvWrite → State → State} {w : NvWrite} {k : Nat × Nat} {s : State}
  {pre post : List NvWrite}

theorem completeWrite_of_underWay (hp : ∀ x, p x = true ↔ NvWrite.target x = NvWrite.target w) (hu : UnderWay s w pre post) :
    completeWrite p f s = f w { s with nv := pre ++ post } := by
  refine completeWrite_first p f w pre post s hu.split (fun x hx => ?_) ((hp w).2 rfl)
  rw [Bool.eq_false_iff, Ne, hp x]
  exact hu.first x hx

theorem takeWrite_of_none {t : List NvWrite} (hp : ∀ x, p x = true ↔ NvWrite.target x = k)
    (hnone : ∀ x ∈ t, NvWrite.target x ≠ k) : takeWrite p t = none := by
  induction t with
  | nil => rfl
  | cons a t ih =>
    obtain ⟨ha, ht⟩ := List.forall_mem_cons.1 hnone
    rw [takeWrite, if_neg (mt (hp a).1 ha), ih ht, Option.map_none]

theorem completeWrite_of_none (hp : ∀ x, p x = true ↔ NvWrite.target x = k) (hnone : ∀ x ∈ s.nv, NvWrite.target x ≠ k) :
    completeWrite p f s = s := by
  rw [completeWrite, takeWrite_of_none hp hnone]

theorem completes_of_named {g : State → State} (hc : ∀ s, exec c s = event (completeWrite p f) s)
    (hp : ∀ x, p x = true ↔ NvWrite.target x = NvWrite.target w) (hg : ∀ u, f w u = g u) : Completes c w g :=
  fun s pre post hu =>
    (hc s).trans (event_takes hu.running ((completeWrite_of_underWay hp hu).trans (hg _)))

theorem idleWithout_of_named (hc : ∀ s, exec c s = event (completeWrite p f) s) (hp : ∀ x, p x = true ↔ NvWrite.target x = k) :
    IdleWithout c k := fun s hrun hnone =>
  (hc s).trans (event_takes hrun (completeWrite_of_none hp hnone))

theorem Completes.takes {g : State → State} {u v : State} (h : Completes c w g) (hunder : UnderWay s w pre post)
    (hu : { s with nv := pre ++ post } = u) (hv : g u = v) : exec c s = .next (finish v) := by
  rw [h s pre post hunder, hu, hv]

end Completions

end Sys2Proof.Proofs
end

