-- ==== Sys2Proof/Proofs/LabelWrites.lean ====
section
/-! PROOFS. The label writes that are durable: bind, unbind, retry, acknowledgement, UNREACHABLE and floor; the outstanding set of a slot; the health watch (R15 to R17, R19, R25 to R27, R30, R31, R33, R43). -/

namespace Sys2Proof.Proofs

open Sys2Proof.Machine Sys2Proof.Safety Sys2Proof.Laws

/-! ## The completions -/

section Completions

variable {tag label item price : Nat} {a : AckReport} {full : Bool}

theorem bind_completes : Completes (.labelBindWriteDone label) (.bind tag label item) (bindDone tag label item) := by
  refine completes_of_named (fun s => Eq.refl (execLabelBindWriteDone label s)) (fun x => ?_) fun _ => rfl
  cases x <;> simp [NvWrite.target]

theorem bind_idle : IdleWithout (.labelBindWriteDone label) (4, label) := by
  refine idleWithout_of_named (fun s => Eq.refl (execLabelBindWriteDone label s)) fun x => ?_
  cases x <;> simp [NvWrite.target]

theorem unbind_completes : Completes (.labelUnbindWriteDone label) (.unbind tag label item) (unbindDone tag label item) := by
  refine completes_of_named (fun s => Eq.refl (execLabelUnbindWriteDone label s)) (fun x => ?_) fun _ => rfl
  cases x <;> simp [NvWrite.target]

theorem unbind_idle : IdleWithout (.labelUnbindWriteDone label) (5, label) := by
  refine idleWithout_of_named (fun s => Eq.refl (execLabelUnbindWriteDone label s)) fun x => ?_
  cases x <;> simp [NvWrite.target]

theorem retry_completes : Completes (.labelRetryWriteDone label) (.retry tag label) (retryDone tag label) := by
  refine completes_of_named (fun s => Eq.refl (execLabelRetryWriteDone label s)) (fun x => ?_) fun _ => rfl
  cases x <;> simp [NvWrite.target]

theorem retry_idle : IdleWithout (.labelRetryWriteDone label) (6, label) := by
  refine idleWithout_of_named (fun s => Eq.refl (execLabelRetryWriteDone label s)) fun x => ?_
  cases x <;> simp [NvWrite.target]

theorem ack_completes : Completes (.ackWriteDone a.label) (.ack a full) (ackDone a full) := by
  refine completes_of_named (fun s => Eq.refl (execAckWriteDone a.label s)) (fun x => ?_) fun _ => rfl
  cases x <;> simp [NvWrite.target]

theorem ack_idle : IdleWithout (.ackWriteDone label) (7, label) := by
  refine idleWithout_of_named (fun s => Eq.refl (execAckWriteDone label s)) fun x => ?_
  cases x <;> simp [NvWrite.target]

theorem unreachable_completes : Completes (.unreachableWriteDone label) (.unreachable label) (unreachableDone label) := by
  refine completes_of_named (fun s => Eq.refl (execUnreachableWriteDone label s)) (fun x => ?_) fun _ => rfl
  cases x <;> simp [NvWrite.target]

theorem unreachable_idle : IdleWithout (.unreachableWriteDone label) (8, label) := by
  refine idleWithout_of_named (fun s => Eq.refl (execUnreachableWriteDone label s)) fun x => ?_
  cases x <;> simp [NvWrite.target]

theorem floor_completes : Completes (.floorWriteDone label) (.floor label price) (floorDone label price) := by
  refine completes_of_named (fun s => Eq.refl (execFloorWriteDone label s)) (fun x => ?_) fun _ => rfl
  cases x <;> simp [NvWrite.target]

theorem floor_idle : IdleWithout (.floorWriteDone label) (9, label) := by
  refine idleWithout_of_named (fun s => Eq.refl (execFloorWriteDone label s)) fun x => ?_
  cases x <;> simp [NvWrite.target]

end Completions

/-! ## What a label's write does (R15 to R17, R25 to R27, R30, R31, R33) -/

section Done

variable {u : State} {l : Label} {tag label item price : Nat}

theorem bindDone_eq (hl : u.label label = l) : bindDone tag label item u =
    reply tag .labelBind .ok .empty (joinOutstanding item label (adjustBound item (· + 1)
      (putLabel { l with state := .active, item := some item, confirmed := none, floor := none, failed := 0 } u))) := by
  subst hl
  rfl

theorem unbindDone_eq (hl : u.label label = l) : unbindDone tag label item u =
    reply tag .labelUnbind .ok .empty (leaveOutstanding item label 0 0 (adjustBound item (· - 1)
      (putLabel { l with state := .unbound, item := none, confirmed := none, floor := none, failed := 0 }
        { u with lrs := { u.lrs with
          inFlight := u.lrs.inFlight.map fun t => if t.label = label then { t with unboundMark := true } else t } }))) := by
  subst hl
  rfl

theorem retryDone_eq (hl : u.label label = l) (hitem : l.item = some item) : retryDone tag label u =
    reply tag .labelRetry .ok .empty (joinOutstanding item label (putLabel { l with state := .active, failed := 0 } u)) := by
  subst hl
  simp only [retryDone, hitem]

theorem unreachableDone_eq (hl : u.label label = l) (hitem : l.item = some item) : unreachableDone label u =
    notify (.labelLost label item l.failed l.confirmed l.floor)
      (leaveOutstanding item label 0 1 (putLabel { l with state := .unreachable } u)) := by
  subst hl
  simp only [unreachableDone, hitem]

theorem ackDone_full {a : AckReport} (hl : u.label a.label = l) : ackDone a true u =
    healthWatch a l.item (reportAck l.item a.label a.price
      (putLabel { l with
          state := .active, confirmed := some a.price, floor := none, failed := 0, battery := some a.battery
          margin := some a.margin, lastAck := a.time } u)) := by
  subst hl
  rfl

theorem ackDone_part {a : AckReport} (hl : u.label a.label = l) : ackDone a false u =
    healthWatch a l.item (putLabel { l with battery := some a.battery, margin := some a.margin, lastAck := a.time } u) := by
  subst hl
  rfl

theorem floorDone_of_other (hl : u.label label = l)
    (hno : ∀ t, u.lrs.inFlight = some t → t.label ≠ label ∨ t.phase ≠ .floorWrite) :
    floorDone label price u = putLabel { l with floor := some price } u := by
  subst hl
  have hsame : (putLabel { u.label label with floor := some price } u).lrs.inFlight = u.lrs.inFlight := rfl
  unfold floorDone
  dsimp only
  split
  case h_1 t ht =>
    refine if_neg ?_
    rintro ⟨hlabel, hphase⟩
    rcases hno t (hsame ▸ ht) with h | h
    · exact h hlabel
    · exact h hphase
  case h_2 => rfl

theorem floorDone_of_waiting {t : Transmission} {n : Nat} {v : State} (hl : u.label label = l) (ht : u.lrs.inFlight = some t)
    (hlabel : t.label = label) (hphase : t.phase = .floorWrite) (hn : (u.lrs.txCount + 1) % 256 = n)
    (hv : putLabel { l with floor := some price } u = v) : floorDone label price u =
      { v with
        out := v.out ++ [.priceFrame label n t.price]
        lrs := { v.lrs with
          txCount := n
          inFlight := some { t with number := n, phase := .frame, windowMs := u.settings.nat .ackWindow } } } := by
  subst hl hlabel hn hv
  have hsame : (putLabel { u.label t.label with floor := some price } u).lrs.inFlight = some t := ht
  simp only [floorDone, hsame, hphase, and_self, if_true]
  rfl

end Done

/-! ## The outstanding set of a slot (R15 to R17, R19) -/

section Outstanding

variable {v : State} {item label i a b price : Nat} {x : Slot}

theorem updateSlot_of_none {f : Slot → Slot} (hnone : slotOf v item = none) : updateSlot item f v = v := by
  rw [updateSlot, hnone]

theorem updateSlot_of_held {f : Slot → Slot} (hi : slotOf v item = some i) (hx : slotAt v i = some x) :
    updateSlot item f v = { v with pbk := { v.pbk with slots := v.pbk.slots.set i (some (f x)) } } := by
  simp only [updateSlot, hi, hx, Option.map_some, putSlot]

theorem checkEffect_of_none (hnone : slotOf v item = none) : checkEffect item v = v := by
  rw [checkEffect, hnone]

theorem checkEffect_of_held (hi : slotOf v item = some i) (hx : slotAt v i = some x) : checkEffect item v =
    if x.stage = .labelling ∧ x.outstanding = [] ∧ pendingUnderWay v item = false then
      startWrite (.effect item) (putSlot i (some { x with stage := .effecting }) v)
    else v := by
  simp only [checkEffect, hi, hx]

theorem slotAt_eq_some : slotAt v i = some x ↔ v.pbk.slots[i]? = some (some x) := by
  rw [slotAt]
  cases v.pbk.slots[i]? <;> simp

/-- A slot written as it stands is no change. -/
theorem set_slotAt (hx : slotAt v i = some x) : v.pbk.slots.set i (some x) = v.pbk.slots := by
  obtain ⟨hlt, hget⟩ := List.getElem?_eq_some_iff.1 (slotAt_eq_some.1 hx)
  rw [← hget, List.set_getElem_self]

theorem leaveOutstanding_of_none (hnone : slotOf v item = none) : leaveOutstanding item label a b v = v := by
  rw [leaveOutstanding, updateSlot_of_none hnone, checkEffect_of_none hnone]

theorem leaveOutstanding_of_mem (hi : slotOf v item = some i) (hx : slotAt v i = some x) (hmem : label ∈ x.outstanding) :
    leaveOutstanding item label a b v = checkEffect item { v with pbk := { v.pbk with
      slots := v.pbk.slots.set i (some { x with
        outstanding := x.outstanding.filter (· != label), confirmed := x.confirmed + a
        unreachable := x.unreachable + b }) } } := by
  rw [leaveOutstanding, updateSlot_of_held hi hx, if_pos (List.contains_iff_mem.2 hmem)]

theorem leaveOutstanding_of_not_mem (hi : slotOf v item = some i) (hx : slotAt v i = some x) (hmem : label ∉ x.outstanding) :
    leaveOutstanding item label a b v = checkEffect item v := by
  rw [leaveOutstanding, updateSlot_of_held hi hx, if_neg (mt List.contains_iff_mem.1 hmem), set_slotAt hx]

theorem reportAck_of_none (hnone : slotOf v item = none) : reportAck (some item) label price v = v := by
  simp only [reportAck, hnone, Option.bind_none]

theorem reportAck_of_held (hi : slotOf v item = some i) (hx : slotAt v i = some x) : reportAck (some item) label price v =
    if x.price = price then leaveOutstanding item label 1 0 v else v := by
  simp only [reportAck, hi, Option.bind_some, hx]

theorem checkEffect_of_empty (hi : slotOf v item = some i) (hx : slotAt v i = some x) (hstage : x.stage = .labelling)
    (hempty : x.outstanding = []) (hpending : pendingUnderWay v item = false) (hwrites : writesStopped v = false) :
    checkEffect item v = { v with
      nv := v.nv ++ [.effect item]
      pbk := { v.pbk with slots := v.pbk.slots.set i (some { x with stage := .effecting }) } } := by
  rw [checkEffect_of_held hi hx, if_pos ⟨hstage, hempty, hpending⟩]
  exact startWrite_of_free _ hwrites

theorem checkEffect_of_other (hi : slotOf v item = some i) (hx : slotAt v i = some x)
    (hnot : x.stage ≠ .labelling ∨ x.outstanding ≠ [] ∨ pendingUnderWay v item = true) : checkEffect item v = v := by
  rw [checkEffect_of_held hi hx, if_neg]
  rintro ⟨hstage, hempty, hpending⟩
  rcases hnot with h | h | h
  · exact h hstage
  · exact h hempty
  · simp [hpending] at h

theorem mem_insertId (n : Nat) (l : List Nat) : n ∈ insertId label l ↔ n = label ∨ n ∈ l := by
  induction l with
  | nil => rw [insertId, List.mem_singleton, List.mem_nil_iff, or_false]
  | cons h t ih =>
    rw [insertId]
    split
    · exact List.mem_cons
    · split
      case isTrue heq => simp [heq]
      case isFalse => rw [List.mem_cons, ih, List.mem_cons, or_left_comm]

theorem insertId_sorted {l : List Nat} (hl : l.Pairwise (· < ·)) : (insertId label l).Pairwise (· < ·) := by
  induction l with
  | nil => exact List.pairwise_singleton _ _
  | cons h t ih =>
    obtain ⟨hhead, htail⟩ := List.pairwise_cons.1 hl
    rw [insertId]
    split
    case isTrue hlt =>
      refine List.pairwise_cons.2 ⟨fun y hy => ?_, hl⟩
      rcases List.mem_cons.1 hy with rfl | hy
      · exact hlt
      · exact Nat.lt_trans hlt (hhead y hy)
    case isFalse hge =>
      split
      · exact hl
      case isFalse hne =>
        refine List.pairwise_cons.2 ⟨fun y hy => ?_, ih htail⟩
        rcases (mem_insertId y t).1 hy with rfl | hy
        · omega
        · exact hhead y hy

theorem pendingUnderWay_iff : pendingUnderWay v item = true ↔ ∃ x, NvWrite.pending x ∈ v.nv ∧ x.item = item := by
  rw [pendingUnderWay, List.any_eq_true]
  constructor
  · rintro ⟨w, hw, hp⟩
    cases w <;> simp at hp
    case pending x => exact ⟨x, hw, hp⟩
  · rintro ⟨x, hx, hitem⟩
    exact ⟨_, hx, by simp [hitem]⟩

end Outstanding

/-! ## The health watch (R43) -/

section Health

variable {v : State} {a : AckReport} {item : Option Nat} {low bad watched : Bool} {l : Label}

theorem healthScoped_iff (t : Settings) (label : Nat) : healthScoped t label = true ↔
    t.num .healthScope = 1 ∨ t.num .healthScope = 2 ∧ t.nat .scopeLabel = label := by
  simp [healthScoped]

theorem badMargin_iff (t : Settings) (m : Int) : badMargin t m = true ↔ m < t.num .marginLow ∨ t.num .marginHigh < m := by
  simp [badMargin]

theorem healthWatch_eq (hl : v.label a.label = l) (hlow : low = true ↔ (a.battery : Int) < v.settings.num .batteryLow)
    (hbad : bad = true ↔ a.margin < v.settings.num .marginLow ∨ v.settings.num .marginHigh < a.margin)
    (hwatched : watched = true ↔ v.settings.num .healthScope = 1 ∨
      v.settings.num .healthScope = 2 ∧ v.settings.nat .scopeLabel = a.label) : healthWatch a item v =
      if watched && (low || bad) && !l.health then
        notify (.labelHealth a.label item a.battery a.margin low bad) (putLabel { l with health := true } v)
      else v := by
  have hl1 : badBattery v.settings a.battery = low := by rw [Bool.eq_iff_iff, hlow, badBattery, decide_eq_true_iff]
  have hb1 : badMargin v.settings a.margin = bad := by rw [Bool.eq_iff_iff, hbad, badMargin_iff]
  have hw1 : healthScoped v.settings a.label = watched := by rw [Bool.eq_iff_iff, hwatched, healthScoped_iff]
  rw [healthWatch, hl1, hb1, hw1, hl]

end Health

/-- Settles O48. -/
theorem labelWritesDone : Obligations.LabelWritesDone := by
  unfold Obligations.LabelWritesDone
  refine ⟨fun s u w pre post l hunder hu => ⟨fun tag label item hw hl => ?_, fun tag label item hw hl => ?_,
      fun tag label item hw hl hitem => ?_, fun a hw hl => ?_, fun a hw hl => ?_, fun label item hw hl hitem => ?_,
      fun label price hw hl => ⟨fun hno => ?_, fun t n ht hlabel hphase hn => ⟨_, rfl, ?_⟩⟩⟩,
    fun s hrun => ⟨fun label => bind_idle s hrun, fun label => unbind_idle s hrun, fun label => retry_idle s hrun,
      fun label => ack_idle s hrun, fun label => unreachable_idle s hrun, fun label => floor_idle s hrun⟩,
    fun v item label => ⟨fun hnone => ⟨updateSlot_of_none hnone, checkEffect_of_none hnone,
        fun a b => leaveOutstanding_of_none hnone, fun price => reportAck_of_none hnone⟩,
      fun i x hi hx => ⟨updateSlot_of_held hi hx, fun a b => leaveOutstanding_of_mem hi hx,
        fun a b => leaveOutstanding_of_not_mem hi hx, fun price hprice => (reportAck_of_held hi hx).trans (if_pos hprice),
        fun price hprice => (reportAck_of_held hi hx).trans (if_neg hprice), checkEffect_of_empty hi hx,
        checkEffect_of_other hi hx⟩,
      fun l hl => ⟨insertId_sorted hl, fun n => mem_insertId n l⟩, pendingUnderWay_iff, fun price => rfl,
      fun e f he => by simp only [adjustBound, he], fun f hnone => by simp only [adjustBound, hnone]⟩,
    fun v a item low bad watched l hl hlow hbad hwatched => ⟨fun hw hout hclear => ?_, fun hnot => ?_⟩⟩
  · subst hw
    exact bind_completes.takes hunder hu (bindDone_eq (hu ▸ hl))
  · subst hw
    exact unbind_completes.takes hunder hu (unbindDone_eq (hu ▸ hl))
  · subst hw
    exact retry_completes.takes hunder hu (retryDone_eq (hu ▸ hl) hitem)
  · subst hw
    exact ack_completes.takes hunder hu (ackDone_full (hu ▸ hl))
  · subst hw
    exact ack_completes.takes hunder hu (ackDone_part (hu ▸ hl))
  · subst hw
    exact unreachable_completes.takes hunder hu (unreachableDone_eq (hu ▸ hl) hitem)
  · subst hw
    exact floor_completes.takes hunder hu (floorDone_of_other (hu ▸ hl) (hu ▸ hno))
  · subst hw
    have htake := floorDone_of_waiting (u := u) (l := l) (n := n) (price := price) (hu ▸ hl) (hu ▸ ht) hlabel hphase (hu ▸ hn) rfl
    rw [floor_completes.takes hunder hu htake, ← hu]
  · rw [healthWatch_eq hl hlow hbad hwatched, if_pos]
    rcases hout with h | h <;> simp [hw, h, hclear]
  · rw [healthWatch_eq hl hlow hbad hwatched, if_neg]
    rcases hnot with h | ⟨h1, h2⟩ | h <;> simp [*]

end Sys2Proof.Proofs
end

