-- ==== Sys2Proof/Proofs/PriceWrites.lean ====
section
/-! PROOFS. The price book's durable writes, the change queue's order and its admission, and R7 for a change from any source (R2, R3, R7 to R14, R19, R20). -/

namespace Sys2Proof.Proofs

open Sys2Proof.Machine Sys2Proof.Safety Sys2Proof.Laws

/-! ## Entries of the book -/

section Entries

variable {s : State}

theorem find?_insertItem_same (i : Item) (l : List Item) : (insertItem i l).find? (·.code == i.code) = some i := by
  induction l with
  | nil => exact List.find?_cons_of_pos (by simp)
  | cons h t ih =>
    rw [insertItem]
    split
    · exact List.find?_cons_of_pos (by simp)
    · split
      · exact List.find?_cons_of_pos (by simp)
      case isFalse hne => rw [List.find?_cons_of_neg (by simpa using Ne.symm hne), ih]

theorem findItem_putItem_same (i : Item) (s : State) : findItem (putItem i s) i.code = some i :=
  find?_insertItem_same i s.pbk.items

theorem findItem_code {c : Nat} {i : Item} (hi : findItem s c = some i) : i.code = c := by
  simpa using List.find?_some hi

theorem findItem_dropItem_same (c : Nat) (s : State) : findItem (dropItem c s) c = none := by
  rw [findItem, dropItem, List.find?_eq_none]
  intro i hi
  simpa using (List.mem_filter.1 hi).2

theorem findItem_of_items {t : State} (h : t.pbk.items = s.pbk.items) (c : Nat) : findItem t c = findItem s c := by
  rw [findItem, h, findItem]

end Entries

/-! ## An entry added or removed (R2, R3) -/

section AddRemove

variable {s u : State} {tag item : Nat} {e : Item} {pre post : List NvWrite}

theorem itemAdd_completes :
    Completes (.itemAddWriteDone e.code) (.itemAdd tag e) (fun u => reply tag .itemAdd .ok .empty (putItem e u)) := by
  refine completes_of_named (fun s => Eq.refl (execItemAddWriteDone e.code s)) (fun x => ?_) fun _ => rfl
  cases x <;> simp [NvWrite.target]

theorem itemAdd_idle : IdleWithout (.itemAddWriteDone item) (0, item) := by
  refine idleWithout_of_named (fun s => Eq.refl (execItemAddWriteDone item s)) fun x => ?_
  cases x <;> simp [NvWrite.target]

theorem itemRemove_completes : Completes (.itemRemoveWriteDone item) (.itemRemove tag item) (itemRemoved tag item) := by
  intro s pre post hu
  show execItemRemoveWriteDone item s = _
  unfold execItemRemoveWriteDone
  refine event_takes hu.running ((if_pos ?_).trans (completeWrite_of_underWay (fun x => ?_) hu))
  · rw [List.any_eq_true]
    exact ⟨_, by rw [hu.split]; exact List.mem_append_right _ List.mem_cons_self, by simp⟩
  · cases x <;> simp [NvWrite.target]

theorem itemRemoveWriteDone_of_none (hrun : s.running = true) (hnone : ∀ x ∈ s.nv, NvWrite.target x ≠ (1, item)) :
    exec (.itemRemoveWriteDone item) s = .next (finish (if removalAtHead s item then queueDone s else s)) := by
  show execItemRemoveWriteDone item s = _
  unfold execItemRemoveWriteDone
  refine event_takes hrun (if_neg ?_)
  rw [Bool.not_eq_true, List.any_eq_false]
  intro x hx
  have htarget := hnone x hx
  cases x <;> simp [NvWrite.target] at htarget ⊢
  exact htarget

theorem removalAtHead_of_answer {o : QueueOp} {rest : List QueueOp} (hops : s.pbk.ops = o :: rest)
    (hanswer : o.answer = .itemRemoved tag) : removalAtHead s o.item = true := by
  simp [removalAtHead, hops, hanswer]

theorem queueEntryOf_dropItem (i c : Nat) (s : State) : queueEntryOf (dropItem i s) c = queueEntryOf s c := rfl

theorem itemRemoved_of_unqueued (hnone : queueEntryOf u item = none) :
    itemRemoved tag item u = reply tag .itemRemove .ok .empty (dropItem item u) := by
  simp only [itemRemoved, queueEntryOf_dropItem, hnone, Option.isSome_none, Bool.false_eq_true, if_false]

theorem itemRemoved_of_queued (hsome : (queueEntryOf u item).isSome) :
    itemRemoved tag item u = queueWrite { action := .remove item, answer := .itemRemoved tag } (dropItem item u) := by
  simp only [itemRemoved, queueEntryOf_dropItem, hsome, if_true]

end AddRemove

/-! ## The pending part (R8, R11 to R14) -/

section Pending

variable {s v : State} {x : PendingWrite} {y : Slot} {i item : Nat}

theorem pending_completes : Completes (.pendingWriteDone x.item) (.pending x) (pendingDone x) := by
  refine completes_of_named (fun s => Eq.refl (execPendingWriteDone x.item s)) (fun w => ?_) fun _ => rfl
  cases w <;> simp [NvWrite.target]

theorem pending_idle : IdleWithout (.pendingWriteDone item) (2, item) := by
  refine idleWithout_of_named (fun s => Eq.refl (execPendingWriteDone item s)) fun w => ?_
  cases w <;> simp [NvWrite.target]

/-- The state as the write finds it, with its number recorded. -/
def counted (x : PendingWrite) (s : State) : State :=
  { s with pbk := { s.pbk with counter := counterAfter s.pbk.counter x.number } }

/-- The pending part as the write makes it. -/
def pendingPart (x : PendingWrite) (s : State) : Pending :=
  { price := x.price, origin := x.origin, number := x.number, urgent := pendedUrgent s x }

theorem pendedUrgent_of_urgent (hurgent : x.urgent = true) : pendedUrgent s x = true := by
  rw [pendedUrgent, hurgent, Bool.true_or]

theorem pendedUrgent_of_issue (hissue : x.revise = false) : pendedUrgent s x = x.urgent := by
  rw [pendedUrgent, hissue, Bool.false_and, Bool.or_false]

theorem pendedUrgent_of_revision (hi : slotOf s x.item = some i) (hy : slotAt s i = some y) (hrevise : x.revise = true) :
    pendedUrgent s x = (y.urgent || x.urgent) := by
  simp only [pendedUrgent, hi, Option.bind_some, hy, hrevise, Bool.true_and, Bool.or_comm]

theorem pendedItem_code (p : Pending) : (pendedItem s x p).code = x.item := by
  unfold pendedItem
  split
  case h_1 e he => exact (findItem_code he : e.code = x.item)
  case h_2 => rfl

theorem pendedItem_pending (p : Pending) : (pendedItem s x p).pending = some p := by
  unfold pendedItem
  split <;> rfl

theorem pendedItem_of_some {o : Item} {p : Pending} (ho : findItem s x.item = some o) :
    pendedItem s x p = { o with pending := some p } := by
  rw [pendedItem, ho]

theorem pendedItem_of_none {p : Pending} (hnone : findItem s x.item = none) :
    pendedItem s x p = { code := x.item, price := x.price, openPrice := false, pending := some p, bound := 0 } := by
  rw [pendedItem, hnone]

/-- What the write makes of the book. -/
theorem pendingApplied_eq : pendingApplied x s =
    updateSlot x.item (pendedSlot (putItem (pendedItem s x (pendingPart x s)) (counted x s)) x)
      (putItem (pendedItem s x (pendingPart x s)) (counted x s)) := rfl

theorem updateSlot_items (c : Nat) (f : Slot → Slot) (s : State) : (updateSlot c f s).pbk.items = s.pbk.items := by
  unfold updateSlot
  split <;> rfl

theorem updateSlot_counter (c : Nat) (f : Slot → Slot) (s : State) : (updateSlot c f s).pbk.counter = s.pbk.counter := by
  unfold updateSlot
  split <;> rfl

theorem pendingApplied_item :
    findItem (pendingApplied x s) x.item = some (pendedItem s x (pendingPart x s)) := by
  rw [pendingApplied_eq, findItem_of_items (updateSlot_items ..)]
  have hput := findItem_putItem_same (pendedItem s x (pendingPart x s)) (counted x s)
  rwa [pendedItem_code] at hput

theorem pendingApplied_counter : (pendingApplied x s).pbk.counter = counterAfter s.pbk.counter x.number := by
  rw [pendingApplied_eq, updateSlot_counter]
  rfl

theorem slotAt_set_same {f : Option Slot} {p : Pbk} (hy : slotAt s i = some y) (hp : p.slots = s.pbk.slots.set i f) :
    slotAt { v with pbk := p } i = f := by
  obtain ⟨hlt, -⟩ := List.getElem?_eq_some_iff.1 (slotAt_eq_some.1 hy)
  rw [slotAt, hp, List.getElem?_set_self hlt, Option.getD_some]

theorem pendingApplied_slot (hi : slotOf s x.item = some i) (hy : slotAt s i = some y) : slotAt (pendingApplied x s) i =
    some (pendedSlot (putItem (pendedItem s x (pendingPart x s)) (counted x s)) x y) := by
  have hi' : slotOf (putItem (pendedItem s x (pendingPart x s)) (counted x s)) x.item = some i := hi
  have hy' : slotAt (putItem (pendedItem s x (pendingPart x s)) (counted x s)) i = some y := hy
  rw [pendingApplied_eq, updateSlot_of_held hi' hy']
  exact slotAt_set_same hy' rfl

theorem pendedSlot_of_revision (hrevise : x.revise = true) : pendedSlot s x y =
    { y with
      number := x.number, price := x.price, origin := x.origin, urgent := y.urgent || x.urgent
      outstanding := activeLabels s x.item, confirmed := 0, unreachable := 0, stage := .labelling } :=
  if_pos hrevise

theorem pendedSlot_of_issue (hissue : x.revise = false) : pendedSlot s x y = { y with stage := .labelling } :=
  if_neg (by simp [hissue])

theorem supersedes_iff : supersedes v x = true ↔
    ∃ q, queueEntryOf v x.item = some q ∧ (x.source = .queue ∨ x.urgent = true ∧ q.add = false) := by
  rw [supersedes]
  cases queueEntryOf v x.item <;> simp

theorem pendingDone_eq {z : State} (hv : pendingApplied x s = v)
    (hkeep : (∀ q, queueEntryOf v x.item = some q → x.source ≠ .queue ∧ (x.urgent = false ∨ q.add = true)) → v = z)
    (hdrop : (∃ q, queueEntryOf v x.item = some q ∧ (x.source = .queue ∨ x.urgent = true ∧ q.add = false)) →
      queueWrite { action := .remove x.item, answer := .nobody } v = z) :
    pendingDone x s = checkEffect x.item (answerChange x.source x.item x.price (.issued x.number) z) := by
  have hz : v.when (supersedes v x) (queueWrite { action := .remove x.item, answer := .nobody }) = z := by
    by_cases h : supersedes v x = true
    · exact (if_pos h).trans (hdrop (supersedes_iff.1 h))
    · refine (if_neg h).trans (hkeep fun q hq => ?_)
      have hnot := fun hq' => h (supersedes_iff.2 ⟨q, hq, hq'⟩)
      exact ⟨fun hsource => hnot (.inl hsource), by
        refine Decidable.byContradiction fun hboth => ?_
        rw [not_or, Bool.not_eq_false, Bool.not_eq_true] at hboth
        exact hnot (.inr hboth)⟩
  rw [pendingDone, hv, hz]

/-- After the write is applied, the rest of its completion and the after-effects are the part's own. -/
theorem pendingDone_runs (x : PendingWrite) (s : State) :
    Runs .inner (view (pendingApplied x s)) (view (finish (pendingDone x s))) := by
  refine finish_runs _ (checkEffect_runs _ _ (answerChange_runs _ _ _ _ _ ?_))
  unfold State.when
  split
  · exact queueWrite_runs _ _ .refl
  · exact .refl

theorem pendingDone_answered {tag : Nat} (hsource : x.source = .host tag) :
    Answered (finish (pendingDone x s)) tag .priceSet .ok (.changeNumber x.number) := by
  rw [pendingDone, hsource]
  exact (finish_runs _ (checkEffect_runs _ _ .refl)).answered _ (answered_reply ..)

end Pending

/-! ## The effect (R19, R20) -/

section Effect

variable {u v : State} {item i : Nat} {x : Slot} {e : Item}

theorem effect_completes : Completes (.effectWriteDone item) (.effect item) (effectDone item) := by
  refine completes_of_named (fun s => Eq.refl (execEffectWriteDone item s)) (fun w => ?_) fun _ => rfl
  cases w <;> simp [NvWrite.target]

theorem effect_idle : IdleWithout (.effectWriteDone item) (3, item) := by
  refine idleWithout_of_named (fun s => Eq.refl (execEffectWriteDone item s)) fun w => ?_
  cases w <;> simp [NvWrite.target]

theorem confirms_iff (o : Origin) : o.confirms = true ↔ o ≠ .hostRequest := by
  cases o <;> simp [Origin.confirms]

theorem effectDone_eq (hi : slotOf u item = some i) (hx : slotAt u i = some x) (he : findItem u item = some e)
    (hv : notify (.changeDone x.number item x.price x.confirmed x.unreachable)
      (putSlot i none (putItem { e with price := x.price, pending := none } u)) = v) : effectDone item u =
      v.when x.origin.confirms (offerPrice (.changeConfirm item x.price x.number x.confirmed x.unreachable)) := by
  subst hv
  simp only [effectDone, hi, hx, he]

end Effect

/-! ## The change queue: its writer, its order and its admission (R6, R9 to R11) -/

section Queue

variable {s u : State} {o : QueueOp} {rest : List QueueOp} {e old : QueueEntry} {q : List QueueEntry}

theorem queueDone_of_none (hops : s.pbk.ops = []) : queueDone s = s := by
  rw [queueDone, hops]

theorem queueDone_of_head (hops : s.pbk.ops = o :: rest) (hwrites : writesStopped s = false)
    (hu : { s with pbk := { s.pbk with queue := applyQueue o.action s.pbk.queue, ops := rest } } = u) :
    queueDone s = answerQueue o.answer u := by
  subst hu
  simp only [queueDone, hops, hwrites, Bool.false_eq_true, if_false]

theorem applyQueue_join (hnone : ∀ x ∈ q, x.item ≠ e.item) : applyQueue (.upsert e) q = joinQueue e q := by
  have hfind : q.find? (fun x => x.item == e.item) = none := by
    rw [List.find?_eq_none]
    intro x hx
    simpa using hnone x hx
  rw [applyQueue, upsertQueue, hfind]

theorem applyQueue_update (hold : q.find? (fun x => x.item == e.item) = some old) :
    applyQueue (.upsert e) q = updateQueue old { e with add := old.add || e.add } q := by
  rw [applyQueue, upsertQueue, hold]

variable {x : QueueEntry} {tail : List QueueEntry}

theorem tryAdmission_of_busy (hq : s.pbk.queue = x :: tail) (hbusy : keysMeet [.item x.item] (writeKeys s) = true) :
    tryAdmission s = s := by
  simp only [tryAdmission, hq, hbusy, if_true]

theorem tryAdmission_of_free (hq : s.pbk.queue = x :: tail) (hfree : keysMeet [.item x.item] (writeKeys s) = false) :
    tryAdmission s = admitHead x s := by
  simp only [tryAdmission, hq, hfree, Bool.false_eq_true, if_false]

theorem admitHead_of_slot (hslot : (slotOf s x.item).isSome) : admitHead x s = reviseChange (entryChange x false) s :=
  if_pos hslot

theorem admitHead_of_unknown (hslot : slotOf s x.item = none) (hentry : findItem s x.item = none) (hadd : x.add = false) :
    admitHead x s = queueWrite { action := .remove x.item, answer := .nobody } s := by
  rw [admitHead, if_neg (by simp [hslot]), if_neg (by simp [hentry]), if_neg (by simp [hadd])]

theorem admitHead_of_known (hslot : slotOf s x.item = none) (hknown : (findItem s x.item).isSome ∨ x.add = true) :
    admitHead x s = issueFromQueue x (findItem s x.item).isNone s := by
  rw [admitHead, if_neg (by simp [hslot])]
  cases hentry : findItem s x.item with
  | some i => rfl
  | none =>
    have hadd : x.add = true := hknown.resolve_left (by simp [hentry])
    rw [if_neg (by simp), if_pos hadd]
    rfl

theorem issueFromQueue_of_room {i : Nat} {add : Bool} (hfree : freeSlot s = some i)
    (hroom : x.urgent = true ∨ nonUrgentCount s < 28) : issueFromQueue x add s = issueChange (entryChange x add) i s := by
  rw [issueFromQueue, hfree]
  exact if_pos hroom

theorem issueFromQueue_of_full {add : Bool} (hfull : freeSlot s = none ∨ x.urgent = false ∧ 28 ≤ nonUrgentCount s) :
    issueFromQueue x add s = s := by
  unfold issueFromQueue
  split
  · rfl
  case h_2 i hi =>
    obtain ⟨hurgent, hcount⟩ := hfull.resolve_left (by simp [hi])
    refine if_neg ?_
    rintro (h | h)
    · simp [hurgent] at h
    · exact Nat.not_lt.2 hcount h

end Queue

/-- The number that an issue takes follows the last given, and is the counter's at its write (R14). -/
theorem counterAfter_next {taken n : Nat} (htaken : taken ≤ 65535) (hn : (if taken < 65535 then taken + 1 else 1) = n) :
    counterAfter taken n = n := by
  refine if_pos ?_
  show (n + 65535 - taken) % 65535 < 32768
  split at hn <;> subst hn
  · rw [show taken + 1 + 65535 - taken = 65536 by omega]
    decide
  · rw [show taken = 65535 by omega]
    decide

/-- The answer to a refused change, by its source. -/
theorem answerChange_refused {c : Change} {s : State} {refused : Result → State} {r : Result}
    (hhost : ∀ tag, c.source = .host tag → refused r = reply tag .priceSet r .empty s)
    (hhead : c.source = .headOffice → refused r = offerPrice (.changeRefused c.item c.price r) s)
    (hnight : c.source = .nightFile → refused r = nightAnswer false s) (hqueue : c.source ≠ .queue) :
    answerChange c.source c.item c.price (.refused r) s = refused r := by
  cases hsource : c.source with
  | host tag => exact (hhost tag hsource).symm
  | headOffice => exact (hhead hsource).symm
  | nightFile => exact (hnight hsource).symm
  | queue => exact absurd hsource hqueue

section Applied

variable {s u : State} {x : PendingWrite} {pre post : List NvWrite}

/-- What stands once a pending part's write has completed (R12 to R14). -/
theorem pendingWriteDone_leaves (hunder : UnderWay s (.pending x) pre post) (hu : { s with nv := pre ++ post } = u) :
    ∃ t e p, exec (.pendingWriteDone x.item) s = .next t ∧ t.pbk.counter = counterAfter s.pbk.counter x.number ∧
      findItem t x.item = some e ∧ e.pending = some p ∧ p.price = x.price ∧ p.origin = x.origin ∧
      p.number = x.number ∧ (x.urgent = true → p.urgent = true) ∧ (x.revise = false → p.urgent = x.urgent) ∧
      (∀ o, findItem s x.item = some o → e = { o with pending := some p }) ∧
      (findItem s x.item = none → e.price = x.price ∧ e.openPrice = false ∧ e.bound = 0) ∧
      (∀ tag, x.source = .host tag → Answered t tag .priceSet .ok (.changeNumber x.number)) := by
  subst hu
  have hafter := (pendingDone_runs x { s with nv := pre ++ post }).afterEffects
  refine ⟨_, _, _, pending_completes s pre post hunder, hafter.changes.trans pendingApplied_counter, ?_,
    pendedItem_pending (pendingPart x { s with nv := pre ++ post }), rfl, rfl, rfl, pendedUrgent_of_urgent,
    pendedUrgent_of_issue, fun o ho => pendedItem_of_some ho, fun hnone => ?_, fun tag => pendingDone_answered⟩
  · exact (findItem_of_items hafter.items _).trans pendingApplied_item
  · rw [pendedItem_of_none hnone]
    exact ⟨rfl, rfl, rfl⟩

/-- How the write ties the slot to the item's pending part (R12, R13). -/
theorem pendingApplied_ties {i : Nat} {y : Slot} (hi : slotOf s x.item = some i) (hy : slotAt s i = some y) :
    ∃ e p, findItem (pendingApplied x s) x.item = some e ∧
      e.pending = some p ∧ (x.revise = true → p.urgent = (y.urgent || x.urgent)) ∧
      (x.revise = true → slotAt (pendingApplied x s) i = some
        { y with
          number := p.number, price := p.price, origin := p.origin, urgent := p.urgent
          outstanding := activeLabels s x.item, confirmed := 0, unreachable := 0, stage := .labelling }) ∧
      (x.revise = false → slotAt (pendingApplied x s) i = some { y with stage := .labelling }) := by
  refine ⟨_, _, pendingApplied_item, pendedItem_pending _, fun hrevise => pendedUrgent_of_revision hi hy hrevise,
    fun hrevise => ?_, fun hissue => ?_⟩
  · rw [pendingApplied_slot hi hy, pendedSlot_of_revision hrevise]
    show some _ = some { y with
      number := x.number, price := x.price, origin := x.origin, urgent := pendedUrgent s x
      outstanding := activeLabels s x.item, confirmed := 0, unreachable := 0, stage := .labelling }
    rw [pendedUrgent_of_revision hi hy hrevise]
    rfl
  · rw [pendingApplied_slot hi hy, pendedSlot_of_issue hissue]

end Applied

/-- Settles O49. -/
theorem priceWritesDone : Obligations.PriceWritesDone := by
  unfold Obligations.PriceWritesDone
  refine ⟨fun s u w pre post => ⟨fun hunder hu => ⟨fun tag e hw => ⟨?_, findItem_putItem_same e u⟩,
        fun tag item hw => ⟨fun hnone => ?_, fun hsome => ?_, findItem_dropItem_same item u⟩,
        fun x hw => ⟨?_, fun v z hv hkeep hdrop => ⟨fun tag hsource => ?_, fun hsource => ?_, fun hsource => ?_⟩,
          fun i y hi hy => ?_⟩,
        fun item i x e v hw hi hx he hv => ⟨fun horigin => ?_, fun horigin => ?_⟩⟩,
      fun hrun => ⟨fun hops => event_takes hrun (queueDone_of_none hops),
        fun o rest hops hwrites hu => ⟨fun ha => ?_, fun tag ha => ?_, fun ha => ?_, fun ha => ?_,
          fun tag ha => ⟨?_, fun hnone => ?_⟩⟩,
        fun item => itemAdd_idle s hrun, fun item => pending_idle s hrun, fun item => effect_idle s hrun⟩⟩,
    fun e q => ⟨fun hnone => ⟨fun hurgent => ?_, fun hurgent => ?_⟩,
      fun o e1 r ho he1 hr => ⟨fun hsame => ?_, fun hother => ?_⟩, fun item => rfl⟩,
    fun s q rest hq => ⟨tryAdmission_of_busy hq, fun hfree => ⟨fun hslot => ?_, fun hslot hentry hadd => ?_,
      fun hslot hknown => ⟨fun i hi hroom => ?_, fun hfull => ?_⟩⟩⟩,
    fun c i n s hwrites hn => ⟨?_, ?_, fun htaken => counterAfter_next htaken hn⟩,
    fun f s => ⟨fun hroom => if_pos hroom, fun hfull => if_neg (Nat.not_lt.2 hfull)⟩,
    fun c s refused hhost hhead hnight hqueue => ?_⟩
  · subst hw
    exact itemAdd_completes.takes hunder hu rfl
  · subst hw
    exact itemRemove_completes.takes hunder hu (itemRemoved_of_unqueued (hu ▸ hnone))
  · subst hw
    exact itemRemove_completes.takes hunder hu (itemRemoved_of_queued (hu ▸ hsome))
  · subst hw
    exact pendingWriteDone_leaves hunder hu
  · subst hw
    exact pending_completes.takes hunder hu (by rw [pendingDone_eq hv hkeep hdrop, hsource]; rfl)
  · subst hw
    exact pending_completes.takes hunder hu (by rw [pendingDone_eq hv hkeep hdrop, hsource]; rfl)
  · subst hw
    refine pending_completes.takes hunder hu ?_
    rw [pendingDone_eq hv hkeep hdrop]
    rcases hsource with h | h <;> rw [h] <;> rfl
  · subst hu
    exact pendingApplied_ties hi hy
  · subst hw
    refine effect_completes.takes hunder hu ((effectDone_eq (hu ▸ hi) (hu ▸ hx) (hu ▸ he) hv).trans (if_neg ?_))
    rw [confirms_iff]
    exact not_not_intro horigin
  · subst hw
    exact effect_completes.takes hunder hu
      ((effectDone_eq (hu ▸ hi) (hu ▸ hx) (hu ▸ he) hv).trans (if_pos ((confirms_iff _).2 horigin)))
  · exact event_takes hrun (by rw [queueDone_of_head hops hwrites hu, ha]; rfl)
  · exact event_takes hrun (by rw [queueDone_of_head hops hwrites hu, ha]; rfl)
  · exact event_takes hrun (by rw [queueDone_of_head hops hwrites hu, ha]; rfl)
  · exact event_takes hrun (by rw [queueDone_of_head hops hwrites hu, ha]; rfl)
  · exact event_takes hrun (by rw [queueDone_of_head hops hwrites hu, ha]; rfl)
  · rw [itemRemoveWriteDone_of_none hrun hnone, if_pos (removalAtHead_of_answer hops ha),
      queueDone_of_head hops hwrites hu, ha]
    rfl
  · rw [applyQueue_join hnone]
    exact if_pos hurgent
  · rw [applyQueue_join hnone]
    exact if_neg (by simp [hurgent])
  · subst he1
    rw [applyQueue_update ho]
    exact if_pos hsame
  · subst he1 hr
    rw [applyQueue_update ho]
    exact if_neg hother
  · rw [tryAdmission_of_free hq hfree, admitHead_of_slot hslot]
  · rw [tryAdmission_of_free hq hfree, admitHead_of_unknown hslot hentry hadd]
  · rw [tryAdmission_of_free hq hfree, admitHead_of_known hslot hknown, issueFromQueue_of_room hi hroom]
  · rw [tryAdmission_of_free hq hfree, admitHead_of_known hslot hknown, issueFromQueue_of_full hfull]
  · have hnext : nextChange s = n := hn
    rw [issueChange_of_free hwrites, hnext, pendingWrite, Bool.not_false, Bool.and_true]
  · have hnext : nextChange s = n := hn
    rw [reviseChange_of_free hwrites, hnext, pendingWrite, Bool.not_true, Bool.and_false]
  · have hrefused : ∀ r, changeRefusal s c = some r → takeChange c s = refused r := fun r hr =>
      (takeChange_of_refusal hr).trans
        (answerChange_refused (fun tag => hhost r tag) (hhead r) (hnight r) hqueue)
    refine ⟨fun hbad => hrefused _ (changeRefusal_range hbad), fun hitem hprice => ?_⟩
    have hrange : ChangeInRange c := ⟨hitem, hprice⟩
    exact ⟨fun hadd hknown => hrefused _ (changeRefusal_exists hrange hadd hknown),
      fun hadd hentry hwaits hfull => hrefused _ (changeRefusal_bookFull hrange hadd hentry hwaits hfull),
      fun hadd hentry hwaits => hrefused _ (changeRefusal_unknownItem hrange hadd hentry hwaits),
      fun hacc => ⟨takeChange_revise hrange hacc, fun i => takeChange_issue hrange hacc,
        fun hroute => ⟨takeChange_queue hrange hacc hroute,
          fun hentry hfull => hrefused _ (changeRefusal_full hrange hacc hroute hentry hfull)⟩⟩⟩

end Sys2Proof.Proofs
end

