-- ==== Sys2Proof/Proofs/SettingWrites.lean ====
section
/-! PROOFS. The writes of settings and of the branch number that are durable, and what a new value brings about in each block (R39, R74, R83, R102, R121, R129, R151, R156, R188, R190, R191). -/

namespace Sys2Proof.Proofs

open Sys2Proof.Machine Sys2Proof.Safety Sys2Proof.Laws

/-! ## What operations that change no area leave alone -/

section NoArea

/-- The reach of operations that change none of the areas. -/
def noArea : Area → Bool := fun _ => false

variable {v w : View}

theorem settings_of_noArea (h : Runs (.outer noArea) v w) : w.settings = v.settings :=
  h.same _ fun a b hb => by cases hb <;> simp_all [noArea]

theorem identity_of_noArea (h : Runs (.outer noArea) v w) : w.identity = v.identity :=
  h.same _ fun a b hb => by cases hb <;> simp_all [noArea]

/-- A reply given stays among those that wait, or has gone out. -/
theorem answered_of_noArea (r : Reply) (h : Runs (.outer noArea) v w) (hv : r ∈ v.replies ∨ .host (.reply r) ∈ v.out) :
    r ∈ w.replies ∨ .host (.reply r) ∈ w.out := by
  refine h.keeps (fun x => r ∈ x.replies ∨ .host (.reply r) ∈ x.out) (fun a b ha hb => ?_) hv
  cases hb
  case sendReply q rest hq =>
    rw [hq, List.mem_cons] at ha
    rcases ha with (rfl | ha) | ha
    · exact .inr (List.mem_append_right _ (List.mem_singleton.2 rfl))
    · exact .inl ha
    · exact .inr (List.mem_append_left _ ha)
  case fresh hresets => exact absurd hresets (by simp [noArea])
  case emit => exact ha.imp_right (List.mem_append_left _)
  case reply => exact ha.imp_left (List.mem_append_left _)
  all_goals simpa using ha

end NoArea

/-! ## A setting's write (R188, R190) -/

section Setting

variable {s u y : State} {id tag : Nat} {v : SettingValue} {src : SettingSource} {x : SettingTarget} {old : Settings}

theorem setting_completes : Completes (.settingWriteDone id) (.setting id v src) (settingDone id v src) := by
  refine completes_of_named (fun s => Eq.refl (execSettingWriteDone id s)) (fun w => ?_) fun _ => rfl
  cases w <;> simp [NvWrite.target]

theorem setting_idle : IdleWithout (.settingWriteDone id) (10, id) := by
  refine idleWithout_of_named (fun s => Eq.refl (execSettingWriteDone id s)) fun w => ?_
  cases w <;> simp [NvWrite.target]

theorem branch_completes {n : Nat} : Completes .branchSetWriteDone (.branch tag n) (branchDone tag n) := by
  refine completes_of_named (fun s => Eq.refl (execBranchSetWriteDone s)) (fun w => ?_) fun _ => rfl
  cases w <;> simp [NvWrite.target]

theorem branch_idle : IdleWithout .branchSetWriteDone (11, 0) := by
  refine idleWithout_of_named (fun s => Eq.refl (execBranchSetWriteDone s)) fun w => ?_
  cases w <;> simp [NvWrite.target]

theorem settingDone_eq (hx : settingTarget id = some x) :
    settingDone id v src s = settingAnswered id (heldValue s.settings x) v src (writeSetting x v s) := by
  rw [settingDone, hx]

/-- After the value is written, the rest of the completion changes no area. -/
theorem writeSetting_runs (x : SettingTarget) (v : SettingValue) (s : State) :
    Runs (.outer noArea) { view s with settings := putValue s.settings x v } (view (writeSetting x v s)) := by
  unfold writeSetting
  refine settingEffect_runs _ _ _ ?_
  cases x == .num .rate || x == .num .depth with
  | false => exact .refl
  | true =>
    have hview : view { s.when true refreshAllTokens with settings := putValue (s.when true refreshAllTokens).settings x v } =
        { view s with settings := putValue s.settings x v } := by
      simp [State.when, refreshAllTokens, view]
    rw [hview]
    exact .refl

theorem settingDone_keeps (hx : settingTarget id = some x) :
    (finish (settingDone id v src s)).settings = putValue s.settings x v ∧
      (finish (settingDone id v src s)).identity = s.identity := by
  have hruns : Runs (.outer noArea) { view s with settings := putValue s.settings x v }
      (view (finish (settingDone id v src s))) := by
    rw [settingDone_eq hx]
    exact finish_runs _ (settingAnswered_runs _ _ _ _ _ (writeSetting_runs x v s))
  exact ⟨settings_of_noArea hruns, identity_of_noArea hruns⟩

/-! ## What a new value brings about -/

theorem writeSetting_of_plain (hrate : x ≠ .num .rate) (hdepth : x ≠ .num .depth)
    (hy : { s with settings := putValue s.settings x v } = y) : writeSetting x v s = settingEffect x s.settings y := by
  have hnot : (x == .num .rate || x == .num .depth) = false := by simp [hrate, hdepth]
  subst hy
  rw [writeSetting, hnot]
  rfl

theorem writeSetting_of_tokens (hx : x = .num .rate ∨ x = .num .depth)
    (hy : { s with settings := putValue s.settings x v } = y) : writeSetting x v s =
      { y with gac := { y.gac with
        sessions := (s.gac.sessions.map fun e => e.map (freshTokens s.settings s.timer)).map
          fun e => e.map (freshTokens y.settings s.timer) } } := by
  subst hy
  rcases hx with rfl | rfl <;> rfl

variable {c : TimeoutClass}

theorem settingEffect_period : settingEffect (.num (periodSetting c)) old y = tickIfDue c y := by
  cases c <;> rfl

theorem tickIfDue_of_due {ms : Nat} (hms : periodMs y.settings c = some ms) (hdue : (y.ulc.ticks c).lastTick + ms ≤ y.timer) :
    tickIfDue c y = tickClass c y := by
  have htick : tickDue y c = true := by simp [tickDue, hms, hdue]
  rw [tickIfDue, htick]
  rfl

theorem tickIfDue_of_off (hoff : periodMs y.settings c = none) : tickIfDue c y = y := by
  have htick : tickDue y c = false := by simp [tickDue, hoff]
  rw [tickIfDue, htick]
  rfl

theorem tickIfDue_of_early {ms : Nat} (hms : periodMs y.settings c = some ms)
    (hearly : y.timer < (y.ulc.ticks c).lastTick + ms) : tickIfDue c y = y := by
  have htick : tickDue y c = false := by simp [tickDue, hms, hearly]
  rw [tickIfDue, htick]
  rfl

theorem settingEffect_refresh
    (hx : x ∈ [SettingId.refreshOpening, .refreshOpen, .refreshClosing, .refreshNight].map SettingTarget.num) :
    settingEffect x old y = refreshBySetting old y := by
  simp only [List.map_cons, List.map_nil, List.mem_cons, List.not_mem_nil, or_false] at hx
  rcases hx with rfl | rfl | rfl | rfl <;> rfl

theorem externalForGuest_eq (ws : List Window) (dest : Nat) :
    externalForGuest ws dest = (firstWindow ws true dest).any (·.scope == .external) := by
  rw [externalForGuest]
  cases firstWindow ws true dest <;> rfl

theorem rematchGuestQueue_eq {keep : List UpFrame} {p : UpFrame → Bool}
    (hp : ∀ a dest payload, p (.guest a dest payload) = (firstWindow y.settings.windows true dest).any (·.scope == .external))
    (hother : ∀ f, (∀ a dest payload, f ≠ .guest a dest payload) → p f = true) (hkeep : y.ulc.guestQ.filter p = keep) :
    rematchGuestQueue y = { y with
      ulc := { y.ulc with guestQ := keep }
      gac := { y.gac with drops := satAdd 4294967295 y.gac.drops (y.ulc.guestQ.length - keep.length) } } := by
  have hsame : (fun f : UpFrame => match f with
      | .guest _ dest _ => externalForGuest y.settings.windows dest
      | _ => true) = p := by
    funext f
    cases f
    case guest a dest payload => exact (externalForGuest_eq ..).trans (hp a dest payload).symm
    all_goals exact (hother _ (by simp)).symm
  subst hkeep
  rw [← hsame]
  rfl

theorem settingEffect_of_other {n : SettingId} (hperiod : ∀ c, n ≠ periodSetting c)
    (hnot : n ∉ ([.exposureLimit, .backupAuth, .backupGuest, .guestEnable, .authShed, .shedMark, .rate, .depth,
      .refreshOpening, .refreshOpen, .refreshClosing, .refreshNight] : List SettingId)) :
    settingEffect (.num n) old y = y := by
  have h1 := hperiod .t1
  have h2 := hperiod .t2
  have h3 := hperiod .t3
  have h4 := hperiod .t4
  cases n <;> simp [periodSetting] at h1 h2 h3 h4 hnot <;> rfl

theorem settingEffect_of_other_target (hwindow : ∀ i, x ≠ .window i) (hperiod : ∀ c, x ≠ .num (periodSetting c))
    (hnot : x ∉ ([.exposureLimit, .backupAuth, .backupGuest, .guestEnable, .authShed, .shedMark, .rate, .depth,
      .refreshOpening, .refreshOpen, .refreshClosing, .refreshNight] : List SettingId).map SettingTarget.num) :
    settingEffect x old y = y := by
  cases x with
  | window i => exact absurd rfl (hwindow i)
  | num n =>
    exact settingEffect_of_other (fun c h => hperiod c (congrArg SettingTarget.num h)) fun h => hnot (List.mem_map_of_mem h)

theorem branchDone_keeps (tag n : Nat) (s : State) :
    (finish (branchDone tag n s)).identity = { s.identity with branch := some n } ∧
      (finish (branchDone tag n s)).settings = s.settings ∧ Answered (finish (branchDone tag n s)) tag .branchSet .ok .empty := by
  have hruns : Runs (.outer noArea)
      (view (reply tag .branchSet .ok .empty { s with identity := { s.identity with branch := some n } }))
      (view (finish (branchDone tag n s))) := finish_runs _ (testQueued_runs _ .refl)
  exact ⟨identity_of_noArea hruns, settings_of_noArea hruns, answered_of_noArea _ hruns (answered_reply ..)⟩

theorem queuingTest_iff (s : State) : queuingTest s = true ↔
    ∃ p, s.ulc.active = some p ∧ permittedOn s.settings .auth p = true ∧ s.identity.branch.isSome := by
  rw [queuingTest, permittedNow]
  cases s.ulc.active <;> simp

end Setting

/-- Settles O51. -/
theorem settingWritesDone : Obligations.SettingWritesDone := by
  unfold Obligations.SettingWritesDone
  refine ⟨fun s w pre post hunder => ⟨fun id v src x hw hx => ?_, fun tag n u hw hu => ?_⟩,
    fun s hrun => ⟨fun id => setting_idle s hrun, branch_idle s hrun, fun htest => if_pos htest,
      fun htest => (if_neg (by simp [htest])).trans rfl, queuingTest_iff s, fun t now e => rfl⟩⟩
  · subst hw
    have hdone := settingDone_eq (s := { s with nv := pre ++ post }) (v := v) (src := src) hx
    obtain ⟨hsettings, hidentity⟩ := settingDone_keeps (s := { s with nv := pre ++ post }) (v := v) (src := src) hx
    refine ⟨writeSetting x v { s with nv := pre ++ post }, _, setting_completes s pre post hunder, hsettings, hidentity,
      fun tag hsource => ?_, fun hsource => ?_, fun y hy => ⟨fun c hxc => ?_, fun hxe => ?_, fun hxb => ?_, fun hxg => ?_,
        fun hxt => writeSetting_of_tokens hxt hy, fun hxr => ?_, fun hxw keep hkeep => ?_, fun hwindow hperiod hnot => ?_⟩⟩
    · rw [hdone, hsource]
      exact ⟨finish_reply .., rfl⟩
    · rw [hdone, hsource]
      rfl
    · have hplain : writeSetting x v { s with nv := pre ++ post } = tickIfDue c y := by
        rw [writeSetting_of_plain (by rw [hxc]; cases c <;> decide) (by rw [hxc]; cases c <;> decide) hy, hxc,
          settingEffect_period]
      rw [hplain]
      exact ⟨fun ms => tickIfDue_of_due, tickIfDue_of_off, fun ms => tickIfDue_of_early⟩
    · subst hxe
      exact writeSetting_of_plain (by decide) (by decide) hy
    · subst hxb
      exact writeSetting_of_plain (by decide) (by decide) hy
    · rcases hxg with rfl | rfl | rfl | rfl <;> exact writeSetting_of_plain (by decide) (by decide) hy
    · have hplain : writeSetting x v { s with nv := pre ++ post } = refreshBySetting s.settings y := by
        rw [writeSetting_of_plain (by rintro rfl; revert hxr; decide) (by rintro rfl; revert hxr; decide) hy,
          settingEffect_refresh hxr]
      subst hy
      rw [hplain]
      refine ⟨fun hoff hon => if_pos ⟨hoff, hon⟩, fun hsame => if_neg ?_⟩
      rintro ⟨hoff, hon⟩
      rcases hsame with h | h
      · exact absurd hoff (by simp [h])
      · exact absurd (hon.symm.trans h) (by decide)
    · obtain ⟨i, rfl⟩ := hxw
      rw [writeSetting_of_plain (by simp) (by simp) hy]
      refine rematchGuestQueue_eq (fun a dest payload => rfl) (fun f hf => ?_) hkeep
      cases f
      case guest a dest payload => exact absurd rfl (hf a dest payload)
      all_goals rfl
    · rw [writeSetting_of_plain (by rintro rfl; exact hnot (by decide)) (by rintro rfl; exact hnot (by decide)) hy,
        settingEffect_of_other_target hwindow hperiod hnot]
  · subst hw hu
    exact ⟨branch_completes s pre post hunder, _, branch_completes s pre post hunder, branchDone_keeps tag n _⟩

end Sys2Proof.Proofs
end

