-- ==== Sys2Proof/Proofs/HostLine.lean ====
section
/-! PROOFS. Numbers in bytes, the check, the record's size, and the bytes of the host line (R181, R196, R197, 11.2, 11.7). -/

namespace Sys2Proof.Proofs

open Sys2Proof.Machine Sys2Proof.Safety Sys2Proof.Laws

/-! ## Numbers (R196) -/

section Numbers

@[simp] theorem length_numberBytes (k n : Nat) : (numberBytes k n).length = k := by
  induction k with
  | zero => rfl
  | succ k ih => rw [numberBytes, List.length_cons, ih]

@[simp] theorem length_signedBytes (k : Nat) (v : Int) : (signedBytes k v).length = k := length_numberBytes ..

theorem foldl_numberBytes (k n acc : Nat) :
    (numberBytes k n).foldl (fun m b => 256 * m + b.toNat) acc = acc * 256 ^ k + n % 256 ^ k := by
  induction k generalizing acc with
  | zero => simp [numberBytes, Nat.mod_one]
  | succ k ih =>
    have hbyte : (BitVec.ofNat 8 (n / 256 ^ k)).toNat = n / 256 ^ k % 256 := BitVec.toNat_ofNat ..
    rw [numberBytes, List.foldl_cons, ih, hbyte, Nat.pow_succ, Nat.mod_mul, Nat.add_mul, Nat.mul_comm (n / 256 ^ k % 256)]
    have hacc : 256 * acc * 256 ^ k = acc * (256 ^ k * 256) := by rw [Nat.mul_comm 256 acc, Nat.mul_assoc, Nat.mul_comm 256]
    omega

theorem readNumber_numberBytes (k n : Nat) : readNumber (numberBytes k n) = n % 256 ^ k := by
  rw [readNumber, foldl_numberBytes, Nat.zero_mul, Nat.zero_add]

theorem numberBytes_two (n : Nat) : numberBytes 2 n = [BitVec.ofNat 8 (n / 256), BitVec.ofNat 8 n] := by
  rw [numberBytes, numberBytes, numberBytes, Nat.pow_one, Nat.pow_zero, Nat.div_one]

end Numbers

/-! ## The record's size (11.7) -/

section Record

@[simp] theorem length_linesBytes (ls : List BasketLine) : (linesBytes ls).length = 1 + 12 * ls.length := by
  have hline : ∀ l, (lineBytes l).length = 12 := fun l => by simp [lineBytes]
  rw [linesBytes, List.length_append, length_numberBytes, List.length_flatMap, List.map_congr_left fun l _ => hline l]
  refine congrArg (1 + ·) ?_
  induction ls with
  | nil => rfl
  | cons l ls ih => rw [List.map_cons, List.sum_cons, ih, List.length_cons, Nat.mul_succ, Nat.add_comm]

@[simp] theorem length_codeBytes (c : Option (List Byte)) : (codeBytes c).length = 9 := by
  simp [codeBytes]

@[simp] theorem length_orZero (k : Nat) (n : Option Nat) : (orZero k n).length = k := length_numberBytes ..

theorem length_recordBytes (r : Record) : (recordBytes r).length = r.body.size := by
  have hhead : (recordBytes r).length = 10 + (bodyBytes r.body).length := by simp [recordBytes]; omega
  rw [hhead]
  cases r.body <;> simp [bodyBytes, RecordBody.size] <;> omega

end Record

/-! ## The check (R197) -/

section Check

theorem crcBit_of_eq {r : BitVec 16} {b : Bool} (h : r.msb = b) : crcBit r b = r <<< 1 := if_pos (by simp [h])

theorem crcBit_of_ne {r : BitVec 16} {b : Bool} (h : r.msb ≠ b) : crcBit r b = (r <<< 1) ^^^ 0x1021#16 := if_neg (by simp [h])

theorem crc16_concat (l : List Byte) (b : Byte) : crc16 (l ++ [b]) = crcByte (crc16 l) b := by
  rw [crc16, List.foldl_append, List.foldl_cons, List.foldl_nil, crc16]

/-- The two bytes of a check. -/
theorem numberBytes_crc (c : BitVec 16) : numberBytes 2 c.toNat = [c.extractLsb' 8 8, c.extractLsb' 0 8] := by
  have hhigh : BitVec.ofNat 8 (c.toNat / 256) = c.extractLsb' 8 8 := by
    apply BitVec.eq_of_toNat_eq
    simp [BitVec.extractLsb'_toNat, Nat.shiftRight_eq_div_pow]
  have hlow : BitVec.ofNat 8 c.toNat = c.extractLsb' 0 8 := by
    apply BitVec.eq_of_toNat_eq
    simp [BitVec.extractLsb'_toNat]
  rw [numberBytes_two, hhigh, hlow]

theorem withCrc_eq (l : List Byte) : withCrc l = l ++ [(crc16 l).extractLsb' 8 8, (crc16 l).extractLsb' 0 8] := by
  rw [withCrc, numberBytes_crc]

theorem crcHolds_iff (l : List Byte) (x y : Byte) :
    crcHolds (l ++ [x, y]) = true ↔ x = (crc16 l).extractLsb' 8 8 ∧ y = (crc16 l).extractLsb' 0 8 := by
  have hlen : (l ++ [x, y]).length - 2 = l.length := by simp
  rw [crcHolds, hlen, List.take_left, withCrc_eq, decide_eq_true (by simp), Bool.true_and, beq_iff_eq,
    List.append_cancel_left_eq, List.cons.injEq, List.cons.injEq, eq_comm, eq_self, and_true, eq_comm (a := y)]

theorem crcHolds_withCrc (l : List Byte) : crcHolds (withCrc l) = true := by
  rw [withCrc_eq]
  exact (crcHolds_iff ..).2 ⟨rfl, rfl⟩

end Check

/-! ## A frame of the host line (R181, R197) -/

section Frame

variable {x y : Byte} {l t : List Byte} {n : Nat}

/-- The length field of a frame that has its first three bytes. -/
theorem num_length (x y : Byte) (l : List Byte) : num 1 2 (0x7E#8 :: x :: y :: l) = 256 * x.toNat + y.toNat := by
  simp [num, field, readNumber]

theorem num_one (a : Byte) (l : List Byte) : num 0 1 (a :: l) = a.toNat := by
  simp [num, field, readNumber]

theorem num_one_second (a b : Byte) (l : List Byte) : num 1 1 (a :: b :: l) = b.toNat := by
  simp [num, field, readNumber]

theorem frameByte_of_begun (hl : l.length < 2) : frameByte l = ({ bytes := l, stray := false }, []) := by
  rw [frameByte, if_neg (by omega), if_neg (by omega)]

theorem frameByte_of_long (hlong : 1024 < 256 * x.toNat + y.toNat) :
    frameByte [0x7E#8, x, y] = ({ bytes := [], stray := false }, [.badFrame (.check .host)]) := by
  rw [frameByte, if_pos ⟨rfl, by rw [num_length]; exact hlong⟩, idleRx]

theorem frameByte_of_inside (hn : 256 * x.toNat + y.toNat = n) (hmax : n ≤ 1024) (hl : l.length < n + 4) :
    frameByte (0x7E#8 :: x :: y :: l) = ({ bytes := 0x7E#8 :: x :: y :: l, stray := false }, []) := by
  rw [frameByte, num_length, hn, if_neg (by omega), if_neg]
  rintro ⟨-, hlen⟩
  simp only [List.length_cons] at hlen
  omega

theorem frameByte_of_last (hn : 256 * x.toNat + y.toNat = n) (hmax : n ≤ 1024) (hl : l.length = n + 4) :
    frameByte (0x7E#8 :: x :: y :: l) = ({ bytes := [], stray := false }, [hostFrameCommand (0x7E#8 :: x :: y :: l)]) := by
  rw [frameByte, num_length, hn, if_neg (by omega), if_pos ⟨by simp, by simp only [List.length_cons]; omega⟩, idleRx]

theorem hostByte_inside {r : HostRx} {b : Byte} (hr : r.bytes ≠ []) : hostByte r b = frameByte (r.bytes ++ [b]) := if_pos hr

theorem hostBytes_cons (r : HostRx) (b : Byte) (l : List Byte) : hostBytes r (b :: l) =
    ((hostBytes (hostByte r b).1 l).1, (hostByte r b).2 ++ (hostBytes (hostByte r b).1 l).2) := rfl

/-- The bytes after the length field, up to the last of the frame. -/
theorem hostBytes_rest (hn : 256 * x.toNat + y.toNat = n) (hmax : n ≤ 1024) (b : Byte) (t : List Byte)
    (hl : l.length + t.length + 1 = n + 4) :
    hostBytes { bytes := 0x7E#8 :: x :: y :: l, stray := false } (t ++ [b]) =
      ({ bytes := [], stray := false }, [hostFrameCommand (0x7E#8 :: x :: y :: (l ++ t ++ [b]))]) := by
  induction t generalizing l with
  | nil =>
    have hlast : (l ++ [b]).length = n + 4 := by simpa using hl
    rw [List.nil_append, hostBytes_cons, hostByte_inside (by simp)]
    simp only [List.cons_append, frameByte_of_last hn hmax hlast, hostBytes, List.append_nil]
  | cons c t ih =>
    have hinside : (l ++ [c]).length < n + 4 := by
      simp only [List.length_append, List.length_cons, List.length_nil] at hl ⊢
      omega
    have hrest : (l ++ [c]).length + t.length + 1 = n + 4 := by
      simp only [List.length_append, List.length_cons, List.length_nil] at hl ⊢
      omega
    rw [List.cons_append, hostBytes_cons, hostByte_inside (by simp)]
    simp only [List.cons_append, frameByte_of_inside hn hmax hinside]
    rw [ih hrest]
    simp

theorem hostByte_marker : hostByte { bytes := [], stray := false } 0x7E#8 = ({ bytes := [0x7E#8], stray := false }, []) := rfl

/-- A whole frame, of a payload length that fits. -/
theorem hostBytes_frame (hn : 256 * x.toNat + y.toNat = n) (hmax : n ≤ 1024) (b : Byte) (t : List Byte)
    (ht : t.length + 1 = n + 4) :
    hostBytes { bytes := [], stray := false } (0x7E#8 :: x :: y :: (t ++ [b])) =
      ({ bytes := [], stray := false }, [hostFrameCommand (0x7E#8 :: x :: y :: (t ++ [b]))]) := by
  have hsecond : frameByte [0x7E#8, x] = ({ bytes := [0x7E#8, x], stray := false }, []) := by
    rw [frameByte, if_neg (by simp), if_neg (by simp)]
  have hthird : frameByte [0x7E#8, x, y] = ({ bytes := [0x7E#8, x, y], stray := false }, []) :=
    frameByte_of_inside hn hmax (by simp)
  have hrest := hostBytes_rest (l := []) hn hmax b t (by simpa using ht)
  rw [hostBytes_cons, hostByte_marker, hostBytes_cons, hostByte_inside (by simp)]
  simp only [List.cons_append, List.nil_append, hsecond]
  rw [hostBytes_cons, hostByte_inside (by simp)]
  simp only [List.cons_append, List.nil_append, hthird]
  rw [hrest]
  simp

theorem lengthBytes (hmax : n ≤ 1024) : 256 * (BitVec.ofNat 8 (n / 256)).toNat + (BitVec.ofNat 8 n).toNat = n := by
  rw [BitVec.toNat_ofNat, BitVec.toNat_ofNat]
  omega

variable {kind tag c d : Byte} {payload : List Byte}

theorem frameParts_eq (hn : 256 * x.toNat + y.toNat = payload.length) :
    frameParts 2 (0x7E#8 :: x :: y :: kind :: tag :: (payload ++ [c, d])) =
      if crcHolds (x :: y :: kind :: tag :: payload ++ [c, d]) = true then some ([kind, tag], payload) else none := by
  have hlen : (0x7E#8 :: x :: y :: kind :: tag :: (payload ++ [c, d])).length = 2 + payload.length + 5 := by
    simp only [List.length_cons, List.length_append, List.length_nil]
    omega
  have hpayload : field (3 + 2) payload.length (0x7E#8 :: x :: y :: kind :: tag :: (payload ++ [c, d])) = payload := by
    simp [field]
  have hheader : field 3 2 (0x7E#8 :: x :: y :: kind :: tag :: (payload ++ [c, d])) = [kind, tag] := by simp [field]
  rw [frameParts, num_length, hn, hheader, hpayload]
  by_cases hcrc : crcHolds (x :: y :: kind :: tag :: payload ++ [c, d]) = true
  · rw [if_pos ⟨rfl, hlen, hcrc⟩, if_pos hcrc]
  · rw [if_neg fun h => hcrc h.2.2, if_neg hcrc]

theorem hostFrameCommand_eq (hn : 256 * x.toNat + y.toNat = payload.length) :
    hostFrameCommand (0x7E#8 :: x :: y :: kind :: tag :: (payload ++ [c, d])) =
      if crcHolds (x :: y :: kind :: tag :: payload ++ [c, d]) = true then hostCommand kind.toNat tag.toNat payload
      else .badFrame (.check .host) := by
  rw [hostFrameCommand, frameParts_eq hn]
  by_cases hcrc : crcHolds (x :: y :: kind :: tag :: payload ++ [c, d]) = true
  · simp only [if_pos hcrc, num_one, num_one_second]
  · simp only [if_neg hcrc]

theorem hostBytes_two_header (hmax : payload.length ≤ 1024) :
    hostBytes { bytes := [], stray := false }
        (0x7E#8 :: (numberBytes 2 payload.length ++ [kind, tag] ++ payload) ++ [c, d]) =
      ({ bytes := [], stray := false },
        [if crcHolds (numberBytes 2 payload.length ++ [kind, tag] ++ payload ++ [c, d]) = true then
          hostCommand kind.toNat tag.toNat payload
        else .badFrame (.check .host)]) := by
  have hn := lengthBytes hmax
  have hframe := hostBytes_frame hn hmax d (kind :: tag :: (payload ++ [c])) (by simp)
  have hlast : kind :: tag :: (payload ++ [c]) ++ [d] = kind :: tag :: (payload ++ [c, d]) := by simp
  rw [hlast, hostFrameCommand_eq hn] at hframe
  rw [numberBytes_two]
  exact hframe

theorem hostBytes_outerFrame (hmax : payload.length ≤ 1024) :
    hostBytes { bytes := [], stray := false } (outerFrame [kind, tag] payload) =
      ({ bytes := [], stray := false }, [hostCommand kind.toNat tag.toNat payload]) := by
  have hcrc := crcHolds_withCrc (numberBytes 2 payload.length ++ [kind, tag] ++ payload)
  have hframe := hostBytes_two_header (kind := kind) (tag := tag) hmax
    (c := (crc16 (numberBytes 2 payload.length ++ [kind, tag] ++ payload)).extractLsb' 8 8)
    (d := (crc16 (numberBytes 2 payload.length ++ [kind, tag] ++ payload)).extractLsb' 0 8)
  rw [← withCrc_eq, if_pos hcrc] at hframe
  rw [outerFrame, withCrc_eq]
  exact hframe

/-- Stray bytes after the first of a run are not counted. -/
theorem hostBytes_stray (hl : ∀ b ∈ l, b ≠ 0x7E#8) :
    hostBytes { bytes := [], stray := true } l = ({ bytes := [], stray := true }, []) := by
  induction l with
  | nil => rfl
  | cons b l ih =>
    obtain ⟨hb, hrest⟩ := List.forall_mem_cons.1 hl
    have hbyte : hostByte { bytes := [], stray := true } b = ({ bytes := [], stray := true }, []) := by
      rw [hostByte, if_neg (by simp), if_neg hb, if_pos rfl]
    rw [hostBytes_cons, hbyte, ih hrest]
    rfl

theorem hostBytes_stray_run {b : Byte} (hb : b ≠ 0x7E#8) (hl : ∀ b ∈ l, b ≠ 0x7E#8) :
    hostBytes { bytes := [], stray := false } (b :: l) = ({ bytes := [], stray := true }, [.badFrame (.check .host)]) := by
  have hbyte : hostByte { bytes := [], stray := false } b = ({ bytes := [], stray := true }, [.badFrame (.check .host)]) := by
    rw [hostByte, if_neg (by simp), if_neg hb, if_neg (by simp)]
  rw [hostBytes_cons, hbyte, hostBytes_stray hl]
  rfl

theorem hostBytes_long (hlong : 1024 < 256 * x.toNat + y.toNat) :
    hostBytes { bytes := [], stray := false } [0x7E#8, x, y] = ({ bytes := [], stray := false }, [.badFrame (.check .host)]) := by
  have hsecond : frameByte [0x7E#8, x] = ({ bytes := [0x7E#8, x], stray := false }, []) := by
    rw [frameByte, if_neg (by simp), if_neg (by simp)]
  rw [hostBytes_cons, hostByte_marker, hostBytes_cons, hostByte_inside (by simp)]
  simp only [List.cons_append, List.nil_append, hsecond]
  rw [hostBytes_cons, hostByte_inside (by simp)]
  simp only [List.cons_append, List.nil_append, frameByte_of_long hlong, hostBytes]

end Frame

/-! ## Bytes at the host port (R181) -/

section Receive

variable {s : State} {l : List Byte} {x : HostRx} {cs : List Instr}

theorem gapCounted_of_waiting {pre post : List Instr} (hnot : .hostByteTimeout ∉ pre) :
    gapCounted (pre ++ .hostByteTimeout :: post) = pre ++ .badFrame (.check .host) :: post := by
  have hmem : (pre ++ Instr.hostByteTimeout :: post).contains .hostByteTimeout = true := by simp
  rw [gapCounted, if_pos hmem, List.replace_append_right hnot, List.replace_cons_self]

theorem receive_host (hrun : s.running = true) : s.receive .host l = receiveHost l s := by
  rw [State.receive, if_pos hrun, if_pos rfl]

theorem receive_host_in_time (hrun : s.running = true) (hl : l ≠ [])
    (hintime : s.hlk.rx.bytes = [] ∨ s.timer ≤ s.hlk.rxAt + 20) (hx : hostBytes s.hlk.rx l = (x, cs)) :
    s.receive .host l = { s with hlk := { s.hlk with rx := x, rxAt := s.timer }, pending := s.pending ++ cs } := by
  have hgap : byteGapPassed s = false := by
    rw [Bool.eq_false_iff, Ne, byteGapPassed_iff]
    rintro ⟨hbytes, hlate⟩
    rcases hintime with h | h
    · exact hbytes h
    · omega
  rw [receive_host hrun, receiveHost, if_neg hl, dropOverdue, hgap]
  simp only [Bool.false_eq_true, if_false, takeBytes, hx]

theorem receive_host_late (hrun : s.running = true) (hl : l ≠ []) (hbytes : s.hlk.rx.bytes ≠ [])
    (hlate : s.hlk.rxAt + 20 < s.timer) (hx : hostBytes { bytes := [], stray := false } l = (x, cs)) :
    s.receive .host l =
      { s with hlk := { s.hlk with rx := x, rxAt := s.timer }, pending := gapCounted s.pending ++ cs } := by
  have hgap : byteGapPassed s = true := (byteGapPassed_iff s).2 ⟨hbytes, hlate⟩
  rw [receive_host hrun, receiveHost, if_neg hl, dropOverdue, if_pos hgap]
  simp only [takeBytes, idleRx, hx]

end Receive

/-- Settles O60. -/
theorem numbersAreRead : Obligations.NumbersAreRead := by
  unfold Obligations.NumbersAreRead
  refine ⟨fun k n => ⟨length_numberBytes k n, fun hlt => (readNumber_numberBytes k n).trans (Nat.mod_eq_of_lt hlt)⟩,
    length_recordBytes,
    ⟨rfl, by decide +kernel, fun r b => ⟨crcBit_of_eq, crcBit_of_ne⟩, fun l b => crc16_concat l b,
      fun l => ⟨crcHolds_withCrc l, withCrc_eq l⟩, crcHolds_iff⟩,
    fun kind tag payload => hostBytes_outerFrame, fun l payload kind tag x y hmax hl hcrc => ?_,
    fun x y => hostBytes_long, fun b l => hostBytes_stray_run,
    fun s l x cs => ⟨fun hrun hl => ?_,
      fun hrun hl => ⟨receive_host_in_time hrun hl, receive_host_late hrun hl⟩, fun hnot => ?_,
      fun pre post hpending hnot => ?_, fun hrun p => if_neg (by simp [hrun])⟩⟩
  · subst hl
    have hframe := hostBytes_two_header (kind := kind) (tag := tag) (c := x) (d := y) hmax
    rwa [hcrc, if_neg Bool.false_ne_true] at hframe
  · rw [receive_host hrun, receiveHost, if_pos hl]
  · exact if_neg (by simpa using hnot)
  · rw [hpending, gapCounted_of_waiting hnot]

end Sys2Proof.Proofs
end

