-- ==== Sys2Proof/Proofs/GuestPort.lean ====
section
/-! PROOFS. The guest port and the guest service (R114, R122, R151 to R160, R164). -/

namespace Sys2Proof.Proofs

open Sys2Proof.Machine Sys2Proof.Safety Sys2Proof.Laws

/-! ## Sessions (R153, R159, R160) -/

section Sessions

variable {s : State} {a : Addr} {i : Nat} {e : Session}

theorem sessionAt_lt (he : sessionAt s i = some e) : i < s.gac.sessions.length := by
  refine Decidable.byContradiction fun hge => ?_
  rw [sessionAt, List.getElem?_eq_none (Nat.le_of_not_lt hge)] at he
  cases he

theorem sessionAt_putSession_same (he : sessionAt s i = some e) (x : Option Session) : sessionAt (putSession i x s) i = x := by
  rw [sessionAt, putSession, List.getElem?_set_self (sessionAt_lt he), Option.getD_some]

theorem endSession_of_none {r : EndReason} (hnone : sessionAt s i = none) : endSession i r s = s := by
  rw [endSession, hnone]

theorem endSession_of_spending {r : EndReason} (he : sessionAt s i = some e) (hr : r.spends = true) :
    endSession i r s = emit (.sessionEnd e.addr r)
      { s with gac := { s.gac with sessions := s.gac.sessions.set i none, spent := spentAfter e.addr s.gac.spent } } := by
  simp only [endSession, he, hr, if_true, putSession]

theorem spends_iff (r : EndReason) : r.spends = true ↔ r = .time ∨ r = .quota := by
  cases r <;> simp [EndReason.spends]

theorem endIfSpent_of_left {q : Session} (hq : sessionAt s i = some q) (hleft : 0 < q.quota) : endIfSpent i s = s := by
  rw [endIfSpent, hq]
  exact if_neg (Int.not_le.2 hleft)

theorem endIfSpent_of_spent {q : Session} (hq : sessionAt s i = some q) (hspent : q.quota ≤ 0) :
    endIfSpent i s = endSession i .quota s := by
  rw [endIfSpent, hq]
  exact if_pos hspent

theorem countDrops_drops (s : State) (n : Nat) : (countDrops n s).gac.drops = min 4294967295 (s.gac.drops + n) := by
  show (if s.gac.drops + n ≤ 4294967295 then s.gac.drops + n else 4294967295) = _
  split <;> omega

theorem spentAfter_of_new_room {l : List Addr} (hnew : l.contains a = false) (hroom : l.length < 256) :
    spentAfter a l = l ++ [a] := by
  rw [spentAfter, if_neg (by rw [hnew]; decide)]
  exact if_pos hroom

theorem spentAfter_of_new_full {l : List Addr} (hnew : l.contains a = false) (hfull : 256 ≤ l.length) :
    spentAfter a l = l.drop 1 ++ [a] := by
  rw [spentAfter, if_neg (by rw [hnew]; decide), List.drop_one]
  exact if_neg (Nat.not_lt.2 hfull)

end Sessions

/-! ## JOIN (R154) -/

section Join

variable {s : State} {a : Addr} {i : Nat} {e : Session}

theorem guestPort_of_quiet {f : State → State} (hquiet : s.day.power = .quiet) : guestPort f s = s := if_pos hquiet

theorem guestPort_of_run {f : State → State} (hpower : s.day.power ≠ .quiet) : guestPort f s = f s := if_neg hpower

theorem joinAnswer_of_closed (hservice : s.gac.service ≠ .opened) : joinAnswer a s = emit (.joinAnswer a .refusedClosed) s :=
  if_pos hservice

theorem joinAnswer_of_spent (hservice : s.gac.service = .opened) (hspent : s.gac.spent.contains a = true) :
    joinAnswer a s = emit (.joinAnswer a .refusedSpent) s := by
  rw [joinAnswer, if_neg (by simp [hservice]), if_pos hspent]

theorem joinAnswer_of_admitted (hservice : s.gac.service = .opened) (hspent : s.gac.spent.contains a = false)
    (hi : sessionOf s a = some i) (he : sessionAt s i = some e) :
    joinAnswer a s = emit (.joinAnswer a (.ok ((e.endsAt - s.timer) / 1000) e.quota)) s := by
  rw [joinAnswer, if_neg (by simp [hservice]), if_neg (by rw [hspent]; decide)]
  simp only [hi, he, secondsLeft]

theorem joinAnswer_of_full (hservice : s.gac.service = .opened) (hspent : s.gac.spent.contains a = false)
    (hi : sessionOf s a = none) (hfree : freeSession s = none) : joinAnswer a s = emit (.joinAnswer a .refusedFull) s := by
  rw [joinAnswer, if_neg (by simp [hservice]), if_neg (by rw [hspent]; decide)]
  simp only [hi, hfree]

theorem secondsLeft_newSession : secondsLeft s.timer (newSession s a) = 60 * s.settings.nat .sessionLimit := by
  show (s.timer + 60000 * s.settings.nat .sessionLimit - s.timer) / 1000 = _
  omega

theorem joinAnswer_of_free (hservice : s.gac.service = .opened) (hspent : s.gac.spent.contains a = false)
    (hi : sessionOf s a = none) (hfree : freeSession s = some i) : joinAnswer a s =
      emit (.joinAnswer a (.ok (60 * s.settings.nat .sessionLimit) (newSession s a).quota))
        (putSession i (some (newSession s a)) s) := by
  rw [joinAnswer, if_neg (by simp [hservice]), if_neg (by rw [hspent]; decide)]
  simp only [hi, hfree, secondsLeft_newSession]

end Join

/-! ## Data from and to a device (R122, R156 to R158) -/

section Data

variable {s u v x : State} {a : Addr} {i dest : Nat} {e e1 : Session} {payload : List Byte} {w : Window}

theorem guestFrameOut_of_session (hservice : s.gac.service = .opened) (hi : sessionOf s a = some i)
    (he : sessionAt s i = some e) : guestFrameOut a dest payload s = judgeGuestFrame i e a dest payload s := by
  simp only [guestFrameOut, hi, he, hservice, if_true]

theorem guestFrameOut_of_other (hnot : sessionOf s a = none ∨ s.gac.service ≠ .opened) :
    guestFrameOut a dest payload s = countDrops 1 s := by
  unfold guestFrameOut
  split
  · rfl
  case h_2 i hi =>
    split
    · rfl
    · exact if_neg (hnot.resolve_left (by simp [hi]))

/-- The two figures that a frame is judged by, as they stand at the moment (R156, R157). -/
structure Judged (s : State) (i : Nat) (e e1 : Session) (v : State) : Prop where
  fresh : freshTokens s.settings s.timer e = e1
  put : putSession i (some e1) s = v

/-- What a verdict on a frame within its tokens and quota brings (R122, R157). -/
def verdictTaken (verdict : GuestVerdict) (i : Nat) (e1 : Session) (a : Addr) (dest : Nat) (payload : List Byte) (v : State) :
    State :=
  match verdict with
  | .isolated => countDrops 1 (countIsolation v)
  | .noWindow => countDrops 1 v
  | .guest =>
    if v.ulc.guestQ.length < 64 then
      endIfSpent i (putSession i (some (chargeOut payload.length e1))
        { v with ulc := { v.ulc with guestQ := v.ulc.guestQ ++ [.guest a dest payload] } })
    else countDrops 1 v

theorem judgeGuestFrame_of_length (hlen : payload.length = 0 ∨ 1536 < payload.length) :
    judgeGuestFrame i e a dest payload s = countDrops 1 s := by
  refine if_pos ?_
  omega

theorem judgeGuestFrame_of_fits (hj : Judged s i e e1 v) (hlow : 1 ≤ payload.length) (hhigh : payload.length ≤ 1536) :
    judgeGuestFrame i e a dest payload s =
      if e1.tokenBits < 8 * payload.length then countDrops 1 v
      else if e1.quota < (payload.length : Int) then countDrops 1 v
      else verdictTaken (guestVerdict s.settings.windows dest) i e1 a dest payload v := by
  obtain ⟨hfresh, hput⟩ := hj
  subst hfresh hput
  unfold judgeGuestFrame
  dsimp only
  rw [if_neg (by omega)]
  cases guestVerdict s.settings.windows dest <;> rfl

theorem judgeGuestFrame_of_short (hj : Judged s i e e1 v) (hlow : 1 ≤ payload.length) (hhigh : payload.length ≤ 1536)
    (hshort : e1.tokenBits < 8 * payload.length ∨ e1.quota < (payload.length : Int)) :
    judgeGuestFrame i e a dest payload s = countDrops 1 v := by
  rw [judgeGuestFrame_of_fits hj hlow hhigh]
  split
  · rfl
  case isFalse htokens => exact if_pos (hshort.resolve_left htokens)

theorem judgeGuestFrame_of_enough (hj : Judged s i e e1 v) (hlow : 1 ≤ payload.length) (hhigh : payload.length ≤ 1536)
    (htokens : 8 * payload.length ≤ e1.tokenBits) (hquota : (payload.length : Int) ≤ e1.quota) {verdict : GuestVerdict}
    (hverdict : guestVerdict s.settings.windows dest = verdict) : judgeGuestFrame i e a dest payload s =
      verdictTaken verdict i e1 a dest payload v := by
  rw [judgeGuestFrame_of_fits hj hlow hhigh, if_neg (Nat.not_lt.2 htokens), if_neg (Int.not_lt.2 hquota), hverdict]

theorem guestVerdict_of_none (hnone : firstWindow s.settings.windows true dest = none) :
    guestVerdict s.settings.windows dest = .noWindow := by
  rw [guestVerdict, hnone]

theorem guestVerdict_of_external (hw : firstWindow s.settings.windows true dest = some w) (hscope : w.scope = .external) :
    guestVerdict s.settings.windows dest = .guest := by
  rw [guestVerdict, hw]
  exact if_pos hscope

theorem guestVerdict_of_other (hw : firstWindow s.settings.windows true dest = some w) (hscope : w.scope ≠ .external) :
    guestVerdict s.settings.windows dest = .isolated := by
  rw [guestVerdict, hw]
  exact if_neg hscope

/-- The state with an admitted frame queued and charged (R157). -/
def frameAdmitted (a : Addr) (dest : Nat) (payload : List Byte) (i : Nat) (e1 : Session) (s : State) : State :=
  { s with
    ulc := { s.ulc with guestQ := s.ulc.guestQ ++ [.guest a dest payload] }
    gac := { s.gac with sessions := s.gac.sessions.set i (some (chargeOut payload.length e1)) } }

theorem judgeGuestFrame_of_external (hj : Judged s i e e1 v) (hlow : 1 ≤ payload.length) (hhigh : payload.length ≤ 1536)
    (htokens : 8 * payload.length ≤ e1.tokenBits) (hquota : (payload.length : Int) ≤ e1.quota)
    (hw : firstWindow s.settings.windows true dest = some w) (hscope : w.scope = .external)
    (hroom : s.ulc.guestQ.length < 64) :
    judgeGuestFrame i e a dest payload s = endIfSpent i (frameAdmitted a dest payload i e1 s) := by
  rw [judgeGuestFrame_of_enough hj hlow hhigh htokens hquota (guestVerdict_of_external hw hscope)]
  obtain ⟨hfresh, hput⟩ := hj
  subst hput
  refine (if_pos hroom).trans (congrArg (endIfSpent i) ?_)
  simp only [putSession, frameAdmitted, List.set_set]

theorem sessionAt_frameAdmitted (he : sessionAt s i = some e) :
    sessionAt (frameAdmitted a dest payload i e1 s) i = some (chargeOut payload.length e1) :=
  sessionAt_putSession_same (s := { s with ulc := { s.ulc with guestQ := s.ulc.guestQ ++ [.guest a dest payload] } }) he _

theorem guestFrameIn_of_none (hnone : sessionOf u a = none) : guestFrameIn a payload u = countDrops 1 u := by
  rw [guestFrameIn, hnone]

theorem guestFrameIn_of_session (hi : sessionOf u a = some i) (he : sessionAt u i = some e)
    (hx : emit (.guestData a payload) { u with gac := { u.gac with sessions := u.gac.sessions.set i (some
      { e with quota := e.quota - payload.length, bytesIn := e.bytesIn + payload.length }) } } = x) :
    guestFrameIn a payload u = endIfSpent i x ∧ sessionAt x i = some (chargeIn payload.length e) := by
  subst hx
  exact ⟨by simp only [guestFrameIn, hi, he]; rfl, sessionAt_putSession_same he _⟩

theorem guestPayload_fits_iff : (decide (1 ≤ payload.length) && decide (payload.length ≤ 1536)) = true ↔
    1 ≤ payload.length ∧ payload.length ≤ 1536 := by
  rw [Bool.and_eq_true, decide_eq_true_iff, decide_eq_true_iff]

end Data

/-! ## The guest service (R151, R152) -/

section Service

variable {s x y : State} {old new : Service}

theorem mem_when {α : Type} {c : Bool} {k z : α} : z ∈ (if c = true then [k] else []) ↔ c = true ∧ z = k := by
  cases c <;> simp

theorem mem_unless {α : Type} {c : Prop} [Decidable c] {k z : α} : z ∈ (if c then [] else [k]) ↔ ¬ c ∧ z = k := by
  split <;> simp [*]

theorem mem_failingConditions (c : GuestCondition) : c ∈ failingConditions s ↔
    s.settings.on .guestEnable = false ∧ c = .disabled ∨ s.day.lines.mains = false ∧ c = .mains ∨
      permittedNow s .guest = false ∧ c = .path ∨ shedReached s = true ∧ c = .journal ∨
      s.settings.nat .authShed < s.ulc.authQ.length ∧ c = .auth := by
  simp only [failingConditions, List.mem_append, mem_unless, mem_when, Bool.not_eq_true, Nat.not_le, or_assoc]

theorem permittedNow_eq_false_iff (c : Machine.Class) : permittedNow s c = false ↔
    ∀ p, s.ulc.active = some p → permittedOn s.settings c p = false := by
  rw [permittedNow]
  cases s.ulc.active <;> simp

theorem shedReached_iff : shedReached s = true ↔ s.settings.nat .shedMark * 32768 ≤ s.sjr.records.length * 100 :=
  decide_eq_true_iff

theorem serviceDecided_of_not_open (hstore : s.day.store ≠ .opened) : serviceDecided s = .closed := if_neg hstore

theorem serviceDecided_of_sound (hstore : s.day.store = .opened) (hnone : ∀ c, c ∉ failingConditions s) :
    serviceDecided s = .opened := by
  rw [serviceDecided, if_pos hstore, List.eq_nil_iff_forall_not_mem.2 hnone]
  rfl

theorem serviceDecided_of_failing {c : GuestCondition} (hstore : s.day.store = .opened) (hc : c ∈ failingConditions s) :
    serviceDecided s = .shed := by
  rw [serviceDecided, if_pos hstore, if_neg]
  rw [List.isEmpty_iff]
  exact List.ne_nil_of_mem hc

/-- Ending every entry of a list ends those that hold a session. -/
theorem foldl_endSession_filter (r : EndReason) (p : Nat → Bool) (l : List Nat) (s : State)
    (hfree : ∀ i ∈ l, p i = false → sessionAt s i = none) :
    l.foldl (fun z i => endSession i r z) s = (l.filter p).foldl (fun z i => endSession i r z) s := by
  induction l generalizing s with
  | nil => rfl
  | cons i l ih =>
    obtain ⟨hi, hl⟩ := List.forall_mem_cons.1 hfree
    rw [List.foldl_cons]
    cases hp : p i with
    | true =>
      rw [List.filter_cons_of_pos hp, List.foldl_cons]
      refine ih _ fun j hj hpj => ?_
      rw [sessionAt_endSession, hl j hj hpj, ite_self]
    | false =>
      rw [List.filter_cons_of_neg (by simp [hp]), endSession_of_none (hi hp)]
      exact ih s hl

theorem endAllSessions_eq (r : EndReason) (s : State) :
    endAllSessions r s = (List.range 64).foldl (fun z i => endSession i r z) s := by
  rw [foldl_endSession_filter r (fun i => (sessionAt s i).isSome) _ s (by simp)]
  rfl

theorem enterService_eq (hx : (if old = .opened then
      countDrops s.ulc.guestQ.length { s with ulc := { s.ulc with guestQ := [] } } else s) = x)
    (hy : (if new = .closed then endAllSessions .close x else x) = y) :
    enterService old new s = { y with gac := { y.gac with service := new } } := by
  have hwhen : s.when (old == .opened) emptyGuestQueue = x := by
    rw [← hx]
    cases old <;> rfl
  have hend : x.when (new == .closed) (endAllSessions .close) = y := by
    rw [← hy]
    cases new <;> rfl
  rw [enterService]
  dsimp only
  rw [hwhen, hend]

theorem guestDecide_of_same (hsame : serviceDecided s = s.gac.service) : guestDecide s = s := if_pos hsame

theorem guestDecide_of_change (hold : s.gac.service = old) (hnew : serviceDecided s = new) (hne : new ≠ old) :
    guestDecide s = notify (.guestState old new (admittedCount (enterService old new s))
      (if new = .shed then failingConditions s else []) (if new = .closed then admittedCount s else 0))
      (enterService old new s) := by
  subst hold hnew
  exact if_neg hne

end Service

/-- Settles O57. -/
theorem guestPortTaken : Obligations.GuestPortTaken := by
  unfold Obligations.GuestPortTaken
  refine ⟨fun s a hrun => ⟨fun hquiet dest payload => ⟨event_takes hrun (guestPort_of_quiet hquiet),
        event_takes hrun (guestPort_of_quiet hquiet), event_takes hrun (guestPort_of_quiet hquiet)⟩,
      fun hpower => ⟨fun hservice => ?_, fun hservice hspent => ?_,
        fun hservice hspent => ⟨fun i e hi he => ?_, fun hi hfree => ?_, fun i hi hfree => ?_⟩,
        fun i hi => ?_, fun hi => ?_, fun hnot dest payload => ?_,
        fun i e e1 v dest payload hservice hi he he1 hv => ?_⟩,
      fun n hnone => ?_, fun n e he => ?_, fun p payload u hup hu => ⟨fun hlen => ?_,
        fun hlow hhigh => ⟨fun hnone => ?_, fun i e x hi he hx => ⟨fun hleft => ?_, fun hspent => ?_⟩⟩⟩⟩,
    countDrops_drops,
    fun s i r => ⟨endSession_of_none, fun e he => ⟨fun hr => endSession_of_spending he ((spends_iff r).2 hr),
      fun htime hquota => endSession_of_session he ?_⟩⟩,
    fun a l => ⟨fun hmem => if_pos hmem, spentAfter_of_new_room, spentAfter_of_new_full⟩,
    fun s => ⟨?_, ?_, ?_, ?_, ?_, serviceDecided_of_not_open, serviceDecided_of_sound,
      fun c => serviceDecided_of_failing, guestDecide_of_same, fun old new x hold hnew hne hx => ⟨fun hopened => ?_,
        fun hshed => ?_, fun y hclosed hy => ?_⟩⟩⟩
  · exact event_takes hrun ((guestPort_of_run hpower).trans (joinAnswer_of_closed hservice))
  · exact event_takes hrun ((guestPort_of_run hpower).trans (joinAnswer_of_spent hservice hspent))
  · exact event_takes hrun ((guestPort_of_run hpower).trans (joinAnswer_of_admitted hservice hspent hi he))
  · exact event_takes hrun ((guestPort_of_run hpower).trans (joinAnswer_of_full hservice hspent hi hfree))
  · exact event_takes hrun ((guestPort_of_run hpower).trans (joinAnswer_of_free hservice hspent hi hfree))
  · exact event_takes hrun ((guestPort_of_run hpower).trans (by rw [hi]))
  · exact event_takes hrun ((guestPort_of_run hpower).trans (by rw [hi]))
  · exact event_takes hrun ((guestPort_of_run hpower).trans (guestFrameOut_of_other hnot))
  · have hj : Judged s i e e1 v := ⟨he1, hv⟩
    have htakes : ∀ z, judgeGuestFrame i e a dest payload s = z → exec (.guestData a dest payload) s = .next (finish z) :=
      fun z hz => event_takes hrun ((guestPort_of_run hpower).trans ((guestFrameOut_of_session hservice hi he).trans hz))
    refine ⟨fun hlen => htakes _ (judgeGuestFrame_of_length hlen), fun hlow hhigh =>
      ⟨fun hshort => htakes _ (judgeGuestFrame_of_short hj hlow hhigh hshort), fun htokens hquota =>
        ⟨fun hnone => htakes _ ?_, fun w hw => ⟨fun hscope => htakes _ ?_, fun hscope hfull => htakes _ ?_,
          fun x hscope hroom hx => ?_⟩⟩⟩⟩
    · rw [judgeGuestFrame_of_enough hj hlow hhigh htokens hquota (guestVerdict_of_none hnone)]
      rfl
    · rw [judgeGuestFrame_of_enough hj hlow hhigh htokens hquota (guestVerdict_of_other hw hscope)]
      rfl
    · rw [judgeGuestFrame_of_enough hj hlow hhigh htokens hquota (guestVerdict_of_external hw hscope)]
      subst hv
      exact if_neg (Nat.not_lt.2 hfull)
    · have hadmit := judgeGuestFrame_of_external (a := a) hj hlow hhigh htokens hquota hw hscope hroom
      have hsession := sessionAt_frameAdmitted (a := a) (dest := dest) (payload := payload) (e1 := e1) he
      have hx' : frameAdmitted a dest payload i e1 s = x := hx
      rw [hx'] at hadmit hsession
      have hquotaLeft : (chargeOut payload.length e1).quota = e1.quota - payload.length := rfl
      exact ⟨fun hleft => htakes _ (hadmit.trans (endIfSpent_of_left hsession (by rw [hquotaLeft]; omega))),
        fun hspent => htakes _ (hadmit.trans (endIfSpent_of_spent hsession (by rw [hquotaLeft]; omega)))⟩
  · simp only [exec, execGuestTimeExpiry]
    exact event_takes hrun (by rw [hnone])
  · simp only [exec, execGuestTimeExpiry]
    exact event_takes hrun (by rw [he])
  · refine event_takes hrun (routeReply_of_unfit hup ?_)
    rw [Bool.eq_false_iff, Ne, guestPayload_fits_iff]
    omega
  · subst hu
    exact event_takes hrun ((routeReply_of_fits hup (guestPayload_fits_iff.2 ⟨hlow, hhigh⟩)).trans (guestFrameIn_of_none hnone))
  · subst hu
    obtain ⟨hin, hsession⟩ := guestFrameIn_of_session hi he hx
    refine event_takes hrun ((routeReply_of_fits hup (guestPayload_fits_iff.2 ⟨hlow, hhigh⟩)).trans
      (hin.trans (endIfSpent_of_left hsession ?_)))
    show 0 < e.quota - payload.length
    omega
  · subst hu
    obtain ⟨hin, hsession⟩ := guestFrameIn_of_session hi he hx
    refine event_takes hrun ((routeReply_of_fits hup (guestPayload_fits_iff.2 ⟨hlow, hhigh⟩)).trans
      (hin.trans (endIfSpent_of_spent hsession ?_)))
    show e.quota - payload.length ≤ 0
    omega
  · rw [Bool.eq_false_iff, Ne, spends_iff]
    rintro (h | h)
    · exact htime h
    · exact hquota h
  · simp [mem_failingConditions]
  · simp [mem_failingConditions]
  · rw [mem_failingConditions, ← permittedNow_eq_false_iff]
    simp
  · rw [mem_failingConditions, ← shedReached_iff]
    simp
  · simp [mem_failingConditions]
  · subst hopened
    rw [guestDecide_of_change hold hnew hne, enterService_eq hx rfl]
    rfl
  · subst hshed
    rw [guestDecide_of_change hold hnew hne, enterService_eq hx rfl]
    rfl
  · subst hclosed
    rw [← endAllSessions_eq] at hy
    rw [guestDecide_of_change hold hnew hne, enterService_eq hx ((if_pos rfl).trans hy)]
    rfl

end Sys2Proof.Proofs
end

