-- ==== Sys2Proof/Proofs/DayEvents.lean ====
section
/-! PROOFS. The schedule events and the moments they fall due, the site lines, QUIET and the wake (R165, R167, R168, R171 to R175). -/

namespace Sys2Proof.Proofs

open Sys2Proof.Machine Sys2Proof.Safety Sys2Proof.Laws

/-! ## The minutes of the schedule events (R165, R167, R168) -/

section Minutes

variable {t : Settings} {e : ScheduleEvent} {c n x : Nat}

theorem tradingDay_iff : tradingDay t c = true ↔ (t.nat .closedWeekdays).testBit (c / 86400 % 7) = false := by
  rw [tradingDay, Bool.not_eq_true', weekday, dayNumber]

theorem inEventMinute_close : inEventMinute t .close c = true ↔ c / 60 % 1440 = t.nat .closeTime := by
  simp [inEventMinute, minuteOfDay, eventMinute, eventDay]

theorem inEventMinute_openTime :
    inEventMinute t .openTime c = true ↔ c / 60 % 1440 = t.nat .openTime ∧ tradingDay t c = true := by
  simp [inEventMinute, minuteOfDay, eventMinute, eventDay]

theorem inEventMinute_openLead :
    inEventMinute t .openLead c = true ↔ c / 60 % 1440 = t.nat .openTime - t.nat .openingLead ∧ tradingDay t c = true := by
  simp [inEventMinute, minuteOfDay, eventMinute, leadMinute, eventDay]

/-- An event whose clock value is counted on past the clock's wrap. -/
def wrapped (x : ScheduleEvent × Nat) : ScheduleEvent × Nat := (x.1, x.2 + 4294967296)

/-- The events begun as the clock counts on, each with the value counted on past the wrap (R165, R168). -/
def timedCounted (t : Settings) (c n : Nat) : List (ScheduleEvent × Nat) :=
  timedEvents t (c + 1) (min (c + n) 4294967295 + 1) ++ (timedEvents t 0 (c + n - 4294967295)).map wrapped

theorem countedEvents_eq_map (t : Settings) (c n : Nat) : countedEvents t c n = (timedCounted t c n).map (·.1) := by
  have hwrapped : ((fun x : ScheduleEvent × Nat => x.1) ∘ wrapped) = (·.1) := rfl
  rw [timedCounted, List.map_append, List.map_map, hwrapped, ← eventsFrom_eq_map, ← eventsFrom_eq_map]
  rfl

theorem mem_timedCounted (ht : DaySound t) (hc : c ≤ 4294967295) (hn : n ≤ 4294967295) : (e, x) ∈ timedCounted t c n ↔
    c < x ∧ x ≤ c + n ∧ x % 4294967296 % 60 = 0 ∧ inEventMinute t e (x % 4294967296) = true := by
  simp only [timedCounted, List.mem_append, List.mem_map, wrapped, Prod.mk.injEq, Prod.exists, mem_timedEvents ht]
  by_cases hx : x < 4294967296
  · rw [Nat.mod_eq_of_lt hx]
    constructor
    · rintro (⟨hlow, hhigh, hin⟩ | ⟨_, y, -, -, hy⟩)
      · exact ⟨hlow, by omega, hin⟩
      · omega
    · rintro ⟨hlow, hhigh, hin⟩
      exact .inl ⟨hlow, by omega, hin⟩
  · constructor
    · rintro (⟨hlow, hhigh, -⟩ | ⟨_, y, ⟨-, hhigh, hin⟩, rfl, rfl⟩)
      · omega
      · rw [Nat.add_mod_right, Nat.mod_eq_of_lt (show y < 4294967296 by omega)]
        exact ⟨by omega, by omega, hin⟩
    · rintro ⟨hlow, hhigh, hin⟩
      rw [show x % 4294967296 = x - 4294967296 by omega] at hin
      exact .inr ⟨e, x - 4294967296, ⟨Nat.zero_le _, by omega, hin⟩, rfl, by omega⟩

theorem timedCounted_pairwise (ht : DaySound t) (c n : Nat) : (timedCounted t c n).Pairwise EventOrder := by
  refine List.pairwise_append.2 ⟨timedEvents_pairwise ht _ _, ?_, fun a ha b hb => ?_⟩
  · refine List.pairwise_map.2 ((timedEvents_pairwise ht _ _).imp fun {a b} hab => ?_)
    rcases hab with hlt | ⟨heq, hab⟩
    · exact .inl (Nat.add_lt_add_right hlt _)
    · exact .inr ⟨congrArg (· + 4294967296) heq, hab⟩
  · obtain ⟨y, -, rfl⟩ := List.mem_map.1 hb
    obtain ⟨-, hhigh, -⟩ := (mem_timedEvents ht (e := a.1) (c := a.2)).1 ha
    refine .inl ?_
    show a.2 < y.2 + 4294967296
    omega

/-! ### The next of an event's minutes -/

/-- An event that is taken on some day is taken on each day of that weekday. -/
theorem eventDay_of_weekday {d : Nat} (hday : weekday c = weekday d) : eventDay t e c = eventDay t e d := by
  cases e <;> simp [eventDay, tradingDay, hday]

theorem inEventMinute_iff : inEventMinute t e c = true ↔ minuteOfDay c = eventMinute t e ∧ eventDay t e c = true := by
  rw [inEventMinute, Bool.and_eq_true, beq_iff_eq]

/-- The beginnings of an event's minute that are looked through before the clock's wrap. -/
def beforeWrap (t : Settings) (e : ScheduleEvent) (c : Nat) : List Nat :=
  ((List.range 9).filterMap fun k => eventAt t (dayNumber c + k) e).filter fun x => decide (x ≤ 4294967295)

/-- Those that are looked through after it, counted on past the wrap. -/
def afterWrap (t : Settings) (e : ScheduleEvent) : List Nat :=
  (List.range 9).filterMap fun k => (eventAt t k e).map (· + 4294967296)

theorem nextEventAt_eq : nextEventAt t e c = (beforeWrap t e c ++ afterWrap t e).find? fun x => decide (c < x) := rfl

theorem mem_beforeWrap (ht : DaySound t) : x ∈ beforeWrap t e c ↔ x ≤ 4294967295 ∧ x % 60 = 0 ∧
    inEventMinute t e x = true ∧ dayNumber c ≤ dayNumber x ∧ dayNumber x < dayNumber c + 9 := by
  simp only [beforeWrap, List.mem_filter, List.mem_filterMap, List.mem_range, eventAt_eq_some_iff (ht.minute_lt e),
    decide_eq_true_eq]
  constructor
  · rintro ⟨⟨k, hk, hday, hsecond, hin⟩, hx⟩
    exact ⟨hx, hsecond, hin, by omega, by omega⟩
  · rintro ⟨hx, hsecond, hin, hlow, hhigh⟩
    exact ⟨⟨dayNumber x - dayNumber c, by omega, by omega, hsecond, hin⟩, hx⟩

theorem mem_afterWrap (ht : DaySound t) : x ∈ afterWrap t e ↔ 4294967296 ≤ x ∧ (x - 4294967296) % 60 = 0 ∧
    inEventMinute t e (x - 4294967296) = true ∧ dayNumber (x - 4294967296) < 9 := by
  simp only [afterWrap, List.mem_filterMap, List.mem_range, Option.map_eq_some_iff, eventAt_eq_some_iff (ht.minute_lt e)]
  constructor
  · rintro ⟨k, hk, y, ⟨hday, hsecond, hin⟩, rfl⟩
    rw [Nat.add_sub_cancel]
    exact ⟨Nat.le_add_left _ _, hsecond, hin, by omega⟩
  · rintro ⟨hx, hsecond, hin, hday⟩
    exact ⟨_, hday, x - 4294967296, ⟨rfl, hsecond, hin⟩, by omega⟩

theorem filterMap_eventAt_sorted (ht : DaySound t) (d : Nat) :
    ((List.range 9).filterMap fun k => eventAt t (d + k) e).Pairwise (· < ·) := by
  refine List.Pairwise.filterMap _ (fun j k hjk x hx y hy => ?_) List.pairwise_lt_range
  have hxday := ((eventAt_eq_some_iff (ht.minute_lt e) _).1 hx).1
  have hyday := ((eventAt_eq_some_iff (ht.minute_lt e) _).1 hy).1
  simp only [dayNumber] at hxday hyday
  omega

/-- The beginnings are looked through in time order. -/
theorem wraps_sorted (ht : DaySound t) (c : Nat) : (beforeWrap t e c ++ afterWrap t e).Pairwise (· < ·) := by
  refine List.pairwise_append.2 ⟨(filterMap_eventAt_sorted ht _).filter _, ?_, fun x hx y hy => ?_⟩
  · have hmap : afterWrap t e = ((List.range 9).filterMap fun k => eventAt t (0 + k) e).map (· + 4294967296) := by
      simp only [afterWrap, List.map_filterMap, Nat.zero_add]
    rw [hmap, List.pairwise_map]
    exact (filterMap_eventAt_sorted ht 0).imp fun h => Nat.add_lt_add_right h _
  · have hxle := ((mem_beforeWrap ht).1 hx).1
    have hyge := ((mem_afterWrap ht).1 hy).1
    omega

/-- What a search of a sorted list finds is the least that passes. -/
theorem find?_least {l : List Nat} {p : Nat → Bool} (hl : l.Pairwise (· < ·)) (hx : l.find? p = some x) {y : Nat} (hy : y ∈ l)
    (hp : p y = true) : x ≤ y := by
  obtain ⟨-, as, bs, rfl, hbefore⟩ := List.find?_eq_some_iff_append.1 hx
  rcases List.mem_append.1 hy with hy | hy
  · exact absurd hp (by simpa using hbefore y hy)
  · rcases List.mem_cons.1 hy with rfl | hy
    · exact Nat.le_refl _
    · exact Nat.le_of_lt ((List.pairwise_cons.1 (List.pairwise_append.1 hl).2.1).1 y hy)

/-- Within the eight days after a moment an event's minute begins, if it begins later at all: the weekdays come round. -/
theorem exists_within_days {y : Nat} (hcy : dayNumber c < dayNumber y) (hsecond : y % 60 = 0)
    (hin : inEventMinute t e y = true) : ∃ z, c < z ∧ z ≤ y ∧ z % 60 = 0 ∧ inEventMinute t e z = true ∧
      dayNumber z < dayNumber c + 9 := by
  obtain ⟨hminute, hday⟩ := inEventMinute_iff.1 hin
  refine ⟨y - (dayNumber y - dayNumber c - 1) / 7 * 7 * 86400, ?_, Nat.sub_le _ _, ?_,
    inEventMinute_iff.2 ⟨?_, (eventDay_of_weekday ?_).trans hday⟩, ?_⟩
  · simp only [dayNumber] at hcy ⊢
    omega
  · simp only [dayNumber] at hcy ⊢
    omega
  · rw [← hminute]
    simp only [dayNumber, minuteOfDay] at hcy ⊢
    omega
  · simp only [dayNumber, weekday] at hcy ⊢
    omega
  · simp only [dayNumber] at hcy ⊢
    omega

theorem nextEventAt_sound (ht : DaySound t) (hx : nextEventAt t e c = some x) :
    c < x ∧ x % 4294967296 % 60 = 0 ∧ inEventMinute t e (x % 4294967296) = true := by
  rw [nextEventAt_eq] at hx
  have hlt : c < x := by simpa using List.find?_some hx
  rcases List.mem_append.1 (List.mem_of_find?_eq_some hx) with hmem | hmem
  · obtain ⟨hle, hsecond, hin, -⟩ := (mem_beforeWrap ht).1 hmem
    rw [Nat.mod_eq_of_lt (Nat.lt_succ_of_le hle)]
    exact ⟨hlt, hsecond, hin⟩
  · obtain ⟨hge, hsecond, hin, hday⟩ := (mem_afterWrap ht).1 hmem
    have hmod : x % 4294967296 = x - 4294967296 := by
      simp only [dayNumber] at hday
      omega
    rw [hmod]
    exact ⟨hlt, hsecond, hin⟩

theorem nextEventAt_least (ht : DaySound t) (hc : c ≤ 4294967295) (hx : nextEventAt t e c = some x) {y : Nat} (hcy : c < y)
    (hyx : y < x) (hsecond : y % 4294967296 % 60 = 0) : inEventMinute t e (y % 4294967296) = false := by
  rw [nextEventAt_eq] at hx
  have hleast : ∀ z ∈ beforeWrap t e c ++ afterWrap t e, c < z → x ≤ z := fun z hz hcz =>
    find?_least (wraps_sorted ht c) hx hz (decide_eq_true hcz)
  rw [Bool.eq_false_iff]
  intro hin
  by_cases hy : y < 4294967296
  · rw [Nat.mod_eq_of_lt hy] at hsecond hin
    have hdays : dayNumber c ≤ dayNumber y := Nat.div_le_div_right (Nat.le_of_lt hcy)
    obtain ⟨z, hcz, hzy, hzsecond, hzin, hzday⟩ : ∃ z, c < z ∧ z ≤ y ∧ z % 60 = 0 ∧ inEventMinute t e z = true ∧
        dayNumber z < dayNumber c + 9 := by
      rcases Nat.lt_or_eq_of_le hdays with hlt | heq
      · exact exists_within_days hlt hsecond hin
      · exact ⟨y, hcy, Nat.le_refl _, hsecond, hin, by omega⟩
    have hmem : z ∈ beforeWrap t e c :=
      (mem_beforeWrap ht).2 ⟨by omega, hzsecond, hzin, Nat.div_le_div_right (Nat.le_of_lt hcz), hzday⟩
    have hxz := hleast z (List.mem_append_left _ hmem) hcz
    omega
  · have hxmem : x ∈ afterWrap t e := (List.mem_append.1 (List.mem_of_find?_eq_some hx)).resolve_left fun hmem => by
      have hle := ((mem_beforeWrap ht).1 hmem).1
      omega
    have hxday := ((mem_afterWrap ht).1 hxmem).2.2.2
    have hmod : y % 4294967296 = y - 4294967296 := by
      simp only [dayNumber] at hxday
      omega
    rw [hmod] at hsecond hin
    have hyday : dayNumber (y - 4294967296) < 9 :=
      Nat.lt_of_le_of_lt (Nat.div_le_div_right (Nat.sub_le_sub_right (Nat.le_of_lt hyx) _)) hxday
    have hmem : y ∈ afterWrap t e := (mem_afterWrap ht).2 ⟨Nat.le_of_not_lt hy, hsecond, hin, hyday⟩
    have hxy := hleast y (List.mem_append_right _ hmem) hcy
    omega

end Minutes

/-! ## Taking a schedule event; what falls due (R168, R173) -/

section Taken

variable {s u : State} {e : ScheduleEvent} {c x : Nat}

theorem takeScheduleEvent_of_unset (hclock : s.day.clock = none) : takeScheduleEvent e s = s := by
  rw [takeScheduleEvent, hclock]

theorem takeScheduleEvent_of_due (hclock : s.day.clock = some c)
    (hdue : e ∈ s.day.dueEvents ∨ inEventMinute s.settings e c = true) : takeScheduleEvent e s =
      scheduleEvent e { s with day := { s.day with dueEvents := s.day.dueEvents.erase e } } := by
  rw [takeScheduleEvent, hclock]
  exact if_pos (by simpa using hdue)

theorem takeScheduleEvent_of_early (hclock : s.day.clock = some c) (hnot : e ∉ s.day.dueEvents)
    (hminute : inEventMinute s.settings e c = false) : takeScheduleEvent e s = match nextEventAt s.settings e c with
      | none => s
      | some x => scheduleEvent e (claimEvent e (advanceTo (s.timer + (1000 * (x - c) - s.day.clockMs)) s)) := by
  rw [takeScheduleEvent, hclock]
  exact (if_neg (by simp [hnot, hminute])).trans (by cases nextEventAt s.settings e c <;> rfl)

theorem eventsFallDue_of_unset_clock {ms : Nat} (hclock : s.day.clock = none) : eventsFallDue ms s = s := by
  rw [eventsFallDue, eventsBegun, hclock]
  dsimp only
  rw [List.append_nil]

theorem eventsFallDue_of_clock {ms : Nat} (hclock : s.day.clock = some c) : eventsFallDue ms s = { s with day := { s.day with
    dueEvents := s.day.dueEvents ++ countedEvents s.settings c ((s.day.clockMs + ms) / 1000) } } := by
  rw [eventsFallDue, eventsBegun, hclock]

theorem dueDay_eq (s : State) : dueDay s =
    (if s.day.quietAt = some s.timer ∨ quietDue s = true then [.quietDelayExpiry] else []) ++
      s.day.dueEvents.map scheduleCommand := by
  rw [dueDay, dueIf]
  simp only [Bool.or_eq_true, beq_iff_eq]

/-- The timed events that have come due, but the day's. -/
def dueButDay (s : State) : List Instr :=
  dueTicks s ++ dueRadioHost s ++ dueTills s ++ dueRetries s ++ dueProbe s .primary ++ dueProbe s .backup ++
  dueTransfer s ++ dueGuests s

theorem dueCommands_eq (s : State) : dueCommands s = dueButDay s ++ dueDay s := rfl

theorem scheduleEvent_openLead_of_other (hnight : s.day.store ≠ .night) (hquiet : s.day.store ≠ .quiet) :
    scheduleEvent .openLead s = s := by
  unfold scheduleEvent
  split <;> simp_all

theorem scheduleEvent_openTime_of_other (hstore : s.day.store ≠ .opening) : scheduleEvent .openTime s = s := by
  unfold scheduleEvent
  split <;> simp_all

theorem scheduleEvent_close_of_other (hstore : s.day.store ≠ .opened) : scheduleEvent .close s = s := by
  unfold scheduleEvent
  split <;> simp_all

end Taken

/-! ## Site lines (R172) -/

section Lines

variable {s u : State} {l : SiteLine} {v : Bool}

@[simp] theorem get_put_same (x : LineValues) (l : SiteLine) (v : Bool) : (x.put l v).get l = v := by
  cases l <;> rfl

theorem siteLineChange_of_new (hnew : s.day.lines.get l ≠ v)
    (hu : { s with day := { s.day with lines := s.day.lines.put l v } } = u) :
    exec (.siteLineChange l v) s = event (lineChanged l) u := by
  subst hu
  exact if_neg hnew

theorem lineChanged_of_same (hquiet : u.day.power = .quiet) (hsame : u.day.lines.get l = u.day.reported.get l) :
    lineChanged l u = u := by
  rw [lineChanged, if_pos hquiet, if_pos hsame]

theorem lineChanged_of_wake (hquiet : u.day.power = .quiet) (hnew : u.day.lines.get l ≠ u.day.reported.get l) :
    lineChanged l u = wake .siteLine u := by
  rw [lineChanged, if_pos hquiet, if_neg hnew]

theorem lineChanged_of_mains (hpower : u.day.power ≠ .quiet) : lineChanged .mains u = guestDecide (reportLine .mains u) := by
  rw [lineChanged, if_neg hpower]
  exact if_pos rfl

theorem lineChanged_of_other (hpower : u.day.power ≠ .quiet) (hl : l ≠ .mains) : lineChanged l u = reportLine l u := by
  rw [lineChanged, if_neg hpower]
  exact if_neg hl

theorem reportLine_of_room (hu : notify (.site l (s.day.lines.get l) s.clock0 s.day.lines) s = u)
    (hroom : s.hlk.notices.length < 32) : reportLine l s =
      { u with day := { u.day with reported := u.day.reported.put l (s.day.lines.get l) } } := by
  subst hu
  exact if_pos ((noticeRoom_iff s).2 hroom)

theorem reportLine_of_full (hu : notify (.site l (s.day.lines.get l) s.clock0 s.day.lines) s = u)
    (hfull : 32 ≤ s.hlk.notices.length) : reportLine l s = u := by
  subst hu
  exact if_neg (mt (noticeRoom_iff s).1 (Nat.not_lt.2 hfull))

/-- What reporting a line changes. -/
theorem reportLine_touches (l : SiteLine) (s : State) :
    ∃ h r, reportLine l s = { s with hlk := h, day := { s.day with reported := r } } := by
  obtain ⟨h, heq⟩ := notify_touches (.site l (s.day.lines.get l) s.clock0 s.day.lines) s
  unfold reportLine
  dsimp only
  rw [heq]
  split <;> exact ⟨_, _, rfl⟩

theorem reportLines_touches (s : State) :
    ∃ h r, reportLines s = { s with hlk := h, day := { s.day with reported := r } } := by
  have hfold : ∀ (ls : List SiteLine) (s : State), ∃ h r,
      ls.foldl (fun u l => if u.day.lines.get l = u.day.reported.get l then u else reportLine l u) s =
        { s with hlk := h, day := { s.day with reported := r } } := by
    intro ls
    induction ls with
    | nil => exact fun s => ⟨_, _, rfl⟩
    | cons l ls ih =>
      intro s
      rw [List.foldl_cons]
      split
      · exact ih s
      · obtain ⟨h, r, heq⟩ := reportLine_touches l s
        obtain ⟨h', r', heq'⟩ := ih (reportLine l s)
        exact ⟨h', r', by rw [heq', heq]⟩
  exact hfold _ s

end Lines

/-! ## QUIET and the wake (R173 to R175) -/

section Quiet

variable {s t v y : State} {c : WakeCause} {now m : Nat}

theorem quietDue_iff (s : State) : quietDue s = true ↔
    s.day.store = .night ∧ s.day.power = .run ∧ s.settings.on .quietEnable = true ∧
    (∃ x, s.day.quietAt = some x ∧ x ≤ s.timer) ∧ s.txe.run.state = .ended ∧ (∀ x ∈ s.pbk.slots, x = none) ∧
    s.pbk.queue = [] ∧ s.day.lines.mains = true := by
  rw [quietDue, quietConditions]
  cases s.day.quietAt <;> simp [and_assoc]

theorem refreshEdge_quiet_left (new : StoreState) (s : State) : refreshEdge .quiet new s = s := if_neg (by simp [refreshSetting])

theorem refreshEdge_quiet_right (old : StoreState) (s : State) : refreshEdge old .quiet s = s :=
  if_neg (by simp [refreshEnabled, refreshSetting])

/-- The part as it enters QUIET, before the lines are looked at (R174). -/
def quietEntered (s : State) : State :=
  let y := notify (.state s.day.store .quiet s.clock0 .quietEntry)
    { s with day := { s.day with power := .quiet, store := .quiet, quietAt := none } }
  { y with
    waiting := y.waiting.filter fun w => match w with | .floor _ => false | _ => true
    lrs := { y.lrs with
      radio := .asleep, inFlight := none, burst := none, waitingBurst := none, nextBeacon := none, settleEnd := none }
    hlk := { y.hlk with silenceAt := none } }

theorem quietEntered_day (s : State) :
    (quietEntered s).day = { s.day with power := .quiet, store := .quiet, quietAt := none } :=
  notify_day _ _

theorem enterQuiet_eq (s : State) : enterQuiet s =
    if s.day.lines = s.day.reported then quietEntered s else wake .siteLine (quietEntered s) := by
  have hentered : sleepRadio { setStore .quiet (some .quietEntry)
      { s with day := { s.day with power := .quiet, quietAt := none } } with
        hlk := { (setStore .quiet (some .quietEntry)
          { s with day := { s.day with power := .quiet, quietAt := none } }).hlk with silenceAt := none } } =
      quietEntered s := by
    rw [setStore_some, refreshEdge_quiet_right]
    rfl
  unfold enterQuiet
  dsimp only
  rw [hentered, quietEntered_day]

theorem inLeadWindow_iff (t : Settings) (c : Nat) : inLeadWindow t c = true ↔ tradingDay t c = true ∧
    t.nat .openTime - t.nat .openingLead ≤ c / 60 % 1440 ∧ c / 60 % 1440 < t.nat .openTime := by
  rw [inLeadWindow, Bool.and_eq_true, Bool.and_eq_true, decide_eq_true_iff, decide_eq_true_iff, and_assoc]
  exact Iff.rfl

theorem wakeState_of_unset (hc : c ≠ .openLead) (hclock : s.day.clock = none) : wakeState s c = .night := by
  rw [wakeState, if_neg hc, hclock]

theorem wakeState_of_clock (hc : c ≠ .openLead) (hclock : s.day.clock = some now) :
    wakeState s c = if inLeadWindow s.settings now then .opening else .night := by
  rw [wakeState, if_neg hc, hclock]

theorem wakeState_cases (s : State) (c : WakeCause) : wakeState s c = .opening ∨ wakeState s c = .night := by
  unfold wakeState
  split
  · exact .inl rfl
  · split
    · split
      · exact .inl rfl
      · exact .inr rfl
    · exact .inr rfl

/-- The part as a wake brings it out of QUIET, before the store's own effects (R175). -/
def woken (c : WakeCause) (s : State) : State :=
  startSilence (settleRadio (setStore (wakeState s c) (some (.wake c))
    { s with day := { s.day with power := .run, lastWake := some c } }))

theorem wake_of_opening (hquiet : s.day.power = .quiet) (hstore : wakeState s c = .opening) : wake c s =
    reportLines (guestDecide (abortRun { woken c s with day := { (woken c s).day with quietAt := none } })) := by
  unfold wake
  rw [if_neg (by simp [hquiet])]
  dsimp only
  exact congrArg reportLines (if_pos hstore)

theorem wake_of_night (hquiet : s.day.power = .quiet) (hstore : wakeState s c = .night) :
    wake c s = reportLines (guestDecide (startQuietDelay (woken c s))) := by
  unfold wake
  rw [if_neg (by simp [hquiet])]
  dsimp only
  exact congrArg reportLines (if_neg (by simp [hstore]))

theorem setStore_timer (new : StoreState) (cause : Option StateCause) (s : State) :
    (setStore new cause s).timer = s.timer := by
  obtain ⟨n, h, heq⟩ := setStore_touches new cause s
  rw [heq]

theorem setStore_settings (new : StoreState) (cause : Option StateCause) (s : State) :
    (setStore new cause s).settings = s.settings := by
  obtain ⟨n, h, heq⟩ := setStore_touches new cause s
  rw [heq]

theorem woken_day (c : WakeCause) (s : State) :
    (woken c s).day = { s.day with power := .run, lastWake := some c, store := wakeState s c } :=
  setStore_day ..

theorem woken_timer (c : WakeCause) (s : State) : (woken c s).timer = s.timer := setStore_timer ..

theorem woken_settings (c : WakeCause) (s : State) : (woken c s).settings = s.settings := setStore_settings ..

theorem woken_lrs (c : WakeCause) (s : State) :
    (woken c s).lrs.radio = .settling ∧ (woken c s).lrs.settleEnd = some (s.timer + s.settings.nat .settleTime) := by
  refine ⟨rfl, ?_⟩
  show some ((setStore _ _ _).timer + (setStore _ _ _).settings.nat .settleTime) = _
  rw [setStore_timer, setStore_settings]

/-- The figures a wake leaves. -/
theorem wake_leaves (hquiet : s.day.power = .quiet) (hv : wake c s = v) :
    v.day.power = .run ∧ v.day.lastWake = some c ∧ v.lrs.radio = .settling ∧
      v.lrs.settleEnd = some (s.timer + s.settings.nat .settleTime) ∧ v.day.store = wakeState s c := by
  subst hv
  obtain ⟨hradio, hend⟩ := woken_lrs c s
  rcases wakeState_cases s c with hstore | hstore
  · obtain ⟨h, r, heq⟩ := reportLines_touches
      (guestDecide (abortRun { woken c s with day := { (woken c s).day with quietAt := none } }))
    rw [wake_of_opening hquiet hstore, heq]
    simp [woken_day, hradio, hend]
  · obtain ⟨h, r, heq⟩ := reportLines_touches (guestDecide (startQuietDelay (woken c s)))
    rw [wake_of_night hquiet hstore, heq]
    simp [startQuietDelay, woken_day, hradio, hend]

/-- A wake whose quiet delay is not 0 leaves nothing to be tested at once (R173). -/
theorem quietDue_wake (hquiet : s.day.power = .quiet) (hdelay : s.settings.nat .quietDelay ≠ 0) : quietDue (wake c s) = false := by
  rw [Bool.eq_false_iff, Ne, quietDue_iff]
  rintro ⟨hstore, -, -, ⟨x, hx, hle⟩, -⟩
  rcases wakeState_cases s c with hopening | hnight
  · rw [(wake_leaves hquiet rfl).2.2.2.2, hopening] at hstore
    cases hstore
  · obtain ⟨h, r, heq⟩ := reportLines_touches (guestDecide (startQuietDelay (woken c s)))
    rw [wake_of_night hquiet hnight, heq] at hx hle
    simp only [guestDecide_day, guestDecide_timer, startQuietDelay, woken_timer, woken_settings, Option.some.injEq] at hx hle
    omega

theorem quietDue_enterQuiet (hdelay : s.day.lines = s.day.reported ∨ s.settings.nat .quietDelay ≠ 0) :
    quietDue (enterQuiet s) = false := by
  have hpower : (quietEntered s).day.power = .quiet := by rw [quietEntered_day]
  have hsettings : (quietEntered s).settings = s.settings := notify_settings _ _
  rw [enterQuiet_eq]
  split
  case isTrue hlines =>
    rw [Bool.eq_false_iff, Ne, quietDue_iff, hpower]
    rintro ⟨-, hrun, -⟩
    cases hrun
  case isFalse hlines => exact quietDue_wake hpower (by rw [hsettings]; exact hdelay.resolve_left hlines)

theorem testQuiet_of_due (hdue : quietDue s = true) (ht : enterQuiet s = t) :
    testQuiet s = if quietDue t then enterQuiet t else t := by
  subst ht
  exact if_pos hdue

/-- The part as a wake brings it out of the store state QUIET, with its STATE notice written out. -/
theorem woken_eq (hstore : s.day.store = .quiet)
    (hy : notify (.state .quiet (wakeState s c) s.clock0 (.wake c))
      { s with day := { s.day with power := .run, store := wakeState s c, lastWake := some c } } = y)
    (hv : { y with
        lrs := { y.lrs with radio := .settling, settleEnd := some (s.timer + s.settings.nat .settleTime) }
        hlk := { y.hlk with
          silenceAt :=
            if s.settings.nat .silenceLimit = 0 then none else some (s.timer + 1000 * s.settings.nat .silenceLimit) } } = v) :
    woken c s = v := by
  have hset : setStore (wakeState s c) (some (.wake c)) { s with day := { s.day with power := .run, lastWake := some c } } =
      y := by
    rw [setStore_some, ← hy, show ({ s with day := { s.day with power := .run, lastWake := some c } } : State).day.store = .quiet
      from hstore, refreshEdge_quiet_left]
    rfl
  have htimer : y.timer = s.timer := by rw [← hy, notify_timer]
  have hsettings : y.settings = s.settings := by rw [← hy, notify_settings]
  rw [woken, hset, ← hv, ← htimer, ← hsettings]
  rfl

end Quiet

/-- Settles O58. -/
theorem dayEventsTaken : Obligations.DayEventsTaken := by
  unfold Obligations.DayEventsTaken
  refine ⟨fun s hrun => ⟨fun e c hc => ?_, ⟨dueButDay s, ?_⟩, fun x => advanceTo_of_le, fun x hx => if_neg (Nat.not_le.2 hx),
      fun ms => eventsFallDue_of_unset_clock, fun c ms => eventsFallDue_of_clock, fun hnone => ?_, fun x hx => ?_⟩,
    fun s l v u hu => ⟨fun hsame => if_pos hsame, fun hnew hstop => ?_, fun hnew hrun => ⟨fun hquiet hsame => ?_,
      fun hquiet hother => ?_, fun hpower hl => ?_, fun hpower hl => ?_⟩⟩,
    fun t c => ⟨inEventMinute_close, inEventMinute_openTime, inEventMinute_openLead, tradingDay_iff,
      fun horder hwithin hc => ⟨fun n hn => ⟨timedCounted t c n, countedEvents_eq_map t c n,
          timedCounted_pairwise ⟨horder, hwithin⟩ c n, fun e x => mem_timedCounted ⟨horder, hwithin⟩ hc hn⟩,
        fun e x hx => ?_⟩⟩,
    fun s => ⟨fun hstore => ?_, fun hstore => ?_, scheduleEvent_openLead_of_other, fun hstore => ?_,
      scheduleEvent_openTime_of_other, fun hstore => ?_, scheduleEvent_close_of_other, quietDue_iff s,
      fun hdue => if_neg (by simp [hdue]), fun hdue t ht => ⟨fun hnot => ?_, fun hagain => ?_, fun hdelay => ?_⟩,
      fun y v hy hv => ?_, fun hpower c => wake_of_awake c hpower, fun hquiet c v => wake_leaves hquiet,
      fun hquiet hstore c y v hy hv => ⟨fun hopening => ?_, fun hnight => ?_⟩, rfl, fun l u hu => ⟨reportLine_of_room hu,
        reportLine_of_full hu⟩, if_pos rfl, fun c hc => ⟨wakeState_of_unset hc, fun now m hclock hm =>
          ⟨fun htrading hlow hhigh => ?_, fun hnot => ?_⟩⟩⟩⟩
  · have hexec : exec c s = event (takeScheduleEvent e) s := by
      simp only [List.mem_cons, Prod.mk.injEq, List.not_mem_nil, or_false] at hc
      rcases hc with ⟨rfl, rfl⟩ | ⟨rfl, rfl⟩ | ⟨rfl, rfl⟩ <;> rfl
    rw [hexec]
    refine ⟨fun hclock => event_takes hrun (takeScheduleEvent_of_unset hclock), fun now hclock =>
      ⟨fun hdue => event_takes hrun (takeScheduleEvent_of_due hclock hdue), fun x u hnot hminute hnext hu => ?_,
        fun hnot hminute hnext => ?_⟩⟩
    · subst hu
      exact event_takes hrun (by rw [takeScheduleEvent_of_early hclock hnot hminute, hnext]; rfl)
    · exact event_takes hrun (by rw [takeScheduleEvent_of_early hclock hnot hminute, hnext])
  · rw [dueCommands_eq, dueDay_eq, ← List.append_assoc]
    refine congrArg _ (List.map_congr_left fun e _ => ?_)
    cases e <;> rfl
  · simp only [exec, execQuietDelayExpiry]
    exact event_takes hrun (by rw [hnone])
  · simp only [exec, execQuietDelayExpiry]
    exact event_takes hrun (by rw [hx])
  · rw [siteLineChange_of_new hnew hu, event_of_stopped _ (by rw [← hu]; exact hstop)]
  · subst hu
    rw [siteLineChange_of_new hnew rfl]
    exact event_takes hrun (lineChanged_of_same hquiet ((get_put_same ..).trans hsame.symm))
  · subst hu
    rw [siteLineChange_of_new hnew rfl]
    exact event_takes hrun (lineChanged_of_wake hquiet fun h => hother (h.symm.trans (get_put_same ..)))
  · subst hu hl
    rw [siteLineChange_of_new hnew rfl]
    exact event_takes hrun (lineChanged_of_mains hpower)
  · subst hu
    rw [siteLineChange_of_new hnew rfl]
    exact event_takes hrun (lineChanged_of_other hpower hl)
  · obtain ⟨hlt, hsecond, hin⟩ := nextEventAt_sound ⟨horder, hwithin⟩ hx
    exact ⟨hlt, hsecond, hin, fun y hcy hyx => nextEventAt_least ⟨horder, hwithin⟩ hc hx hcy hyx⟩
  · simp only [scheduleEvent, hstore]
  · simp only [scheduleEvent, hstore]
  · simp only [scheduleEvent, hstore]
  · simp only [scheduleEvent, hstore]
  · rw [testQuiet_of_due hdue ht, hnot]
    rfl
  · rw [testQuiet_of_due hdue ht, if_pos hagain]
  · rw [← ht]
    exact quietDue_enterQuiet hdelay
  · have hentered : quietEntered s = v := by
      subst hy hv
      rfl
    rw [enterQuiet_eq, hentered]
    exact ⟨fun hlines => if_pos hlines, fun hlines => if_neg hlines⟩
  · rw [wake_of_opening hquiet hopening, woken_eq hstore hy hv]
  · have htimer : v.timer = s.timer := by rw [← hv, ← hy, notify_timer]
    have hsettings : v.settings = s.settings := by rw [← hv, ← hy, notify_settings]
    rw [wake_of_night hquiet hnight, woken_eq hstore hy hv, startQuietDelay, htimer, hsettings]
  · rw [wakeState_of_clock hc hclock, if_pos ((inLeadWindow_iff ..).2 (by rw [hm]; exact ⟨htrading, hlow, hhigh⟩))]
  · rw [wakeState_of_clock hc hclock, if_neg]
    rw [inLeadWindow_iff, hm]
    rintro ⟨htrading, hlow, hhigh⟩
    rcases hnot with h | h | h
    · simp [htrading] at h
    · omega
    · omega

end Sys2Proof.Proofs
end

