-- ==== Sys2Proof/Proofs/StartEntry.lean ====
section
/-! PROOFS. From the reset to the store state a start-up enters (R141, R171, R177, R178). -/

namespace Sys2Proof.Proofs

open Sys2Proof.Machine Sys2Proof.Safety Sys2Proof.Laws

/-! ## From the reset to the store state (R177, R178) -/

section Begun

variable {k : ResetCause} {s v w : State} {st : StoreState}

/-- What stays as the reset made it to the end of the start-up. -/
structure Kept (s v : State) : Prop where
  timer : v.timer = 0
  settings : v.settings = s.settings
  identity : v.identity = s.identity
  waiting : v.waiting = []
  items : v.pbk.items = s.pbk.items
  queue : v.pbk.queue = s.pbk.queue
  counter : v.pbk.counter = s.pbk.counter
  drops : v.pbk.drops = 0
  tsu : v.tsu = freshTsu
  auz : v.auz = freshAuz
  sjr : v.sjr = freshSjr s.sjr

/-- What stays as the reset made it until the radio, the paths and the host link begin. -/
structure Cleared (s v : State) : Prop extends Kept s v where
  lrs : v.lrs = freshLrs s.lrs
  ulc : v.ulc = freshUlc s.ulc

/-- The part with its state cleared, before the store state is entered. -/
structure Reset (k : ResetCause) (s v : State) : Prop extends Cleared s v where
  txe : v.txe = freshTxe
  gac : v.gac = freshGac
  day : v.day = freshDay k s.day
  hlk : v.hlk = freshHlk

/-- The run that an entry to NIGHT with the clock set starts (R141, R178). -/
def startedRun (c : Nat) : NightRun :=
  { state := .upload, cause := some .nightEntry, startTime := some c, endTime := none, upload := none, download := none
    uploaded := 0, received := 0, rejected := 0 }

/-- The transfer engine as the entry to a store state leaves it. -/
def startTxe (k : ResetCause) (s : State) (st : StoreState) : Txe :=
  match (freshDay k s.day).clock with
  | some c => if st = .night then { freshTxe with run := startedRun c } else freshTxe
  | none => freshTxe

/-- The part after the store state is entered. -/
structure Begun (k : ResetCause) (s : State) (st : StoreState) (v : State) : Prop extends Cleared s v where
  txe : v.txe = startTxe k s st
  gac : v.gac = { freshGac with service := if st = .opened then .shed else .closed }
  day : ∃ q, v.day = { freshDay k s.day with store := st, quietAt := q }
  hlk : ∃ l, (l = [] ∨ ∃ g, l = [g]) ∧ v.hlk = { freshHlk with held := some l }

/-- What an effect's start changes. -/
theorem checkEffect_touches (c : Nat) (s : State) :
    ∃ n sl, checkEffect c s = { s with nv := n, pbk := { s.pbk with slots := sl } } := by
  unfold checkEffect
  split
  · exact ⟨_, _, rfl⟩
  · split
    · exact ⟨_, _, rfl⟩
    · split
      · unfold startWrite
        split <;> exact ⟨_, _, rfl⟩
      · exact ⟨_, _, rfl⟩

theorem foldl_checkEffect_touches (xs : List Slot) (s : State) : ∃ n sl,
    xs.foldl (fun u x => checkEffect x.item u) s = { s with nv := n, pbk := { s.pbk with slots := sl } } := by
  induction xs generalizing s with
  | nil => exact ⟨_, _, rfl⟩
  | cons x xs ih =>
    obtain ⟨n, sl, heq⟩ := checkEffect_touches x.item s
    obtain ⟨n', sl', heq'⟩ := ih (checkEffect x.item s)
    rw [List.foldl_cons, heq', heq]
    exact ⟨_, _, rfl⟩

theorem reset_rebuildSlots (k : ResetCause) (s : State) : Reset k s (rebuildSlots (freshState k s)) := by
  obtain ⟨n, sl, heq⟩ := foldl_checkEffect_touches (rebuiltSlots (freshState k s))
    { freshState k s with pbk := { (freshState k s).pbk with
      slots := ((rebuiltSlots (freshState k s)).map some ++ List.replicate Config.slotCount none).take Config.slotCount } }
  rw [rebuildSlots]
  dsimp only
  rw [heq]
  exact ⟨⟨⟨rfl, rfl, rfl, rfl, rfl, rfl, rfl, rfl, rfl, rfl, rfl⟩, rfl, rfl⟩, rfl, rfl, rfl, rfl⟩

theorem refreshEdge_of_cursor {old new : StoreState} (hcursor : s.lrs.cursor = 0) : refreshEdge old new s = s := by
  have hlrs : { s.lrs with cursor := 0 } = s.lrs := by rw [← hcursor]
  rw [refreshEdge_eq, hcursor, ite_self, hlrs]

theorem setStore_none_of_cursor (hcursor : s.lrs.cursor = 0) (new : StoreState) :
    setStore new none s = { s with day := { s.day with store := new } } := by
  unfold setStore
  exact refreshEdge_of_cursor (s := { s with day := { s.day with store := new } }) hcursor

theorem abortRun_of_no_run (hrun : s.txe.run.state.going = false) (hdue : s.txe.abortDue = false) : abortRun s = s := by
  have htxe : { s.txe with abortDue := false } = s.txe := by rw [← hdue]
  rw [abortRun, hrun, htxe]
  exact if_neg (by simp [hdue])

theorem Cleared.cursor (h : Cleared s v) : v.lrs.cursor = 0 := by
  rw [h.lrs]
  rfl

theorem Cleared.path_fails (h : Cleared s v) : .path ∈ failingConditions v := by
  have hactive : v.ulc.active = none := by
    rw [h.ulc]
    rfl
  refine (mem_failingConditions _).2 (.inr (.inr (.inl ⟨?_, rfl⟩)))
  rw [permittedNow, hactive]

/-- OPENING is entered at start-up. -/
theorem enterOpening_of_reset (h : Reset k s v) :
    enterOpening none v = { v with day := { v.day with store := .opening, quietAt := none } } := by
  have habort : ∀ d, abortRun { v with day := d } = { v with day := d } := fun d =>
    abortRun_of_no_run (by rw [h.txe]; rfl) (by rw [h.txe]; rfl)
  rw [enterOpening, setStore_none_of_cursor h.cursor]
  dsimp only
  rw [habort]
  refine guestDecide_of_same ?_
  rw [serviceDecided_of_not_open (by simp)]
  show _ = v.gac.service
  rw [h.gac]
  rfl

/-- OPEN is entered at start-up, by way of OPENING. -/
theorem enterOpen_of_reset (h : Reset k s v) : ∃ g, enterOpen none (enterOpening none v) = { v with
    day := { v.day with store := .opened, quietAt := none }
    gac := { v.gac with service := .shed }, hlk := { v.hlk with held := some [g] } } := by
  have hcursor : ∀ d, ({ v with day := d } : State).lrs.cursor = 0 := fun _ => h.cursor
  have hcleared : ∀ d, Cleared s { v with day := d } := fun d =>
    { h with }
  have hold : v.gac.service = .closed := by
    rw [h.gac]
    rfl
  have hheld : v.hlk.held = some [] := by
    rw [h.hlk]
    rfl
  let x : State := { v with day := { v.day with store := .opened, quietAt := none } }
  have hstore : enterOpen none (enterOpening none v) = guestDecide x := by
    rw [enterOpening_of_reset h, enterOpen, setStore_none_of_cursor (hcursor _)]
  have hserve : enterService .closed .shed x = { x with gac := { x.gac with service := .shed } } := enterService_eq rfl rfl
  have hservice := guestDecide_of_change (s := x) (old := .closed) (new := .shed) hold
    (serviceDecided_of_failing rfl (hcleared x.day).path_fails) (by decide)
  rw [hstore, hservice, hserve]
  exact ⟨_, notify_of_held (s := { x with gac := { x.gac with service := .shed } }) _ hheld⟩

/-- A place that holds no till is left as it is at NIGHT. -/
theorem closeIdlePlaces_of_free (hplaces : ∀ t, (placeAt s t).state ≠ .idle) : closeIdlePlaces s = s := by
  unfold closeIdlePlaces
  induction tillNumbers with
  | nil => rfl
  | cons t l ih =>
    have hsame : closeIdle t s = s := if_neg (hplaces t)
    rw [List.foldl_cons, hsame, ih]

theorem placeAt_freshTsu (htsu : v.tsu = freshTsu) (t : Nat) : placeAt v t = freePlace := by
  rw [placeAt, htsu]
  show (List.replicate 16 freePlace).getD t freePlace = freePlace
  rw [List.getD_eq_getElem?_getD, List.getElem?_replicate]
  split <;> rfl

/-- NIGHT is entered at start-up. -/
theorem nightEffects_of_reset (h : Reset k s v) (run : Bool) : nightEffects run v =
    startQuietDelay (v.when run (startRun .nightEntry)) := by
  have htsu : { v.tsu with grace := none } = v.tsu := by
    rw [h.tsu]
    rfl
  have hgac : { v.gac with spent := [] } = v.gac := by
    rw [h.gac]
    rfl
  have hservice : v.gac.service = .closed := by
    rw [h.gac]
    rfl
  have hstore : v.day.store ≠ .opened := by
    rw [h.day]
    simp [freshDay]
  have hplaces : closeIdlePlaces v = v := closeIdlePlaces_of_free fun t => by
    rw [placeAt_freshTsu h.tsu]
    decide
  rw [nightEffects, htsu]
  dsimp only
  rw [hplaces, hgac]
  have hdecide : guestDecide v = v := guestDecide_of_same ((serviceDecided_of_not_open hstore).trans hservice.symm)
  exact congrArg (fun u => startQuietDelay (u.when run (startRun .nightEntry))) hdecide

theorem scheduleState_cases (t : Settings) (c : Option Nat) :
    scheduleState t c = .opening ∨ scheduleState t c = .opened ∨ scheduleState t c = .night := by
  unfold scheduleState
  split
  · exact .inr (.inr rfl)
  · split
    · exact .inl rfl
    · split
      · exact .inr (.inl rfl)
      · exact .inr (.inr rfl)

theorem startTxe_of_other (hst : st ≠ .night) : startTxe k s st = freshTxe := by
  unfold startTxe
  split
  · exact if_neg hst
  · rfl

/-- The store state the schedule gives is entered. -/
theorem begun_enterChosen (h : Reset k s v) (hst : st = .opening ∨ st = .opened ∨ st = .night) :
    Begun k s st (enterChosen st v) ∧ (enterChosen st v).pbk = v.pbk ∧ (enterChosen st v).nv = v.nv := by
  rcases hst with rfl | rfl | rfl
  · have hentered : enterChosen .opening v = { v with day := { v.day with store := .opening, quietAt := none } } :=
      enterOpening_of_reset h
    rw [hentered]
    refine ⟨{ h with txe := ?_, gac := ?_, day := ⟨none, ?_⟩, hlk := ⟨[], .inl rfl, ?_⟩ }, rfl, rfl⟩
    · exact h.txe.trans (startTxe_of_other (by decide)).symm
    · exact h.gac
    · rw [h.day]
    · exact h.hlk
  · obtain ⟨g, hopen⟩ := enterOpen_of_reset h
    have hentered : enterChosen .opened v = _ := hopen
    rw [hentered]
    refine ⟨{ h with txe := ?_, gac := ?_, day := ⟨none, ?_⟩, hlk := ⟨[g], .inr ⟨g, rfl⟩, ?_⟩ }, rfl, rfl⟩
    · exact h.txe.trans (startTxe_of_other (by decide)).symm
    · rw [h.gac]
      rfl
    · rw [h.day]
    · rw [h.hlk]
  · have hentered : enterChosen .night v = startQuietDelay (v.when v.day.clock.isSome (startRun .nightEntry)) :=
      nightEffects_of_reset h _
    have hkept : ∀ run, (startQuietDelay (v.when run (startRun .nightEntry))).pbk = v.pbk ∧
        (startQuietDelay (v.when run (startRun .nightEntry))).nv = v.nv := fun run => by cases run <;> exact ⟨rfl, rfl⟩
    rw [hentered]
    refine ⟨{ toCleared := ?_, txe := ?_, gac := ?_, hlk := ⟨[], .inl rfl, ?_⟩
              day := ⟨some (v.timer + 60000 * v.settings.nat .quietDelay), ?_⟩ }, hkept _⟩
    · cases v.day.clock.isSome <;> exact { h with }
    · have hclock : (freshDay k s.day).clock = v.day.clock := by rw [h.day]
      rw [startTxe, hclock]
      cases hc : v.day.clock with
      | none => exact h.txe
      | some c =>
        have hclock0 : v.clock0 = c := by
          rw [State.clock0, hc]
          rfl
        show (startRun .nightEntry v).txe = _
        rw [startRun, h.txe, hclock0]
        rfl
    · cases v.day.clock.isSome <;> exact h.gac
    · have hday : { v.day with quietAt := some (v.timer + 60000 * v.settings.nat .quietDelay) } =
          { freshDay k s.day with store := .night, quietAt := some (v.timer + 60000 * v.settings.nat .quietDelay) } := by
        rw [h.day]
        rfl
      cases v.day.clock.isSome <;> exact hday
    · cases v.day.clock.isSome <;> exact h.hlk

end Begun

end Sys2Proof.Proofs
end

