-- ==== Sys2Proof/Proofs/StartUp.lean ====
section
/-! PROOFS. What a start-up leaves, component by component (R22, R46, R47, R70, R87, R100, R106, R107, R131, R141, R149, R164, R177 to R179, R195). -/

namespace Sys2Proof.Proofs

open Sys2Proof.Machine Sys2Proof.Safety Sys2Proof.Laws

/-! ## The radio, the paths and the host link begin (R46, R107, R179) -/

section Started

variable {k : ResetCause} {s v : State} {st : StoreState} {b : NoticeBody} {x : Txe}

/-- A path whose modem reports the carrier, or none, from its greeting on: a HELLO waits, goes out or has gone. -/
def Greeted (carrier : Bool) (r : PathRec) : Prop :=
  ∃ tx control e, r = { freshPath carrier with
    state := if carrier then .helloWait else .down, tx := tx, control := control, helloExpiry := e }

/-- The silence timer as a start-up starts it. -/
def firstSilence (t : Settings) : Option Nat := if t.nat .silenceLimit = 0 then none else some (1000 * t.nat .silenceLimit)

/-- The part from the START notice on: what stays so to the end of the start-up. -/
structure Started (k : ResetCause) (s : State) (st : StoreState) (b : NoticeBody) (x : Txe) (v : State) : Prop
    extends Kept s v where
  txe : v.txe = x
  gac : v.gac = { freshGac with service := if st = .opened then .shed else .closed }
  day : ∃ q, v.day = { freshDay k s.day with store := st, quietAt := q }
  lrs : v.lrs = { freshLrs s.lrs with settleEnd := some (s.settings.nat .settleTime) }
  ulc : ∃ r1 r2, Greeted s.ulc.carrierPrimary r1 ∧ Greeted s.ulc.carrierBackup r2 ∧
    v.ulc = { freshUlc s.ulc with primary := r1, backup := r2 }
  hlk : ∃ l n tx a, v.hlk = { freshHlk with
    notices := { number := 1, overrun := false, body := b } :: l, lastNumber := n, held := none
    silenceAt := firstSilence s.settings, tx := tx, ackWait := a }

/-- A notice that joins a queue in which nothing has been lost. -/
theorem joinNotice_behind {l : List Notice} {n m : Nat} (g : NoticeBody) (hlen : l.length < 32)
    (hm : (if n < 65535 then n + 1 else 1) = m)
    (hhlk : v.hlk = { freshHlk with notices := l, lastNumber := n, held := none }) :
    joinNotice g v = { v with hlk := { freshHlk with
      notices := l ++ [{ number := m, overrun := false, body := g }], lastNumber := m, held := none } } := by
  subst hm
  rw [joinNotice_of_room g (by rw [hhlk]; exact hlen), hhlk]
  rfl

/-- START joins the empty queue first, and the one notice that may be held joins behind it. -/
theorem releaseNotices_of_short {l : List NoticeBody} (hl : l = [] ∨ ∃ g, l = [g]) (hhlk : v.hlk = { freshHlk with held := some l }) :
    ∃ r n, releaseNotices b v = { v with hlk := { freshHlk with
      notices := { number := 1, overrun := false, body := b } :: r, lastNumber := n, held := none } } := by
  have hempty : ({ v.hlk with held := none } : Hlk) = { freshHlk with notices := [], lastNumber := 0, held := none } := by
    rw [hhlk]
    rfl
  have hfirst := joinNotice_behind (v := { v with hlk := { v.hlk with held := none } }) (l := []) (m := 1) b (by decide) rfl hempty
  have hheld : v.hlk.held.getD [] = l := by
    rw [hhlk]
    rfl
  rw [releaseNotices, hheld, hfirst]
  rcases hl with rfl | ⟨g, rfl⟩
  · exact ⟨[], 1, rfl⟩
  · exact ⟨[{ number := 2, overrun := false, body := g }], 2,
      joinNotice_behind (v := { v with hlk := { freshHlk with
        notices := [{ number := 1, overrun := false, body := b }], lastNumber := 1, held := none } })
        (l := [{ number := 1, overrun := false, body := b }]) (n := 1) (m := 2) g (by simp) rfl rfl⟩

/-- A path's greeting where its modem reports the carrier. -/
theorem greet_of_fresh {p : Path} {c : Bool} (hpath : v.ulc.path p = freshPath c) :
    ∃ r, Greeted c r ∧ (if (v.ulc.path p).carrier then greet p v else v) = putPath p r v := by
  rw [hpath]
  cases c with
  | false =>
    refine ⟨freshPath false, ⟨_, _, _, rfl⟩, (if_neg (by decide)).trans ?_⟩
    rw [← hpath]
    cases p <;> rfl
  | true => exact ⟨_, ⟨none, [helloFrame v], some v.ulc.t2.counter, rfl⟩, by rw [greet, hpath]; rfl⟩

theorem greetPaths_of_fresh (hulc : v.ulc = freshUlc s.ulc) : ∃ r1 r2, Greeted s.ulc.carrierPrimary r1 ∧
    Greeted s.ulc.carrierBackup r2 ∧ greetPaths v = { v with ulc := { freshUlc s.ulc with primary := r1, backup := r2 } } := by
  obtain ⟨r1, hr1, hfirst⟩ := greet_of_fresh (v := v) (p := .primary) (congrArg Ulc.primary hulc)
  obtain ⟨r2, hr2, hsecond⟩ := greet_of_fresh (v := putPath .primary r1 v) (p := .backup) (congrArg Ulc.backup hulc)
  refine ⟨r1, r2, hr1, hr2, ?_⟩
  have hgreet : greetPaths v = putPath .backup r2 (putPath .primary r1 v) := by
    rw [← hsecond, ← hfirst]
    rfl
  rw [hgreet, putPath, putPath, hulc]
  rfl

theorem Begun.decided (h : Begun k s st v) (o : List Output) (l : Hlk) :
    guestDecide { v with out := o, hlk := l } = { v with out := o, hlk := l } := by
  let u : State := { v with out := o, hlk := l }
  have hcleared : Cleared s u := { h with }
  obtain ⟨q, hday⟩ := h.day
  have hstore : u.day.store = st := by rw [hday]
  have hservice : u.gac.service = if st = .opened then .shed else .closed := by rw [h.gac]
  refine guestDecide_of_same (s := u) (hservice.trans ?_).symm
  by_cases hst : st = .opened
  · rw [serviceDecided_of_failing (hstore.trans hst) hcleared.path_fails]
    exact if_pos hst
  · rw [serviceDecided_of_not_open fun hopen => hst (hstore.symm.trans hopen)]
    exact if_neg hst

/-- The START notice, the radio, the paths and the silence timer, after the store state. -/
theorem Begun.started (h : Begun k s st v) (b : NoticeBody) : ∃ u, startSilence (greetPaths (settleRadio (guestDecide
      (releaseNotices b (emit .endAll v))))) = u ∧ u.pbk = v.pbk ∧ u.nv = v.nv ∧ Started k s st b (startTxe k s st) u := by
  obtain ⟨l, hl, hhlk⟩ := h.hlk
  obtain ⟨r, n, hrelease⟩ := releaseNotices_of_short (b := b) (v := emit .endAll v) hl hhlk
  have hdecided := h.decided (emit .endAll v).out { freshHlk with
      notices := { number := 1, overrun := false, body := b } :: r, lastNumber := n, held := none }
  generalize hy : releaseNotices b (emit .endAll v) = y at hrelease
  have hguest : guestDecide y = y := by
    rw [hrelease]
    exact hdecided
  have hulc : (settleRadio y).ulc = freshUlc s.ulc := by
    rw [hrelease]
    exact h.ulc
  obtain ⟨r1, r2, hr1, hr2, hpaths⟩ := greetPaths_of_fresh hulc
  rw [hguest, hpaths, hrelease]
  refine ⟨_, rfl, rfl, rfl, ?_⟩
  obtain ⟨q, hday⟩ := h.day
  refine { h with day := ⟨q, hday⟩, lrs := ?_, ulc := ⟨r1, r2, hr1, hr2, rfl⟩, hlk := ⟨r, n, none, .unsent, ?_⟩ }
  · show { v.lrs with radio := .settling, settleEnd := some (v.timer + v.settings.nat .settleTime) } = _
    rw [h.lrs, h.timer, h.settings, Nat.zero_add]
    rfl
  · show { freshHlk with
        notices := { number := 1, overrun := false, body := b } :: r, lastNumber := n, held := none,
        silenceAt := if v.settings.nat .silenceLimit = 0 then none else some (v.timer + 1000 * v.settings.nat .silenceLimit) } = _
    rw [h.timer, h.settings, Nat.zero_add]
    rfl

end Started

/-! ## Admission leaves the slots that are held (R11) -/

section Admission

variable {s : State} {w : NvWrite} {i : Nat} {y : Slot}

/-- What an admission may have changed: it uses FREE slots alone, and adds writes. -/
structure Admitted (s t : State) : Prop where
  touches : ∃ n o m sl, t = { s with nv := n, pbk := { s.pbk with ops := o, taken := m, slots := sl } }
  slots : ∀ i y, slotAt s i = some y → slotAt t i = some y
  writes : ∀ w ∈ s.nv, w ∈ t.nv

theorem admitted_refl (s : State) : Admitted s s := ⟨⟨_, _, _, _, rfl⟩, fun _ _ h => h, fun _ h => h⟩

theorem admitted_startWrite (x : NvWrite) (s : State) : Admitted s (startWrite x s) := by
  unfold startWrite
  split
  · exact admitted_refl s
  · exact ⟨⟨_, _, _, _, rfl⟩, fun _ _ h => h, fun _ h => List.mem_append_left _ h⟩

theorem admitted_queueWrite (o : QueueOp) (s : State) : Admitted s (queueWrite o s) := by
  unfold queueWrite
  split
  · exact admitted_refl s
  · exact ⟨⟨_, _, _, _, rfl⟩, fun _ _ h => h, fun _ h => h⟩

theorem Admitted.trans {a b c : State} (h : Admitted a b) (h' : Admitted b c) : Admitted a c := by
  obtain ⟨n, o, m, sl, heq⟩ := h.touches
  obtain ⟨n', o', m', sl', heq'⟩ := h'.touches
  refine ⟨⟨n', o', m', sl', ?_⟩, fun i y hy => h'.slots i y (h.slots i y hy), fun w hw => h'.writes w (h.writes w hw)⟩
  rw [heq', heq]

theorem admitted_takeNumber (s : State) : Admitted s (takeNumber s) := ⟨⟨_, _, _, _, rfl⟩, fun _ _ h => h, fun _ h => h⟩

theorem admitted_putSlot {x : Option Slot} (hfree : freeSlot s = some i) : Admitted s (putSlot i x s) := by
  refine ⟨⟨_, _, _, _, rfl⟩, fun j y hy => ?_, fun _ h => h⟩
  obtain ⟨hlt, hnone, -⟩ := List.findIdx?_eq_some_iff_getElem.1 hfree
  have hne : i ≠ j := by
    rintro rfl
    rw [slotAt_eq_some, List.getElem?_eq_getElem hlt, Option.some_inj] at hy
    rw [hy] at hnone
    exact absurd hnone (by simp)
  rw [slotAt_eq_some] at hy ⊢
  exact (List.getElem?_set_ne hne).trans hy

theorem admitted_tryAdmission (s : State) : Admitted s (tryAdmission s) := by
  unfold tryAdmission
  split
  · exact admitted_refl s
  case h_2 q _ _ =>
    split
    · exact admitted_refl s
    · have hissue : ∀ add, Admitted s (issueFromQueue q add s) := fun add => by
        unfold issueFromQueue
        split
        · exact admitted_refl s
        case h_2 i hfree =>
          split
          · exact ((admitted_takeNumber s).trans (admitted_putSlot (s := takeNumber s) hfree)).trans (admitted_startWrite _ _)
          · exact admitted_refl s
      unfold admitHead
      split
      · exact (admitted_takeNumber s).trans (admitted_startWrite _ _)
      · split
        · exact hissue false
        · split
          · exact hissue true
          · exact admitted_queueWrite _ _

end Admission

section Started

variable {k : ResetCause} {s v t : State} {st : StoreState} {b : NoticeBody} {x : Txe}

theorem Started.admitted (h : Started k s st b x v) (ha : Admitted v t) : Started k s st b x t := by
  obtain ⟨n, o, m, sl, rfl⟩ := ha.touches
  exact { h with }

/-! ## The night run of an empty journal goes on to its download (R143, R144) -/

/-- The transfer engine as an upload that finds nothing to send leaves it. -/
def downloadTxe (x : Txe) : Txe :=
  { x with
    run := { x.run with state := .download, upload := some .ok }
    pieceNumber := 0
    file := some { state := .waitingRoom, firstSent := none, expiry := none, retryEnd := none, feed := [], last := false, awaiting := false } }

/-- The transfer engine at the end of the start-up. -/
def finalTxe (k : ResetCause) (s : State) (st : StoreState) : Txe :=
  if (startTxe k s st).run.state = .upload ∧ s.sjr.records.length = 0 then downloadTxe (startTxe k s st) else startTxe k s st

/-- A transfer engine with no batch, no abort and no file request that could go on without a path. -/
structure Waits (x : Txe) : Prop where
  batch : x.batch = none
  abortDue : x.abortDue = false
  file : ∀ f, x.file = some f → f.state = .waitingRoom
  run : x.run.state ≠ .ended

theorem waits_startTxe (k : ResetCause) (s : State) (st : StoreState) : Waits (startTxe k s st) := by
  have hfresh : Waits freshTxe := ⟨rfl, rfl, nofun, by decide⟩
  unfold startTxe
  split
  · split
    · exact ⟨rfl, rfl, nofun, nofun⟩
    · exact hfresh
  · exact hfresh

theorem Waits.download (h : Waits x) : Waits (downloadTxe x) :=
  ⟨h.batch, h.abortDue, fun f hf => by rw [← Option.some.inj hf], nofun⟩

theorem waits_finalTxe (k : ResetCause) (s : State) (st : StoreState) : Waits (finalTxe k s st) := by
  unfold finalTxe
  split
  · exact (waits_startTxe k s st).download
  · exact waits_startTxe k s st

theorem Started.active (h : Started k s st b x v) : v.ulc.active = none := by
  obtain ⟨r1, r2, -, -, hulc⟩ := h.ulc
  rw [hulc]
  rfl

theorem Started.formNext (h : Started k s st b x v) (hx : Waits x) : formNext v =
    if x.run.state = .upload ∧ s.sjr.records.length = 0 then { v with txe := downloadTxe x } else v := by
  have hbatch : v.txe.batch = none := by rw [h.txe, hx.batch]
  have htrickle : trickleMaySend v = false := by
    rw [trickleMaySend, permittedNow, h.active]
    simp
  have hunsent : v.sjr.unsent = s.sjr.records.length := by
    rw [h.sjr]
    exact List.length_map _
  have hdownload : beginDownload .ok v = { v with txe := downloadTxe x } := by
    rw [← h.txe]
    rfl
  rw [Machine.formNext, hbatch, htrickle, hunsent, h.active, h.txe, hdownload, if_neg (by simp)]
  by_cases hrun : x.run.state = .upload <;> by_cases hnone : s.sjr.records.length = 0 <;> simp [hrun, hnone]

theorem Started.settleAbort (h : Started k s st b x v) (hx : Waits x) : settleAbort v = v :=
  if_neg fun hdue => by simp [h.txe, hx.abortDue] at hdue

theorem Started.settleBatch (h : Started k s st b x v) (hx : Waits x) : settleBatch v = v := by
  rw [Machine.settleBatch, h.txe, hx.batch]

/-- Without a batch, TXE's batch work is the forming of one. -/
theorem batchStep_of_no_batch (hbatch : v.txe.batch = none) (hformed : (formNext v).txe.batch = none) : batchStep v = formNext v := by
  have hresume : resumeBatch v = v := by rw [resumeBatch, hbatch]
  have hoffer : offerMember (formNext v) = formNext v := by rw [offerMember, hformed]
  have hoffers : ∀ n, offerMembers n (formNext v) = formNext v := fun n => by
    induction n with
    | zero => rfl
    | succ n ih => rw [offerMembers, hoffer, ih]
  rw [batchStep, hresume, hoffers, Machine.settleBatch, hformed]

/-- A file request that waits for room changes nothing without a path. -/
theorem Started.feedAll (h : Started k s st b x v) (hx : Waits x) : feedAll v = v := by
  unfold Machine.feedAll
  split
  case h_1 f hf =>
    have hstate : f.state = .waitingRoom := hx.file f (h.txe ▸ hf)
    have hone : feedOne v = v := by
      rw [feedOne, hf]
      exact if_neg (by simp [hstate])
    rw [feed_eq_foldl, foldl_of_fixed hone]
  case h_2 => rfl

theorem Started.offerFileRequest (h : Started k s st b x v) : offerFileRequest v = v := by
  unfold Machine.offerFileRequest
  split
  · exact if_neg (by simp [h.active])
  · rfl

theorem Started.withTxe {y : Txe} (h : Started k s st b x v) : Started k s st b y { v with txe := y } := { h with txe := rfl }

/-- TXE's batch work, when no upload is left to end. -/
theorem Started.batchStep_idle (h : Started k s st b x v) (hx : Waits x)
    (hno : ¬(x.run.state = .upload ∧ s.sjr.records.length = 0)) : batchStep v = v := by
  have hform : Machine.formNext v = v := (h.formNext hx).trans (if_neg hno)
  rw [batchStep_of_no_batch (h.txe ▸ hx.batch) (by rw [hform, h.txe, hx.batch]), hform]

theorem Started.afterBatches (h : Started k s st b x v) (hx : Waits x) :
    Machine.offerFileRequest (Machine.settleAbort (Machine.feedAll v)) = v := by
  rw [h.feedAll hx, h.settleAbort hx, h.offerFileRequest]

/-- TXE's work in a start-up ends the upload that has nothing to send, and no more. -/
theorem Started.transferStep (h : Started k s st b x v) (hx : Waits x) : transferStep v =
    if x.run.state = .upload ∧ s.sjr.records.length = 0 then { v with txe := downloadTxe x } else v := by
  rw [Machine.transferStep, h.settleAbort hx]
  by_cases hdue : x.run.state = .upload ∧ s.sjr.records.length = 0
  · have hform : Machine.formNext v = { v with txe := downloadTxe x } := (h.formNext hx).trans (if_pos hdue)
    have hfirst : batchStep v = { v with txe := downloadTxe x } := by
      rw [batchStep_of_no_batch (h.txe ▸ hx.batch) (by rw [hform]; exact hx.batch), hform]
    have hu : Started k s st b (downloadTxe x) { v with txe := downloadTxe x } := h.withTxe
    rw [if_pos hdue, hfirst, hu.batchStep_idle hx.download (by simp [downloadTxe]), hu.afterBatches hx.download]
  · rw [if_neg hdue, h.batchStep_idle hx hdue, h.batchStep_idle hx hdue, h.afterBatches hx]

/-! ## The transmitters (R118, R185) -/

theorem started_pump (h : Started k s st b x v) (p : Path) :
    Started k s st b x (pump p v) ∧ (pump p v).pbk = v.pbk ∧ (pump p v).nv = v.nv := by
  have hsent : ∀ f rest, Started k s st b x (transmit p f (putPath p { v.ulc.path p with control := rest } v)) := fun f rest => by
    obtain ⟨r1, r2, ⟨tx1, c1, e1, hr1⟩, ⟨tx2, c2, e2, hr2⟩, hulc⟩ := h.ulc
    refine { h with ulc := ?_ }
    cases p with
    | primary => exact ⟨{ r1 with tx := some f, control := rest }, r2, ⟨some f, rest, e1, by rw [hr1]⟩, ⟨tx2, c2, e2, hr2⟩, by
        show (v.ulc.setPath .primary _).setPath .primary _ = _
        rw [hulc]
        rfl⟩
    | backup => exact ⟨r1, { r2 with tx := some f, control := rest }, ⟨tx1, c1, e1, hr1⟩, ⟨some f, rest, e2, by rw [hr2]⟩, by
        show (v.ulc.setPath .backup _).setPath .backup _ = _
        rw [hulc]
        rfl⟩
  rw [pump]
  split
  · exact ⟨h, rfl, rfl⟩
  · split
    · exact ⟨hsent _ _, rfl, rfl⟩
    · rw [if_neg (by simp [h.active])]
      exact ⟨h, rfl, rfl⟩

theorem started_pumpPaths (h : Started k s st b x v) :
    Started k s st b x (pumpPaths v) ∧ (pumpPaths v).pbk = v.pbk ∧ (pumpPaths v).nv = v.nv := by
  obtain ⟨hfirst, hpbk, hnv⟩ := started_pump h .primary
  obtain ⟨hsecond, hpbk', hnv'⟩ := started_pump hfirst .backup
  exact ⟨hsecond, hpbk'.trans hpbk, hnv'.trans hnv⟩

theorem started_hostPump (h : Started k s st b x v) :
    Started k s st b x (hostPump v) ∧ (hostPump v).pbk = v.pbk ∧ (hostPump v).nv = v.nv := by
  obtain ⟨l, n, tx, a, hhlk⟩ := h.hlk
  have hreplies : (if writesStopped v then [] else v.hlk.replies) = [] := by
    rw [hhlk]
    exact ite_self _
  rw [hostPump, hreplies]
  split
  · exact ⟨h, rfl, rfl⟩
  · dsimp only
    split
    case h_1 m _ =>
      refine ⟨{ h with hlk := ⟨l, n, some (.notice m), .waiting (v.timer + v.settings.nat .noticeResend), ?_⟩ }, rfl, rfl⟩
      rw [sendNotice, emit, hhlk]
    · exact ⟨h, rfl, rfl⟩

/-! ## The end of the start-up -/

theorem Started.running (h : Started k s st b x v) : v.running = true := by
  obtain ⟨q, hday⟩ := h.day
  rw [State.running, hday]
  rfl

theorem Started.drainAll (h : Started k s st b x v) : drainAll v = v := by
  rw [Machine.drainAll, h.waiting]
  rfl

theorem Started.journalStep (h : Started k s st b x v) : journalStep v = v := by
  have htake : takeAppend v = v := by
    rw [takeAppend, h.sjr]
    rfl
  rw [Machine.journalStep, writerPump_eq_foldl, foldl_of_fixed htake]

theorem Started.radioStep (h : Started k s st b x v) : radioStep v = v := by
  have hinFlight : v.lrs.inFlight = none := by rw [h.lrs]; rfl
  have hburst : v.lrs.burst = none := by rw [h.lrs]; rfl
  have hwaiting : v.lrs.waitingBurst = none := by rw [h.lrs]; rfl
  rw [Machine.radioStep, abandonForPriority_of_idle hinFlight, startWaitingBurst_of_not (.inr hwaiting),
    chooseNext_of_not (.inr (.inl hburst))]

theorem Started.testQuiet (h : Started k s st b x v) (hx : Waits x) : testQuiet v = v := by
  refine if_neg fun hquiet => hx.run ?_
  obtain ⟨-, -, -, -, hended, -⟩ := (quietDue_iff v).1 hquiet
  rwa [h.txe] at hended

/-- The after-effects of a start-up: the head of the change queue may be admitted, an empty upload ends, and the transmitters begin. -/
theorem Started.finish (h : Started k s st b (startTxe k s st) v) :
    Started k s st b (finalTxe k s st) (finish v) ∧ ∃ u, Admitted v u ∧ (finish v).pbk = u.pbk ∧ (finish v).nv = u.nv := by
  have ha : Admitted v (tryAdmission v) := admitted_tryAdmission v
  have hadmitted := h.admitted ha
  have hu : Machine.drainAll (Machine.radioStep (tryAdmission (Machine.journalStep (Machine.drainAll v)))) = tryAdmission v := by
    rw [h.drainAll, h.journalStep, hadmitted.radioStep, hadmitted.drainAll]
  have hfirst : ∃ y, Machine.transferStep (tryAdmission v) = y ∧ Started k s st b (finalTxe k s st) y ∧
      y.pbk = (tryAdmission v).pbk ∧ y.nv = (tryAdmission v).nv := by
    refine ⟨_, rfl, ?_⟩
    rw [hadmitted.transferStep (waits_startTxe k s st), finalTxe]
    split
    · exact ⟨hadmitted.withTxe, rfl, rfl⟩
    · exact ⟨hadmitted, rfl, rfl⟩
  obtain ⟨y, hy, hstarted, hpbk, hnv⟩ := hfirst
  have hwaits := waits_finalTxe k s st
  obtain ⟨hpump, hpbk1, hnv1⟩ := started_pumpPaths hstarted
  have hsecond : Machine.transferStep (pumpPaths y) = pumpPaths y := by
    refine (hpump.transferStep hwaits).trans (if_neg ?_)
    rintro ⟨hupload, hnone⟩
    rw [finalTxe] at hupload
    split at hupload
    · exact absurd hupload (by simp [downloadTxe])
    case isFalse hno => exact hno ⟨hupload, hnone⟩
  obtain ⟨hpump2, hpbk2, hnv2⟩ := started_pumpPaths hpump
  obtain ⟨hend, hpbk3, hnv3⟩ := started_hostPump hpump2
  have hfinish : Machine.finish v = hostPump (pumpPaths (pumpPaths y)) := by
    rw [Machine.finish, react_of_running h.running hu, hy, hsecond, hpump2.settleBatch hwaits, hpump2.testQuiet hwaits]
  rw [hfinish]
  exact ⟨hend, _, ha, by rw [hpbk3, hpbk2, hpbk1, hpbk], by rw [hnv3, hnv2, hnv1, hnv]⟩

end Started

end Sys2Proof.Proofs
end

