-- ==== Sys2Proof/Proofs/StartSlots.lean ====
section
/-! PROOFS. The slots that a start-up rebuilds (R19, R22), and what every start-up leaves (R177 to R179). -/

namespace Sys2Proof.Proofs

open Sys2Proof.Machine Sys2Proof.Safety Sys2Proof.Laws

/-! ## The rebuilt slots take effect at once where no label is outstanding (R19, R22) -/

section Rebuilt

variable {s v : State} {x : Slot} {i c : Nat}

/-- The item codes of the slots. -/
def heldCodes (s : State) : List (Option Nat) := s.pbk.slots.map (Option.map (·.item))

theorem slotOf_eq_findIdx? (s : State) (c : Nat) : slotOf s c = (heldCodes s).findIdx? (· == some c) := by
  rw [slotOf, heldCodes, List.findIdx?_map]
  refine congrArg (fun p => s.pbk.slots.findIdx? p) (funext fun y => ?_)
  cases y <;> simp

theorem item_of_slotOf (hi : slotOf s c = some i) (hx : slotAt s i = some x) : x.item = c := by
  rw [slotOf_eq_findIdx?] at hi
  obtain ⟨hlt, hcode, -⟩ := List.findIdx?_eq_some_iff_getElem.1 hi
  obtain ⟨_, hget⟩ := List.getElem?_eq_some_iff.1 (slotAt_eq_some.1 hx)
  simp only [heldCodes, List.getElem_map, hget] at hcode
  simpa using hcode

/-- The effect of a slot's change begun: its stage, and the write under way. -/
def effectBegun (c i : Nat) (x : Slot) (v : State) : State :=
  { v with
    nv := v.nv ++ [.effect c]
    pbk := { v.pbk with slots := v.pbk.slots.set i (some { x with stage := .effecting }) } }

theorem heldCodes_effectBegun (hx : slotAt v i = some x) : heldCodes (effectBegun c i x v) = heldCodes v := by
  obtain ⟨hlt, hget⟩ := List.getElem?_eq_some_iff.1 (slotAt_eq_some.1 hx)
  have hcode : some x.item = (heldCodes v)[i]'(by rwa [heldCodes, List.length_map]) := by simp [heldCodes, hget]
  rw [heldCodes, effectBegun, List.map_set]
  show (heldCodes v).set i (some x.item) = heldCodes v
  rw [hcode, List.set_getElem_self]

theorem slotAt_effectBegun_same (hx : slotAt v i = some x) : slotAt (effectBegun c i x v) i = some { x with stage := .effecting } :=
  slotAt_set_same (v := { v with nv := v.nv ++ [.effect c] }) hx rfl

theorem slotAt_effectBegun_other {j : Nat} (hij : i ≠ j) : slotAt (effectBegun c i x v) j = slotAt v j :=
  congrArg (fun o : Option (Option Slot) => o.getD none) (List.getElem?_set_ne hij)

theorem mem_nv_effectBegun : .effect c ∈ (effectBegun c i x v).nv := List.mem_append_right _ (List.mem_singleton.2 rfl)

/-- No write of a pending part is under way, and writes may start: as at a start-up. -/
structure Rebuilding (codes : List (Option Nat)) (v : State) : Prop where
  codes : heldCodes v = codes
  pending : ∀ c, pendingUnderWay v c = false
  writes : writesStopped v = false

/-- A rebuilt slot, before or after its effect has begun. -/
def SlotHeld (x : Slot) (i : Nat) (v : State) : Prop :=
  slotAt v i = some { x with stage := .labelling } ∨
    slotAt v i = some { x with stage := .effecting } ∧ x.outstanding = [] ∧ .effect x.item ∈ v.nv

/-- The check of a code in a state of the rebuilding: nothing, or the start of the code's effect. -/
theorem checkEffect_cases {codes : List (Option Nat)} (hv : Rebuilding codes v) (c : Nat) :
    checkEffect c v = v ∧ (∀ i y, slotOf v c = some i → slotAt v i = some y → y.stage ≠ .labelling ∨ y.outstanding ≠ []) ∨
      ∃ j y, slotOf v c = some j ∧ slotAt v j = some y ∧ y.stage = .labelling ∧ y.outstanding = [] ∧
        checkEffect c v = effectBegun c j y v := by
  cases hj : slotOf v c with
  | none => exact .inl ⟨checkEffect_of_none hj, nofun⟩
  | some j =>
    cases hy : slotAt v j with
    | none =>
      refine .inl ⟨by simp only [checkEffect, hj, hy], ?_⟩
      rintro i y hi
      rw [← Option.some.inj hi, hy]
      nofun
    | some y =>
      by_cases hdue : y.stage = .labelling ∧ y.outstanding = []
      · obtain ⟨hstage, hempty⟩ := hdue
        exact .inr ⟨j, y, rfl, hy, hstage, hempty, checkEffect_of_empty hj hy hstage hempty (hv.pending c) hv.writes⟩
      · have hnot := Decidable.not_and_iff_or_not.1 hdue
        refine .inl ⟨checkEffect_of_other hj hy (hnot.imp_right .inl), ?_⟩
        rintro i z hi hz
        rw [← Option.some.inj hi, hy] at hz
        rw [← Option.some.inj hz]
        exact hnot

theorem rebuilding_checkEffect {codes : List (Option Nat)} (hv : Rebuilding codes v) (c : Nat) : Rebuilding codes (checkEffect c v) := by
  rcases checkEffect_cases hv c with ⟨heq, -⟩ | ⟨j, y, -, hy, -, -, heq⟩
  · rwa [heq]
  · rw [heq]
    refine ⟨(heldCodes_effectBegun hy).trans hv.codes, fun d => ?_, hv.writes⟩
    have hbefore := hv.pending d
    simpa [pendingUnderWay, effectBegun] using hbefore

theorem slotHeld_checkEffect {codes : List (Option Nat)} (hv : Rebuilding codes v) (hx : SlotHeld x i v) (c : Nat) :
    SlotHeld x i (checkEffect c v) := by
  rcases checkEffect_cases hv c with ⟨heq, -⟩ | ⟨j, y, hj, hy, hstage, hempty, heq⟩
  · rwa [heq]
  · rw [heq]
    by_cases hij : j = i
    · subst hij
      have hlabelling : y = { x with stage := .labelling } := by
        rcases hx with hslot | ⟨hslot, -⟩
        · exact Option.some.inj (hy.symm.trans hslot)
        · rw [Option.some.inj (hy.symm.trans hslot)] at hstage
          exact absurd hstage (by simp)
      have hcode : x.item = c := by
        have hitem := item_of_slotOf hj hy
        rwa [hlabelling] at hitem
      refine .inr ⟨(slotAt_effectBegun_same hy).trans (by rw [hlabelling]), by rwa [hlabelling] at hempty, ?_⟩
      rw [hcode]
      exact mem_nv_effectBegun
    · rw [SlotHeld, slotAt_effectBegun_other hij]
      exact hx.imp_right fun ⟨hslot, hnone, hmem⟩ => ⟨hslot, hnone, List.mem_append_left _ hmem⟩

/-- Once checked, a slot whose set is empty has its effect under way. -/
theorem slotEffecting_checkEffect {codes : List (Option Nat)} (hv : Rebuilding codes v) (hx : SlotHeld x i v)
    (hi : slotOf v x.item = some i) (hempty : x.outstanding = []) : slotAt (checkEffect x.item v) i = some { x with stage := .effecting } := by
  rcases checkEffect_cases hv x.item with ⟨heq, hno⟩ | ⟨j, y, hj, hy, -, -, heq⟩
  · rw [heq]
    rcases hx with hslot | ⟨hslot, -⟩
    · exact absurd (hno i _ hi hslot) (by simp [hempty])
    · exact hslot
  · obtain rfl : i = j := Option.some.inj (hi.symm.trans hj)
    have hsame : ({ y with stage := .effecting } : Slot) = { x with stage := .effecting } := by
      rcases hx with hslot | ⟨hslot, -⟩ <;> rw [Option.some.inj (hy.symm.trans hslot)]
    rw [heq]
    exact (slotAt_effectBegun_same hy).trans (by rw [hsame])

/-- A slot whose effect is under way is not touched. -/
theorem slotEffecting_kept {codes : List (Option Nat)} (hv : Rebuilding codes v)
    (hslot : slotAt v i = some { x with stage := .effecting }) (c : Nat) :
    slotAt (checkEffect c v) i = some { x with stage := .effecting } := by
  rcases checkEffect_cases hv c with ⟨heq, -⟩ | ⟨j, y, -, hy, hstage, -, heq⟩
  · rwa [heq]
  · have hij : j ≠ i := by
      rintro rfl
      rw [Option.some.inj (hy.symm.trans hslot)] at hstage
      exact absurd hstage (by simp)
    rw [heq]
    exact (slotAt_effectBegun_other hij).trans hslot

/-- All the checks of a rebuilding: a slot whose set is empty has its effect under way once its own check has been made. -/
theorem rebuilding_foldl {codes : List (Option Nat)} (hv : Rebuilding codes v) (hx : SlotHeld x i v) (l : List Slot) :
    SlotHeld x i (l.foldl (fun u y => checkEffect y.item u) v) ∧
      (codes.findIdx? (· == some x.item) = some i → x.outstanding = [] →
        x ∈ l ∨ slotAt v i = some { x with stage := .effecting } →
        slotAt (l.foldl (fun u y => checkEffect y.item u) v) i = some { x with stage := .effecting }) := by
  induction l generalizing v with
  | nil => exact ⟨hx, fun _ _ h => h.resolve_left (List.not_mem_nil)⟩
  | cons y l ih =>
    have hnext := rebuilding_checkEffect hv y.item
    obtain ⟨hheld, heffect⟩ := ih hnext (slotHeld_checkEffect hv hx y.item)
    refine ⟨hheld, fun hi hempty h => heffect hi hempty ?_⟩
    rcases h with hmem | hslot
    · rcases List.mem_cons.1 hmem with rfl | hlater
      · refine .inr (slotEffecting_checkEffect hv hx ?_ hempty)
        rwa [slotOf_eq_findIdx?, hv.codes]
      · exact .inl hlater
    · exact .inr (slotEffecting_kept hv hslot y.item)

/-- A pending part's slot is the one of its place among the entries that have one. -/
theorem filterMap_pending_getElem? (f : Item → Pending → Slot) {l : List Item} {e : Item} {p : Pending}
    (he : (l.filter (·.pending.isSome))[i]? = some e) (hp : e.pending = some p) :
    (l.filterMap fun y => y.pending.map (f y))[i]? = some (f e p) := by
  induction l generalizing i with
  | nil => simp at he
  | cons y l ih =>
    cases hy : y.pending with
    | none =>
      rw [List.filter_cons_of_neg (by simp [hy])] at he
      rw [List.filterMap_cons_none (by simp [hy])]
      exact ih he
    | some q =>
      rw [List.filter_cons_of_pos (by simp [hy])] at he
      rw [List.filterMap_cons_some (b := f y q) (by simp [hy])]
      cases i with
      | zero =>
        obtain rfl : y = e := Option.some.inj he
        rw [Option.some.inj (hp.symm.trans hy)]
        rfl
      | succ i => exact ih he

theorem rebuiltSlots_length (s : State) : (rebuiltSlots s).length = s.pbk.items.countP (·.pending.isSome) := by
  rw [rebuiltSlots]
  induction s.pbk.items with
  | nil => rfl
  | cons y l ih => cases hy : y.pending <;> simp [hy, ih]

theorem rebuiltSlots_codes (s : State) : (rebuiltSlots s).map (·.item) = (s.pbk.items.filter (·.pending.isSome)).map (·.code) := by
  rw [rebuiltSlots]
  induction s.pbk.items with
  | nil => rfl
  | cons y l ih => cases hy : y.pending <;> simp [hy, ih, rebuiltSlot]

/-- The slots as a rebuilding first fills them. -/
def filledSlots (l : List Slot) : List (Option Slot) := (l.map some ++ List.replicate 32 none).take 32

theorem filledSlots_getElem? {l : List Slot} (hlt : i < 32) (hx : l[i]? = some x) : (filledSlots l)[i]? = some (some x) := by
  have hlen : i < (l.map some).length := by
    rw [List.length_map]
    exact (List.getElem?_eq_some_iff.1 hx).1
  rw [filledSlots, List.getElem?_take_of_lt hlt, List.getElem?_append_left hlen, List.getElem?_map, hx]
  rfl

/-- With codes that are not shared, a rebuilt slot is the one of its code. -/
theorem findIdx?_filledSlots {l : List Slot} (hlt : i < 32) (hx : l[i]? = some x) (hcodes : (l.map (·.item)).Nodup) :
    ((filledSlots l).map (Option.map (·.item))).findIdx? (· == some x.item) = some i := by
  have hcode : ∀ j y, j < 32 → l[j]? = some y → ((filledSlots l).map (Option.map (·.item)))[j]? = some (some y.item) := fun j y hj hy => by
    rw [List.getElem?_map, filledSlots_getElem? hj hy]
    rfl
  obtain ⟨hlen, hget⟩ := List.getElem?_eq_some_iff.1 (hcode i x hlt hx)
  refine List.findIdx?_eq_some_iff_getElem.2 ⟨hlen, by simp [hget], fun j hj => ?_⟩
  have hjl : j < l.length := Nat.lt_trans hj (List.getElem?_eq_some_iff.1 hx).1
  obtain ⟨_, hgetj⟩ := List.getElem?_eq_some_iff.1 (hcode j l[j] (Nat.lt_trans hj hlt) (List.getElem?_eq_getElem hjl))
  rw [hgetj]
  intro hsame
  obtain ⟨hil, hxi⟩ := List.getElem?_eq_some_iff.1 hx
  have hitem : l[j].item = l[i].item := by simpa [hxi] using hsame
  refine List.pairwise_iff_getElem.1 hcodes j i (by rwa [List.length_map]) (by rwa [List.length_map]) hj ?_
  rw [List.getElem_map, List.getElem_map, hitem]

/-- A rebuilt slot among the first 32, after all the checks; with codes that are not shared, one whose set is empty has its effect under way
(R19, R22). -/
theorem rebuildSlots_slot (hlt : i < 32) (hx : (rebuiltSlots s)[i]? = some x) (hnv : s.nv = []) (hwrites : writesStopped s = false) :
    SlotHeld x i (rebuildSlots s) ∧ (((rebuiltSlots s).map (·.item)).Nodup → x.outstanding = [] →
      slotAt (rebuildSlots s) i = some { x with stage := .effecting }) := by
  have hstage : x = { x with stage := .labelling } := by
    obtain ⟨e, -, hmade⟩ := List.mem_filterMap.1 (List.mem_of_getElem? hx)
    obtain ⟨p, -, rfl⟩ := Option.map_eq_some_iff.1 hmade
    rfl
  have hfilled : slotAt { s with pbk := { s.pbk with slots := filledSlots (rebuiltSlots s) } } i = some x :=
    slotAt_eq_some.2 (filledSlots_getElem? hlt hx)
  have hrebuilding : Rebuilding ((filledSlots (rebuiltSlots s)).map (Option.map (·.item)))
      { s with pbk := { s.pbk with slots := filledSlots (rebuiltSlots s) } } :=
    ⟨rfl, fun c => by rw [pendingUnderWay, hnv]; rfl, hwrites⟩
  obtain ⟨hheld, heffect⟩ := rebuilding_foldl hrebuilding (.inl (hfilled.trans (congrArg some hstage))) (rebuiltSlots s)
  exact ⟨hheld, fun hcodes hempty => heffect (findIdx?_filledSlots hlt hx hcodes) hempty (.inl (List.mem_of_getElem? hx))⟩

end Rebuilt

/-! ## The whole start-up (R178, R179) -/

section StartUp

variable {k : ResetCause} {s t : State} {st : StoreState} {b : NoticeBody}

/-- The clock as a start-up leaves it. -/
def startClock (k : ResetCause) (s : State) : Option Nat := (freshDay k s.day).clock

/-- The store state a start-up chooses. -/
def startStore (k : ResetCause) (s : State) : StoreState := scheduleState s.settings (startClock k s)

/-- The START notice of a start-up (R179). -/
def startBody (k : ResetCause) (s : State) : NoticeBody :=
  .start k (startClock k s) (startStore k s) (startStore k s == .night && (startClock k s).isSome) s.sjr.records.length
    (s.pbk.items.countP (·.pending.isSome)) s.day.lines

theorem startTxe_upload (k : ResetCause) (s : State) (st : StoreState) :
    ((startTxe k s st).run.state == .upload) = (st == .night && (startClock k s).isSome) := by
  rw [startTxe, startClock]
  cases (freshDay k s.day).clock with
  | none => simp [freshTxe, resetRun]
  | some c =>
    by_cases hst : st = .night
    · subst hst
      rfl
    · have hnight : (st == .night) = false := beq_eq_false_iff_ne.2 hst
      show ((if st = .night then { freshTxe with run := startedRun c } else freshTxe).run.state == .upload) = _
      rw [if_neg hst, hnight]
      rfl

theorem startNotice_of_begun {v : State} (h : Begun k s st v) : startNotice k (rebuiltSlots (freshState k s)).length v =
    .start k (startClock k s) st (st == .night && (startClock k s).isSome) s.sjr.records.length
      (s.pbk.items.countP (·.pending.isSome)) s.day.lines := by
  obtain ⟨q, hday⟩ := h.day
  have hheld : v.sjr.held = s.sjr.records.length := by
    rw [h.sjr]
    exact List.length_map _
  rw [startNotice, h.txe, startTxe_upload, hheld, rebuiltSlots_length, hday]
  rfl

/-- What a start-up leaves, and that the slots rebuilt and their effects stand to its end. -/
theorem startUp_started (k : ResetCause) (s : State) :
    Started k s (startStore k s) (startBody k s) (finalTxe k s (startStore k s)) (startUp k s) ∧
      (∀ i y, slotAt (rebuildSlots (freshState k s)) i = some y → slotAt (startUp k s) i = some y) ∧
      ∀ w ∈ (rebuildSlots (freshState k s)).nv, w ∈ (startUp k s).nv := by
  have hreset := reset_rebuildSlots k s
  have hchosen : scheduleState (rebuildSlots (freshState k s)).settings (rebuildSlots (freshState k s)).day.clock = startStore k s := by
    rw [hreset.settings, hreset.day]
    rfl
  obtain ⟨hbegun, hpbk, hnv⟩ := begun_enterChosen (st := startStore k s) hreset (scheduleState_cases s.settings (startClock k s))
  obtain ⟨u, hu, hpbk', hnv', hstarted⟩ := hbegun.started (startBody k s)
  obtain ⟨hend, w, hadmitted, hpbkEnd, hnvEnd⟩ := hstarted.finish
  have hstart : startUp k s = finish u := by
    rw [← hu, startUp, hchosen, startNotice_of_begun hbegun]
    rfl
  have hslots : ∀ i, slotAt u i = slotAt (rebuildSlots (freshState k s)) i := fun i => by
    rw [slotAt, hpbk', hpbk]
    rfl
  rw [hstart]
  refine ⟨hend, fun i y hy => ?_, fun x hx => ?_⟩
  · rw [slotAt, hpbkEnd]
    exact hadmitted.slots i y ((hslots i).trans hy)
  · rw [hnvEnd]
    exact hadmitted.writes x (by rwa [hnv', hnv])

/-- Settles O9: a start-up keeps what stands in the NV store. -/
theorem resetsKeepTheNvStore : Obligations.ResetsKeepTheNvStore := by
  unfold Obligations.ResetsKeepTheNvStore
  intro k s _
  obtain ⟨h, -, -⟩ := startUp_started k s
  refine ⟨h.settings, h.identity, h.items, h.queue, h.counter, ?_, ?_, ?_⟩
  · rw [h.sjr]
    rfl
  · rw [h.sjr]
    rfl
  · rw [h.lrs]
    rfl

/-- The ACTIVE labels of an item after a reset (R12, R24). -/
theorem labelsOf_freshState (k : ResetCause) (s : State) (c : Nat) : (labelsOf (freshState k s) c).filter (fun y => y.state == .active) =
    (s.lrs.labels.filter fun y => y.item == some c && y.state == .active).map freshLabel := by
  have hactive : ∀ y : Label, (y.state == .active && y.item == some c && freshLabel y != blankLabel y.id) =
      (y.item == some c && y.state == .active) := fun y => by
    by_cases hstate : y.state = .active
    · have hblank : (freshLabel y != blankLabel y.id) = true := by
        rw [bne_iff_ne]
        intro hsame
        have hunbound : LabelState.active = .unbound := hstate.symm.trans (congrArg Label.state hsame)
        exact absurd hunbound (by decide)
      simp [hstate, hblank]
    · have hother : (y.state == .active) = false := beq_eq_false_iff_ne.2 hstate
      rw [hother, Bool.and_false, Bool.false_and, Bool.false_and]
  have hlabels : (freshState k s).lrs.labels = (s.lrs.labels.map freshLabel).filter fun x => x != blankLabel x.id := rfl
  rw [labelsOf, hlabels, List.filter_filter, List.filter_filter, List.filter_map]
  exact congrArg (List.map freshLabel) (List.filter_congr fun y _ => hactive y)

/-- The slot of a pending part, as a start-up rebuilds it (R22). -/
theorem rebuiltSlot_freshState (k : ResetCause) (s : State) (e : Item) (p : Pending) {l : List Label}
    (hl : s.lrs.labels.filter (fun y => y.item == some e.code && y.state == .active) = l) : rebuiltSlot (freshState k s) e p =
      { number := p.number, item := e.code, price := p.price, origin := p.origin, urgent := p.urgent
        outstanding := (l.filter fun y => y.confirmed != some p.price).map (·.id), issueTime := (startClock k s).getD 0
        confirmed := l.countP fun y => y.confirmed == some p.price, unreachable := 0, stage := .labelling } := by
  rw [rebuiltSlot, labelsOf_freshState, hl, List.filter_map, List.map_map, List.countP_map]
  rfl

/-- The slots after a start-up (R19, R22). -/
theorem startUp_slot {i : Nat} {e : Item} {p : Pending} (hlt : i < 32) (he : (s.pbk.items.filter (·.pending.isSome))[i]? = some e)
    (hp : e.pending = some p) : ∃ g, slotAt (startUp k s) i = some { rebuiltSlot (freshState k s) e p with stage := g } ∧
      ((rebuiltSlot (freshState k s) e p).outstanding ≠ [] → g = .labelling) ∧
      ((rebuiltSlot (freshState k s) e p).outstanding = [] → TablesKeyed s → g = .effecting ∧ .effect e.code ∈ (startUp k s).nv) := by
  obtain ⟨-, hslots, hwrites⟩ := startUp_started k s
  have hx : (rebuiltSlots (freshState k s))[i]? = some (rebuiltSlot (freshState k s) e p) :=
    filterMap_pending_getElem? (rebuiltSlot (freshState k s)) he hp
  obtain ⟨hheld, heffect⟩ := rebuildSlots_slot hlt hx rfl rfl
  have hcodes : TablesKeyed s → ((rebuiltSlots (freshState k s)).map (·.item)).Nodup := fun hs => by
    rw [rebuiltSlots_codes]
    exact (hs.items.imp Nat.ne_of_lt).sublist (List.filter_sublist.map _)
  rcases hheld with hslot | ⟨hslot, hempty, hmem⟩
  · refine ⟨.labelling, hslots i _ hslot, fun _ => rfl, fun hempty hs => ?_⟩
    have hboth := hslot.symm.trans (heffect (hcodes hs) hempty)
    exact absurd (congrArg Slot.stage (Option.some.inj hboth)) (by simp)
  · exact ⟨.effecting, hslots i _ hslot, fun hne => absurd hempty hne, fun _ _ => ⟨rfl, hwrites _ hmem⟩⟩

end StartUp

end Sys2Proof.Proofs
end

