-- ==== Sys2Proof/Proofs/Stops.lean ====
section
/-! PROOFS. HOLD, the reset line, power and the host reset (R176, R177, R194), and the statement about every start-up (R178, R179). -/

namespace Sys2Proof.Proofs

open Sys2Proof.Machine Sys2Proof.Safety Sys2Proof.Laws

section StartUpLeaves

variable {k : ResetCause} {s t v : State} {st : StoreState} {b : NoticeBody} {x : Txe} {c m : Nat}

theorem startClock_of_unset (hk : k = .powerOn ∨ k = .holdExit) : startClock k s = none := by
  rcases hk with rfl | rfl <;> rfl

theorem startClock_of_kept (hpower : k ≠ .powerOn) (hhold : k ≠ .holdExit) : startClock k s = s.day.clock := by
  cases k with
  | powerOn => exact absurd rfl hpower
  | holdExit => exact absurd rfl hhold
  | _ => rfl

/-! ## The store state by the schedule (R178) -/

theorem startStore_of_unset (hclock : startClock k s = none) : startStore k s = .night := by
  rw [startStore, hclock]
  rfl

theorem startStore_of_clock (hclock : startClock k s = some c) (hm : c / 60 % 1440 = m) : startStore k s =
    if tradingDay s.settings c = true ∧ s.settings.nat .openTime - s.settings.nat .openingLead ≤ m ∧ m < s.settings.nat .openTime then .opening
    else if tradingDay s.settings c = true ∧ s.settings.nat .openTime ≤ m ∧ m < s.settings.nat .closeTime then .opened
    else .night := by
  subst hm
  rw [startStore, hclock, scheduleState, inLeadWindow]
  simp only [Bool.and_eq_true, decide_eq_true_eq, and_assoc]
  rfl

/-! ## The components (R46, R107, R131, R141, R149, R179, R195) -/

theorem Started.greeted (h : Started k s st b x v) (p : Path) :
    Greeted (match p with | .primary => s.ulc.carrierPrimary | .backup => s.ulc.carrierBackup) (v.ulc.path p) := by
  obtain ⟨r1, r2, hr1, hr2, hulc⟩ := h.ulc
  rw [hulc]
  cases p
  · exact hr1
  · exact hr2

theorem Greeted.facts {carrier : Bool} {r : PathRec} (h : Greeted carrier r) :
    r.session = none ∧ r.credits = none ∧ r.probes = [] ∧ r.degraded = false ∧ r.carrier = carrier ∧
      (r.carrier = true → r.state = .helloWait) ∧ (r.carrier = false → r.state = .down) := by
  obtain ⟨tx, control, e, rfl⟩ := h
  exact ⟨rfl, rfl, rfl, rfl, rfl, fun hc => if_pos hc, fun hc => if_neg (Bool.eq_false_iff.1 hc)⟩

theorem startTxe_of_no_run (hno : st ≠ .night ∨ startClock k s = none) : finalTxe k s st = freshTxe := by
  have hfresh : startTxe k s st = freshTxe := by
    rcases hno with hother | hunset
    · exact startTxe_of_other hother
    · rw [startTxe, show (freshDay k s.day).clock = none from hunset]
  rw [finalTxe, hfresh]
  exact if_neg (by simp [freshTxe, resetRun])

theorem startTxe_of_run (hclock : startClock k s = some c) : startTxe k s .night = { freshTxe with run := startedRun c } := by
  rw [startTxe, show (freshDay k s.day).clock = some c from hclock]
  rfl

theorem finalTxe_of_records (hclock : startClock k s = some c) (hheld : s.sjr.records ≠ []) :
    finalTxe k s .night = { freshTxe with run := startedRun c } := by
  rw [finalTxe, startTxe_of_run hclock]
  exact if_neg fun h => hheld (List.length_eq_zero_iff.1 h.2)

theorem finalTxe_of_empty (hclock : startClock k s = some c) (hnone : s.sjr.records = []) :
    finalTxe k s .night = downloadTxe { freshTxe with run := startedRun c } := by
  rw [finalTxe, startTxe_of_run hclock, hnone]
  exact if_pos ⟨rfl, rfl⟩

/-- What of the transfer engine is the same in every start-up. -/
theorem finalTxe_cleared (k : ResetCause) (s : State) (st : StoreState) :
    (finalTxe k s st).batch = none ∧ (finalTxe k s st).nextBatch = 0 ∧ (finalTxe k s st).pieceNumber = 0 ∧
      (finalTxe k s st).pauseEnd = none ∧ (finalTxe k s st).counts = { aborts := 0, lateAcks := 0, latePieces := 0 } := by
  have hstart : ∃ r, startTxe k s st = { freshTxe with run := r } := by
    unfold startTxe
    split
    · split
      · exact ⟨_, rfl⟩
      · exact ⟨_, rfl⟩
    · exact ⟨_, rfl⟩
  obtain ⟨r, hr⟩ := hstart
  rw [finalTxe, hr]
  split <;> exact ⟨rfl, rfl, rfl, rfl, rfl⟩

theorem Started.link (h : Started k s st b x v) :
    v.hlk.lock = false ∧ v.hlk.notices.head? = some { number := 1, overrun := false, body := b } ∧ v.hlk.requests = [] ∧
      v.hlk.replies = [] ∧ v.hlk.standalone = none ∧ v.hlk.standaloneOverrun = false ∧ v.hlk.overrun = false ∧
      v.hlk.frameErrors = 0 ∧ v.hlk.officeDrops = 0 ∧ v.hlk.resetPhase = .none ∧ v.hlk.rx.bytes = [] ∧
      v.hlk.silenceAt =
        (if s.settings.nat .silenceLimit = 0 then none else some (1000 * s.settings.nat .silenceLimit)) := by
  obtain ⟨l, n, tx, a, hhlk⟩ := h.hlk
  rw [hhlk]
  exact ⟨rfl, rfl, rfl, rfl, rfl, rfl, rfl, rfl, rfl, rfl, rfl, rfl⟩

theorem Started.radio (h : Started k s st b x v) :
    v.lrs.radio = .settling ∧ v.lrs.settleEnd = some (s.settings.nat .settleTime) ∧ v.lrs.cursor = 0 ∧ v.lrs.cycles = 0 ∧
      v.lrs.txCount = 0 ∧ v.lrs.inFlight = none ∧ v.lrs.burst = none ∧ v.lrs.waitingBurst = none ∧ v.lrs.nextBeacon = none ∧
      v.lrs.errors = 0 := by
  rw [h.lrs]
  exact ⟨rfl, rfl, rfl, rfl, rfl, rfl, rfl, rfl, rfl, rfl⟩

theorem Started.journal (h : Started k s st b x v) :
    v.sjr.level = levelReached s.sjr.records.length ∧ v.sjr.exposure = exposureOf s.sjr.records ∧
      v.sjr.unsent = s.sjr.records.length ∧ v.sjr.claims = List.replicate 16 0 ∧ v.sjr.queue = [] ∧ v.sjr.writing = none ∧
      v.sjr.removing = none ∧ v.sjr.removals = [] := by
  rw [h.sjr]
  refine ⟨?_, exposureOf_map (f := fun r => { r with sent := none }) (fun _ => rfl) _, List.length_map _, rfl, rfl, rfl, rfl, rfl⟩
  exact congrArg levelReached (List.length_map _)

theorem Started.uplink (h : Started k s st b x v) :
    v.ulc.active = none ∧ v.ulc.sessions = 0 ∧ (∀ c, v.ulc.queue c = []) ∧ v.ulc.waits = [] ∧ v.ulc.lastForward = 0 := by
  obtain ⟨r1, r2, -, -, hulc⟩ := h.ulc
  rw [hulc]
  exact ⟨rfl, rfl, fun c => by cases c <;> rfl, rfl, rfl⟩

theorem Started.dayOf (h : Started k s st b x v) :
    v.day.cause = k ∧ v.running = true ∧ v.day.stopped = none ∧ v.day.clock = startClock k s ∧ v.day.store = st ∧
      v.day.power = .run := by
  obtain ⟨q, hday⟩ := h.day
  refine ⟨?_, h.running, ?_, ?_, ?_, ?_⟩ <;> rw [hday] <;> rfl

end StartUpLeaves

/-! ## Stops and releases (R176, R177, R194) -/

section Stops

variable {s u : State} {k : ResetCause}

theorem restartIfFree_of_held (h : s.day.holdLine = true ∨ s.day.resetLine = true ∨ s.day.powered = false ∨ s.day.stopped = none) :
    restartIfFree s = s := by
  unfold restartIfFree
  split
  · rfl
  case isFalse hfree =>
    have hnone : s.day.stopped = none := by
      rcases h with h | h | h | h <;> simp_all
    rw [hnone]

theorem restartIfFree_of_free (hhold : s.day.holdLine = false) (hreset : s.day.resetLine = false) (hpower : s.day.powered = true)
    (hstopped : s.day.stopped = some k) : restartIfFree s = startUp k s := by
  rw [restartIfFree, if_neg (by simp [hhold, hreset, hpower]), hstopped]

theorem hostResetDue_iff (s : State) : hostResetDue s = true ↔
    s.running = true ∧ s.hlk.resetPhase = .sent ∧ s.nv = [] ∧ s.pbk.ops = [] ∧ s.sjr.writing = none ∧ s.sjr.removing = none := by
  simp [hostResetDue, writesDone, and_assoc]

theorem hostReset_mem_dueCommands (s : State) : .hostReset ∈ dueCommands s ↔ hostResetDue s = true := by
  rw [mem_dueCommands_of_not_day (by decide)]
  simp [mem_dueTicks, mem_dueRadioHost, mem_dueTills, mem_dueRetries, mem_dueProbe, mem_dueTransfer, mem_dueGuests]

theorem holdReleased_cases (hu : { s with day := { s.day with holdLine := false } } = u) :
    (s.day.holdLine = false → exec .holdExit s = .next s) ∧
    (s.day.holdLine = true → s.day.resetLine = true ∨ s.day.powered = false ∨ s.day.stopped = none →
      exec .holdExit s = .next u) ∧
    (∀ k, s.day.holdLine = true → s.day.resetLine = false → s.day.powered = true → s.day.stopped = some k →
      exec .holdExit s = .next (startUp k u)) := by
  subst hu
  refine ⟨fun hoff => congrArg Host.Outcome.next (if_neg (by simp [hoff])), fun hon hheld => ?_, fun k hon hreset hpower hstopped => ?_⟩
  · exact congrArg Host.Outcome.next ((if_pos hon).trans (restartIfFree_of_held (.inr hheld)))
  · exact congrArg Host.Outcome.next ((if_pos hon).trans (restartIfFree_of_free rfl hreset hpower hstopped))

theorem resetReleased_cases (hu : { s with day := { s.day with resetLine := false } } = u) :
    (s.day.resetLine = false → exec .resetLineRelease s = .next s) ∧
    (s.day.resetLine = true → s.day.holdLine = true ∨ s.day.powered = false ∨ s.day.stopped = none →
      exec .resetLineRelease s = .next u) ∧
    (∀ k, s.day.resetLine = true → s.day.holdLine = false → s.day.powered = true → s.day.stopped = some k →
      exec .resetLineRelease s = .next (startUp k u)) := by
  subst hu
  refine ⟨fun hoff => congrArg Host.Outcome.next (if_neg (by simp [hoff])), fun hon hheld => ?_, fun k hon hhold hpower hstopped => ?_⟩
  · exact congrArg Host.Outcome.next ((if_pos hon).trans (restartIfFree_of_held (hheld.imp_right .inr)))
  · exact congrArg Host.Outcome.next ((if_pos hon).trans (restartIfFree_of_free hhold rfl hpower hstopped))

end Stops

/-- Settles O59: the stops and releases by the lines and the power, and what a start-up leaves by `Started`. -/
theorem stopsAndResets : Obligations.StopsAndResets := by
  unfold Obligations.StopsAndResets
  refine ⟨fun s => ⟨fun hoff => congrArg Host.Outcome.next (if_pos hoff), fun k hon hk => ?_, fun hrun k hk => ?_,
    fun hstop => congrArg Host.Outcome.next (if_neg (by simp [hstop])), fun u => holdReleased_cases, fun u => resetReleased_cases,
    fun u hu => ⟨fun hheld => ?_, fun hhold hreset => ?_⟩, rfl,
    fun hdue => congrArg Host.Outcome.next (if_pos hdue), fun hno => congrArg Host.Outcome.next (if_neg (by simp [hno])),
    hostReset_mem_dueCommands s, hostResetDue_iff s⟩, fun k s t ht => ?_⟩
  · subst hk
    exact congrArg Host.Outcome.next (if_neg (by simp [hon]))
  · subst hk
    exact congrArg Host.Outcome.next (if_pos hrun)
  · subst hu
    exact congrArg Host.Outcome.next (restartIfFree_of_held (hheld.imp_right .inl))
  · subst hu
    exact congrArg Host.Outcome.next (restartIfFree_of_free hhold hreset rfl rfl)
  · subst ht
    obtain ⟨h, -, -⟩ := startUp_started k s
    obtain ⟨hcause, hrun, hstopped, hclock, hstore, hpower⟩ := h.dayOf
    obtain ⟨hlock, hnotice, hrequests, hreplies, hstandalone, hsoverrun, hoverrun, hframes, hdrops, hphase, hrx, hsilence⟩ := h.link
    obtain ⟨hradio, hsettle, hcursor, hcycles, htx, hflight, hburst, hwburst, hbeacon, herrors⟩ := h.radio
    obtain ⟨hlevel, hexposure, hunsent, hclaims, hqueue, hwriting, hremoving, hremovals⟩ := h.journal
    obtain ⟨hactive, hsessions, hqueues, hwaits, hforward⟩ := h.uplink
    obtain ⟨hbatch, hnext, hpiece, hpause, hcounts⟩ := finalTxe_cleared k s (startStore k s)
    rw [← h.txe] at hbatch hnext hpiece hpause hcounts
    rw [hclock, hstore]
    refine ⟨hcause, hrun, hstopped, hlock, h.timer, startClock_of_unset, startClock_of_kept, hnotice, hrequests, hreplies,
      hstandalone, hsoverrun, hoverrun, hframes, hdrops, hphase, hrx, hsilence, hradio, hsettle, hcursor, hcycles, htx, hflight,
      hburst, hwburst, hbeacon, herrors, h.drops, fun i e p l hlt he hp hl => ?_, h.tsu, h.auz, hlevel, hexposure, hunsent, hclaims,
      hqueue, hwriting, hremoving, hremovals, h.gac, hactive, hsessions, hqueues, hwaits, hforward, fun p => (h.greeted p).facts,
      hbatch, hnext, hpiece, hpause, hcounts, fun hno => ?_, fun c hnight hc => ⟨fun hheld => ?_, fun hnone => ?_⟩, hpower,
      startStore_of_unset, fun c m hc hm => ⟨fun htrading hlead hopen => ?_, fun htrading hopen hclose => ?_, fun hno => ?_⟩⟩
    · obtain ⟨g, hslot, hlabelling, heffecting⟩ := startUp_slot (k := k) hlt he hp
      rw [rebuiltSlot_freshState k s e p hl] at hslot hlabelling heffecting
      exact ⟨_, hslot, rfl, rfl, rfl, rfl, rfl, rfl, rfl, rfl, rfl, hlabelling, heffecting⟩
    · rw [h.txe, startTxe_of_no_run hno]
      exact ⟨rfl, rfl⟩
    · rw [h.txe, hnight, finalTxe_of_records hc hheld]
      exact ⟨rfl, rfl⟩
    · rw [h.txe, hnight, finalTxe_of_empty hc hnone]
      rfl
    · rw [startStore_of_clock hc hm]
      exact if_pos ⟨htrading, hlead, hopen⟩
    · rw [startStore_of_clock hc hm, if_neg (fun hbefore => absurd hbefore.2.2 (Nat.not_lt.2 hopen))]
      exact if_pos ⟨htrading, hopen, hclose⟩
    · rw [startStore_of_clock hc hm]
      have hlead : ¬(tradingDay s.settings c = true ∧ s.settings.nat .openTime - s.settings.nat .openingLead ≤ m ∧
          m < s.settings.nat .openTime) := by
        rintro ⟨htrading, hfrom, hto⟩
        rcases hno with hno | hno | ⟨hno, -⟩
        · simp [htrading] at hno
        · omega
        · omega
      have hopened : ¬(tradingDay s.settings c = true ∧ s.settings.nat .openTime ≤ m ∧ m < s.settings.nat .closeTime) := by
        rintro ⟨htrading, hfrom, hto⟩
        rcases hno with hno | hno | ⟨-, hno⟩
        · simp [htrading] at hno
        · omega
        · omega
      rw [if_neg hlead, if_neg hopened]

end Sys2Proof.Proofs
end

