-- ==== Sys2Proof/Proofs/JournalWrites.lean ====
section
/-! PROOFS. The journal's writes: appends and removals that become durable, the head append, and the level (R59 to R68, R90 to R96, R101, R105). -/

namespace Sys2Proof.Proofs

open Sys2Proof.Machine Sys2Proof.Safety Sys2Proof.Laws

/-! ## What changes no area leaves the journal's list (R90, R99) -/

section NoArea

variable {v w : View}

/-- The list, the counter and the exposure stay, and every output stays. -/
theorem journal_of_noArea (h : Runs (.outer noArea) v w) : w.sequence = v.sequence ∧
    w.records.map unsentRecord = v.records.map unsentRecord ∧ w.exposure = v.exposure ∧ v.out <+: w.out := by
  obtain ⟨hsequence, hrecords⟩ := Prod.ext_iff.1 (h.same (fun x => (x.sequence, x.records.map unsentRecord)) fun _ _ hm =>
    Prod.ext_iff.2 (move_outer_records rfl rfl hm))
  refine ⟨hsequence, hrecords, h.same _ fun a b hm => ?_, h.keeps (fun x => v.out <+: x.out) (fun a b ha hm => ha.trans ?_) (List.prefix_refl _)⟩
  · cases hm <;> simp_all [noArea]
  · cases hm <;> simp_all [noArea]

end NoArea

/-! ## The level (R101) -/

section Level

variable {s : State} {n : Nat} {l : Level}

theorem levelReached_eq (n : Nat) : levelReached n =
    if 32768 ≤ n then .l100 else if 29492 ≤ n then .l90 else if 24576 ≤ n then .l75 else if 16384 ≤ n then .l50 else .below50 := by
  have hmark : ∀ mark k, (∀ m : Nat, mark * 32768 ≤ m * 100 ↔ k ≤ m) → (markReached n mark = true ↔ k ≤ n) := fun mark k hk => by
    rw [markReached, decide_eq_true_iff]
    exact hk n
  simp only [levelReached, hmark 100 32768 (by omega), hmark 90 29492 (by omega), hmark 75 24576 (by omega), hmark 50 16384 (by omega)]

theorem levelReached_ranges (n : Nat) : (n < 16384 → levelReached n = .below50) ∧
    (16384 ≤ n → n < 24576 → levelReached n = .l50) ∧ (24576 ≤ n → n < 29492 → levelReached n = .l75) ∧
    (29492 ≤ n → n < 32768 → levelReached n = .l90) ∧ (32768 ≤ n → levelReached n = .l100) := by
  rw [levelReached_eq]
  refine ⟨fun h => ?_, fun h h' => ?_, fun h h' => ?_, fun h h' => ?_, fun h => if_pos h⟩
  · rw [if_neg (by omega), if_neg (by omega), if_neg (by omega), if_neg (by omega)]
  · rw [if_neg (by omega), if_neg (by omega), if_neg (by omega), if_pos h]
  · rw [if_neg (by omega), if_neg (by omega), if_pos h]
  · rw [if_neg (by omega), if_pos h]

theorem levelReached_below50_iff (n : Nat) : levelReached n = .below50 ↔ n < 16384 := by
  refine ⟨fun h => Nat.lt_of_not_le fun hn => ?_, (levelReached_ranges n).1⟩
  rw [levelReached_eq, if_pos hn] at h
  repeat' split at h
  all_goals exact absurd h (by decide)

theorem compareLevel_of_new (hlevel : levelReached s.sjr.held = l)
    (hnew : s.sjr.level.rank < l.rank ∨ s.sjr.held < 16384 ∧ s.sjr.level ≠ .below50) : compareLevel s =
      notify (.journalLevel (levelReport { s.sjr with level := l })) { s with sjr := { s.sjr with level := l } } := by
  have hafter : levelAfter s.sjr.level s.sjr.held = some l := by
    rw [levelAfter, hlevel]
    by_cases hrise : s.sjr.level.rank < l.rank
    · exact if_pos hrise
    · obtain ⟨hheld, hreported⟩ := hnew.resolve_left hrise
      obtain rfl : .below50 = l := ((levelReached_below50_iff _).2 hheld).symm.trans hlevel
      exact (if_neg hrise).trans (if_pos (by simp [hreported]))
  rw [compareLevel, hafter]

theorem compareLevel_of_same (hlevel : levelReached s.sjr.held = l) (hrank : l.rank ≤ s.sjr.level.rank)
    (hsame : 16384 ≤ s.sjr.held ∨ s.sjr.level = .below50) : compareLevel s = s := by
  have hafter : levelAfter s.sjr.level s.sjr.held = none := by
    rw [levelAfter, hlevel]
    refine (if_neg (Nat.not_lt.2 hrank)).trans (if_neg ?_)
    rw [Bool.and_eq_true, beq_iff_eq, bne_iff_ne]
    rintro ⟨rfl, hreported⟩
    exact hsame.elim (Nat.not_le.2 ((levelReached_below50_iff _).1 hlevel)) hreported
  rw [compareLevel, hafter]

end Level

/-! ## What TSU is answered (R59, R61 to R68) -/

section Answers

variable {s u : State} {t seq amount : Nat} {p q f : Place} {r : VoidReason} {given : Int}

/-- A place written and its flag cleared. -/
theorem clearBusy_of_place (ht : t < s.tsu.places.length) (hp : placeAt s t = p) (hq : clearedPlace s.timer p = q)
    (hstate : q.state ≠ .basket) : clearBusy t s = putPlace t q s := by
  rw [clearBusy, hp, hq]
  exact closeIfDue_of_not_due (.inr (.inr (.inl (by rwa [placeAt_putPlace_same q ht]))))

theorem clearBusy_putPlace (ht : t < s.tsu.places.length) (hq : clearedPlace s.timer p = q) (hstate : q.state ≠ .basket) :
    clearBusy t (putPlace t p s) = putPlace t q s := by
  have hlen : t < (putPlace t p s).tsu.places.length := by
    rw [putPlace, List.length_set]
    exact ht
  rw [clearBusy_of_place hlen (placeAt_putPlace_same p ht) hq hstate, putPlace_putPlace]

theorem answerTill_of_place (ht : t < s.tsu.places.length) (hp : placeAt s t = p) (hq : clearedPlace s.timer p = q)
    (hstate : q.state ≠ .basket) (k : TillKind) (res : Result) (b : TillBody) :
    answerTill t k res b s = emit (.till t (p.addr.getD 0) k res b) (putPlace t q s) := by
  rw [answerTill, hp]
  exact clearBusy_of_place (s := emit (.till t (p.addr.getD 0) k res b) s) ht hp hq hstate

theorem answerTill_putPlace_cleared (ht : t < s.tsu.places.length) (hq : clearedPlace s.timer p = q) (hstate : q.state ≠ .basket)
    (k : TillKind) (res : Result) (b : TillBody) :
    answerTill t k res b (putPlace t p s) = emit (.till t (p.addr.getD 0) k res b) (putPlace t q s) := by
  have hlen : t < (putPlace t p s).tsu.places.length := by
    rw [putPlace, List.length_set]
    exact ht
  rw [answerTill_of_place hlen (placeAt_putPlace_same p ht) hq hstate, putPlace_putPlace]

theorem removeEntry_notify (t : Nat) (b : NoticeBody) (s : State) : removeEntry t (notify b s) = notify b (removeEntry t s) := by
  cases hheld : s.hlk.held with
  | some l => rw [notify_of_held b hheld, notify_of_held (s := removeEntry t s) b hheld, removeEntry, removeEntry]
  | none =>
    rw [notify_of_not_held b hheld, notify_of_not_held (s := removeEntry t s) b hheld]
    by_cases hroom : s.hlk.notices.length < 32
    · rw [joinNotice_of_room b hroom, joinNotice_of_room (s := removeEntry t s) b hroom, removeEntry, removeEntry]
    · rw [joinNotice_of_full b (Nat.not_lt.1 hroom), joinNotice_of_full (s := removeEntry t s) b (Nat.not_lt.1 hroom), removeEntry, removeEntry]

/-- A place that has been given up, at the end of a request. -/
def vacated (now : Nat) : Place :=
  { state := .free, addr := none, lastFrame := now, busy := false, basket := [], trace := none, lastResult := none }

theorem clearBusy_freeTill_notify (ht : t < u.tsu.places.length) (b : NoticeBody) :
    clearBusy t (freeTill t (notify b u)) = putPlace t (vacated u.timer) (notify b u) := by
  refine clearBusy_putPlace (by rwa [notify_tsu]) ?_ (by simp [vacated])
  rw [notify_timer]
  rfl

/-- The place is given up and the entry goes with it. -/
theorem clearBusy_removeEntry_freeTill (ht : t < u.tsu.places.length) (b : NoticeBody) :
    clearBusy t (removeEntry t (freeTill t (notify b u))) = putPlace t (vacated u.timer) (notify b (removeEntry t u)) := by
  have hremoved : removeEntry t (freeTill t (notify b u)) = freeTill t (notify b (removeEntry t u)) := by
    rw [← removeEntry_notify]
    rfl
  rw [hremoved]
  exact clearBusy_freeTill_notify (u := removeEntry t u) ht b

/-- A place whose sale has ended, at the end of a request. -/
def soldPlace (now : Nat) (p : Place) : Place :=
  { p with state := .idle, basket := [], trace := none, busy := false, lastFrame := now }

theorem voidAnswered_cancelled (ht : t < u.tsu.places.length) (hp : placeAt u t = p) (seq : Option Nat) :
    voidAnswered t .cancelled seq u = emit (.till t (p.addr.getD 0) .saleCancel .ok (.cancelled seq)) (putPlace t (soldPlace u.timer p) u) := by
  subst hp
  exact answerTill_putPlace_cleared (p := idlePlace (placeAt u t)) ht rfl (by simp [clearedPlace, idlePlace]) _ _ _

theorem voidAnswered_close (ht : t < u.tsu.places.length) (hp : placeAt u t = p) (seq : Option Nat) :
    voidAnswered t .close seq u =
      emit (.till t (p.addr.getD 0) .basketVoided .ok (.voided .close seq)) (putPlace t (soldPlace u.timer p) u) := by
  subst hp
  exact answerTill_putPlace_cleared (p := idlePlace (placeAt u t)) ht rfl (by simp [clearedPlace, idlePlace]) _ _ _

theorem voidAnswered_tillLost (ht : t < u.tsu.places.length) (hp : placeAt u t = p) (seq : Option Nat) :
    voidAnswered t .tillLost seq u = putPlace t (vacated u.timer) (notify (tillLostNotice t p .basket (.recorded seq)) u) := by
  subst hp
  exact clearBusy_freeTill_notify ht _

theorem voidAnswered_declinedLost (ht : t < u.tsu.places.length) (hp : placeAt u t = p) (seq : Option Nat) :
    voidAnswered t .declinedLost seq u = putPlace t (vacated u.timer)
      (notify (tillLostNotice t p .authorizing (.declined seq (p.trace.getD 0))) (removeEntry t u)) := by
  subst hp
  exact clearBusy_removeEntry_freeTill ht _

/-- What each voided basket that finds no place is answered (R96). -/
theorem voidAnswered_none (ht : t < u.tsu.places.length) (hp : placeAt u t = p) (hsold : soldPlace u.timer p = q)
    (hfree : vacated u.timer = f) :
    (r = .cancelled → testTillsDone (voidAnswered t r none u) = testTillsDone
      (emit (.till t (p.addr.getD 0) .saleCancel .ok (.cancelled none)) (putPlace t q u))) ∧
    (r = .close → testTillsDone (voidAnswered t r none u) = testTillsDone
      (emit (.till t (p.addr.getD 0) .basketVoided .ok (.voided .close none)) (putPlace t q u))) ∧
    (r = .tillLost → testTillsDone (voidAnswered t r none u) = testTillsDone (putPlace t f (notify
      (tillLostNotice t p .basket (.recorded none)) u))) ∧
    (r = .declinedLost → testTillsDone (voidAnswered t r none u) = testTillsDone (putPlace t f (notify
      (tillLostNotice t p .authorizing (.declined none (p.trace.getD 0))) (removeEntry t u)))) := by
  refine ⟨?_, ?_, ?_, ?_⟩ <;> rintro rfl
  · rw [voidAnswered_cancelled ht hp, hsold]
  · rw [voidAnswered_close ht hp, hsold]
  · rw [voidAnswered_tillLost ht hp, hfree]
  · rw [voidAnswered_declinedLost ht hp, hfree]

theorem cashRecorded_eq {a : Append} {total : Int} (ht : t < u.tsu.places.length) (hp : placeAt u t = p) :
    cashRecorded t a total seq u = emit (.till t (p.addr.getD 0) .tenderCash .saleClosed (.cash seq total (a.given - total)))
      (putPlace t { soldPlace u.timer p with lastResult := some (.saleClosed seq) } u) := by
  subst hp
  exact answerTill_putPlace_cleared (p := { idlePlace (placeAt u t) with lastResult := some (.saleClosed seq) }) ht rfl
    (by simp [clearedPlace, idlePlace]) _ _ _

theorem cardRecorded_of_present {total : Int} {tender : Tender} {code : Option (List Byte)} (ht : t < u.tsu.places.length)
    (hp : placeAt u t = p) (hstate : p.state ≠ .orphaned) : cardRecorded t total tender code seq u =
      emit (.till t (p.addr.getD 0) .saleClosed .saleClosed (.card seq total tender code))
        (putPlace t { soldPlace u.timer p with lastResult := some (.saleClosed seq) } (removeEntry t u)) := by
  subst hp
  rw [cardRecorded, if_neg hstate]
  exact clearBusy_putPlace (s := removeEntry t (emit _ u)) (p := { idlePlace (placeAt u t) with lastResult := some (.saleClosed seq) }) ht rfl
    (by simp [soldPlace])

theorem cardRecorded_of_lost {total : Int} {tender : Tender} {code : Option (List Byte)} (ht : t < u.tsu.places.length)
    (hp : placeAt u t = p) (hstate : p.state = .orphaned) : cardRecorded t total tender code seq u = putPlace t (vacated u.timer)
      (notify (tillLostNotice t p .authorizing (.approved seq (p.trace.getD 0))) (removeEntry t u)) := by
  subst hp
  rw [cardRecorded, if_pos hstate]
  exact clearBusy_removeEntry_freeTill ht _

end Answers

/-! ## The entry of a trace that is durable (R62, R73, R80, R81) -/

section Trace

variable {s u x : State} {t seq amount : Nat} {card : CardRef} {e : AuthEntry} {o : AuthOutcome} {p : Place}

theorem withdrawAuth_touches (trace : Nat) (s : State) :
    ∃ y g out h, withdrawAuth trace s = { s with ulc := y, gac := g, out := out, hlk := h } := by
  unfold withdrawAuth
  split
  · obtain ⟨q, g, out, h, heq⟩ := guestDecide_touches
      { s with ulc := { s.ulc with authQ := s.ulc.authQ.filter fun f => !f.hasTrace trace } }
    exact ⟨_, g, out, h, heq⟩
  · exact ⟨_, _, _, _, rfl⟩

theorem countOutcome_entries (o : AuthOutcome) (a : Auz) : (countOutcome o a).entries = a.entries := by
  unfold countOutcome
  split <;> rfl

theorem decideEntry_entries (e : AuthEntry) (o : AuthOutcome) (s : State) :
    (decideEntry e o s).auz.entries = (putEntry (e.decide o) s).auz.entries := by
  obtain ⟨y, g, out, h, heq⟩ := withdrawAuth_touches e.trace (putEntry (e.decide o) s)
  rw [decideEntry, heq]
  exact countOutcome_entries o _

theorem decideEntry_place (e : AuthEntry) (o : AuthOutcome) (s : State) :
    (decideEntry e o s).tsu = s.tsu ∧ (decideEntry e o s).timer = s.timer := by
  obtain ⟨y, g, out, h, heq⟩ := withdrawAuth_touches e.trace (putEntry (e.decide o) s)
  rw [decideEntry, heq]
  exact ⟨rfl, rfl⟩

theorem markExposure_touches (amount : Nat) (o : AuthOutcome) (byExposure : Bool) (s : State) :
    ∃ m h, markExposure amount o byExposure s = { s with auz := { s.auz with mark := m }, hlk := h } := by
  unfold markExposure
  split
  · exact ⟨_, _, rfl⟩
  · split
    · split
      · exact ⟨_, _, rfl⟩
      · obtain ⟨h, heq⟩ := notify_touches (authLimitNotice s amount) { s with auz := { s.auz with mark := true } }
        exact ⟨true, h, heq⟩
    · exact ⟨_, _, rfl⟩

theorem markExposure_tsu (amount : Nat) (o : AuthOutcome) (byExposure : Bool) (s : State) :
    (markExposure amount o byExposure s).tsu = s.tsu := by
  obtain ⟨m, h, heq⟩ := markExposure_touches amount o byExposure s
  rw [heq]

/-- The one entry of a till takes the place of its earlier form. -/
theorem putEntry_append {l : List AuthEntry} {e' : AuthEntry} (hl : s.auz.entries = l ++ [e]) (hnone : ∀ y ∈ l, y.till ≠ t)
    (he : e.till = t) (he' : e'.till = t) : (putEntry e' s).auz.entries = l ++ [e'] := by
  have hkept : l.map (fun y => if y.till = e'.till then e' else y) = l := by
    refine (List.map_congr_left fun y hy => if_neg ?_).trans (List.map_id _)
    rw [he']
    exact hnone y hy
  rw [putEntry, hl, List.map_append, hkept, List.map_singleton, if_pos (he.trans he'.symm)]

theorem entryOf_append {l : List AuthEntry} (hl : s.auz.entries = l ++ [e]) (hnone : ∀ y ∈ l, y.till ≠ t) (he : e.till = t) :
    entryOf s t = some e := by
  have hother : l.find? (fun y => y.till == t) = none := List.find?_eq_none.2 fun y hy => by simp [hnone y hy]
  rw [entryOf, hl, List.find?_append, hother, List.find?_singleton, he]
  simp

/-- The place of a tender whose trace is durable. -/
def authorizingPlace (seq : Nat) (p : Place) : Place := { p with state := .authorizing, trace := some seq }

/-- The answer to a tender whose trace is durable. -/
def traceAnswer (t seq : Nat) (p : Place) (u s : State) : State :=
  emit (.till t (p.addr.getD 0) .tenderCard .authorizing (.trace seq))
    (putPlace t { authorizingPlace seq p with busy := false, lastFrame := u.timer } s)

/-- An outcome that was decided as the entry was created is reported. -/
def outcomeTold (t : Nat) (s : State) : State :=
  match entryOf s t with
  | some e => match e.outcome with
    | some o => reportOutcome t o s
    | none => s
  | none => s

theorem outcomeTold_of_open (he : entryOf s t = some e) (hopen : e.outcome = none) : outcomeTold t s = s := by
  simp only [outcomeTold, he, hopen]

theorem outcomeTold_of_decided (he : entryOf s t = some e) (ho : e.outcome = some o) : outcomeTold t s = reportOutcome t o s := by
  simp only [outcomeTold, he, ho]

theorem traceRecorded_of_created (ht : t < u.tsu.places.length) (hp : placeAt u t = p)
    (hx : createEntry t seq amount card (putPlace t (authorizingPlace seq p) u) = x)
    (hplaces : x.tsu = (putPlace t (authorizingPlace seq p) u).tsu ∧ x.timer = u.timer) :
    traceRecorded t amount card seq u = outcomeTold t (traceAnswer t seq p u x) := by
  obtain ⟨htsu, htimer⟩ := hplaces
  have hplace : placeAt x t = authorizingPlace seq p := by
    rw [placeAt, htsu]
    exact placeAt_putPlace_same _ ht
  have hlen : t < x.tsu.places.length := by
    rw [htsu, putPlace, List.length_set]
    exact ht
  have hanswer : answerTill t .tenderCard .authorizing (.trace seq) x = traceAnswer t seq p u x := by
    rw [traceAnswer, ← htimer]
    exact answerTill_of_place hlen hplace rfl (by simp [clearedPlace, authorizingPlace]) _ _ _
  subst hp
  rw [← hanswer, ← hx]
  rfl

variable (hnone : ∀ y ∈ u.auz.entries, y.till ≠ t)

include hnone

/-- A new entry with a path to head office waits in the AUTH queue. -/
theorem traceRecorded_of_queuing (ht : t < u.tsu.places.length) (hp : placeAt u t = p) (hq : queuingTest u = true)
    (hx : putPlace t (authorizingPlace seq p) u = x) (he : newEntry t seq amount card = e) : traceRecorded t amount card seq u =
      traceAnswer t seq p u (guestDecide { x with
        auz := { x.auz with entries := x.auz.entries ++ [{ e with expiry := some u.ulc.t1.counter }] }
        ulc := { x.ulc with authQ := x.ulc.authQ ++ [.authRequest seq amount card (u.identity.branch.getD 0)] } }) := by
  subst hx he
  let y : State := { putPlace t (authorizingPlace seq p) u with
    auz := { u.auz with entries := u.auz.entries ++ [{ newEntry t seq amount card with expiry := some u.ulc.t1.counter }] }
    ulc := { u.ulc with authQ := u.ulc.authQ ++ [.authRequest seq amount card (u.identity.branch.getD 0)] } }
  have hput := putEntry_append (s := { u with auz := { u.auz with entries := u.auz.entries ++ [newEntry t seq amount card] } })
    (e' := { newEntry t seq amount card with state := .queued, expiry := some u.ulc.t1.counter, retryEnd := none }) rfl hnone rfl rfl
  have hcreated : createEntry t seq amount card (putPlace t (authorizingPlace seq p) u) = guestDecide y := by
    refine (if_pos hq).trans (congrArg (fun l => guestDecide { y with auz := { y.auz with entries := l } }) hput)
  have hentry : entryOf (guestDecide y) t = some { newEntry t seq amount card with expiry := some u.ulc.t1.counter } :=
    entryOf_append (by rw [guestDecide_auz]) hnone rfl
  rw [traceRecorded_of_created ht hp hcreated ⟨guestDecide_tsu y, guestDecide_timer y⟩]
  exact outcomeTold_of_open hentry rfl

/-- A new entry that fails the queuing test is decided by fallback, and its outcome follows the answer. -/
theorem traceRecorded_of_fallback {byExposure : Bool} (ht : t < u.tsu.places.length) (hp : placeAt u t = p) (hq : queuingTest u = false)
    (hdecision : fallbackDecision u amount = (o, byExposure))
    (hx : putPlace t (authorizingPlace seq p) u = x) (he : newEntry t seq amount card = e) : traceRecorded t amount card seq u =
      reportOutcome t o (traceAnswer t seq p u (decideEntry e o (markExposure amount o byExposure
        { x with auz := { x.auz with entries := x.auz.entries ++ [e] } }))) := by
  subst hx
  let y : State := { putPlace t (authorizingPlace seq p) u with auz := { u.auz with entries := u.auz.entries ++ [e] } }
  have hcommitted : y.auz.commitment = u.auz.commitment := by
    simp [y, ← he, Auz.commitment, AuthEntry.committed, newEntry]
  have hsame : fallbackDecision y amount = (o, byExposure) := by
    rw [← hdecision, fallbackDecision, fallbackDecision, hcommitted]
    rfl
  have hcreated : createEntry t seq amount card (putPlace t (authorizingPlace seq p) u) =
      decideEntry e o (markExposure amount o byExposure y) := by
    subst he
    refine (if_neg fun hyes => Bool.false_ne_true (hq.symm.trans hyes)).trans ?_
    show decideEntry _ (fallbackDecision y amount).1 (markExposure amount (fallbackDecision y amount).1 (fallbackDecision y amount).2 y) = _
    rw [hsame]
  obtain ⟨m, h, hmark⟩ := markExposure_touches amount o byExposure y
  obtain ⟨htsu, htimer⟩ := decideEntry_place e o (markExposure amount o byExposure y)
  have hmarked : (markExposure amount o byExposure y).tsu = y.tsu ∧ (markExposure amount o byExposure y).timer = y.timer ∧
      (markExposure amount o byExposure y).auz.entries = u.auz.entries ++ [e] := by
    rw [hmark]
    exact ⟨rfl, rfl, rfl⟩
  obtain ⟨hmarkTsu, hmarkTimer, hmarkEntries⟩ := hmarked
  have htill : e.till = t := by rw [← he, newEntry]
  have hentry : entryOf (decideEntry e o (markExposure amount o byExposure y)) t = some (e.decide o) :=
    entryOf_append ((decideEntry_entries e o _).trans (putEntry_append hmarkEntries hnone htill htill)) hnone htill
  rw [traceRecorded_of_created ht hp hcreated ⟨htsu.trans hmarkTsu, htimer.trans hmarkTimer⟩]
  exact outcomeTold_of_decided (s := traceAnswer t seq p u _) hentry rfl

end Trace

/-! ## The completions (R95, R105) -/

section Completions

variable {s u : State} {w : Writing} {t : Nat}

/-- A durable append in the list, and what it brings about at once. -/
def appended (w : Writing) (s : State) : State := recomputeOccupancy (recordAppend w s)

theorem compareLevel_touches (s : State) : ∃ l h, compareLevel s = { s with sjr := { s.sjr with level := l }, hlk := h } := by
  unfold compareLevel
  split
  · exact ⟨_, _, rfl⟩
  case h_2 l _ =>
    obtain ⟨h, heq⟩ := notify_touches (.journalLevel (levelReport { s.sjr with level := l })) { s with sjr := { s.sjr with level := l } }
    exact ⟨l, h, heq⟩

theorem recomputeOccupancy_sjr (s : State) : ∃ l, (recomputeOccupancy s).sjr = { s.sjr with level := l } := by
  obtain ⟨l, h, heq⟩ := compareLevel_touches s
  exact ⟨l, by rw [recomputeOccupancy, guestDecide_sjr, heq]⟩

theorem recomputeOccupancy_tills (s : State) : (recomputeOccupancy s).tsu = s.tsu ∧ (recomputeOccupancy s).auz = s.auz ∧
    (recomputeOccupancy s).timer = s.timer := by
  obtain ⟨l, h, heq⟩ := compareLevel_touches s
  rw [recomputeOccupancy, guestDecide_tsu, guestDecide_auz, guestDecide_timer, heq]
  exact ⟨rfl, rfl, rfl⟩

/-- The claims after an append: a claimed one has consumed one place. -/
def claimsAfter (w : Writing) (s : State) : List Nat :=
  if w.append.body.claimed then s.sjr.claims.modify w.append.till (· - 1) else s.sjr.claims

theorem recordAppend_eq (w : Writing) (s : State) : recordAppend w s = { s with sjr := { s.sjr with
    records := s.sjr.records ++ [{ seq := w.seq, till := w.append.till, time := w.time, body := w.append.body, sent := none }]
    counter := w.seq, claims := claimsAfter w s, writing := none, unsent := s.sjr.unsent + 1
    exposure := s.sjr.exposure + w.append.body.exposed } } := by
  rw [recordAppend, claimsAfter]
  cases w.append.body.claimed <;> rfl

theorem claimed_eq_true {b : RecordBody} (h : ∀ r total lines, b ≠ .voidedBasket r total lines) : b.claimed = true := by
  cases b with
  | voidedBasket r total lines => exact absurd rfl (h r total lines)
  | _ => rfl

theorem appended_facts (w : Writing) (s : State) : (appended w s).tsu = s.tsu ∧ (appended w s).auz = s.auz ∧
    (appended w s).timer = s.timer ∧ (appended w s).sjr.writing = none ∧ (appended w s).sjr.counter = w.seq ∧
    (appended w s).sjr.claims = claimsAfter w s := by
  obtain ⟨l, hsjr⟩ := recomputeOccupancy_sjr (recordAppend w s)
  obtain ⟨htsu, hauz, htimer⟩ := recomputeOccupancy_tills (recordAppend w s)
  rw [recordAppend_eq] at htsu hauz htimer
  refine ⟨by rw [appended, recordAppend_eq]; exact htsu, by rw [appended, recordAppend_eq]; exact hauz,
    by rw [appended, recordAppend_eq]; exact htimer, ?_, ?_, ?_⟩ <;> rw [appended, hsjr, recordAppend_eq]

theorem placeAt_appended (w : Writing) (s : State) (t : Nat) : placeAt (appended w s) t = placeAt s t := by
  obtain ⟨htsu, -⟩ := appended_facts w s
  rw [placeAt, htsu, placeAt]

theorem exec_journalAppendDone (hrun : s.running = true) (hw : s.sjr.writing = some w) : exec .journalAppendDone s =
    .next (finish (testTillsDone (appendAnswered w.append w.seq (appended w s)))) := by
  show execJournalAppendDone s = _
  unfold execJournalAppendDone
  refine event_takes hrun ?_
  rw [hw]
  rfl

theorem exec_journalAppendDone_of_none (hrun : s.running = true) (hnone : s.sjr.writing = none) :
    exec .journalAppendDone s = .next (finish s) := by
  show execJournalAppendDone s = _
  unfold execJournalAppendDone
  refine event_takes hrun ?_
  rw [hnone]

/-- What the append's completion does to the list, and that the answer's outputs stay. -/
theorem appendDone_journal (w : Writing) (s : State) :
    (finish (testTillsDone (appendAnswered w.append w.seq (appended w s)))).sjr.counter = w.seq ∧
      (finish (testTillsDone (appendAnswered w.append w.seq (appended w s)))).sjr.records.map unsentRecord =
        s.sjr.records.map unsentRecord ++
          [{ seq := w.seq, till := w.append.till, time := w.time, body := w.append.body, sent := none }] ∧
      (finish (testTillsDone (appendAnswered w.append w.seq (appended w s)))).sjr.exposure =
        s.sjr.exposure + w.append.body.exposed ∧
      (appendAnswered w.append w.seq (appended w s)).out <+:
        (finish (testTillsDone (appendAnswered w.append w.seq (appended w s)))).out := by
  have hruns : Runs (.outer noArea) (view (recordAppend w s))
      (view (finish (testTillsDone (appendAnswered w.append w.seq (appended w s))))) :=
    finish_runs _ (testTillsDone_runs _ (appendAnswered_runs _ _ _ (recomputeOccupancy_runs _ .refl)))
  obtain ⟨hcounter, hrecords, hexposure, -⟩ := journal_of_noArea hruns
  obtain ⟨-, -, -, hout⟩ := journal_of_noArea (v := view (appendAnswered w.append w.seq (appended w s)))
    (finish_runs _ (testTillsDone_runs _ .refl))
  rw [recordAppend_eq] at hcounter hrecords hexposure
  refine ⟨hcounter, hrecords.trans ?_, hexposure, hout⟩
  exact List.map_append

theorem exec_journalRemovalDone {x : RemovalWrite} (hrun : s.running = true) (hx : s.sjr.removing = some x) :
    exec .journalRemovalDone s = .next (finish (removalDone x s)) := by
  show execJournalRemovalDone s = _
  unfold execJournalRemovalDone
  refine event_takes hrun ?_
  rw [hx]

theorem exec_journalRemovalDone_of_none (hrun : s.running = true) (hnone : s.sjr.removing = none) :
    exec .journalRemovalDone s = .next (finish s) := by
  show execJournalRemovalDone s = _
  unfold execJournalRemovalDone
  refine event_takes hrun ?_
  rw [hnone]

/-- What a removal's completion does to the list. -/
theorem removalDone_journal (x : RemovalWrite) (s : State) : (finish (removalDone x s)).sjr.counter = s.sjr.counter ∧
    (finish (removalDone x s)).sjr.records.map unsentRecord =
      (s.sjr.records.filter fun r => !x.named.contains r.seq).map unsentRecord ∧
    (finish (removalDone x s)).sjr.exposure =
      s.sjr.exposure - exposureOf (s.sjr.records.filter fun r => x.named.contains r.seq) := by
  have hruns : Runs (.outer noArea) (view (dropRecords x.named s)) (view (finish (removalDone x s))) :=
    finish_runs _ (nextRemovals_runs _ _ (removalTold_runs _ _ _ (dropMembers_runs _ _ (recomputeOccupancy_runs _ .refl))))
  obtain ⟨hcounter, hrecords, hexposure, -⟩ := journal_of_noArea hruns
  exact ⟨hcounter, hrecords, hexposure⟩

end Completions

/-! ## The frames that go out (R59, R61 to R63) -/

section Frames

variable {s u : State} {t seq : Nat} {p : Place} {k : TillKind} {res : Result} {b : TillBody}

theorem clearBusy_out (t : Nat) (s : State) : (clearBusy t s).out = s.out := by
  obtain ⟨l, j, heq⟩ := closeIfDue_touches t (putPlace t (clearedPlace s.timer (placeAt s t)) s)
  rw [clearBusy, heq]
  rfl

theorem answerTill_out : Output.till t ((placeAt s t).addr.getD 0) k res b ∈ (answerTill t k res b s).out := by
  rw [answerTill, clearBusy_out]
  exact List.mem_append_right _ (List.mem_singleton.2 rfl)

/-- A place keeps its address over a write that gives the same. -/
theorem placeAt_putPlace_addr (haddr : p.addr = (placeAt s t).addr) : (placeAt (putPlace t p s) t).addr = (placeAt s t).addr := by
  by_cases ht : t < s.tsu.places.length
  · rw [placeAt_putPlace_same p ht, haddr]
  · rw [placeAt, putPlace, List.set_eq_of_length_le (Nat.not_lt.1 ht)]
    rfl

theorem answerTill_putPlace_out (haddr : p.addr = (placeAt s t).addr) :
    Output.till t ((placeAt s t).addr.getD 0) k res b ∈ (answerTill t k res b (putPlace t p s)).out := by
  rw [← placeAt_putPlace_addr haddr]
  exact answerTill_out

theorem createEntry_tsu (t seq amount : Nat) (card : CardRef) (s : State) : (createEntry t seq amount card s).tsu = s.tsu := by
  rw [createEntry]
  split
  · rw [queueEntry, guestDecide_tsu]
    rfl
  · exact (decideEntry_place _ _ _).1.trans (markExposure_tsu _ _ _ _)

theorem outcomeTold_out (t : Nat) (s : State) : s.out <+: (outcomeTold t s).out := by
  unfold outcomeTold
  split
  · split
    · exact (journal_of_noArea (v := view s) (reportOutcome_runs _ _ _ .refl)).2.2.2
    · exact List.prefix_refl _
  · exact List.prefix_refl _

theorem traceRecorded_out {amount : Nat} {card : CardRef} :
    Output.till t ((placeAt u t).addr.getD 0) .tenderCard .authorizing (.trace seq) ∈ (traceRecorded t amount card seq u).out := by
  let x : State := createEntry t seq amount card (putPlace t (authorizingPlace seq (placeAt u t)) u)
  have haddr : (placeAt x t).addr = (placeAt u t).addr := by
    rw [placeAt, createEntry_tsu]
    exact placeAt_putPlace_addr rfl
  have hshape : traceRecorded t amount card seq u = outcomeTold t (answerTill t .tenderCard .authorizing (.trace seq) x) := rfl
  rw [hshape, ← haddr]
  exact (outcomeTold_out t _).subset answerTill_out

theorem cardRecorded_out {total : Int} {tender : Tender} {code : Option (List Byte)} (hstate : (placeAt u t).state ≠ .orphaned) :
    Output.till t ((placeAt u t).addr.getD 0) .saleClosed .saleClosed (.card seq total tender code) ∈
      (cardRecorded t total tender code seq u).out := by
  rw [cardRecorded, if_neg hstate, clearBusy_out]
  exact List.mem_append_right _ (List.mem_singleton.2 rfl)

theorem cashRecorded_out {a : Append} {total : Int} :
    Output.till t ((placeAt u t).addr.getD 0) .tenderCash .saleClosed (.cash seq total (a.given - total)) ∈
      (cashRecorded t a total seq u).out :=
  answerTill_putPlace_out (p := { idlePlace (placeAt u t) with lastResult := some (.saleClosed seq) }) rfl

theorem voidAnswered_cancelled_out {seq : Option Nat} :
    Output.till t ((placeAt u t).addr.getD 0) .saleCancel .ok (.cancelled seq) ∈ (voidAnswered t .cancelled seq u).out :=
  answerTill_putPlace_out (p := idlePlace (placeAt u t)) rfl

theorem voidAnswered_close_out {seq : Option Nat} :
    Output.till t ((placeAt u t).addr.getD 0) .basketVoided .ok (.voided .close seq) ∈ (voidAnswered t .close seq u).out :=
  answerTill_putPlace_out (p := idlePlace (placeAt u t)) rfl

end Frames

/-! ## The answer by the record's kind -/

section Kinds

variable {s u : State} {a : Append} {seq : Nat}

theorem appendAnswered_cash {total : Int} {trace : Option Nat} {code : Option (List Byte)} {lost : Bool} {lines : List BasketLine}
    (hb : a.body = .sale total .cash trace code lost lines) : appendAnswered a seq u = cashRecorded a.till a total seq u := by
  rw [appendAnswered, hb]

theorem appendAnswered_card {total : Int} {tender : Tender} {trace : Option Nat} {code : Option (List Byte)} {lost : Bool}
    {lines : List BasketLine} (hb : a.body = .sale total tender trace code lost lines) (htender : tender ≠ .cash) :
    appendAnswered a seq u = cardRecorded a.till total tender code seq u := by
  rw [appendAnswered, hb]
  cases tender with
  | cash => exact absurd rfl htender
  | _ => rfl

theorem appendAnswered_trace {amount : Nat} {card : CardRef} (hb : a.body = .authTrace amount card) :
    appendAnswered a seq u = traceRecorded a.till amount card seq u := by
  rw [appendAnswered, hb]

theorem appendAnswered_void {r : VoidReason} {total : Int} {lines : List BasketLine} (hb : a.body = .voidedBasket r total lines) :
    appendAnswered a seq u = voidAnswered a.till r (some seq) u := by
  rw [appendAnswered, hb]

/-! ## The head append (R94 to R96) -/

theorem unclaimedFits_iff (j : Sjr) : unclaimedFits j = true ↔
    j.records.length + j.claims.sum < 32768 ∧ j.counter + j.claims.sum < 4294967295 := by
  rw [unclaimedFits, Bool.and_eq_true, decide_eq_true_iff, decide_eq_true_iff]
  refine and_congr ?_ Iff.rfl
  show 1 ≤ 32768 - j.records.length - j.claims.sum ↔ _
  omega

theorem takeAppend_of_head {rest : List Append} (hw : s.sjr.writing = none) (hq : s.sjr.queue = a :: rest) : takeAppend s =
    if a.body.claimed || unclaimedFits s.sjr then
      if writesStopped s || decide (Config.max32 ≤ s.sjr.counter) then s else beginAppend a rest s
    else testTillsDone (notRecorded a { s with sjr := { s.sjr with queue := rest } }) := by
  rw [takeAppend, hw, hq]

theorem takeAppend_of_none (h : s.sjr.writing.isSome ∨ s.sjr.queue = []) : takeAppend s = s := by
  unfold takeAppend
  split
  case h_1 a rest hw hq => simp [hw, hq] at h
  case h_2 => rfl

theorem takeAppend_of_end {rest : List Append} (hw : s.sjr.writing = none) (hq : s.sjr.queue = a :: rest)
    (hb : ∀ r total lines, a.body ≠ .voidedBasket r total lines) (hend : 4294967295 ≤ s.sjr.counter) : takeAppend s = s := by
  have hfull : (writesStopped s || decide (Config.max32 ≤ s.sjr.counter)) = true :=
    Bool.or_eq_true_iff.2 (.inr (decide_eq_true_iff.2 hend))
  rw [takeAppend_of_head hw hq, claimed_eq_true hb, Bool.true_or, if_pos rfl, if_pos hfull]

theorem takeAppend_begins {rest : List Append} (hw : s.sjr.writing = none) (hq : s.sjr.queue = a :: rest)
    (htake : (∀ r total lines, a.body ≠ .voidedBasket r total lines) ∧ s.sjr.counter < 4294967295 ∨ unclaimedFits s.sjr = true)
    (hwrites : writesStopped s = false) : takeAppend s = beginAppend a rest s := by
  have hcounter : s.sjr.counter < 4294967295 := htake.elim (·.2) fun hfits =>
    Nat.lt_of_le_of_lt (Nat.le_add_right _ _) ((unclaimedFits_iff _).1 hfits).2
  have htaken : (a.body.claimed || unclaimedFits s.sjr) = true :=
    Bool.or_eq_true_iff.2 (htake.imp (fun h => claimed_eq_true h.1) id)
  have hroom : ¬(writesStopped s || decide (Config.max32 ≤ s.sjr.counter)) = true := by
    rw [hwrites, Bool.false_or, decide_eq_true_iff]
    exact Nat.not_le.2 hcounter
  rw [takeAppend_of_head hw hq, if_pos htaken, if_neg hroom]

theorem takeAppend_not_recorded {rest : List Append} {r : VoidReason} {total : Int} {lines : List BasketLine}
    (hw : s.sjr.writing = none) (hq : s.sjr.queue = a :: rest) (hb : a.body = .voidedBasket r total lines)
    (hfits : unclaimedFits s.sjr = false) (hu : { s with sjr := { s.sjr with queue := rest } } = u) :
    takeAppend s = testTillsDone (voidAnswered a.till r none u) := by
  have hnot : ¬(a.body.claimed || unclaimedFits s.sjr) = true := by
    rw [hb, hfits]
    exact Bool.false_ne_true
  rw [takeAppend_of_head hw hq, if_neg hnot, hu, notRecorded, hb]

end Kinds

/-- Settles O50: appends and removals by what they leave of the list, the answers by the record's kind, and the head append by its case. -/
theorem journalWritesDone : Obligations.JournalWritesDone := by
  unfold Obligations.JournalWritesDone
  intro s hrun
  refine ⟨fun hnone => ?_, fun w p hw hp => ?_, fun w t p hw ht hp hlen => ?_, fun hnone => ?_, fun x gone u v hx hgone hu hv => ?_,
    fun x hx => ?_, takeAppend_of_none, fun a rest fits hw hq hfits => ?_, fun n => ?_, fun n l j hn hl hj => ?_, by decide, by decide,
    by decide, by decide⟩
  · exact exec_journalAppendDone_of_none hrun hnone
  · have hplace : placeAt (appended w s) w.append.till = p := (placeAt_appended w s _).trans hp
    obtain ⟨hcounter, hrecords, hexposure, hout⟩ := appendDone_journal w s
    refine ⟨_, exec_journalAppendDone hrun hw, hcounter, hexposure, hrecords, fun total trace code lost lines hb => hout.subset ?_,
      fun total tender trace code lost lines hb htender hstate => hout.subset ?_, fun amount card hb => hout.subset ?_,
      fun total lines hb => hout.subset ?_, fun total lines hb => hout.subset ?_⟩
    · rw [appendAnswered_cash hb, ← hplace]
      exact cashRecorded_out
    · rw [appendAnswered_card hb htender, ← hplace]
      exact cardRecorded_out (by rwa [hplace])
    · rw [appendAnswered_trace hb, ← hplace]
      exact traceRecorded_out
    · rw [appendAnswered_void hb, ← hplace]
      exact voidAnswered_cancelled_out
    · rw [appendAnswered_void hb, ← hplace]
      exact voidAnswered_close_out
  · subst ht
    obtain ⟨htsu, hauz, htimer, hwriting, hcounter, hclaims⟩ := appended_facts w s
    have hlen' : w.append.till < (appended w s).tsu.places.length := by rwa [htsu]
    have hplace : placeAt (appended w s) w.append.till = p := (placeAt_appended w s _).trans hp
    have hsold : ∀ q, soldPlace s.timer p = q → soldPlace (appended w s).timer p = q := fun q hq => by rw [htimer, hq]
    have hfree : ∀ q, vacated s.timer = q → vacated (appended w s).timer = q := fun q hq => by rw [htimer, hq]
    refine ⟨appended w s, _, exec_journalAppendDone hrun hw, htsu, hauz, hwriting, hcounter, ?_, fun hb => ?_, fun q hq => ⟨?_, ?_, ?_, ?_⟩,
      fun q hq => ⟨?_, ?_, ?_⟩, fun amount card e x hb hnone he hx => ⟨fun hqueue => ?_, fun o byExposure hqueue hdecision => ?_⟩,
      claimsAfter w s, ?_⟩
    · rintro ⟨r, total, lines, hb⟩
      rw [hclaims, claimsAfter, hb]
      rfl
    · rw [hclaims, claimsAfter, claimed_eq_true hb]
      rfl
    · intro total trace code lost lines hb
      rw [appendAnswered_cash hb, cashRecorded_eq hlen' hplace, hsold q hq]
    · intro total tender trace code lost lines hb htender hstate
      rw [appendAnswered_card hb htender, cardRecorded_of_present hlen' hplace hstate, hsold q hq]
      rfl
    · intro total lines hb
      rw [appendAnswered_void hb, voidAnswered_cancelled hlen' hplace, hsold q hq]
    · intro total lines hb
      rw [appendAnswered_void hb, voidAnswered_close hlen' hplace, hsold q hq]
    · intro total tender trace code lost lines hb htender hstate
      rw [appendAnswered_card hb htender, cardRecorded_of_lost hlen' hplace hstate, hfree q hq]
      rfl
    · intro total lines hb
      rw [appendAnswered_void hb, voidAnswered_declinedLost hlen' hplace, hfree q hq]
      rfl
    · intro total lines hb
      rw [appendAnswered_void hb, voidAnswered_tillLost hlen' hplace, hfree q hq]
      rfl
    · rw [appendAnswered_trace hb, traceRecorded_of_queuing (by rwa [hauz]) hlen' hplace hqueue hx he, traceAnswer, htimer]
      rfl
    · rw [appendAnswered_trace hb, traceRecorded_of_fallback (by rwa [hauz]) hlen' hplace hqueue hdecision hx he, traceAnswer, htimer]
      rfl
    · rw [appended, recordAppend_eq]
      rfl
  · exact exec_journalRemovalDone_of_none hrun hnone
  · subst hgone hu hv
    exact exec_journalRemovalDone hrun hx
  · obtain ⟨hcounter, hrecords, hexposure⟩ := removalDone_journal x s
    exact ⟨_, exec_journalRemovalDone hrun hx, hcounter, hexposure, hrecords⟩
  · have hdecides : fits = unclaimedFits s.sjr := Bool.eq_iff_iff.2 (hfits.trans (unclaimedFits_iff s.sjr).symm)
    rw [hdecides]
    refine ⟨takeAppend_of_end hw hq, takeAppend_begins hw hq, fun r total lines u p q f hb hno hu hp hlen hq' hf => ?_⟩
    have htaken := takeAppend_not_recorded hw hq hb hno hu
    rw [htaken]
    exact voidAnswered_none (by rwa [← hu]) (by rwa [← hu]) (by rw [← hu]; exact hq') (by rw [← hu]; exact hf)
  · exact levelReached_ranges n
  · subst hn hj
    exact ⟨compareLevel_of_new hl, compareLevel_of_same hl⟩

end Sys2Proof.Proofs
end

