-- ==== Sys2Proof/Proofs/Transfers.lean ====
section
/-! PROOFS. The transfer engine's events and steps: batches, the price file request, the night run, and what is formed and offered (R105, R128, R134 to R148). -/

namespace Sys2Proof.Proofs

open Sys2Proof.Machine Sys2Proof.Safety Sys2Proof.Laws

/-! ## The batch in flight (R134 to R140) -/

section Batches

variable {s v : State} {b : Batch} {q : Removal} {o : BatchOwner} {n m : Nat} {rest : List Nat}

theorem windowOpen_some (v : State) (x : Nat) : windowOpen v (some x) = true ↔ v.timer - x < 60000 * v.settings.nat .retryWindow :=
  decide_eq_true_iff

theorem abortBatch_of_none (hb : v.txe.batch = none) : abortBatch v = v := by
  rw [abortBatch, hb]

/-- The batch's frames and records without it. -/
def batchReleased (n : Nat) (v : State) : State :=
  { v with
    ulc := { v.ulc with journalQ := v.ulc.journalQ.filter fun f => !f.inBatch n }
    sjr := { v.sjr with
      records := v.sjr.records.map fun r => if r.sent = some n then { r with sent := none } else r
      unsent := v.sjr.unsent + v.sjr.records.countP fun r => r.sent == some n } }

theorem abortBatch_of_batch (hb : v.txe.batch = some b) : abortBatch v = { batchReleased b.number v with
    txe := { v.txe with
      batch := none
      counts := { v.txe.counts with aborts := v.txe.counts.aborts + 1 }
      pauseEnd := if b.owner = .trickle then some (v.timer + 1000 * v.settings.nat .retryDelay) else v.txe.pauseEnd } } := by
  rw [abortBatch, hb]
  rfl

theorem acceptBatch_of_batch (hb : v.txe.batch = some b) :
    acceptBatch v = { batchReleased b.number v with txe := { v.txe with batch := none } } := by
  rw [acceptBatch, hb]
  rfl

theorem batchBusy_of_open (hb : v.txe.batch = some b) (hstate : b.state = .waitingAck) (haccepted : b.accepted = false)
    (hopen : windowOpen v b.firstSent = true) : batchBusy v = { v with txe := { v.txe with
      batch := some { b with state := .retryWait, expiry := none, retryEnd := some (v.timer + retryDelayMs v) } } } := by
  rw [batchBusy, hb]
  exact (if_neg (by simp [hstate, haccepted])).trans (if_pos hopen)

theorem batchBusy_of_closed (hb : v.txe.batch = some b) (hstate : b.state = .waitingAck) (haccepted : b.accepted = false)
    (hclosed : windowOpen v b.firstSent = false) : batchBusy v = failUpload b.owner (abortBatch v) := by
  rw [batchBusy, hb]
  exact (if_neg (by simp [hstate, haccepted])).trans (if_neg (by simp [hclosed]))

theorem batchBusy_of_other (hb : v.txe.batch = some b) (hnot : b.state ≠ .waitingAck ∨ b.accepted = true) : batchBusy v = v := by
  rw [batchBusy, hb]
  exact if_pos hnot

theorem failUpload_of_other (hnot : o ≠ .night ∨ v.txe.run.state ≠ .upload) : failUpload o v = v :=
  if_neg fun ⟨howner, hstate⟩ => hnot.elim (· howner) (· hstate)

theorem askRemoval_of_idle (hidle : v.sjr.removing = none) : askRemoval q v = takeRemoval q v :=
  if_neg (by simp [hidle])

theorem askRemoval_of_empty (hidle : v.sjr.removing = none) (hnone : rangeHeld v.sjr q.first q.last = []) :
    askRemoval q v = removalTold q 0 v := by
  rw [askRemoval_of_idle hidle, takeRemoval, hnone]

theorem askRemoval_of_held (hidle : v.sjr.removing = none) (hsome : rangeHeld v.sjr q.first q.last ≠ [])
    (hwrites : writesStopped v = false) : askRemoval q v =
      { v with sjr := { v.sjr with removing := some { req := q, named := rangeHeld v.sjr q.first q.last } } } := by
  rw [askRemoval_of_idle hidle]
  unfold takeRemoval
  split
  case h_1 hnone => exact absurd hnone hsome
  case h_2 => exact if_neg (by simp [hwrites])

/-- A removal's number told: added to the run when it counts, and the batch of it ended. -/
theorem removalTold_of_batch {y : State} (hy : (if q.counts = true then
      { v with txe := { v.txe with run := { v.txe.run with uploaded := v.txe.run.uploaded + n } } } else v) = y)
    (hq : q.batch = some b.number) (hb : v.txe.batch = some b) : removalTold q n v = acceptBatch y ∧ y.txe.batch = some b := by
  have hbatch : y.txe.batch = some b := by
    rw [← hy]
    split <;> exact hb
  have hwhen : (v.when q.counts fun t => { t with txe := { t.txe with run := { t.txe.run with uploaded := t.txe.run.uploaded + n } } }) = y := hy
  refine ⟨?_, hbatch⟩
  simp only [removalTold, hwhen, hq, hbatch, if_true]

theorem removalTold_of_other {y : State} (hy : (if q.counts = true then
      { v with txe := { v.txe with run := { v.txe.run with uploaded := v.txe.run.uploaded + n } } } else v) = y)
    (hnot : ∀ b, v.txe.batch = some b → q.batch ≠ some b.number) : removalTold q n v = y := by
  have hbatch : y.txe.batch = v.txe.batch := by
    rw [← hy]
    split <;> rfl
  have hwhen : (v.when q.counts fun t => { t with txe := { t.txe with run := { t.txe.run with uploaded := t.txe.run.uploaded + n } } }) = y := hy
  unfold removalTold
  rw [hwhen]
  dsimp only
  split
  case h_1 k cur hk hcur =>
    refine if_neg fun hnumber => hnot cur (hbatch.symm.trans hcur) ?_
    rw [hk, hnumber]
  case h_2 => rfl

/-! ## Forming, offering and settling a batch (R134, R135, R137, R140, R143) -/

theorem permittedNow_eq_true_iff (v : State) (c : Machine.Class) : permittedNow v c = true ↔
    ∃ p, v.ulc.active = some p ∧ permittedOn v.settings c p = true := by
  rw [permittedNow]
  cases v.ulc.active <;> simp

theorem trickleMaySend_iff (v : State) : trickleMaySend v = true ↔ (v.day.store = .opened ∨ v.day.store = .closing) ∧
    v.settings.on .trickleEnable = true ∧ (∃ p, v.ulc.active = some p ∧ permittedOn v.settings .journal p = true) ∧
      v.txe.pauseEnd = none := by
  simp only [trickleMaySend, Bool.and_eq_true, Bool.or_eq_true, beq_iff_eq, permittedNow_eq_true_iff, Option.isNone_iff_eq_none, and_assoc]

/-- A batch as it is formed of the records named. -/
def formedBatch (o : BatchOwner) (members : List Nat) (v : State) : State :=
  { v with txe := { v.txe with
      batch := some
        { number := v.txe.nextBatch, members := members, owner := o, state := .sending, framesSent := 0
          firstSent := none, toOffer := members, lastSession := 0, expiry := none, retryEnd := none, accepted := false }
      nextBatch := (v.txe.nextBatch + 1) % 256 } }

/-- The size a batch of an owner may have. -/
def batchSize (v : State) : BatchOwner → Nat
  | .trickle => v.settings.nat .trickleSize
  | .night => v.settings.nat .nightSize

theorem formBatch_of_none (hm : oldestUnsent v (batchSize v o) = []) : formBatch o v = v := by
  cases o
  all_goals
    rw [batchSize] at hm
    simp only [formBatch, hm]

theorem formBatch_of_some (hm : oldestUnsent v (batchSize v o) = rest) (hsome : rest ≠ []) : formBatch o v = formedBatch o rest v := by
  obtain ⟨a, l, rfl⟩ := List.exists_cons_of_ne_nil hsome
  cases o
  all_goals
    rw [batchSize] at hm
    simp only [formBatch, hm, formedBatch]

theorem formNext_of_batch (hb : v.txe.batch.isSome) : formNext v = v := if_pos hb

theorem formNext_of_free (hb : v.txe.batch = none) : formNext v =
    if v.txe.run.state = .upload then
      if v.sjr.unsent = 0 then beginDownload .ok v
      else if v.ulc.active.isSome then formBatch .night v
      else v
    else if trickleMaySend v then formBatch .trickle v
    else v := if_neg (by simp [hb])

/-- With no batch in flight, the owner whose turn it is forms one. -/
theorem formNext_of_owner {size : Nat} (hb : v.txe.batch = none)
    (howner : o = .night ∧ v.txe.run.state = .upload ∧ v.sjr.unsent ≠ 0 ∧ v.ulc.active ≠ none ∧ size = v.settings.nat .nightSize ∨
      o = .trickle ∧ v.txe.run.state ≠ .upload ∧ trickleMaySend v = true ∧ size = v.settings.nat .trickleSize) :
    formNext v = formBatch o v ∧ batchSize v o = size := by
  rw [formNext_of_free hb]
  rcases howner with ⟨rfl, hupload, hunsent, hactive, rfl⟩ | ⟨rfl, hupload, htrickle, rfl⟩
  · rw [if_pos hupload, if_neg hunsent, if_pos (Option.isSome_iff_ne_none.2 hactive)]
    exact ⟨rfl, rfl⟩
  · rw [if_neg hupload, if_pos htrickle]
    exact ⟨rfl, rfl⟩

theorem ownerMaySend_eq_true_iff (v : State) (o : BatchOwner) : ownerMaySend v o = true ↔
    o = .night ∧ v.ulc.active ≠ none ∨ o = .trickle ∧ trickleMaySend v = true := by
  cases o <;> simp [ownerMaySend, Option.isSome_iff_ne_none]

theorem ownerMaySend_eq_false_iff (v : State) (o : BatchOwner) : ownerMaySend v o = false ↔
    o = .night ∧ v.ulc.active = none ∨ o = .trickle ∧ trickleMaySend v = false := by
  cases o <;> simp [ownerMaySend]

theorem resumeBatch_of_due (hb : v.txe.batch = some b) (hstate : b.state = .retryWait) (haccepted : b.accepted = false)
    (hretry : b.retryEnd = none) (howner : ownerMaySend v b.owner = true) : resumeBatch v = { v with txe := { v.txe with
      batch := some { b with
        state := .sending, framesSent := 0, members := b.members.filter v.sjr.holds, toOffer := b.members.filter v.sjr.holds } } } := by
  rw [resumeBatch, hb]
  exact if_pos ⟨hstate, haccepted, hretry, howner⟩

theorem resumeBatch_of_other (hb : v.txe.batch = some b) (hnot : b.state ≠ .retryWait ∨ b.accepted = true ∨ b.retryEnd ≠ none ∨
    ownerMaySend v b.owner = false) : resumeBatch v = v := by
  rw [resumeBatch, hb]
  refine if_neg ?_
  rintro ⟨hstate, haccepted, hretry, howner⟩
  rcases hnot with h | h | h | h
  · exact h hstate
  · simp [haccepted] at h
  · exact h hretry
  · simp [howner] at h

theorem offerMember_of_other (hb : v.txe.batch = some b) (hnot : b.state ≠ .sending ∨ b.accepted = true ∨ b.toOffer = []) :
    offerMember v = v := by
  unfold offerMember
  rw [hb]
  dsimp only
  split
  case h_1 m rest hstate haccepted hoffer => simp [hstate, haccepted, hoffer] at hnot
  case h_2 => rfl

theorem offerMember_of_member (hb : v.txe.batch = some b) (hstate : b.state = .sending) (haccepted : b.accepted = false)
    (hoffer : b.toOffer = m :: rest) : offerMember v =
      match v.sjr.records.find? fun r => r.seq == m with
      | none => { v with txe := { v.txe with batch := some { b with toOffer := rest, members := b.members.filter (· != m) } } }
      | some r =>
        if v.ulc.journalQ.length < 32 then
          { v with
            ulc := { v.ulc with journalQ := v.ulc.journalQ ++
              [.journalRecord b.number (b.members.idxOf m + 1) b.members.length { r with sent := none }] }
            txe := { v.txe with batch := some { b with toOffer := rest } } }
        else v := by
  simp only [offerMember, hb, hstate, haccepted, hoffer] <;> cases v.sjr.records.find? fun r => r.seq == m <;> rfl

theorem settleBatch_of_batch (hb : v.txe.batch = some b) (haccepted : b.accepted = false) : settleBatch v =
    if b.members = [] then acceptBatch v
    else if b.state = .sending ∧ b.toOffer = [] ∧ (v.ulc.journalQ.any fun f => f.inBatch b.number) = false then
      { v with txe := { v.txe with batch := some { b with
        state := .waitingAck, expiry := some { tick := v.ulc.t3.counter, session := b.lastSession } } } }
    else v := by
  rw [settleBatch, hb]
  exact if_neg (by simp [haccepted])

theorem settleBatch_of_accepted (hb : v.txe.batch = some b) (haccepted : b.accepted = true) : settleBatch v = v := by
  rw [settleBatch, hb]
  exact if_pos haccepted

end Batches

/-! ## The price file request and its pieces (R144 to R146) -/

section Files

variable {s v : State} {f : FileRequest} {c : PieceChange} {rest : List PieceChange} {number : Nat}

theorem fileRequestBusy_of_open (hf : v.txe.file = some f) (hstate : f.state = .sent) (hopen : windowOpen v f.firstSent = true) :
    fileRequestBusy v = { v with txe := { v.txe with
      file := some { f with state := .retryWait, expiry := none, retryEnd := some (v.timer + retryDelayMs v) } } } := by
  rw [fileRequestBusy, hf]
  exact (if_neg (by simp [hstate])).trans (if_pos hopen)

theorem fileRequestBusy_of_closed (hf : v.txe.file = some f) (hstate : f.state = .sent) (hclosed : windowOpen v f.firstSent = false) :
    fileRequestBusy v = endRun .failed .failed v := by
  rw [fileRequestBusy, hf]
  exact (if_neg (by simp [hstate])).trans (if_neg (by simp [hclosed]))

theorem fileRequestBusy_of_other (hf : v.txe.file = some f) (hstate : f.state ≠ .sent) : fileRequestBusy v = v := by
  rw [fileRequestBusy, hf]
  exact if_pos hstate

theorem offerFileRequest_of_room (hf : v.txe.file = some f) (hstate : f.state = .waitingRoom) (hactive : v.ulc.active ≠ none)
    (hroom : queueCount v + 32 ≤ 8192) (hqueue : v.ulc.priceQ.length < 32) : offerFileRequest v =
      { v with
        ulc := { v.ulc with priceQ := v.ulc.priceQ ++ [.fileRequest v.txe.pieceNumber (v.identity.branch.getD 0)] }
        txe := { v.txe with file := some { f with state := .queued } } } := by
  rw [offerFileRequest, hf]
  exact if_pos ⟨hstate, Option.isSome_iff_ne_none.2 hactive, hroom, hqueue⟩

theorem offerFileRequest_of_other (hf : v.txe.file = some f) (hnot : f.state ≠ .waitingRoom ∨ v.ulc.active = none ∨
    8192 < queueCount v + 32 ∨ 32 ≤ v.ulc.priceQ.length) : offerFileRequest v = v := by
  rw [offerFileRequest, hf]
  refine if_neg ?_
  rintro ⟨hstate, hactive, hroom, hqueue⟩
  rcases hnot with h | h | h | h
  · exact h hstate
  · simp [h] at hactive
  · exact Nat.not_le.2 h hroom
  · exact Nat.not_lt.2 h hqueue

theorem feedOne_of_other (hf : v.txe.file = some f) (hnot : f.state ≠ .feeding ∨ f.awaiting = true) : feedOne v = v := by
  rw [feedOne, hf]
  refine if_neg ?_
  rintro ⟨hstate, hawaiting⟩
  exact hnot.elim (· hstate) fun h => Bool.false_ne_true (hawaiting.symm.trans h)

theorem feedOne_of_empty (hf : v.txe.file = some f) (hstate : f.state = .feeding) (hawaiting : f.awaiting = false)
    (hfeed : f.feed = []) : feedOne v = finishPiece f v := by
  simp only [feedOne, hf, hstate, hawaiting, hfeed, and_self, if_true]

theorem feedOne_of_change (hf : v.txe.file = some f) (hstate : f.state = .feeding) (hawaiting : f.awaiting = false)
    (hfeed : f.feed = c :: rest) : feedOne v =
      drainAll (queueWork (.change (nightChange c)) (putFile (some { f with feed := rest, awaiting := true }) v)) := by
  simp only [feedOne, hf, hstate, hawaiting, hfeed, and_self, if_true]

theorem finishPiece_of_more (hlast : f.last = false) (hnumber : v.txe.pieceNumber < 65535) : finishPiece f v =
    { v with txe := { v.txe with
      file := some { f with state := .waitingRoom, firstSent := none }, pieceNumber := v.txe.pieceNumber + 1 } } := by
  rw [finishPiece, if_neg (by simp [hlast])]
  exact if_pos hnumber

theorem finishPiece_of_end (hlast : f.last = false) (hnumber : 65535 ≤ v.txe.pieceNumber) :
    finishPiece f v = endRun .failed .failed v := by
  rw [finishPiece, if_neg (by simp [hlast])]
  exact if_neg (Nat.not_lt.2 hnumber)

theorem nightAnswer_of_awaiting (hf : v.txe.file = some f) (hstate : f.state = .feeding) (hawaiting : f.awaiting = true) (accepted : Bool) :
    nightAnswer accepted v = { v with txe := { v.txe with
      file := some { f with awaiting := false }
      run := { v.txe.run with rejected := v.txe.run.rejected + if accepted then 0 else 1 } } } := by
  rw [nightAnswer, hf]
  exact if_pos ⟨hstate, hawaiting⟩

theorem queueCount_eq (v : State) : queueCount v = v.pbk.queue.length + v.pbk.ops.countP fun o => match o.action with
    | .upsert e => v.pbk.queue.all fun q => q.item != e.item
    | .remove _ => false := by
  rw [queueCount]
  refine congrArg (v.pbk.queue.length + ·) (List.countP_congr fun o _ => ?_)
  cases o.action with
  | upsert e => simp [List.not_any_eq_all_not, bne]
  | remove item => rfl

end Files

/-! ## The night run (R143, R147, R148) -/

section Runs

variable {v : State}

theorem abortNow_of_upload (hrun : v.txe.run.state = .upload) : abortNow v = endRun .aborted .skipped v := by
  rw [abortNow, hrun]

theorem abortNow_of_download (hrun : v.txe.run.state = .download) : abortNow v = endRun .failed .aborted v := by
  rw [abortNow, hrun]

theorem abortNow_of_not_going (hrun : v.txe.run.state.going = false) : abortNow v = v := by
  unfold abortNow
  split
  case h_1 h => simp [h, RunState.going] at hrun
  case h_2 h => simp [h, RunState.going] at hrun
  case h_3 => rfl

theorem settleAbort_of_other (hnot : v.txe.abortDue = false ∨ replyPending v = true) : settleAbort v = v := by
  refine if_neg ?_
  rintro ⟨hdue, hpending⟩
  rcases hnot with h | h
  · simp [h] at hdue
  · simp [h] at hpending

theorem replyPending_iff (v : State) : replyPending v = true ↔ v.txe.run.state.going = true ∧
    ((∃ w, v.sjr.removing = some w ∧ w.req.counts = true) ∨ (∃ q ∈ v.sjr.removals, q.counts = true) ∨
      ∃ f, v.txe.file = some f ∧ f.state = .feeding) := by
  rw [replyPending, Bool.and_eq_true, Bool.or_eq_true, Bool.or_eq_true, or_assoc, List.any_eq_true]
  refine and_congr Iff.rfl (or_congr ?_ (or_congr Iff.rfl ?_))
  · cases v.sjr.removing <;> simp
  · cases v.txe.file <;> simp

theorem endRun_eq {up down : PhaseResult} {y z : State} (hy : abortBatch { v with txe := { v.txe with run := { v.txe.run with
      download := some down, upload := some (v.txe.run.upload.getD up) } } } = y)
    (hz : { y with
      ulc := { y.ulc with priceQ := y.ulc.priceQ.filter fun f => !f.isFileRequest }
      txe := { y.txe with
        file := none, run := { y.txe.run with endTime := some y.clock0, state := .ended } } } = z) :
    endRun up down v = notify
      (.nightReport z.txe.run z.sjr.unsent z.pbk.queue.length
        { aborts := z.txe.counts.aborts - z.txe.runBase.aborts
          lateAcks := z.txe.counts.lateAcks - z.txe.runBase.lateAcks
          latePieces := z.txe.counts.latePieces - z.txe.runBase.latePieces }) z := by
  subst hz hy
  rfl

end Runs

/-! ## Replies and expiries (R105, R126, R128, R136, R137, R145, R146) -/

section Events

variable {s u v w : State} {p : Path} {b : Batch} {f : FileRequest} {number batch first last x n : Nat}

theorem sequenceFits_pair (hfirst : 1 ≤ first) (hfirst' : first ≤ 4294967295) (hlast : 1 ≤ last) (hlast' : last ≤ 4294967295) :
    (sequenceFits first && sequenceFits last) = true := by
  rw [Bool.and_eq_true, sequenceFits_iff, sequenceFits_iff]
  exact ⟨⟨hfirst, hfirst'⟩, hlast, hlast'⟩

theorem sequenceFits_pair_eq_false (hbad : first = 0 ∨ 4294967295 < first ∨ last = 0 ∨ 4294967295 < last) :
    (sequenceFits first && sequenceFits last) = false := by
  rw [← Bool.not_eq_true, Bool.and_eq_true, sequenceFits_iff, sequenceFits_iff]
  omega

theorem takeAccepted_of_own (hb : u.txe.batch = some b) (hnumber : b.number = batch) : takeAccepted batch first last u =
    askRemoval { first := first, last := last, batch := some batch, counts := u.txe.run.state.going }
      { u with txe := { u.txe with batch := some { b with accepted := true, expiry := none, retryEnd := none } } } := by
  have hmarked : markAccepted u =
      { u with txe := { u.txe with batch := some { b with accepted := true, expiry := none, retryEnd := none } } } := by
    rw [markAccepted, hb]
    rfl
  simp only [takeAccepted, hb, hnumber, hmarked, if_true]

theorem takeAccepted_of_late (hnot : ∀ b, u.txe.batch = some b → b.number ≠ batch) : takeAccepted batch first last u =
    askRemoval { first := first, last := last, batch := none, counts := u.txe.run.state.going }
      { u with txe := { u.txe with counts := { u.txe.counts with lateAcks := u.txe.counts.lateAcks + 1 } } } := by
  unfold takeAccepted
  dsimp only
  split
  case h_1 b hb => exact if_neg (hnot b hb)
  case h_2 => rfl

theorem takeBatchBusy_of_own (hb : u.txe.batch = some b) (hnumber : b.number = batch) : takeBatchBusy batch u = batchBusy u := by
  rw [takeBatchBusy, hb]
  exact if_pos hnumber

theorem takeBatchBusy_of_other (hnot : ∀ b, u.txe.batch = some b → b.number ≠ batch) : takeBatchBusy batch u = u := by
  unfold takeBatchBusy
  split
  case h_1 b hb => exact if_neg (hnot b hb)
  case h_2 => rfl

/-- A reply of the transfer's on an UP path. -/
theorem routed_reply {fits : Bool} {g : State → State} (hrun : s.running = true) (hup : (s.ulc.path p).state = .up)
    (hfits : fits = true) (hu : wake .headOffice s = u) (hg : g u = v) : event (routeReply p fits g) s = .next (finish v) := by
  subst hu hg
  exact event_takes hrun (routeReply_of_fits hup hfits)

theorem expireDue_t3 (v : State) : expireDue .t3 v = expireFile (expireBatch v) := rfl

theorem expireBatch_eq (v : State) : expireBatch v =
    if (v.txe.batch.bind (·.expiry)).any (fun e => expired v.ulc.t3.counter e.tick) = true then batchBusy v else v := by
  rw [expireBatch, dueTick_eq_any]
  have hsame : (v.txe.batch.bind fun b => b.expiry.map (·.tick)).any (expired (v.ulc.ticks .t3).counter) =
      (v.txe.batch.bind (·.expiry)).any fun e => expired v.ulc.t3.counter e.tick := by
    cases v.txe.batch with
    | none => rfl
    | some b => cases hb : b.expiry <;> simp [hb, Ulc.ticks]
  rw [hsame]

theorem expireFile_eq (v : State) : expireFile v =
    if (v.txe.file.bind (·.expiry)).any (fun e => expired v.ulc.t3.counter e.tick) = true then fileRequestBusy v else v := by
  rw [expireFile, dueTick_eq_any]
  have hsame : (v.txe.file.bind fun f => f.expiry.map (·.tick)).any (expired (v.ulc.ticks .t3).counter) =
      (v.txe.file.bind (·.expiry)).any fun e => expired v.ulc.t3.counter e.tick := by
    cases v.txe.file with
    | none => rfl
    | some f => cases hf : f.expiry <;> simp [hf, Ulc.ticks]
  rw [hsame]

/-- An expiry of the batch or of the request comes with its ticks. -/
theorem bringOn_t3_of_armed {e : Option Tick} {k : Tick} (he : e = some k) (hn : 4 - (s.ulc.t3.counter - k).toNat = n)
    (hon : (periodMs s.settings .t3).isSome) : bringOn .t3 e s = tickTimes .t3 n (expireDue .t3 s) := by
  subst hn
  exact bringOn_of_armed he hon

theorem exec_piece_of_fits {last : Bool} {changes : List PieceChange} (hrun : s.running = true) (hup : (s.ulc.path p).state = .up)
    (hu : wake .headOffice s = u) (hfits : changes.length ≤ 32) (hv : takePieceReply number last changes u = v) :
    exec (.piece p number last changes) s = .next (finish v) := by
  subst hu hv
  refine event_takes (s := s) hrun ((inbound_of_up hup).trans (if_neg ?_))
  exact Nat.not_lt.2 hfits

theorem exec_piece_of_long {last : Bool} {changes : List PieceChange} (hrun : s.running = true) (hup : (s.ulc.path p).state = .up)
    (hlong : 32 < changes.length) : exec (.piece p number last changes) s = .next (finish (linkError s)) :=
  event_takes (s := s) hrun ((inbound_of_up hup).trans (if_pos hlong))

theorem takePieceReply_of_answer {last : Bool} {changes : List PieceChange} (hf : answersRequest u number = some f) :
    takePieceReply number last changes u =
      { u with
        ulc := { u.ulc with priceQ := u.ulc.priceQ.filter fun x => !x.isFileRequest }
        txe := { u.txe with
          file := some { f with
            state := .feeding, expiry := none, retryEnd := none, feed := changes, last := last, awaiting := false }
          run := { u.txe.run with received := u.txe.run.received + changes.length } } } := by
  rw [takePieceReply, hf]
  rfl

theorem takePieceReply_of_late {last : Bool} {changes : List PieceChange} (hnone : answersRequest u number = none) :
    takePieceReply number last changes u = countLatePiece u := by
  rw [takePieceReply, hnone]

theorem takeNoFile_of_answer (hsome : (answersRequest u number).isSome) : takeNoFile number u = endRun .failed .ok u := by
  obtain ⟨f, hf⟩ := Option.isSome_iff_exists.1 hsome
  rw [takeNoFile, hf]

theorem takeNoFile_of_late (hnone : answersRequest u number = none) : takeNoFile number u = countLatePiece u := by
  rw [takeNoFile, hnone]

theorem exec_batchRetryDelayEnd (hrun : s.running = true) (hb : s.txe.batch = some b) (hx : b.retryEnd = some x) (hv : advanceTo x s = v) :
    exec .batchRetryDelayEnd s = .next (finish { v with txe := { v.txe with batch := some { b with retryEnd := none } } }) := by
  show execBatchRetryDelayEnd s = _
  unfold execBatchRetryDelayEnd
  refine event_takes hrun ?_
  simp only [hb, hx, hv]
  rfl

theorem exec_batchRetryDelayEnd_of_not (hrun : s.running = true) (hnot : ∀ b, s.txe.batch = some b → b.retryEnd = none) :
    exec .batchRetryDelayEnd s = .next (finish s) := by
  show execBatchRetryDelayEnd s = _
  unfold execBatchRetryDelayEnd
  refine event_takes hrun ?_
  cases hb : s.txe.batch with
  | none => rfl
  | some b => simp only [hnot b hb]

theorem exec_tricklePauseEnd (hrun : s.running = true) (hx : s.txe.pauseEnd = some x) (hv : advanceTo x s = v) :
    exec .tricklePauseEnd s = .next (finish { v with txe := { v.txe with pauseEnd := none } }) := by
  show execTricklePauseEnd s = _
  unfold execTricklePauseEnd
  refine event_takes hrun ?_
  simp only [hx, hv]

theorem exec_tricklePauseEnd_of_not (hrun : s.running = true) (hnone : s.txe.pauseEnd = none) :
    exec .tricklePauseEnd s = .next (finish s) := by
  show execTricklePauseEnd s = _
  unfold execTricklePauseEnd
  refine event_takes hrun ?_
  rw [hnone]

theorem exec_fileRetryDelayEnd (hrun : s.running = true) (hf : s.txe.file = some f) (hstate : f.state = .retryWait)
    (hx : f.retryEnd = some x) (hv : advanceTo x s = v) : exec .fileRetryDelayEnd s = .next (finish { v with txe := { v.txe with
      file := some { f with state := .waitingRoom, retryEnd := none } } }) := by
  show execFileRetryDelayEnd s = _
  unfold execFileRetryDelayEnd
  refine event_takes hrun ?_
  simp only [hf, hstate, hx, hv]
  rfl

theorem exec_fileRetryDelayEnd_of_not (hrun : s.running = true)
    (hnot : ∀ f, s.txe.file = some f → f.state ≠ .retryWait ∨ f.retryEnd = none) : exec .fileRetryDelayEnd s = .next (finish s) := by
  show execFileRetryDelayEnd s = _
  unfold execFileRetryDelayEnd
  refine event_takes hrun ?_
  cases hf : s.txe.file with
  | none => rfl
  | some f =>
    dsimp only
    split
    case h_1 x hstate hx => simpa [hstate, hx] using hnot f hf
    case h_2 => rfl

end Events

/-- Settles O56: replies and expiries by what they find in flight, the run's end, and each step of forming, offering and feeding by its
case. -/
theorem transferEventsTaken : Obligations.TransferEventsTaken := by
  unfold Obligations.TransferEventsTaken
  refine ⟨fun s u p hrun hu => ⟨fun hup => ⟨fun batch first last h1 h2 h3 h4 => ⟨fun b hb hnumber => ?_, fun hnot => ?_⟩,
      fun batch first last hbad => ?_, fun batch => ⟨fun b hb hnumber => ?_, fun hnot => ?_⟩, fun number last changes hlong => ?_,
      fun number last changes hfits => ⟨fun f hf => ?_, fun hnone => ?_⟩, fun number hsome => ?_, fun number hnone => ?_,
      fun number hnumber => ?_, fun number hnumber => ?_⟩, fun v b hb => ⟨batchBusy_of_open hb, batchBusy_of_closed hb, batchBusy_of_other hb⟩,
      fun v f hf => ⟨fileRequestBusy_of_open hf, fileRequestBusy_of_closed hf, fileRequestBusy_of_other hf⟩,
      fun v q => ⟨fun hsome => if_pos hsome, askRemoval_of_empty, askRemoval_of_held⟩, fun v w hw => ?_,
      fun v => ⟨abortNow_of_upload, abortNow_of_download, abortNow_of_not_going, fun hdue hpending => if_pos ⟨hdue, hpending⟩,
        settleAbort_of_other, rfl, replyPending_iff v⟩,
      fun b e n hb he hn hon => ?_, fun hnot => ?_, fun b x v hb hx hv => exec_batchRetryDelayEnd hrun hb hx hv,
      exec_batchRetryDelayEnd_of_not hrun, fun x v hx hv => exec_tricklePauseEnd hrun hx hv, exec_tricklePauseEnd_of_not hrun,
      fun f e n hf he hn hon => ?_, fun hnot => ?_, fun f x v hf hstate hx hv => exec_fileRetryDelayEnd hrun hf hstate hx hv,
      exec_fileRetryDelayEnd_of_not hrun⟩, fun v => ?_, fun v => ?_, fun v => ?_⟩
  · exact routed_reply hrun hup (sequenceFits_pair h1 h2 h3 h4) hu (takeAccepted_of_own hb hnumber)
  · exact routed_reply hrun hup (sequenceFits_pair h1 h2 h3 h4) hu (takeAccepted_of_late hnot)
  · exact event_takes hrun (routeReply_of_unfit hup (sequenceFits_pair_eq_false hbad))
  · exact routed_reply hrun hup rfl hu (takeBatchBusy_of_own hb hnumber)
  · exact routed_reply hrun hup rfl hu (takeBatchBusy_of_other hnot)
  · exact exec_piece_of_long hrun hup hlong
  · exact exec_piece_of_fits hrun hup hu hfits (takePieceReply_of_answer hf)
  · exact exec_piece_of_fits hrun hup hu hfits (takePieceReply_of_late hnone)
  · exact routed_reply hrun hup rfl hu (takeNoFile_of_answer hsome)
  · exact routed_reply hrun hup rfl hu (takeNoFile_of_late hnone)
  · exact routed_reply hrun hup rfl hu (if_pos hnumber)
  · exact routed_reply hrun hup rfl hu (if_neg hnumber)
  · rw [expireDue_t3, expireBatch_eq, hw, expireFile_eq]
  · refine event_takes hrun (bringOn_t3_of_armed (k := e.tick) ?_ hn hon)
    simp [hb, he]
  · refine event_takes hrun (bringOn_of_not (hnot.imp_left fun hnone => ?_))
    cases hb : s.txe.batch with
    | none => rfl
    | some b => simp [hnone b hb]
  · refine event_takes hrun (bringOn_t3_of_armed (k := e.tick) ?_ hn hon)
    simp [hf, he]
  · refine event_takes hrun (bringOn_of_not (hnot.imp_left fun hnone => ?_))
    cases hf : s.txe.file with
    | none => rfl
    | some f => simp [hnone f hf]
  · refine ⟨abortBatch_of_none, fun b hb => abortBatch_of_batch hb, rfl, ⟨rfl, windowOpen_some v⟩, fun result => rfl,
      fun hrun => if_pos ⟨rfl, hrun⟩, fun o => failUpload_of_other, fun up down y z => endRun_eq,
      fun q n y hy => ⟨fun b hq hb => ?_, removalTold_of_other hy⟩⟩
    obtain ⟨htold, hbatch⟩ := removalTold_of_batch hy hq hb
    rw [htold, acceptBatch_of_batch hbatch]
    rfl
  · refine ⟨trickleMaySend_iff v, formNext_of_batch, fun hb => ⟨fun hupload hunsent => ?_, fun hupload hunsent hactive => ?_,
      fun o size members howner hm => ?_, fun hupload htrickle => ?_⟩, fun hb => ⟨?_, ?_, ?_⟩, fun b hb => ⟨fun held hheld =>
      ⟨fun hstate haccepted hretry howner => ?_, fun hnot => ?_⟩, offerMember_of_other hb,
      fun m rest hstate haccepted hoffer => ⟨fun hgone => ?_,
      fun r hr => ⟨fun hroom => ?_, fun hfull => ?_⟩⟩, settleBatch_of_accepted hb, fun haccepted hnone => ?_,
      fun haccepted hsome => ⟨fun hstate hoffer hqueue => ?_, fun hnot => ?_⟩⟩⟩
    · rw [formNext_of_free hb, if_pos hupload, if_pos hunsent]
    · rw [formNext_of_free hb, if_pos hupload, if_neg hunsent, if_neg (by simp [hactive])]
    · obtain ⟨hform, hsize⟩ := formNext_of_owner hb howner
      have hmembers : oldestUnsent v (batchSize v o) = members := by
        rw [hsize]
        exact hm
      rw [hform]
      exact ⟨fun hnone => formBatch_of_none (hmembers.trans hnone), formBatch_of_some hmembers⟩
    · rw [formNext_of_free hb, if_neg hupload, if_neg (by simp [htrickle])]
    · rw [resumeBatch, hb]
    · rw [offerMember, hb]
    · rw [settleBatch, hb]
    · subst hheld
      exact resumeBatch_of_due hb hstate haccepted hretry ((ownerMaySend_eq_true_iff v b.owner).2 howner)
    · rw [← ownerMaySend_eq_false_iff] at hnot
      exact resumeBatch_of_other hb hnot
    · have hnone : v.sjr.records.find? (fun r => r.seq == m) = none := List.find?_eq_none.2 fun r hr => by simp [hgone r hr]
      rw [offerMember_of_member hb hstate haccepted hoffer, hnone]
    · rw [offerMember_of_member hb hstate haccepted hoffer, hr]
      exact if_pos hroom
    · rw [offerMember_of_member hb hstate haccepted hoffer, hr]
      exact if_neg (Nat.not_lt.2 hfull)
    · rw [settleBatch_of_batch hb haccepted, if_pos hnone, acceptBatch_of_batch hb]
      rfl
    · rw [settleBatch_of_batch hb haccepted, if_neg hsome, if_pos ⟨hstate, hoffer, List.any_eq_false.2 fun f hf => by simp [hqueue f hf]⟩]
    · rw [settleBatch_of_batch hb haccepted, if_neg hsome, if_neg]
      rintro ⟨hstate, hoffer, hqueue⟩
      rcases hnot with h | h | ⟨f, hf, hin⟩
      · exact h hstate
      · exact h hoffer
      · exact List.any_eq_false.1 hqueue f hf hin
  · refine ⟨fun hnone => ⟨?_, ?_⟩, fun f hf => ⟨offerFileRequest_of_room hf, offerFileRequest_of_other hf, feedOne_of_other hf,
      fun hstate hawaiting => ⟨fun c rest hfeed => ?_, fun hfeed hlast => ?_, fun hfeed hlast hnumber => ?_, fun hfeed hlast hnumber => ?_⟩,
      fun accepted hstate hawaiting => nightAnswer_of_awaiting hf hstate hawaiting accepted⟩, queueCount_eq v⟩
    · rw [offerFileRequest, hnone]
    · rw [feedOne, hnone]
    · exact feedOne_of_change hf hstate hawaiting hfeed
    · rw [feedOne_of_empty hf hstate hawaiting hfeed]
      exact if_pos hlast
    · rw [feedOne_of_empty hf hstate hawaiting hfeed]
      exact finishPiece_of_more hlast hnumber
    · rw [feedOne_of_empty hf hstate hawaiting hfeed]
      exact finishPiece_of_end hlast hnumber

end Sys2Proof.Proofs
end
